-- ==== Sys2Proof/Word.lean ====
section
/-! DEFINITION. The word types of 00_scope R10: unsigned words of a stated width. -/

namespace Sys2Proof

abbrev Byte := BitVec 8
abbrev U4 := BitVec 4
abbrev U16 := BitVec 16
abbrev U32 := BitVec 32
abbrev U64 := BitVec 64
/-- `i32`: two's complement, held as its 32 bits and read with `BitVec.toInt`. -/
abbrev I32 := BitVec 32

/-- Sparse contents of an array: (index, value) pairs, in the canonical form of `Store.wf`. -/
abbrev Store (α : Type) := List (Nat × α)

/-- A byte memory: `Host.Cell` pairs. -/
abbrev Memory := Store Byte

end Sys2Proof
end

