-- ==== Sys2Proof/Config.lean ====
section
/-! DEFINITION. What an implementation fixes (00_scope R9) and the free values of the model. -/

namespace Sys2Proof

/-- 00_scope R9, OVERSHOOT_POLICY: a decoder copy that passes a known size. -/
inductive Overshoot
  | truncate
  | corrupt
  deriving DecidableEq, Repr

/-- 00_scope R9, PRICE_REFRESH: the lineage's cadence of price refreshes, or any other, which the
free value `Config.freeRefresh` then chooses (43_length_coder R171; 92_eei_decisions D19; log 7). -/
inductive PriceRefresh
  | sdk
  | other
  deriving DecidableEq, Repr

/-- The named parameters of 00_scope R9 (log 7): MAX_IN_LEN and OUT_CAP are computed from these. -/
structure Params where
  /-- IN_MEM_BYTES -/
  inMemBytes : Nat
  /-- OUT_MEM_BYTES -/
  outMemBytes : Nat
  /-- MAX_DICT_SIZE -/
  maxDictSize : U32
  /-- the reset value of CTRL.WRITE_END_MARKER -/
  writeEndMarker : Bool
  /-- OVERSHOOT_POLICY -/
  overshoot : Overshoot
  /-- PRICE_REFRESH -/
  priceRefresh : PriceRefresh
  deriving DecidableEq, Repr

/-- R9: IN_MEM_BYTES is at least 13. -/
def Params.wf (p : Params) : Bool := decide (13 ≤ p.inMemBytes)

/-- The defaults of 00_scope R9. IN_MEM_BYTES and OUT_MEM_BYTES have no default there:
DESIGN CHOICE 2^32 bytes each, the whole index space (unsafe, log 7). -/
def Params.default : Params where
  inMemBytes := 4294967296
  outMemBytes := 4294967296
  maxDictSize := 100000000#32
  writeEndMarker := true
  overshoot := .truncate
  priceRefresh := .sdk

/-- Free value: the byte a read outside the valid bytes of IN (20_memory R63) or outside the
output window (47_output_window R303) gives, and what a host write to OUT while BUSY leaves
(70_reset_and_hazards R346, log 24); read at `State.freeCount` and the index (log 8). -/
opaque Config.freeByte : Nat → Int → Byte

/-- Free value: an entry of ProbPrice past its 512 entries (41_bit_tree R141, R142), reached only
from a cell outside 31..2017 (log 9). -/
opaque Config.freePrice : Nat → U32

/-- Free value: whether a price table is refreshed at a refresh point when PRICE_REFRESH is not SDK;
read at `State.freeCount` and the point (log 7). -/
opaque Config.freeRefresh : Nat → Nat → Bool

end Sys2Proof
end

