-- ==== Sys2Proof/Machine/Tables.lean ====
section
/-! DEFINITION. The constant tables and the functions read from them: ProbPrice (41_bit_tree R141),
CRC (44_match_finder R183), FastPos and the distance slots (46_codec R262..R265), the level table
(00_scope R7) and the format constants (00_scope R8). -/

namespace Sys2Proof.Machine

/-- PROB_INIT (R8). -/
def probInit : U16 := 1024#16

/-- kTopValue (R8): 2^24. -/
def kTopValue : U32 := 0x01000000#32

/-- kInfinityPrice (R8, R16). -/
def kInfinityPrice : U32 := 0x0FFFFFFF#32

/-- kMaxDistanceMarker (R8): the end-marker distance. -/
def kEndMarker : U32 := 0xFFFFFFFF#32

/-- `ProbPrice[j]` of R141 in closed form: entry `j` of segment `i = 8 - log2 j`. Past the table a
free value (log 9). `Laws/Tables.lean` proves it equal to the table the loop of R141 fills. -/
def probPrice (j : Nat) : U32 :=
  if j = 0 then 0#32
  else if j < 512 then
    BitVec.ofNat 32 (((8 - Nat.log2 j) <<< 6) +
      (((2 ^ (Nat.log2 j + 1) - j) <<< 6) >>> Nat.log2 j))
  else Config.freePrice j

/-- One step of the CRC loop of R183. -/
def crcStep (r : U32) : U32 :=
  if r.getLsbD 0 then (r >>> 1) ^^^ 0xEDB88320#32 else r >>> 1

def iterate {α : Type} (f : α → α) : Nat → α → α
  | 0, a => a
  | n + 1, a => iterate f n (f a)

/-- `CRC[i]` (R183). -/
def crc (i : Byte) : U32 := iterate crcStep 8 (i.setWidth 32)

/-- The slot of `d` (R263, second form): `d` below 4, else twice the place of the top bit plus
the bit below it. On `d < 2048` it is `FastPos[d]` (R262), as `Laws/Tables.lean` proves. -/
def slotOf (d : Nat) : Nat :=
  if d < 4 then d
  else 2 * Nat.log2 d + (d >>> (Nat.log2 d - 1)) % 2

/-- `FastPos[i]` (R262), `i < 2048`. -/
def fastPos (i : Nat) : Nat := slotOf i

/-- POS_SLOT (R263); at and above 2^31 the slots of R265. -/
def posSlotOf (d : U32) : U32 :=
  if d < 0x800#32 then BitVec.ofNat 32 (fastPos d.toNat)
  else if d < 0x200000#32 then BitVec.ofNat 32 (fastPos (d >>> 10).toNat) + 20#32
  else BitVec.ofNat 32 (fastPos (d >>> 20).toNat) + 40#32

/-- POS_SLOT2 (R264). -/
def posSlot2Of (d : U32) : U32 :=
  if d < 0x20000#32 then BitVec.ofNat 32 (fastPos (d >>> 6).toNat) + 12#32
  else if d < 0x8000000#32 then BitVec.ofNat 32 (fastPos (d >>> 16).toNat) + 32#32
  else BitVec.ofNat 32 (fastPos (d >>> 26).toNat) + 52#32

/-- `footerBits` of a slot `≥ 4` (R265). -/
def footerBits (slot : U32) : Nat := (slot >>> 1).toNat - 1

/-- `baseVal` of a slot `≥ 4` (R265). -/
def slotBase (slot : U32) : U32 := (2#32 ||| (slot &&& 1#32)) <<< footerBits slot

/-- LEN_TO_POS_STATE (46_codec R255): `min(len - 2, 3)`. -/
def lenToPosStateOf (len : U32) : U32 :=
  if len - 2#32 < 3#32 then len - 2#32 else 3#32

/-- A row of the level table (R7). -/
structure LevelRow where
  searchDepth : Nat
  fastBytes : BitVec 9
  bt4 : Bool
  deriving DecidableEq, Repr

/-- The level table (R7); none outside 1..9. -/
def levelRow (level : U4) : Option LevelRow :=
  match level.toNat with
  | 1 => some ⟨16, 64, false⟩
  | 2 => some ⟨20, 64, false⟩
  | 3 => some ⟨19, 64, true⟩
  | 4 => some ⟨20, 64, true⟩
  | 5 => some ⟨21, 128, true⟩
  | 6 => some ⟨22, 128, true⟩
  | 7 => some ⟨23, 128, true⟩
  | 8 => some ⟨24, 255, true⟩
  | 9 => some ⟨25, 255, true⟩
  | _ => none

end Sys2Proof.Machine
end

