-- ==== Sys2Proof/Syntax.lean ====
section
/-! DEFINITION. The instructions: one constructor per row of spec/opcode_table.json, with the
operands of the row's rule, and the three kinds of code that spell them (30_encoding). -/

namespace Sys2Proof

/-- The two length coders of 43_length_coder: `C` in its rules. -/
inductive LenSel
  | matchLen
  | repLen
  deriving DecidableEq, Repr

/-- The probability arrays of 10_state R36 and R37. -/
inductive ProbArray
  | isMatch
  | isRep
  | isRepG0
  | isRepG1
  | isRepG2
  | isRep0Long
  | posSlot
  | posModels
  | posAlign
  | literal
  | lenChoice (c : LenSel)
  | lenLow (c : LenSel)
  | lenMid (c : LenSel)
  | lenHigh (c : LenSel)
  deriving DecidableEq, Repr

/-- A reference to a probability cell `P[i]`, or a tree base `T` (30_encoding R102). A tree base
may be -1 (the posModels tree of slot 4, 30_encoding R94), so the index is read modulo 2^32. -/
structure CellRef where
  arr : ProbArray
  idx : U32
  deriving DecidableEq, Repr

inductive Instr
  -- 40_range_coder
  | rcEncInit
  | rcEncBit (p : CellRef) (bit : Bool)
  | rcShiftLow
  | rcEncDirect (value : U32) (n : Byte)
  | rcEncFlush
  | rcDecInit
  | rcDecBit (p : CellRef)
  | rcDecDirect (n : Byte)
  | rcPriceBit (p : U16) (bit : Bool)
  -- 41_bit_tree
  | btEnc (t : CellRef) (n : Byte) (sym : Byte)
  | btDec (t : CellRef) (n : Byte)
  | btPrice (t : CellRef) (n : Byte) (sym : Byte)
  | btRenc (t : CellRef) (n : Byte) (sym : Byte)
  | btRdec (t : CellRef) (n : Byte)
  | btRprice (t : CellRef) (n : Byte) (sym : Byte)
  | btInit (a : CellRef) (k : U32)
  -- 42_literal_coder: a block L is named by its index c (R150)
  | litSelect (pos : U64) (prevByte : Byte)
  | litEnc (c : U16) (sym : Byte)
  | litEncMatched (c : U16) (matchByte : Byte) (sym : Byte)
  | litDec (c : U16)
  | litDecMatched (c : U16) (matchByte : Byte)
  | litPrice (c : U16) (matchMode : Bool) (matchByte : Byte) (sym : Byte)
  -- 43_length_coder
  | lenEnc (c : LenSel) (k : U16) (ps : Byte)
  | lenDec (c : LenSel) (ps : Byte)
  | lenSetPrices (c : LenSel) (ps : Byte)
  | lenPrice (c : LenSel) (k : U16) (ps : Byte)
  | lenEncCounted (c : LenSel) (k : U16) (ps : Byte)
  -- 44_match_finder
  | mfInit
  | mfHash (cur : U32)
  | mfAvail
  | mfIndexByte (k : I32)
  | mfMovePos
  | mfMatchLen (k : I32) (d : U32) (limit : U32)
  | mfGetMatches
  | mfTreeWalk (curMatch : U32) (lenLimit : U32) (emit : Bool)
  | mfSkip (n : U32)
  -- 45_optimal_parser
  | optGetOptimum (position : U32)
  | optReadMatchDistances
  | optMovePos (n : U32)
  | optBackward (cur : U32)
  | optRepLen1Price (st : Byte) (ps : Byte)
  | optPureRepPrice (i : Byte) (st : Byte) (ps : Byte)
  | optRepPrice (i : Byte) (len : U16) (st : Byte) (ps : Byte)
  | optPosLenPrice (d : U32) (len : U16) (ps : Byte)
  | optFillDist
  | optFillAlign
  -- 46_codec, automaton, reps and slots
  | stChar (s : Byte)
  | stMatch (s : Byte)
  | stRep (s : Byte)
  | stShortrep (s : Byte)
  | stIsChar (s : Byte)
  | lenToPosState (len : U32)
  | repsPush (d : U32)
  | repsPromote (i : Byte)
  | posSlot (d : U32)
  | posSlot2 (d : U32)
  -- 46_codec, sequencer
  | codecEncHeader
  | codecDecHeader
  | codecEncLit
  | codecEncMatch (len : U16) (d : U32)
  | codecEncRep (i : Byte) (len : U16)
  | codecEncEos
  | codecEncDistance (d : U32) (len : U16)
  | codecEncBlock
  | codecDecDistance (len : U16)
  | codecDecPacket
  | codecCheckDist
  | codecDecEarlyEndCheck
  | codecCopy (len : U16)
  -- 47_output_window
  | owInit (n : U32)
  | owPut (b : Byte)
  | owCopy (d : U32) (n : U32)
  | owGet (d : U32)
  | owFlush
  -- host commands: a write to CTRL (10_state R21, 30_encoding R100)
  | nop (irqEn : Bool) (writeEndMarker : Bool)
  | reset (irqEn : Bool) (writeEndMarker : Bool)
  | encode (irqEn : Bool) (writeEndMarker : Bool)
  | decode (irqEn : Bool) (writeEndMarker : Bool)
  /-- reserved OP values 4..7; `op` is OP - 4 -/
  | ctrlReserved4 (op : BitVec 2) (irqEn : Bool) (writeEndMarker : Bool)
  /-- reserved OP values 8..15; `op` is OP - 8 -/
  | ctrlReserved8 (op : BitVec 3) (irqEn : Bool) (writeEndMarker : Bool)
  -- stream packets (30_encoding R85..R92)
  | lit (b : Byte)
  | matchDist (len : U16) (d : U32)
  | shortrep
  | longrep0 (len : U16)
  | longrep1 (len : U16)
  | longrep2 (len : U16)
  | longrep3 (len : U16)
  | eos
  deriving DecidableEq, Repr

/-- What spells an instruction: a word written to CTRL (30_encoding R100), a micro-op's bytes
(R101, R102; operand bytes: log 3), or a packet's decisions in stream order (R85..R94, log 5). -/
inductive Code
  | ctrl (w : U32)
  | micro (bytes : List Byte)
  | packet (decisions : List Bool)
  deriving DecidableEq, Repr

/-- Why a code spells no instruction. -/
inductive Reject
  /-- 30_encoding R103: the id is unassigned -/
  | unassignedMicroOp
  /-- the operand bytes, or a packet's decisions, end early -/
  | truncatedCode
  /-- an operand outside the values its rule gives it -/
  | operandOutOfRange
  deriving DecidableEq, Repr

end Sys2Proof
end

