-- ==== Sys2Proof/WellFormed.lean ====
section
/-! DEFINITION. The operand ranges the rules give each instruction. -/

namespace Sys2Proof

/-- Cells of each array (10_state R36, R37; literal: 42_literal_coder R151's largest). -/
def ProbArray.size : ProbArray → Nat
  | .isMatch => 192
  | .isRep => 12
  | .isRepG0 => 12
  | .isRepG1 => 12
  | .isRepG2 => 12
  | .isRep0Long => 192
  | .posSlot => 256
  | .posModels => 114
  | .posAlign => 16
  | .literal => 3145728
  | .lenChoice _ => 2
  | .lenLow _ => 128
  | .lenMid _ => 128
  | .lenHigh _ => 256

/-- `P[i]` names a cell of its array. -/
def CellRef.wf (p : CellRef) : Bool :=
  decide (p.idx.toNat < p.arr.size)

/-- `T[1 .. 2^n - 1]` lie in the array of `T`; `T[0]` is never read or written (41_bit_tree). -/
def CellRef.treeWf (t : CellRef) (n : Nat) : Bool :=
  decide ((t.idx + 1#32).toNat + 2 ^ n - 2 < t.arr.size)

/-- Tree widths 1..8 and the symbol below 2^n, which R135 states for BT.ENC (R138 the symbol of
BT.RENC), and the base in range. R136, R137, R139 and R140 state no range for `n` and `sym` of BT.DEC,
BT.PRICE, BT.RDEC and BT.RPRICE, and R138 gives BT.RENC the widths 1..5: the six take the same range,
and a code outside it is refused (DESIGN CHOICE, log 32). -/
def treeOperandsWf (t : CellRef) (n sym : Byte) : Bool :=
  decide (1 ≤ n.toNat ∧ n.toNat ≤ 8 ∧ sym.toNat < 2 ^ n.toNat) && t.treeWf n.toNat

/-- `len : 2..273` (00_scope R15). -/
def lenWf (len : U16) : Bool :=
  decide (2 ≤ len.toNat ∧ len.toNat ≤ 273)

/-- The ranges that the operands alone decide. A range that depends on the state, as `d < dictSize` of
ENC_MATCH (46_codec R273), is not tested here: there the operation runs (log 34). Where a rule states no
range for an operand, the range that another rule gives the same operand is taken, and a code outside it
is refused; so is a BT.INIT whose cells, a count R145 gives no range, do not all lie in its array
(DESIGN CHOICE, log 32). -/
def Instr.wf : Instr → Bool
  | .rcEncBit p _ => p.wf
  | .rcEncDirect _ n => decide (n.toNat ≤ 32)
  | .rcDecBit p => p.wf
  | .rcDecDirect n => decide (n.toNat ≤ 32)
  | .rcPriceBit p _ => decide (31 ≤ p.toNat ∧ p.toNat ≤ 2017)
  | .btEnc t n sym => treeOperandsWf t n sym
  | .btDec t n => treeOperandsWf t n 0#8
  | .btPrice t n sym => treeOperandsWf t n sym
  | .btRenc t n sym => treeOperandsWf t n sym
  | .btRdec t n => treeOperandsWf t n 0#8
  | .btRprice t n sym => treeOperandsWf t n sym
  | .btInit a k => decide (a.idx.toNat + k.toNat ≤ a.arr.size)
  | .litEnc c _ => decide (c.toNat < 4096)
  | .litEncMatched c _ _ => decide (c.toNat < 4096)
  | .litDec c => decide (c.toNat < 4096)
  | .litDecMatched c _ => decide (c.toNat < 4096)
  | .litPrice c _ _ _ => decide (c.toNat < 4096)
  | .lenEnc _ k ps => decide (k.toNat ≤ 271 ∧ ps.toNat ≤ 15)
  | .lenDec _ ps => decide (ps.toNat ≤ 15)
  | .lenSetPrices _ ps => decide (ps.toNat ≤ 15)
  | .lenPrice _ k ps => decide (k.toNat ≤ 271 ∧ ps.toNat ≤ 15)
  | .lenEncCounted _ k ps => decide (k.toNat ≤ 271 ∧ ps.toNat ≤ 15)
  | .mfSkip n => decide (1 ≤ n.toNat)
  | .optRepLen1Price st ps => decide (st.toNat ≤ 11 ∧ ps.toNat ≤ 15)
  | .optPureRepPrice i st ps => decide (i.toNat ≤ 3 ∧ st.toNat ≤ 11 ∧ ps.toNat ≤ 15)
  | .optRepPrice i len st ps =>
    decide (i.toNat ≤ 3 ∧ st.toNat ≤ 11 ∧ ps.toNat ≤ 15) && lenWf len
  | .optPosLenPrice _ len ps => decide (ps.toNat ≤ 15) && lenWf len
  | .stChar s => decide (s.toNat ≤ 11)
  | .stMatch s => decide (s.toNat ≤ 11)
  | .stRep s => decide (s.toNat ≤ 11)
  | .stShortrep s => decide (s.toNat ≤ 11)
  | .stIsChar s => decide (s.toNat ≤ 11)
  | .lenToPosState len => decide (2 ≤ len.toNat)
  | .repsPromote i => decide (1 ≤ i.toNat ∧ i.toNat ≤ 3)
  | .posSlot d => decide (d.toNat < 2147483648)
  | .codecEncMatch len d => lenWf len && decide (d.toNat < 2147483648)
  | .codecEncRep i len =>
    decide (i.toNat ≤ 3 ∧ 1 ≤ len.toNat ∧ len.toNat ≤ 273 ∧ (len.toNat = 1 → i.toNat = 0))
  | .codecEncDistance d len => lenWf len && decide (d.toNat < 2147483648)
  | .codecDecDistance len => lenWf len
  | .codecCopy len => decide (1 ≤ len.toNat ∧ len.toNat ≤ 273)
  | .owInit n => decide (1 ≤ n.toNat)
  | .owCopy _ n => decide (1 ≤ n.toNat)
  | .matchDist len d => lenWf len && !(decide (len = 2#16 ∧ d = 0xFFFFFFFF#32))
  | .longrep0 len => lenWf len
  | .longrep1 len => lenWf len
  | .longrep2 len => lenWf len
  | .longrep3 len => lenWf len
  | .rcEncInit => true
  | .rcShiftLow => true
  | .rcEncFlush => true
  | .rcDecInit => true
  | .litSelect _ _ => true
  | .mfInit => true
  | .mfHash _ => true
  | .mfAvail => true
  | .mfIndexByte _ => true
  | .mfMovePos => true
  | .mfMatchLen _ _ _ => true
  | .mfGetMatches => true
  | .mfTreeWalk _ _ _ => true
  | .optGetOptimum _ => true
  | .optReadMatchDistances => true
  | .optMovePos _ => true
  | .optBackward _ => true
  | .optFillDist => true
  | .optFillAlign => true
  | .repsPush _ => true
  | .posSlot2 _ => true
  | .codecEncHeader => true
  | .codecDecHeader => true
  | .codecEncLit => true
  | .codecEncEos => true
  | .codecEncBlock => true
  | .codecDecPacket => true
  | .codecCheckDist => true
  | .codecDecEarlyEndCheck => true
  | .owPut _ => true
  | .owGet _ => true
  | .owFlush => true
  | .nop _ _ => true
  | .reset _ _ => true
  | .encode _ _ => true
  | .decode _ _ => true
  | .ctrlReserved4 _ _ _ => true
  | .ctrlReserved8 _ _ _ => true
  | .lit _ => true
  | .shortrep => true
  | .eos => true

end Sys2Proof
end

