-- ==== Sys2Proof/Decode.lean ====
section
/-! DEFINITION. Decoding the three kinds of code (30_encoding) and, after it, the encoder written
from the same tables. A decoder takes what it needs from the front and hands back the rest. -/

namespace Sys2Proof

open Machine

/-! ### Byte fields of a micro-op word (log 3)

An operand stands little-endian, in the bytes of its width, as its value less the least value
of its range, so that operand bytes of zero always spell an operand in range. -/

/-- The `n` low bytes of `v`, least significant first. -/
def bytesLE : Nat → Nat → List Byte
  | 0, _ => []
  | n + 1, v => BitVec.ofNat 8 v :: bytesLE n (v / 256)

/-- Takes an `n`-byte little-endian number off the front. -/
def takeLE : Nat → List Byte → Except Reject (Nat × List Byte)
  | 0, bs => .ok (0, bs)
  | _ + 1, [] => .error .truncatedCode
  | n + 1, b :: bs =>
    match takeLE n bs with
    | .ok (v, rest) => .ok (b.toNat + 256 * v, rest)
    | .error e => .error e

/-- Takes a `w`-bit operand (`w / 8` bytes) and passes it on. -/
def operand {α : Type} (w : Nat) (bs : List Byte)
    (k : BitVec w → List Byte → Except Reject α) : Except Reject α :=
  match takeLE (w / 8) bs with
  | .ok (v, rest) => k (BitVec.ofNat w v) rest
  | .error e => .error e

/-- A Boolean operand: the low bit of one byte. -/
def flagOperand {α : Type} (bs : List Byte)
    (k : Bool → List Byte → Except Reject α) : Except Reject α :=
  operand 8 bs fun b rest => k (b.getLsbD 0) rest

/-- A length coder operand: the low bit of one byte. -/
def lenSelOperand {α : Type} (bs : List Byte)
    (k : LenSel → List Byte → Except Reject α) : Except Reject α :=
  flagOperand bs fun b rest => k (if b then .repLen else .matchLen) rest

def LenSel.bit : LenSel → Bool
  | .matchLen => false
  | .repLen => true

/-- The array selector byte of a cell operand. -/
def ProbArray.selector : ProbArray → Nat
  | .isMatch => 0
  | .isRep => 1
  | .isRepG0 => 2
  | .isRepG1 => 3
  | .isRepG2 => 4
  | .isRep0Long => 5
  | .posSlot => 6
  | .posModels => 7
  | .posAlign => 8
  | .literal => 9
  | .lenChoice .matchLen => 10
  | .lenLow .matchLen => 11
  | .lenMid .matchLen => 12
  | .lenHigh .matchLen => 13
  | .lenChoice .repLen => 14
  | .lenLow .repLen => 15
  | .lenMid .repLen => 16
  | .lenHigh .repLen => 17

def ProbArray.ofSelector : Nat → Option ProbArray
  | 0 => some .isMatch
  | 1 => some .isRep
  | 2 => some .isRepG0
  | 3 => some .isRepG1
  | 4 => some .isRepG2
  | 5 => some .isRep0Long
  | 6 => some .posSlot
  | 7 => some .posModels
  | 8 => some .posAlign
  | 9 => some .literal
  | 10 => some (.lenChoice .matchLen)
  | 11 => some (.lenLow .matchLen)
  | 12 => some (.lenMid .matchLen)
  | 13 => some (.lenHigh .matchLen)
  | 14 => some (.lenChoice .repLen)
  | 15 => some (.lenLow .repLen)
  | 16 => some (.lenMid .repLen)
  | 17 => some (.lenHigh .repLen)
  | _ => none

/-- A cell operand: selector byte, then the index in four bytes. -/
def cellOperand {α : Type} (bs : List Byte)
    (k : CellRef → List Byte → Except Reject α) : Except Reject α :=
  operand 8 bs fun a rest =>
    match ProbArray.ofSelector a.toNat with
    | some arr => operand 32 rest fun idx rest => k ⟨arr, idx⟩ rest
    | none => .error .operandOutOfRange

/-- A tree operand: as a cell operand, the index being `T + 1`, the root's. -/
def treeOperand {α : Type} (bs : List Byte)
    (k : CellRef → List Byte → Except Reject α) : Except Reject α :=
  cellOperand bs fun t rest => k ⟨t.arr, t.idx - 1#32⟩ rest

/-- Tree, width and symbol. -/
def treeSymOperands (bs : List Byte) (mk : CellRef → Byte → Byte → Instr) :
    Except Reject (Instr × List Byte) :=
  treeOperand bs fun t bs => operand 8 bs fun n bs => operand 8 bs fun sym bs =>
    .ok (mk t (n + 1#8) sym, bs)

/-- Tree and width. -/
def treeWidthOperands (bs : List Byte) (mk : CellRef → Byte → Instr) :
    Except Reject (Instr × List Byte) :=
  treeOperand bs fun t bs => operand 8 bs fun n bs => .ok (mk t (n + 1#8), bs)

/-- The operands of the micro-op with id `id` (30_encoding R103), unchecked. -/
def decodeOperands (id : Byte) (bs : List Byte) : Except Reject (Instr × List Byte) :=
  match id with
  | 0x10#8 => .ok (.rcEncInit, bs)
  | 0x11#8 => cellOperand bs fun p bs => flagOperand bs fun b bs => .ok (.rcEncBit p b, bs)
  | 0x12#8 => operand 32 bs fun v bs => operand 8 bs fun n bs => .ok (.rcEncDirect v n, bs)
  | 0x13#8 => .ok (.rcShiftLow, bs)
  | 0x14#8 => .ok (.rcEncFlush, bs)
  | 0x18#8 => .ok (.rcDecInit, bs)
  | 0x19#8 => cellOperand bs fun p bs => .ok (.rcDecBit p, bs)
  | 0x1A#8 => operand 8 bs fun n bs => .ok (.rcDecDirect n, bs)
  | 0x1C#8 => operand 16 bs fun p bs => flagOperand bs fun b bs => .ok (.rcPriceBit (p + 31#16) b, bs)
  | 0x20#8 => treeSymOperands bs .btEnc
  | 0x21#8 => treeWidthOperands bs .btDec
  | 0x22#8 => treeSymOperands bs .btPrice
  | 0x23#8 => treeSymOperands bs .btRenc
  | 0x24#8 => treeWidthOperands bs .btRdec
  | 0x25#8 => treeSymOperands bs .btRprice
  | 0x26#8 => cellOperand bs fun a bs => operand 32 bs fun k bs => .ok (.btInit a k, bs)
  | 0x30#8 => operand 16 bs fun c bs => operand 8 bs fun sym bs => .ok (.litEnc c sym, bs)
  | 0x31#8 => operand 16 bs fun c bs => operand 8 bs fun m bs => operand 8 bs fun sym bs =>
      .ok (.litEncMatched c m sym, bs)
  | 0x32#8 => operand 16 bs fun c bs => .ok (.litDec c, bs)
  | 0x33#8 => operand 16 bs fun c bs => operand 8 bs fun m bs => .ok (.litDecMatched c m, bs)
  | 0x34#8 => operand 16 bs fun c bs => flagOperand bs fun mode bs => operand 8 bs fun m bs =>
      operand 8 bs fun sym bs => .ok (.litPrice c mode m sym, bs)
  | 0x35#8 => operand 64 bs fun pos bs => operand 8 bs fun prev bs => .ok (.litSelect pos prev, bs)
  | 0x40#8 => lenSelOperand bs fun c bs => operand 16 bs fun k bs => operand 8 bs fun ps bs =>
      .ok (.lenEnc c k ps, bs)
  | 0x41#8 => lenSelOperand bs fun c bs => operand 8 bs fun ps bs => .ok (.lenDec c ps, bs)
  | 0x42#8 => lenSelOperand bs fun c bs => operand 8 bs fun ps bs => .ok (.lenSetPrices c ps, bs)
  | 0x43#8 => lenSelOperand bs fun c bs => operand 16 bs fun k bs => operand 8 bs fun ps bs =>
      .ok (.lenPrice c k ps, bs)
  | 0x44#8 => lenSelOperand bs fun c bs => operand 16 bs fun k bs => operand 8 bs fun ps bs =>
      .ok (.lenEncCounted c k ps, bs)
  | 0x50#8 => .ok (.mfInit, bs)
  | 0x51#8 => .ok (.mfGetMatches, bs)
  | 0x52#8 => operand 32 bs fun n bs => .ok (.mfSkip (n + 1#32), bs)
  | 0x53#8 => operand 32 bs fun k bs => operand 32 bs fun d bs => operand 32 bs fun l bs =>
      .ok (.mfMatchLen k d l, bs)
  | 0x54#8 => operand 32 bs fun k bs => .ok (.mfIndexByte k, bs)
  | 0x55#8 => .ok (.mfAvail, bs)
  | 0x56#8 => .ok (.mfMovePos, bs)
  | 0x57#8 => operand 32 bs fun cur bs => .ok (.mfHash cur, bs)
  | 0x58#8 => operand 32 bs fun m bs => operand 32 bs fun l bs => flagOperand bs fun e bs =>
      .ok (.mfTreeWalk m l e, bs)
  | 0x60#8 => operand 32 bs fun p bs => .ok (.optGetOptimum p, bs)
  | 0x61#8 => operand 32 bs fun cur bs => .ok (.optBackward cur, bs)
  | 0x62#8 => .ok (.optReadMatchDistances, bs)
  | 0x63#8 => operand 32 bs fun n bs => .ok (.optMovePos n, bs)
  | 0x64#8 => operand 8 bs fun st bs => operand 8 bs fun ps bs => .ok (.optRepLen1Price st ps, bs)
  | 0x65#8 => operand 8 bs fun i bs => operand 8 bs fun st bs => operand 8 bs fun ps bs =>
      .ok (.optPureRepPrice i st ps, bs)
  | 0x66#8 => operand 8 bs fun i bs => operand 16 bs fun len bs => operand 8 bs fun st bs =>
      operand 8 bs fun ps bs => .ok (.optRepPrice i (len + 2#16) st ps, bs)
  | 0x67#8 => operand 32 bs fun d bs => operand 16 bs fun len bs => operand 8 bs fun ps bs =>
      .ok (.optPosLenPrice d (len + 2#16) ps, bs)
  | 0x68#8 => .ok (.optFillDist, bs)
  | 0x69#8 => .ok (.optFillAlign, bs)
  | 0x70#8 => operand 8 bs fun s bs => .ok (.stChar s, bs)
  | 0x71#8 => operand 8 bs fun s bs => .ok (.stMatch s, bs)
  | 0x72#8 => operand 8 bs fun s bs => .ok (.stRep s, bs)
  | 0x73#8 => operand 8 bs fun s bs => .ok (.stShortrep s, bs)
  | 0x74#8 => operand 8 bs fun s bs => .ok (.stIsChar s, bs)
  | 0x75#8 => operand 32 bs fun d bs => .ok (.repsPush d, bs)
  | 0x76#8 => operand 8 bs fun i bs => .ok (.repsPromote (i + 1#8), bs)
  | 0x77#8 => operand 32 bs fun len bs => .ok (.lenToPosState (len + 2#32), bs)
  | 0x78#8 => operand 32 bs fun d bs => .ok (.posSlot d, bs)
  | 0x79#8 => operand 32 bs fun d bs => .ok (.posSlot2 d, bs)
  | 0x80#8 => .ok (.codecEncHeader, bs)
  | 0x81#8 => .ok (.codecEncLit, bs)
  | 0x82#8 => operand 16 bs fun len bs => operand 32 bs fun d bs =>
      .ok (.codecEncMatch (len + 2#16) d, bs)
  | 0x83#8 => operand 8 bs fun i bs => operand 16 bs fun len bs =>
      .ok (.codecEncRep i (len + 1#16), bs)
  | 0x84#8 => .ok (.codecEncEos, bs)
  | 0x85#8 => .ok (.codecEncBlock, bs)
  | 0x86#8 => operand 32 bs fun d bs => operand 16 bs fun len bs =>
      .ok (.codecEncDistance d (len + 2#16), bs)
  | 0x88#8 => .ok (.codecDecHeader, bs)
  | 0x89#8 => .ok (.codecDecPacket, bs)
  | 0x8A#8 => operand 16 bs fun len bs => .ok (.codecDecDistance (len + 2#16), bs)
  | 0x8C#8 => .ok (.codecCheckDist, bs)
  | 0x8D#8 => .ok (.codecDecEarlyEndCheck, bs)
  | 0x8E#8 => operand 16 bs fun len bs => .ok (.codecCopy (len + 1#16), bs)
  | 0x90#8 => operand 32 bs fun n bs => .ok (.owInit (n + 1#32), bs)
  | 0x91#8 => operand 8 bs fun b bs => .ok (.owPut b, bs)
  | 0x92#8 => operand 32 bs fun d bs => operand 32 bs fun n bs => .ok (.owCopy d (n + 1#32), bs)
  | 0x93#8 => operand 32 bs fun d bs => .ok (.owGet d, bs)
  | 0x94#8 => .ok (.owFlush, bs)
  | _ => .error .unassignedMicroOp

/-- Operands outside their range are refused. -/
def checked {α : Type} (r : Except Reject (Instr × α)) : Except Reject (Instr × α) :=
  match r with
  | .ok (i, rest) => if i.wf then .ok (i, rest) else .error .operandOutOfRange
  | .error e => .error e

/-- One micro-op off the front of a byte list. -/
def decodeMicro : List Byte → Except Reject (Instr × List Byte)
  | [] => .error .truncatedCode
  | id :: bs => checked (decodeOperands id bs)

/-- The host command a word written to CTRL issues (30_encoding R100, 10_state R21): bits 3:0 OP,
bit 4 IRQ_EN, bit 5 WRITE_END_MARKER, bits 31:6 ignored. -/
def decodeCtrl (w : U32) : Instr :=
  let irqEn := w.getLsbD 4
  let marker := w.getLsbD 5
  match w.extractLsb' 0 4 with
  | 0#4 => .nop irqEn marker
  | 1#4 => .reset irqEn marker
  | 2#4 => .encode irqEn marker
  | 3#4 => .decode irqEn marker
  | _ =>
    if w.getLsbD 3 then .ctrlReserved8 (w.extractLsb' 0 3) irqEn marker
    else .ctrlReserved4 (w.extractLsb' 0 2) irqEn marker

/-! ### Packets: their decisions in stream order (30_encoding R85..R94) -/

/-- An `n`-bit number, most significant decision first (20_memory R69). -/
def bitsMsb : Nat → Nat → List Bool
  | 0, _ => []
  | n + 1, v => v.testBit n :: bitsMsb n v

/-- An `n`-bit number, least significant decision first (20_memory R69). -/
def bitsLsb : Nat → Nat → List Bool
  | 0, _ => []
  | n + 1, v => v.testBit 0 :: bitsLsb n (v / 2)

/-- Takes `n` decisions, most significant first, onto `acc`. -/
def takeMsb : Nat → Nat → List Bool → Except Reject (Nat × List Bool)
  | 0, acc, ds => .ok (acc, ds)
  | _ + 1, _, [] => .error .truncatedCode
  | n + 1, acc, d :: ds => takeMsb n (2 * acc + d.toNat) ds

/-- Takes `n` decisions, least significant first. -/
def takeLsb : Nat → List Bool → Except Reject (Nat × List Bool)
  | 0, ds => .ok (0, ds)
  | _ + 1, [] => .error .truncatedCode
  | n + 1, d :: ds =>
    match takeLsb n ds with
    | .ok (v, rest) => .ok (d.toNat + 2 * v, rest)
    | .error e => .error e

/-- The length field (R93), as `len = k + 2`. -/
def takeLen : List Bool → Except Reject (U16 × List Bool)
  | false :: ds =>
    match takeMsb 3 0 ds with
    | .ok (k, rest) => .ok (BitVec.ofNat 16 (k + 2), rest)
    | .error e => .error e
  | true :: false :: ds =>
    match takeMsb 3 0 ds with
    | .ok (k, rest) => .ok (BitVec.ofNat 16 (k + 10), rest)
    | .error e => .error e
  | true :: true :: ds =>
    match takeMsb 8 0 ds with
    | .ok (k, rest) => .ok (BitVec.ofNat 16 (k + 18), rest)
    | .error e => .error e
  | _ => .error .truncatedCode

/-- The distance field's footer for `slot` (R94). -/
def takeFooter (slot : U32) (ds : List Bool) : Except Reject (U32 × List Bool) :=
  if slot < 4#32 then .ok (slot, ds)
  else if slot < 14#32 then
    match takeLsb (footerBits slot) ds with
    | .ok (r, rest) => .ok (slotBase slot + BitVec.ofNat 32 r, rest)
    | .error e => .error e
  else
    match takeMsb (footerBits slot - 4) 0 ds with
    | .error e => .error e
    | .ok (hi, rest) =>
      match takeLsb 4 rest with
      | .ok (lo, rest) => .ok (slotBase slot + (BitVec.ofNat 32 hi <<< 4) + BitVec.ofNat 32 lo, rest)
      | .error e => .error e

/-- The distance field (R94). -/
def takeDist (ds : List Bool) : Except Reject (U32 × List Bool) :=
  match takeMsb 6 0 ds with
  | .ok (slot, rest) => takeFooter (BitVec.ofNat 32 slot) rest
  | .error e => .error e

/-- A packet that is one length field. -/
def lenPacket (mk : U16 → Instr) (ds : List Bool) : Except Reject (Instr × List Bool) :=
  match takeLen ds with
  | .ok (len, rest) => .ok (mk len, rest)
  | .error e => .error e

/-- One packet off the front of a decision sequence: the decision tree of R85..R92. -/
def decodePacket : List Bool → Except Reject (Instr × List Bool)
  | false :: ds =>
    match takeMsb 8 0 ds with
    | .ok (b, rest) => .ok (.lit (BitVec.ofNat 8 b), rest)
    | .error e => .error e
  | true :: false :: ds =>
    match takeLen ds with
    | .error e => .error e
    | .ok (len, rest) =>
      match takeDist rest with
      | .error e => .error e
      | .ok (d, rest) =>
        if len = 2#16 ∧ d = 0xFFFFFFFF#32 then .ok (.eos, rest) else .ok (.matchDist len d, rest)
  | true :: true :: false :: false :: ds => .ok (.shortrep, ds)
  | true :: true :: false :: true :: ds => lenPacket .longrep0 ds
  | true :: true :: true :: false :: ds => lenPacket .longrep1 ds
  | true :: true :: true :: true :: false :: ds => lenPacket .longrep2 ds
  | true :: true :: true :: true :: true :: ds => lenPacket .longrep3 ds
  | _ => .error .truncatedCode

/-- The instruction a code spells. What follows it in the code is not read. -/
def decode : Code → Except Reject Instr
  | .ctrl w => .ok (decodeCtrl w)
  | .micro bs =>
    match decodeMicro bs with
    | .ok (i, _) => .ok i
    | .error e => .error e
  | .packet ds =>
    match decodePacket ds with
    | .ok (i, _) => .ok i
    | .error e => .error e

/-! ### The encoder -/

/-- An operand of width `w` as its bytes. -/
def field {w : Nat} (v : BitVec w) : List Byte := bytesLE (w / 8) v.toNat

def flagField (b : Bool) : List Byte := [BitVec.ofNat 8 b.toNat]

def cellField (p : CellRef) : List Byte := BitVec.ofNat 8 p.arr.selector :: field p.idx

def treeField (t : CellRef) : List Byte := cellField ⟨t.arr, t.idx + 1#32⟩

def lenSelField (c : LenSel) : List Byte := flagField c.bit

/-- The word a host command is written to CTRL as (30_encoding R100). -/
def ctrlWord (op : Nat) (irqEn marker : Bool) : U32 :=
  BitVec.ofNat 32 (op + 16 * irqEn.toNat + 32 * marker.toNat)

/-- The length field of `len` (R93, `k = len - 2`). -/
def lenBits (len : Nat) : List Bool :=
  if len - 2 < 8 then false :: bitsMsb 3 (len - 2)
  else if len - 2 < 16 then true :: false :: bitsMsb 3 (len - 2 - 8)
  else true :: true :: bitsMsb 8 (len - 2 - 16)

/-- The distance field of `d` (R94). -/
def distBits (d : U32) : List Bool :=
  let slot := posSlotOf d
  let r := (d - slotBase slot).toNat
  bitsMsb 6 slot.toNat ++
    if slot < 4#32 then []
    else if slot < 14#32 then bitsLsb (footerBits slot) r
    else bitsMsb (footerBits slot - 4) (r / 16) ++ bitsLsb 4 (r % 16)

/-- The code of an instruction. -/
def encode : Instr → Code
  | .rcEncInit => .micro [0x10#8]
  | .rcEncBit p b => .micro (0x11#8 :: (cellField p ++ flagField b))
  | .rcEncDirect v n => .micro (0x12#8 :: (field v ++ field n))
  | .rcShiftLow => .micro [0x13#8]
  | .rcEncFlush => .micro [0x14#8]
  | .rcDecInit => .micro [0x18#8]
  | .rcDecBit p => .micro (0x19#8 :: cellField p)
  | .rcDecDirect n => .micro (0x1A#8 :: field n)
  | .rcPriceBit p b => .micro (0x1C#8 :: (field (p - 31#16) ++ flagField b))
  | .btEnc t n sym => .micro (0x20#8 :: (treeField t ++ field (n - 1#8) ++ field sym))
  | .btDec t n => .micro (0x21#8 :: (treeField t ++ field (n - 1#8)))
  | .btPrice t n sym => .micro (0x22#8 :: (treeField t ++ field (n - 1#8) ++ field sym))
  | .btRenc t n sym => .micro (0x23#8 :: (treeField t ++ field (n - 1#8) ++ field sym))
  | .btRdec t n => .micro (0x24#8 :: (treeField t ++ field (n - 1#8)))
  | .btRprice t n sym => .micro (0x25#8 :: (treeField t ++ field (n - 1#8) ++ field sym))
  | .btInit a k => .micro (0x26#8 :: (cellField a ++ field k))
  | .litSelect pos prev => .micro (0x35#8 :: (field pos ++ field prev))
  | .litEnc c sym => .micro (0x30#8 :: (field c ++ field sym))
  | .litEncMatched c m sym => .micro (0x31#8 :: (field c ++ field m ++ field sym))
  | .litDec c => .micro (0x32#8 :: field c)
  | .litDecMatched c m => .micro (0x33#8 :: (field c ++ field m))
  | .litPrice c mode m sym => .micro (0x34#8 :: (field c ++ flagField mode ++ field m ++ field sym))
  | .lenEnc c k ps => .micro (0x40#8 :: (lenSelField c ++ field k ++ field ps))
  | .lenDec c ps => .micro (0x41#8 :: (lenSelField c ++ field ps))
  | .lenSetPrices c ps => .micro (0x42#8 :: (lenSelField c ++ field ps))
  | .lenPrice c k ps => .micro (0x43#8 :: (lenSelField c ++ field k ++ field ps))
  | .lenEncCounted c k ps => .micro (0x44#8 :: (lenSelField c ++ field k ++ field ps))
  | .mfInit => .micro [0x50#8]
  | .mfGetMatches => .micro [0x51#8]
  | .mfSkip n => .micro (0x52#8 :: field (n - 1#32))
  | .mfMatchLen k d l => .micro (0x53#8 :: (field k ++ field d ++ field l))
  | .mfIndexByte k => .micro (0x54#8 :: field k)
  | .mfAvail => .micro [0x55#8]
  | .mfMovePos => .micro [0x56#8]
  | .mfHash cur => .micro (0x57#8 :: field cur)
  | .mfTreeWalk m l e => .micro (0x58#8 :: (field m ++ field l ++ flagField e))
  | .optGetOptimum p => .micro (0x60#8 :: field p)
  | .optBackward cur => .micro (0x61#8 :: field cur)
  | .optReadMatchDistances => .micro [0x62#8]
  | .optMovePos n => .micro (0x63#8 :: field n)
  | .optRepLen1Price st ps => .micro (0x64#8 :: (field st ++ field ps))
  | .optPureRepPrice i st ps => .micro (0x65#8 :: (field i ++ field st ++ field ps))
  | .optRepPrice i len st ps =>
    .micro (0x66#8 :: (field i ++ field (len - 2#16) ++ field st ++ field ps))
  | .optPosLenPrice d len ps => .micro (0x67#8 :: (field d ++ field (len - 2#16) ++ field ps))
  | .optFillDist => .micro [0x68#8]
  | .optFillAlign => .micro [0x69#8]
  | .stChar s => .micro (0x70#8 :: field s)
  | .stMatch s => .micro (0x71#8 :: field s)
  | .stRep s => .micro (0x72#8 :: field s)
  | .stShortrep s => .micro (0x73#8 :: field s)
  | .stIsChar s => .micro (0x74#8 :: field s)
  | .repsPush d => .micro (0x75#8 :: field d)
  | .repsPromote i => .micro (0x76#8 :: field (i - 1#8))
  | .lenToPosState len => .micro (0x77#8 :: field (len - 2#32))
  | .posSlot d => .micro (0x78#8 :: field d)
  | .posSlot2 d => .micro (0x79#8 :: field d)
  | .codecEncHeader => .micro [0x80#8]
  | .codecEncLit => .micro [0x81#8]
  | .codecEncMatch len d => .micro (0x82#8 :: (field (len - 2#16) ++ field d))
  | .codecEncRep i len => .micro (0x83#8 :: (field i ++ field (len - 1#16)))
  | .codecEncEos => .micro [0x84#8]
  | .codecEncBlock => .micro [0x85#8]
  | .codecEncDistance d len => .micro (0x86#8 :: (field d ++ field (len - 2#16)))
  | .codecDecHeader => .micro [0x88#8]
  | .codecDecPacket => .micro [0x89#8]
  | .codecDecDistance len => .micro (0x8A#8 :: field (len - 2#16))
  | .codecCheckDist => .micro [0x8C#8]
  | .codecDecEarlyEndCheck => .micro [0x8D#8]
  | .codecCopy len => .micro (0x8E#8 :: field (len - 1#16))
  | .owInit n => .micro (0x90#8 :: field (n - 1#32))
  | .owPut b => .micro (0x91#8 :: field b)
  | .owCopy d n => .micro (0x92#8 :: (field d ++ field (n - 1#32)))
  | .owGet d => .micro (0x93#8 :: field d)
  | .owFlush => .micro [0x94#8]
  | .nop irqEn marker => .ctrl (ctrlWord 0 irqEn marker)
  | .reset irqEn marker => .ctrl (ctrlWord 1 irqEn marker)
  | .encode irqEn marker => .ctrl (ctrlWord 2 irqEn marker)
  | .decode irqEn marker => .ctrl (ctrlWord 3 irqEn marker)
  | .ctrlReserved4 op irqEn marker => .ctrl (ctrlWord (4 + op.toNat) irqEn marker)
  | .ctrlReserved8 op irqEn marker => .ctrl (ctrlWord (8 + op.toNat) irqEn marker)
  | .lit b => .packet (false :: bitsMsb 8 b.toNat)
  | .matchDist len d => .packet (true :: false :: (lenBits len.toNat ++ distBits d))
  | .shortrep => .packet [true, true, false, false]
  | .longrep0 len => .packet (true :: true :: false :: true :: lenBits len.toNat)
  | .longrep1 len => .packet (true :: true :: true :: false :: lenBits len.toNat)
  | .longrep2 len => .packet (true :: true :: true :: true :: false :: lenBits len.toNat)
  | .longrep3 len => .packet (true :: true :: true :: true :: true :: lenBits len.toNat)
  | .eos => .packet (true :: false :: (lenBits 2 ++ distBits 0xFFFFFFFF#32))

/-! ### The opcode table's numbering -/

/-- The bytes the longest micro-op takes, and more: operand bytes past a word are zero. -/
def maxCodeBytes : Nat := 16

/-- The code of a word numbered as spec/opcode_table.json numbers it. A first byte below 0x10, an id
no micro-op has (30_encoding R103), is a host command's CTRL word; the rest are micro-ops (log 4). -/
def tableCode (nbits w : Nat) : Code :=
  if w % 256 < 16 then .ctrl (BitVec.ofNat 32 (w % 2 ^ nbits))
  else .micro (bytesLE maxCodeBytes (w % 2 ^ nbits))

/-- The instruction decoded from a word numbered as spec/opcode_table.json numbers it. -/
def decodeTableWord (nbits w : Nat) : Option Instr :=
  match decode (tableCode nbits w) with
  | .ok i => some i
  | .error _ => none

end Sys2Proof
end

