-- ==== Sys2Proof/Machine/State.lean ====
section
/-! DEFINITION. The machine's state as plain data (10_state R20..R46), the reasons a step can stop,
and the state right after power-on reset (70_reset_and_hazards R335). -/

namespace Sys2Proof.Machine

/-- The error kinds of 60_exceptions R311. Each is a NEXT state (`errorEntry`), not a stop. -/
inductive ErrKind
  | invalidHeader
  | unsupportedDictionarySize
  | truncatedInput
  | corruptStream
  | resourceExhausted
  | configError
  deriving DecidableEq, Repr

/-- PHASE (10_state R32). -/
inductive Phase
  | idle
  | encRun
  | decRun
  | done
  | error
  deriving DecidableEq, Repr

/-- PHASE together with the position in the run loop it stands at (10_state R32; loops: 46_codec
R286 for ENC_RUN, R291 for DEC_RUN). -/
inductive Seq
  | idle
  /-- ENC_RUN, before the first byte -/
  | encFirst
  /-- ENC_RUN, at the test of the `while` -/
  | encLoop
  /-- ENC_RUN, at `finish`, the end marker still to come if it is wanted -/
  | encFinish
  /-- ENC_RUN, before RC.ENC_FLUSH -/
  | encFlush
  /-- DEC_RUN, at the head of `loop` -/
  | decLoop
  /-- DEC_RUN, before OW.FLUSH -/
  | decFlush
  | done
  | error
  deriving DecidableEq, Repr

def Seq.phase : Seq → Phase
  | .idle => .idle
  | .encFirst => .encRun
  | .encLoop => .encRun
  | .encFinish => .encRun
  | .encFlush => .encRun
  | .decLoop => .decRun
  | .decFlush => .decRun
  | .done => .done
  | .error => .error

/-- mfKind (10_state R43): BT2 or BT4. -/
inductive MfKind
  | bt2
  | bt4
  deriving DecidableEq, Repr

/-- Four 32-bit values by index 0..3: the rep register (10_state R38) and the parser's copies. -/
structure Quad where
  r0 : U32
  r1 : U32
  r2 : U32
  r3 : U32
  deriving DecidableEq, Repr

/-- The host-visible registers that no sub-block holds (10_state R21..R30). -/
structure HostRegs where
  irqEn : Bool
  writeEndMarker : Bool
  seq : Seq
  errCode : U4
  earlyEnd : Bool
  cmdIgnored : Bool
  outTruncated : Bool
  level : U4
  inLen : U32
  /-- IN_POS, and the decoder's cursor `inPos` (R25, R34; one home, log 13) -/
  inPos : U32
  outLen : U64
  size : U64
  deriving DecidableEq, Repr

/-- Range encoder (10_state R33). -/
structure RangeEnc where
  low : U64
  range : U32
  cache : Byte
  cacheSize : U64
  outPosition : U64
  deriving DecidableEq, Repr

/-- Range decoder (10_state R34); its cursor is `HostRegs.inPos`. -/
structure RangeDec where
  code : U32
  range : U32
  deriving DecidableEq, Repr

/-- Codec registers (10_state R38, R39, and those R28, R29, R43 share with them, log 13). -/
structure Codec where
  state : U4
  reps : Quad
  prevByte : Byte
  nowPos : U64
  propsByte : Byte
  lc : U4
  lp : BitVec 3
  pb : BitVec 3
  dictSize : U32
  dictSizeCheck : U32
  /-- none is UNKNOWN -/
  outSize : Option U64
  posStateMask : U32
  literalPosMask : U32
  deriving DecidableEq, Repr

/-- Encoder configuration (10_state R43); fastBytes and mfKind are also FAST_BYTES and MF_KIND (R31). -/
structure EncCfg where
  fastBytes : BitVec 9
  mfKind : MfKind
  writeEndMarker : Bool
  deriving DecidableEq, Repr

/-- A lattice node (10_state R41). -/
structure Node where
  price : U32
  state : U4
  posPrev : U32
  backPrev : I32
  prev1IsChar : Bool
  prev2 : Bool
  posPrev2 : U32
  backPrev2 : I32
  backs : Quad
  deriving DecidableEq, Repr

/-- Match candidate buffer and optimum lattice (10_state R40, R41). -/
structure Parser where
  matchDistances : Store U32
  numDistancePairs : U32
  longestMatchLength : U32
  longestMatchWasFound : Bool
  additionalOffset : U32
  optimum : Store Node
  optimumEndIndex : U32
  optimumCurrentIndex : U32
  backRes : I32
  sweepReps : Quad
  sweepRepLens : Quad
  deriving DecidableEq, Repr

/-- The price table of a length coder (10_state R42); `prices` is indexed `ps * 272 + k`. -/
structure LenPrices where
  prices : Store U32
  tableSize : U32
  counters : Store U32
  deriving DecidableEq, Repr

/-- Encoder price tables (10_state R42). -/
structure Prices where
  posSlotPrices : Store U32
  distancesPrices : Store U32
  alignPrices : Store U32
  matchPriceCount : U32
  alignPriceCount : U32
  distTableSize : U32
  matchLen : LenPrices
  repLen : LenPrices
  deriving DecidableEq, Repr

/-- Match finder (10_state R44). -/
structure MatchFinder where
  pos : U32
  streamPos : U32
  cyclicBufferSize : U32
  cyclicBufferPos : U32
  son : Store U32
  hash : Store U32
  hashMask : U32
  cutValue : U32
  matchMaxLen : U32
  deriving DecidableEq, Repr

/-- Output window (10_state R46). -/
structure Window where
  win : Store Byte
  windowSize : U32
  winPos : U32
  winFlushPos : U32
  deriving DecidableEq, Repr

/-- What an internal operation returned to its caller (log 12). -/
inductive Ret
  /-- the operation returns nothing, or raised an error -/
  | none
  | word (v : U32)
  | bool (b : Bool)
  /-- MF.HASH (44_match_finder R184): h2 and h3 are absent for BT2 -/
  | hash (h2 h3 : Option U32) (hv : U32)
  /-- the list `D` of candidate cells (R190) -/
  | cells (d : List U32)
  /-- CODEC.DEC_PACKET (46_codec R292) -/
  | cont
  | endOfStream
  deriving DecidableEq, Repr

/-- What can reach the core from outside, in order (log 2). -/
inductive Input
  /-- an operation presented to the core: a CTRL word, a micro-op or a packet -/
  | code (c : Code)
  /-- the host writes register number `n` (10_state, section 2) -/
  | regWrite (n : Byte) (w : U32)
  /-- the host writes a byte of IN -/
  | inWrite (addr : Nat) (b : Byte)
  /-- the host writes a byte of OUT -/
  | outWrite (addr : Nat) (b : Byte)
  /-- the host does nothing while the engine takes one turn -/
  | engine
  /-- power-on reset (70_reset_and_hazards R335) -/
  | powerOn
  deriving DecidableEq, Repr

structure State where
  params : Params
  host : HostRegs
  inMem : Memory
  outMem : Memory
  enc : RangeEnc
  dec : RangeDec
  probs : Store U16
  codec : Codec
  encCfg : EncCfg
  prices : Prices
  parser : Parser
  mf : MatchFinder
  window : Window
  ret : Ret
  agenda : List Input
  freeCount : Nat
  deriving DecidableEq, Repr

/-- PHASE (10_state R32). -/
def State.phase (s : State) : Phase := s.host.seq.phase

/-- Reasons a step stops with a fault. -/
inductive Fault
  /-- Raised by a host write to IN at an address at or above IN_MEM_BYTES, which does not exist
  (20_memory R60). Safe: the model stops. -/
  | noSuchInAddress
  /-- Raised by a host write to OUT at an address at or above OUT_MEM_BYTES, which does not exist
  (20_memory R60). Safe: the model stops. -/
  | noSuchOutAddress
  /-- Raised by OPT.GET_OPTIMUM, OPT.BACKWARD and CODEC.ENC_BLOCK when a loop of their rules does
  not end within the bound no session exceeds (log 19). Safe: the model stops. -/
  | parserHang
  deriving DecidableEq, Repr

/-- Reasons a step is refused. -/
inductive Refusal
  /-- Raised by an arm of exec whose instruction has no meaning in the model yet. Safe. -/
  | notModelled (mnemonic : String)
  /-- Raised by the step when the code presented spells no operation (30_encoding R103). Safe. -/
  | badCode (r : Reject)
  deriving DecidableEq, Repr

def Quad.zero : Quad := ⟨0#32, 0#32, 0#32, 0#32⟩

def LenPrices.zero : LenPrices := ⟨[], 0#32, []⟩

/-- What an unwritten lattice node holds: DESIGN CHOICE, all fields 0 (log 10). -/
def Node.blank : Node :=
  ⟨0#32, 0#4, 0#32, 0#32, false, false, 0#32, 0#32, Quad.zero⟩

/-- The state after power-on reset, for given parameters (70_reset_and_hazards R335). Elements that
the rule leaves unspecified are 0 (DESIGN CHOICE, unsafe, log 10). -/
def State.resetWith (p : Params) : State where
  params := p
  host :=
    { irqEn := false
      writeEndMarker := p.writeEndMarker
      seq := .idle
      errCode := 0#4
      earlyEnd := false
      cmdIgnored := false
      outTruncated := false
      level := 5#4
      inLen := 0#32
      inPos := 0#32
      outLen := 0#64
      size := 0#64 }
  inMem := []
  outMem := []
  enc := { low := 0#64, range := 0xFFFFFFFF#32, cache := 0#8, cacheSize := 1#64, outPosition := 0#64 }
  dec := { code := 0#32, range := 0xFFFFFFFF#32 }
  probs := []
  codec :=
    { state := 0#4
      reps := Quad.zero
      prevByte := 0#8
      nowPos := 0#64
      propsByte := 0#8
      lc := 0#4
      lp := 0#3
      pb := 0#3
      dictSize := 0#32
      dictSizeCheck := 0#32
      outSize := none
      posStateMask := 0#32
      literalPosMask := 0#32 }
  encCfg := { fastBytes := 0#9, mfKind := .bt2, writeEndMarker := false }
  prices :=
    { posSlotPrices := []
      distancesPrices := []
      alignPrices := []
      matchPriceCount := 0#32
      alignPriceCount := 0#32
      distTableSize := 0#32
      matchLen := LenPrices.zero
      repLen := LenPrices.zero }
  parser :=
    { matchDistances := []
      numDistancePairs := 0#32
      longestMatchLength := 0#32
      longestMatchWasFound := false
      additionalOffset := 0#32
      optimum := []
      optimumEndIndex := 0#32
      optimumCurrentIndex := 0#32
      backRes := 0#32
      sweepReps := Quad.zero
      sweepRepLens := Quad.zero }
  mf :=
    { pos := 0#32
      streamPos := 0#32
      cyclicBufferSize := 0#32
      cyclicBufferPos := 0#32
      son := []
      hash := []
      hashMask := 0#32
      cutValue := 0#32
      matchMaxLen := 0#32 }
  window := { win := [], windowSize := 4096#32, winPos := 0#32, winFlushPos := 0#32 }
  ret := .none
  agenda := []
  freeCount := 0

/-- The machine right after power-on reset, with the default parameters of 00_scope R9 (log 7). -/
def State.reset : State := State.resetWith Params.default

end Sys2Proof.Machine
end

