-- ==== Sys2Proof/Machine/Store.lean ====
section
/-! DEFINITION. Sparse stores: index and value pairs, indices strictly rising, no entry equal to
what an unlisted index reads as. Every memory and table of the model is held this way. -/

namespace Sys2Proof

variable {α : Type}

/-- The value at index `i`; `d` is what an unlisted index reads as. -/
def Store.get (d : α) : Store α → Nat → α
  | [], _ => d
  | (k, v) :: t, i => if i = k then v else if i < k then d else Store.get d t i

/-- Put `v` before `t` at index `i`, unless it is what an unlisted index reads as. -/
def Store.cons [DecidableEq α] (d : α) (i : Nat) (v : α) (t : Store α) : Store α :=
  if v = d then t else (i, v) :: t

/-- Write `v` at index `i`. A store has no end: an index past the array it holds is a cell of its own
(DESIGN CHOICE, log 21). -/
def Store.set [DecidableEq α] (d : α) : Store α → Nat → α → Store α
  | [], i, v => Store.cons d i v []
  | (k, u) :: t, i, v =>
    if i = k then Store.cons d i v t
    else if i < k then Store.cons d i v ((k, u) :: t)
    else (k, u) :: Store.set d t i v

/-- Make the `n` indices from `i` read as unlisted. -/
def Store.clear (t : Store α) (i n : Nat) : Store α :=
  t.filter fun e => !(decide (i ≤ e.1) && decide (e.1 < i + n))

/-- Every index of `t` is at least `lo`, they rise strictly, and no value is `d`. -/
def Store.wfFrom [DecidableEq α] (d : α) : Nat → Store α → Bool
  | _, [] => true
  | lo, (k, v) :: t => decide (lo ≤ k) && decide (v ≠ d) && Store.wfFrom d (k + 1) t

/-- The canonical form. -/
def Store.wf [DecidableEq α] (d : α) (t : Store α) : Bool := Store.wfFrom d 0 t

/-- What a byte of IN or OUT that nothing has written reads as: DESIGN CHOICE 0 (unsafe, log 10);
70_reset_and_hazards R335 leaves it unspecified. -/
def Memory.blank : Byte := 0#8

/-- The byte at `a`. A host READ of IN or OUT at or past the capacity that 20_memory R60 gives it, of
which no rule speaks, also answers the blank byte: DESIGN CHOICE (unsafe, log 27). -/
def Memory.read (m : Memory) (a : Nat) : Byte := Store.get Memory.blank m a

def Memory.write (m : Memory) (a : Nat) (b : Byte) : Memory := Store.set Memory.blank m a b

/-- The canonical form of a byte memory. -/
def Memory.wf (m : Memory) : Bool := Store.wf Memory.blank m

end Sys2Proof
end

