-- ==== Sys2Proof/Machine/Ops.lean ====
section
/-! DEFINITION. The named operations over memory and registers, the error entry that every raised
error takes and the way out of it (60_exceptions R310..R324), and how an operation's result becomes
the outcome of a step. -/

namespace Sys2Proof.Machine

/-- An operation of the engine: it reads and writes the state in the order written and may `raise`
an error (00_scope R11, R12), which keeps every write made before it (60_exceptions R320). -/
abbrev Eng := EStateM ErrKind State

/-- `raise E` (00_scope R11). -/
def raise {α : Type} (e : ErrKind) : Eng α := throw e

/-! ### Errors -/

/-- Error codes (60_exceptions R311). -/
def ErrKind.code : ErrKind → U4
  | .invalidHeader => 1#4
  | .unsupportedDictionarySize => 2#4
  | .truncatedInput => 3#4
  | .corruptStream => 4#4
  | .resourceExhausted => 5#4
  | .configError => 6#4

/-- Error entry (60_exceptions R320): PHASE becomes ERROR and ERR_CODE the code of `e`; IN_POS,
OUT_LEN and all else keep their values. Nothing is saved; there is no handler and no vector. -/
def errorEntry (e : ErrKind) (s : State) : State :=
  { s with host := { s.host with seq := .error, errCode := e.code } }

/-- STATUS.BUSY (10_state R32). -/
def State.busy (s : State) : Bool :=
  match s.phase with
  | .encRun => true
  | .decRun => true
  | _ => false

/-- Error exit, and entry to a session (60_exceptions R322; 46_codec R296, R298, R299): the accepted
command clears CMD_IGNORED, ERR_CODE, EARLY_END and OUT_TRUNCATED, leaves DONE or ERROR for the
session's PHASE, and starts from OUT_LEN = 0 and IN_POS = 0. -/
def enterSession (start : Seq) (s : State) : State :=
  { s with
    host :=
      { s.host with
        seq := start
        errCode := 0#4
        earlyEnd := false
        cmdIgnored := false
        outTruncated := false
        outLen := 0#64
        inPos := 0#32 } }

/-- Completion (60_exceptions R324): PHASE becomes DONE, ERR_CODE is 0. -/
def completeSession (s : State) : State :=
  { s with host := { s.host with seq := .done, errCode := 0#4 } }

/-- The state an operation ends in: its own writes and its returned value, or the error entry. -/
def finish : EStateM.Result ErrKind State Ret → State
  | .ok r s => { s with ret := r }
  | .error e s => { errorEntry e s with ret := .none }

/-- The outcome of an operation: always a next state, since a raised error is one (R320). -/
def complete (m : Eng Ret) (s : State) : Host.Outcome State Fault Refusal :=
  .next (finish (m s))

/-- An operation that returns nothing. -/
def completeUnit (m : Eng Unit) (s : State) : Host.Outcome State Fault Refusal :=
  complete (m >>= fun _ => pure .none) s

/-- An operation that returns a word. -/
def completeWord (m : Eng U32) (s : State) : Host.Outcome State Fault Refusal :=
  complete (m >>= fun v => pure (.word v)) s

/-- An operation that writes nothing and returns `r`. -/
def answer (r : Ret) (s : State) : Host.Outcome State Fault Refusal :=
  .next { s with ret := r }

/-! ### Memories (20_memory R60..R66) -/

/-- `IN[i]` (20_memory R63): defined for `0 ≤ i < IN_LEN` (and inside the memory); elsewhere a free
byte (log 8). -/
def State.inByte (s : State) (i : Int) : Byte :=
  if 0 ≤ i ∧ i < s.host.inLen.toNat ∧ i < s.params.inMemBytes then s.inMem.read i.toNat
  else Config.freeByte s.freeCount i

/-- OUT_CAP (10_state R26). -/
def State.outCap (s : State) : Nat := min s.params.outMemBytes 4294967295

/-- MAX_IN_LEN (00_scope R9, 60_exceptions R313). -/
def State.maxInLen (s : State) : Nat := min s.params.inMemBytes 4294967294

/-- The state with byte `b` appended to OUT. -/
def State.appendOut (s : State) (b : Byte) : State :=
  { s with
    outMem := s.outMem.write s.host.outLen.toNat b
    host := { s.host with outLen := s.host.outLen + 1#64 } }

/-- `OutWrite(b)` (20_memory R64). -/
def outWrite (b : Byte) : Eng Unit := fun s =>
  if s.outCap ≤ s.host.outLen.toNat then .error .resourceExhausted s
  else .ok () (s.appendOut b)

/-- `OutWrite` of each byte of a list, in order. -/
def outWriteAll : List Byte → Eng Unit
  | [] => pure ()
  | b :: bs => do
    outWrite b
    outWriteAll bs

/-- `ReadByte()` (20_memory R66). -/
def readByte : Eng Byte := fun s =>
  if s.host.inPos < s.host.inLen then
    .ok (s.inByte s.host.inPos.toNat) { s with host := { s.host with inPos := s.host.inPos + 1#32 } }
  else .error .truncatedInput s

/-- Sets IN_POS (and the decoder's cursor, log 13). -/
def setInPos (v : U32) : Eng Unit :=
  modify fun s => { s with host := { s.host with inPos := v } }

end Sys2Proof.Machine
end

