-- ==== Sys2Proof/Machine/Operands.lean ====
section
/-! DEFINITION. The operand forms of the micro-ops (30_encoding R102): probability cells `P[i]`, tree
bases `T`, literal blocks `L`, length coders `C`, rep indices, and the named cells the codec's rules
use (10_state R36, R37). -/

namespace Sys2Proof.Machine

/-- Each array's own part of the store's index space; arrays never overlap (log 21). -/
def arrayTag : ProbArray → Nat
  | .isMatch => 0
  | .isRep => 1
  | .isRepG0 => 2
  | .isRepG1 => 3
  | .isRepG2 => 4
  | .isRep0Long => 5
  | .posSlot => 6
  | .posModels => 7
  | .posAlign => 8
  | .lenChoice .matchLen => 9
  | .lenLow .matchLen => 10
  | .lenMid .matchLen => 11
  | .lenHigh .matchLen => 12
  | .lenChoice .repLen => 13
  | .lenLow .repLen => 14
  | .lenMid .repLen => 15
  | .lenHigh .repLen => 16
  | .literal => 17

/-- The store index of a cell. -/
def cellKey (p : CellRef) : Nat := arrayTag p.arr * 4294967296 + p.idx.toNat

/-- `P[i]`: the cell's value, 1024 until written (10_state R35, R36). -/
def State.prob (s : State) (p : CellRef) : U16 := Store.get probInit s.probs (cellKey p)

/-- `P[i] <- v`. -/
def State.setProb (s : State) (p : CellRef) (v : U16) : State :=
  { s with probs := Store.set probInit s.probs (cellKey p) v }

/-- `T[m]`: the cell at `base + m` (41_bit_tree). -/
def treeCell (t : CellRef) (m : U32) : CellRef := ⟨t.arr, t.idx + m⟩

/-- `L[m]` of the literal block with index `c` (42_literal_coder R150, R151). -/
def litCell (c m : U32) : CellRef := ⟨.literal, c * 768#32 + m⟩

/-- `cs = (state << 4) + ps` (30_encoding, section 2). -/
def stateIndex (st : U4) (ps : U32) : U32 := (st.setWidth 32 <<< 4) + ps

def isMatchCell (st : U4) (ps : U32) : CellRef := ⟨.isMatch, stateIndex st ps⟩
def isRepCell (st : U4) : CellRef := ⟨.isRep, st.setWidth 32⟩
def isRepG0Cell (st : U4) : CellRef := ⟨.isRepG0, st.setWidth 32⟩
def isRepG1Cell (st : U4) : CellRef := ⟨.isRepG1, st.setWidth 32⟩
def isRepG2Cell (st : U4) : CellRef := ⟨.isRepG2, st.setWidth 32⟩
def isRep0LongCell (st : U4) (ps : U32) : CellRef := ⟨.isRep0Long, stateIndex st ps⟩

/-- `posSlot[l]`, a 64-cell tree (10_state R36). -/
def posSlotTree (l : U32) : CellRef := ⟨.posSlot, l <<< 6⟩

/-- The posModels tree of `slot`, base `baseVal - slot - 1` (30_encoding R94). -/
def posModelsTree (slot : U32) : CellRef := ⟨.posModels, slotBase slot - slot - 1#32⟩

def posAlignTree : CellRef := ⟨.posAlign, 0#32⟩

/-- `C.choice[i]`, `C.low[ps]`, `C.mid[ps]`, `C.high` (10_state R37). -/
def choiceCell (c : LenSel) (i : U32) : CellRef := ⟨.lenChoice c, i⟩
def lowTree (c : LenSel) (ps : U32) : CellRef := ⟨.lenLow c, ps <<< 3⟩
def midTree (c : LenSel) (ps : U32) : CellRef := ⟨.lenMid c, ps <<< 3⟩
def highTree (c : LenSel) : CellRef := ⟨.lenHigh c, 0#32⟩

/-- Value of index `i` (0..3) of a quad. -/
def Quad.get (q : Quad) (i : Nat) : U32 :=
  match i with
  | 0 => q.r0
  | 1 => q.r1
  | 2 => q.r2
  | _ => q.r3

/-- `posState = nowPos & posStateMask` (00_scope R17). -/
def State.posState (s : State) : U32 := s.codec.nowPos.setWidth 32 &&& s.codec.posStateMask

end Sys2Proof.Machine
end

