-- ==== Sys2Proof/Machine/Flags.lean ====
section
/-! DEFINITION. The status bits, the words the host reads from the sixteen registers, and the irq
output (10_state R21..R31, 60_exceptions R325). Reads change nothing (log 27). -/

namespace Sys2Proof.Machine

/-- STATUS.DONE (10_state R32). -/
def State.doneFlag (s : State) : Bool := decide (s.phase = .done)

/-- STATUS.ERROR (10_state R32). -/
def State.errorFlag (s : State) : Bool := decide (s.phase = .error)

/-- irq (60_exceptions R325). -/
def State.irq (s : State) : Bool := s.host.irqEn && (s.doneFlag || s.errorFlag)

/-- A single bit of a register word at place `n`. -/
def bitAt (b : Bool) (n : Nat) : U32 := (if b then 1#32 else 0#32) <<< n

/-- CTRL as read (R21): OP reads 0. -/
def State.ctrlWordRead (s : State) : U32 :=
  bitAt s.host.irqEn 4 ||| bitAt s.host.writeEndMarker 5

/-- STATUS (R22). -/
def State.statusWord (s : State) : U32 :=
  bitAt s.busy 0 ||| bitAt s.doneFlag 1 ||| bitAt s.errorFlag 2 |||
    (s.host.errCode.setWidth 32 <<< 4) ||| bitAt s.host.earlyEnd 8 |||
    bitAt s.host.cmdIgnored 9 ||| bitAt s.host.outTruncated 10

/-- PROPS (R28). -/
def State.propsWord (s : State) : U32 :=
  s.codec.propsByte.setWidth 32 ||| (s.codec.lc.setWidth 32 <<< 8) |||
    (s.codec.lp.setWidth 32 <<< 12) ||| (s.codec.pb.setWidth 32 <<< 16)

/-- What the host reads from register `n` (R21..R31); a reserved or unlisted number reads 0. -/
def State.readReg (s : State) (n : Nat) : U32 :=
  match n with
  | 0 => s.ctrlWordRead
  | 1 => s.statusWord
  | 2 => s.host.level.setWidth 32
  | 3 => s.host.inLen
  | 4 => s.host.inPos
  | 5 => BitVec.ofNat 32 s.outCap
  | 6 => s.host.outLen.extractLsb' 0 32
  | 7 => s.host.outLen.extractLsb' 32 32
  | 8 => s.propsWord
  | 9 => s.codec.dictSize
  | 10 => s.host.size.extractLsb' 0 32
  | 11 => s.host.size.extractLsb' 32 32
  | 12 => s.encCfg.fastBytes.setWidth 32
  | 13 => match s.encCfg.mfKind with
    | .bt2 => 0#32
    | .bt4 => 1#32
  | 14 => s.params.maxDictSize
  | _ => 0#32

end Sys2Proof.Machine
end

