-- ==== Sys2Proof/Machine/RangeCoder.lean ====
section
/-! DEFINITION. Range encoder, range decoder and the price of a bit (40_range_coder). -/

namespace Sys2Proof.Machine

/-! ### Encoder -/

/-- The registers RC.ENC_INIT sets (R110). -/
def encInitRegs : RangeEnc :=
  { low := 0#64, range := 0xFFFFFFFF#32, cache := 0#8, cacheSize := 1#64, outPosition := 0#64 }

/-- RC.ENC_INIT (R110). -/
def encInit : Eng Unit := modify fun s => { s with enc := encInitRegs }

/-- One pass of R112's `do … while` after its OutWrite. -/
def countEmitted : Eng Unit :=
  modify fun s =>
    { s with
      enc :=
        { s.enc with
          outPosition := s.enc.outPosition + 1#64
          cacheSize := s.enc.cacheSize - 1#64 } }

/-- R112's `do … while`, `n` passes: the first emits `temp + carry`, the others `0xFF + carry`. -/
def emitPending (carry : Byte) : Nat → Byte → Eng Unit
  | 0, _ => pure ()
  | n + 1, temp => do
    outWrite (temp + carry)
    countEmitted
    emitPending carry n 0xFF#8

/-- Passes of R112's `do … while`: it ends when `cacheSize`, a u64, comes down to 0. -/
def pendingCount (cacheSize : U64) : Nat :=
  if cacheSize = 0#64 then 18446744073709551616 else cacheSize.toNat

/-- R112's byte output, run when the top byte of `low` is settled. -/
def emitSettled : Eng Unit := do
  let s ← get
  emitPending ((s.enc.low >>> 32).setWidth 8) (pendingCount s.enc.cacheSize) s.enc.cache
  modify fun s => { s with enc := { s.enc with cache := (s.enc.low >>> 24).setWidth 8 } }

/-- R112's byte output if the top byte of `low` is settled. -/
def emitIfSettled : Eng Unit := do
  let s ← get
  if s.enc.low < 0xFF000000#64 ∨ 0x100000000#64 ≤ s.enc.low then emitSettled else pure ()

/-- RC.SHIFT_LOW (R112). -/
def shiftLow : Eng Unit := do
  emitIfSettled
  modify fun s =>
    { s with
      enc :=
        { s.enc with
          cacheSize := s.enc.cacheSize + 1#64
          low := (s.enc.low &&& 0x00FFFFFF#64) <<< 8 } }

/-- The renormalisation of R111 and R113. -/
def encNormalise : Eng Unit := do
  let s ← get
  if s.enc.range < kTopValue then
    modify fun s => { s with enc := { s.enc with range := s.enc.range <<< 8 } }
    shiftLow
  else pure ()

/-- A probability after coding `bit` (R114). -/
def adapt (p : U16) (bit : Bool) : U16 :=
  if bit then p - (p >>> 5) else p + ((2048#16 - p) >>> 5)

/-- `bound` of R111 and R121. -/
def bitBound (range : U32) (p : U16) : U32 := (range >>> 11) * p.setWidth 32

/-- The interval after coding `bit` (R111). -/
def narrow (e : RangeEnc) (bound : U32) (bit : Bool) : RangeEnc :=
  if bit then { e with low := e.low + bound.setWidth 64, range := e.range - bound }
  else { e with range := bound }

/-- RC.ENC_BIT (R111). -/
def encBit (c : CellRef) (bit : Bool) : Eng Unit := do
  modify fun s =>
    { s.setProb c (adapt (s.prob c) bit) with
      enc := narrow s.enc (bitBound s.enc.range (s.prob c)) bit }
  encNormalise

/-- The interval halved for one direct bit (R113). -/
def halve (e : RangeEnc) (bit : Bool) : RangeEnc :=
  { e with
    range := e.range >>> 1
    low := if bit then e.low + (e.range >>> 1).setWidth 64 else e.low }

/-- One bit of RC.ENC_DIRECT (R113). -/
def encDirectBit (bit : Bool) : Eng Unit := do
  modify fun s => { s with enc := halve s.enc bit }
  encNormalise

/-- RC.ENC_DIRECT (R113): bits `n-1 .. 0` of `value`. -/
def encDirect (value : U32) : Nat → Eng Unit
  | 0 => pure ()
  | n + 1 => do
    encDirectBit (value.getLsbD n)
    encDirect value n

/-- `n` times RC.SHIFT_LOW. -/
def shiftLowTimes : Nat → Eng Unit
  | 0 => pure ()
  | n + 1 => do
    shiftLow
    shiftLowTimes n

/-- RC.ENC_FLUSH (R117). -/
def encFlush : Eng Unit := shiftLowTimes 5

/-! ### Decoder -/

/-- `code <- (code << 8) | ReadByte()`. -/
def decShiftIn : Eng Unit := do
  let b ← readByte
  modify fun s => { s with dec := { s.dec with code := (s.dec.code <<< 8) ||| b.setWidth 32 } }

def decShiftInTimes : Nat → Eng Unit
  | 0 => pure ()
  | n + 1 => do
    decShiftIn
    decShiftInTimes n

/-- RC.DEC_INIT (R120). -/
def decInit : Eng Unit := do
  modify fun s => { s with dec := { code := 0#32, range := 0xFFFFFFFF#32 } }
  decShiftInTimes 5

/-- The renormalisation of R121 and R122: the byte is read before `range` moves. -/
def decNormalise : Eng Unit := do
  let s ← get
  if s.dec.range < kTopValue then
    decShiftIn
    modify fun s => { s with dec := { s.dec with range := s.dec.range <<< 8 } }
  else pure ()

/-- The decoder's registers after the decision of R121. -/
def decNarrow (d : RangeDec) (bound : U32) : RangeDec :=
  if d.code < bound then { d with range := bound }
  else { code := d.code - bound, range := d.range - bound }

/-- RC.DEC_BIT (R121). -/
def decBit (c : CellRef) : Eng Bool := do
  let s ← get
  let bound := bitBound s.dec.range (s.prob c)
  let bit := !decide (s.dec.code < bound)
  set { s.setProb c (adapt (s.prob c) bit) with dec := decNarrow s.dec bound }
  decNormalise
  pure bit

/-- One bit of RC.DEC_DIRECT (R122), written as the rule's sign-bit form. -/
def decDirectBit : Eng Bool := do
  let s ← get
  let range := s.dec.range >>> 1
  let t := (s.dec.code - range) >>> 31
  set { s with dec := { code := s.dec.code - (range &&& (t - 1#32)), range := range } }
  decNormalise
  pure (decide (t = 0#32))

/-- RC.DEC_DIRECT (R122): `n` bits onto `result`. -/
def decDirect : Nat → U32 → Eng U32
  | 0, result => pure result
  | n + 1, result => do
    let b ← decDirectBit
    decDirect n ((result <<< 1) ||| (if b then 1#32 else 0#32))

/-! ### Price of a bit -/

/-- RC.PRICE_BIT (R126). -/
def priceBit (p : U16) (bit : Bool) : U32 :=
  if bit then probPrice ((2048#16 - p) >>> 2).toNat else probPrice (p >>> 2).toNat

/-- `PriceBit` of a cell. -/
def State.cellPrice (s : State) (c : CellRef) (bit : Bool) : U32 := priceBit (s.prob c) bit

/-! ### Meanings -/

def execRcEncInit (s : State) : Host.Outcome State Fault Refusal := completeUnit encInit s

def execRcEncBit (p : CellRef) (bit : Bool) (s : State) : Host.Outcome State Fault Refusal :=
  completeUnit (encBit p bit) s

def execRcShiftLow (s : State) : Host.Outcome State Fault Refusal := completeUnit shiftLow s

def execRcEncDirect (value : U32) (n : Byte) (s : State) : Host.Outcome State Fault Refusal :=
  completeUnit (encDirect value n.toNat) s

def execRcEncFlush (s : State) : Host.Outcome State Fault Refusal := completeUnit encFlush s

def execRcDecInit (s : State) : Host.Outcome State Fault Refusal := completeUnit decInit s

def bitWord (b : Bool) : U32 := if b then 1#32 else 0#32

def execRcDecBit (p : CellRef) (s : State) : Host.Outcome State Fault Refusal :=
  completeWord (decBit p >>= fun b => pure (bitWord b)) s

def execRcDecDirect (n : Byte) (s : State) : Host.Outcome State Fault Refusal :=
  completeWord (decDirect n.toNat 0#32) s

def execRcPriceBit (p : U16) (bit : Bool) (s : State) : Host.Outcome State Fault Refusal :=
  answer (.word (priceBit p bit)) s

end Sys2Proof.Machine
end

