-- ==== Sys2Proof/Machine/BitTree.lean ====
section
/-! DEFINITION. Bit trees (41_bit_tree R135..R145). -/

namespace Sys2Proof.Machine

/-- The child of node `m` that decision `b` leads to. -/
def childNode (m : U32) (b : Bool) : U32 := (m <<< 1) ||| bitWord b

/-- R135's loop from bit `n - 1` at node `m`. -/
def btEncFrom (t : CellRef) (sym : U32) : Nat → U32 → Eng Unit
  | 0, _ => pure ()
  | n + 1, m => do
    encBit (treeCell t m) (sym.getLsbD n)
    btEncFrom t sym n (childNode m (sym.getLsbD n))

/-- BT.ENC (R135). -/
def btEnc (t : CellRef) (n : Nat) (sym : U32) : Eng Unit := btEncFrom t sym n 1#32

/-- R136's loop, `n` levels from node `m`: the node reached. -/
def btDecFrom (t : CellRef) : Nat → U32 → Eng U32
  | 0, m => pure m
  | n + 1, m => do
    let b ← decBit (treeCell t m)
    btDecFrom t n ((m <<< 1) + bitWord b)

/-- BT.DEC (R136). -/
def btDec (t : CellRef) (n : Nat) : Eng U32 := do
  let m ← btDecFrom t n 1#32
  pure (m - (1#32 <<< n))

/-- R137's loop from bit `n - 1` at node `m`. -/
def btPriceFrom (s : State) (t : CellRef) (sym : U32) : Nat → U32 → U32
  | 0, _ => 0#32
  | n + 1, m =>
    s.cellPrice (treeCell t m) (sym.getLsbD n) +
      btPriceFrom s t sym n (childNode m (sym.getLsbD n))

/-- BT.PRICE (R137). -/
def btPrice (s : State) (t : CellRef) (n : Nat) (sym : U32) : U32 := btPriceFrom s t sym n 1#32

/-- R138's loop, `n` levels from node `m`. -/
def btRencFrom (t : CellRef) : Nat → U32 → U32 → Eng Unit
  | 0, _, _ => pure ()
  | n + 1, sym, m => do
    encBit (treeCell t m) (sym.getLsbD 0)
    btRencFrom t n (sym >>> 1) (childNode m (sym.getLsbD 0))

/-- BT.RENC (R138). -/
def btRenc (t : CellRef) (n : Nat) (sym : U32) : Eng Unit := btRencFrom t n sym 1#32

/-- R139's loop, `n` levels from node `m`, the next decision being bit `i`. -/
def btRdecFrom (t : CellRef) : Nat → Nat → U32 → U32 → Eng U32
  | 0, _, _, sym => pure sym
  | n + 1, i, m, sym => do
    let b ← decBit (treeCell t m)
    btRdecFrom t n (i + 1) ((m <<< 1) + bitWord b) (sym ||| (bitWord b <<< i))

/-- BT.RDEC (R139). -/
def btRdec (t : CellRef) (n : Nat) : Eng U32 := btRdecFrom t n 0 1#32 0#32

/-- R140's loop, `n` levels from node `m`. -/
def btRpriceFrom (s : State) (t : CellRef) : Nat → U32 → U32 → U32
  | 0, _, _ => 0#32
  | n + 1, sym, m =>
    s.cellPrice (treeCell t m) (sym.getLsbD 0) +
      btRpriceFrom s t n (sym >>> 1) (childNode m (sym.getLsbD 0))

/-- BT.RPRICE (R140). -/
def btRprice (s : State) (t : CellRef) (n : Nat) (sym : U32) : U32 := btRpriceFrom s t n sym 1#32

/-- BT.INIT (R145): the `k` cells from `a` on hold 1024, which is what unlisted cells hold. -/
def btInit (a : CellRef) (k : U32) (s : State) : State :=
  { s with probs := Store.clear s.probs (cellKey a) k.toNat }

/-! ### Meanings -/

def execBtEnc (t : CellRef) (n sym : Byte) (s : State) : Host.Outcome State Fault Refusal :=
  completeUnit (btEnc t n.toNat (sym.setWidth 32)) s

def execBtDec (t : CellRef) (n : Byte) (s : State) : Host.Outcome State Fault Refusal :=
  completeWord (btDec t n.toNat) s

def execBtPrice (t : CellRef) (n sym : Byte) (s : State) : Host.Outcome State Fault Refusal :=
  answer (.word (btPrice s t n.toNat (sym.setWidth 32))) s

def execBtRenc (t : CellRef) (n sym : Byte) (s : State) : Host.Outcome State Fault Refusal :=
  completeUnit (btRenc t n.toNat (sym.setWidth 32)) s

def execBtRdec (t : CellRef) (n : Byte) (s : State) : Host.Outcome State Fault Refusal :=
  completeWord (btRdec t n.toNat) s

def execBtRprice (t : CellRef) (n sym : Byte) (s : State) : Host.Outcome State Fault Refusal :=
  answer (.word (btRprice s t n.toNat (sym.setWidth 32))) s

def execBtInit (a : CellRef) (k : U32) (s : State) : Host.Outcome State Fault Refusal :=
  answer .none (btInit a k s)

end Sys2Proof.Machine
end

