-- ==== Sys2Proof/Machine/Literal.lean ====
section
/-! DEFINITION. Literal coder (42_literal_coder R150..R156). -/

namespace Sys2Proof.Machine

/-- LIT.SELECT (R150) with the session's `lc` and `lp`. -/
def litSelect (s : State) (pos : U64) (prevByte : Byte) : U32 :=
  ((pos.setWidth 32 &&& ((1#32 <<< s.codec.lp.toNat) - 1#32)) <<< s.codec.lc.toNat) +
    (prevByte.setWidth 32 >>> (8 - s.codec.lc.toNat))

/-- R152's loop from bit `n - 1` at node `ctx`. -/
def litEncFrom (c : U32) (sym : Byte) : Nat → U32 → Eng Unit
  | 0, _ => pure ()
  | n + 1, ctx => do
    encBit (litCell c ctx) (sym.getLsbD n)
    litEncFrom c sym n (childNode ctx (sym.getLsbD n))

/-- LIT.ENC (R152). -/
def litEnc (c : U32) (sym : Byte) : Eng Unit := litEncFrom c sym 8 1#32

/-- The matched-mode cell of node `ctx` for predicted bit `mb` (R153, R155, R156). -/
def matchedCell (c ctx : U32) (mb : Bool) : CellRef :=
  litCell c (((1#32 + bitWord mb) <<< 8) + ctx)

/-- R153's loop from bit `n - 1` at node `ctx` while the bits agree with `matchByte`; from the bit
after the first difference on it is R152's. -/
def litEncMatchedFrom (c : U32) (matchByte sym : Byte) : Nat → U32 → Eng Unit
  | 0, _ => pure ()
  | n + 1, ctx => do
    encBit (matchedCell c ctx (matchByte.getLsbD n)) (sym.getLsbD n)
    if matchByte.getLsbD n = sym.getLsbD n then
      litEncMatchedFrom c matchByte sym n (childNode ctx (sym.getLsbD n))
    else litEncFrom c sym n (childNode ctx (sym.getLsbD n))

/-- LIT.ENC_MATCHED (R153). -/
def litEncMatched (c : U32) (matchByte sym : Byte) : Eng Unit :=
  litEncMatchedFrom c matchByte sym 8 1#32

/-- R154's loop, `n` levels from node `node`. -/
def litDecFrom (c : U32) : Nat → U32 → Eng U32
  | 0, node => pure node
  | n + 1, node => do
    let b ← decBit (litCell c node)
    litDecFrom c n (childNode node b)

/-- LIT.DEC (R154). -/
def litDec (c : U32) : Eng Byte := do
  let m ← litDecFrom c 8 1#32
  pure (m.setWidth 8)

/-- R155's loop, `n` levels from node `node`. -/
def litDecMatchedFrom (c : U32) (matchByte : Byte) : Nat → U32 → Eng U32
  | 0, node => pure node
  | n + 1, node => do
    let b ← decBit (matchedCell c node (matchByte.getLsbD n))
    if matchByte.getLsbD n = b then litDecMatchedFrom c matchByte n (childNode node b)
    else litDecFrom c n (childNode node b)

/-- LIT.DEC_MATCHED (R155). -/
def litDecMatched (c : U32) (matchByte : Byte) : Eng Byte := do
  let m ← litDecMatchedFrom c matchByte 8 1#32
  pure (m.setWidth 8)

/-- R156's second loop from bit `n - 1` at node `ctx`. -/
def litPriceFrom (s : State) (c : U32) (sym : Byte) : Nat → U32 → U32
  | 0, _ => 0#32
  | n + 1, ctx =>
    s.cellPrice (litCell c ctx) (sym.getLsbD n) +
      litPriceFrom s c sym n (childNode ctx (sym.getLsbD n))

/-- R156's first loop from bit `n - 1` at node `ctx`. -/
def litPriceMatchedFrom (s : State) (c : U32) (matchByte sym : Byte) : Nat → U32 → U32
  | 0, _ => 0#32
  | n + 1, ctx =>
    s.cellPrice (matchedCell c ctx (matchByte.getLsbD n)) (sym.getLsbD n) +
      if matchByte.getLsbD n = sym.getLsbD n then
        litPriceMatchedFrom s c matchByte sym n (childNode ctx (sym.getLsbD n))
      else litPriceFrom s c sym n (childNode ctx (sym.getLsbD n))

/-- LIT.PRICE (R156). -/
def litPrice (s : State) (c : U32) (matchMode : Bool) (matchByte sym : Byte) : U32 :=
  if matchMode then litPriceMatchedFrom s c matchByte sym 8 1#32
  else litPriceFrom s c sym 8 1#32

/-! ### Meanings -/

def execLitSelect (pos : U64) (prevByte : Byte) (s : State) : Host.Outcome State Fault Refusal :=
  answer (.word (litSelect s pos prevByte)) s

def execLitEnc (c : U16) (sym : Byte) (s : State) : Host.Outcome State Fault Refusal :=
  completeUnit (litEnc (c.setWidth 32) sym) s

def execLitEncMatched (c : U16) (matchByte sym : Byte) (s : State) :
    Host.Outcome State Fault Refusal :=
  completeUnit (litEncMatched (c.setWidth 32) matchByte sym) s

def execLitDec (c : U16) (s : State) : Host.Outcome State Fault Refusal :=
  completeWord (litDec (c.setWidth 32) >>= fun b => pure (b.setWidth 32)) s

def execLitDecMatched (c : U16) (matchByte : Byte) (s : State) :
    Host.Outcome State Fault Refusal :=
  completeWord (litDecMatched (c.setWidth 32) matchByte >>= fun b => pure (b.setWidth 32)) s

def execLitPrice (c : U16) (matchMode : Bool) (matchByte sym : Byte) (s : State) :
    Host.Outcome State Fault Refusal :=
  answer (.word (litPrice s (c.setWidth 32) matchMode matchByte sym)) s

end Sys2Proof.Machine
end

