-- ==== Sys2Proof/Machine/Length.lean ====
section
/-! DEFINITION. Length coder and its price table (43_length_coder R165..R170). -/

namespace Sys2Proof.Machine

/-- LEN.ENC (R165). -/
def lenEnc (c : LenSel) (k ps : U32) : Eng Unit := do
  if k < 8#32 then
    encBit (choiceCell c 0#32) false
    btEnc (lowTree c ps) 3 k
  else if k < 16#32 then
    encBit (choiceCell c 0#32) true
    encBit (choiceCell c 1#32) false
    btEnc (midTree c ps) 3 (k - 8#32)
  else
    encBit (choiceCell c 0#32) true
    encBit (choiceCell c 1#32) true
    btEnc (highTree c) 8 (k - 16#32)

/-- LEN.DEC (R166). -/
def lenDec (c : LenSel) (ps : U32) : Eng U32 := do
  let first ← decBit (choiceCell c 0#32)
  if first then
    let second ← decBit (choiceCell c 1#32)
    if second then
      let k ← btDec (highTree c) 8
      pure (16#32 + k)
    else
      let k ← btDec (midTree c ps) 3
      pure (8#32 + k)
  else btDec (lowTree c ps) 3

/-- The price table of length coder `c`. -/
def Prices.len (p : Prices) : LenSel → LenPrices
  | .matchLen => p.matchLen
  | .repLen => p.repLen

def Prices.setLen (p : Prices) (c : LenSel) (v : LenPrices) : Prices :=
  match c with
  | .matchLen => { p with matchLen := v }
  | .repLen => { p with repLen := v }

/-- Where `prices[ps][k]` stands (10_state R42: 272 entries a row). -/
def lenPriceIndex (ps k : Nat) : Nat := ps * 272 + k

/-- The price R167 gives symbol `k`. -/
def lenSymbolPrice (s : State) (c : LenSel) (ps k : U32) : U32 :=
  let a1 := s.cellPrice (choiceCell c 0#32) true
  if k < 8#32 then s.cellPrice (choiceCell c 0#32) false + btPrice s (lowTree c ps) 3 k
  else if k < 16#32 then
    a1 + s.cellPrice (choiceCell c 1#32) false + btPrice s (midTree c ps) 3 (k - 8#32)
  else a1 + s.cellPrice (choiceCell c 1#32) true + btPrice s (highTree c) 8 (k - 16#32)

/-- R167's loop over the symbols below `n`. -/
def fillLenPrices (s : State) (c : LenSel) (ps : U32) : Nat → Store U32 → Store U32
  | 0, t => t
  | n + 1, t =>
    Store.set 0#32 (fillLenPrices s c ps n t) (lenPriceIndex ps.toNat n)
      (lenSymbolPrice s c ps (BitVec.ofNat 32 n))

/-- LEN.SET_PRICES (R167). -/
def lenSetPrices (c : LenSel) (ps : U32) (s : State) : State :=
  let t := s.prices.len c
  { s with
    prices := s.prices.setLen c
      { t with
        prices := fillLenPrices s c ps t.tableSize.toNat t.prices
        counters := Store.set 0#32 t.counters ps.toNat t.tableSize } }

/-- LEN.PRICE (R168). At and past `C.tableSize`, outside the rule's operand range, it answers what the
table holds there (log 34). -/
def lenPrice (s : State) (c : LenSel) (k ps : U32) : U32 :=
  Store.get 0#32 (s.prices.len c).prices (lenPriceIndex ps.toNat k.toNat)

/-- `C.counters[ps] <- v`. -/
def setLenCounter (c : LenSel) (ps v : U32) (s : State) : State :=
  let t := s.prices.len c
  { s with prices := s.prices.setLen c { t with counters := Store.set 0#32 t.counters ps.toNat v } }

/-- Whether a table is refreshed at a refresh point where the SDK's cadence says `due` (R171; 00_scope
R9, PRICE_REFRESH; log 7). -/
def refreshDue (s : State) (point : Nat) (due : Bool) : Bool :=
  match s.params.priceRefresh with
  | .sdk => due
  | .other => Config.freeRefresh s.freeCount point

/-- The refresh point of the length prices `C.prices[ps]`; points 0 and 1 are those of FILL_DIST and
FILL_ALIGN. -/
def lenPoint (c : LenSel) (ps : Nat) : Nat :=
  2 + 2 * ps + match c with
    | .matchLen => 0
    | .repLen => 1

/-- R169 after LEN.ENC: count down, and refresh at 0. -/
def lenCount (c : LenSel) (ps : U32) (s : State) : State :=
  let v := Store.get 0#32 (s.prices.len c).counters ps.toNat - 1#32
  let s := setLenCounter c ps v s
  if refreshDue s (lenPoint c ps.toNat) (decide (v = 0#32)) then lenSetPrices c ps s else s

/-- LEN.ENC_COUNTED (R169). -/
def lenEncCounted (c : LenSel) (k ps : U32) : Eng Unit := do
  lenEnc c k ps
  modify (lenCount c ps)

/-! ### Meanings -/

def execLenEnc (c : LenSel) (k : U16) (ps : Byte) (s : State) : Host.Outcome State Fault Refusal :=
  completeUnit (lenEnc c (k.setWidth 32) (ps.setWidth 32)) s

def execLenDec (c : LenSel) (ps : Byte) (s : State) : Host.Outcome State Fault Refusal :=
  completeWord (lenDec c (ps.setWidth 32)) s

def execLenSetPrices (c : LenSel) (ps : Byte) (s : State) : Host.Outcome State Fault Refusal :=
  answer .none (lenSetPrices c (ps.setWidth 32) s)

def execLenPrice (c : LenSel) (k : U16) (ps : Byte) (s : State) :
    Host.Outcome State Fault Refusal :=
  answer (.word (lenPrice s c (k.setWidth 32) (ps.setWidth 32))) s

def execLenEncCounted (c : LenSel) (k : U16) (ps : Byte) (s : State) :
    Host.Outcome State Fault Refusal :=
  completeUnit (lenEncCounted c (k.setWidth 32) (ps.setWidth 32)) s

end Sys2Proof.Machine
end

