-- ==== Sys2Proof/Machine/MatchFinder.lean ====
section
/-! DEFINITION. Binary-tree match finder (44_match_finder R180..R195). The functions take the state
`e` they read (IN, the configuration) and the match finder `m` they change, so nothing else can
change. The bound tests take sums of positions as exact integers, as R189 and R193 need (log 18), and
every index into IN is an exact integer: one past 2^32 - 1 or below 0 names no byte of IN and reads a
free byte, where 00_scope R10's u32 would wrap (DESIGN CHOICE, log 35). -/

namespace Sys2Proof.Machine

/-! ### The kinds (R195) -/

/-- kFix (R180). -/
def MfKind.kFix : MfKind → Nat
  | .bt2 => 0
  | .bt4 => 66560

/-- directBytes (R180). -/
def MfKind.directBytes : MfKind → U32
  | .bt2 => 2#32
  | .bt4 => 0#32

/-- minMatchCheck (R180). -/
def MfKind.minMatchCheck : MfKind → U32
  | .bt2 => 3#32
  | .bt4 => 4#32

/-- hashMask of R180 for `dictSize`. -/
def hashMaskFor (kind : MfKind) (dictSize : U32) : U32 :=
  match kind with
  | .bt2 => 0xFFFF#32
  | .bt4 =>
    let hs := dictSize - 1#32
    let hs := hs ||| (hs >>> 1)
    let hs := hs ||| (hs >>> 2)
    let hs := hs ||| (hs >>> 4)
    let hs := hs ||| (hs >>> 8)
    let hs := (hs >>> 1) ||| 0xFFFF#32
    if 0x1000000#32 < hs then hs >>> 1 else hs

/-- MF.INIT (R180): `son` keeps what it holds (R188). -/
def mfInit (e : State) (m : MatchFinder) : MatchFinder :=
  { pos := 1#32
    streamPos := e.host.inLen + 1#32
    cyclicBufferSize := e.codec.dictSize + 1#32
    cyclicBufferPos := 0#32
    son := m.son
    hash := []
    hashMask := hashMaskFor e.encCfg.mfKind e.codec.dictSize
    cutValue := 16#32 + (e.encCfg.fastBytes >>> 1).setWidth 32
    matchMaxLen := e.encCfg.fastBytes.setWidth 32 }

/-! ### Accessors -/

/-- MF.AVAIL (R185). -/
def mfAvail (m : MatchFinder) : U32 := m.streamPos - m.pos

/-- The index of MF.INDEX_BYTE (R186), exact (DESIGN CHOICE, log 35). -/
def mfIndex (m : MatchFinder) (k : Int) : Int := (m.pos.toNat : Int) - 1 + k

/-- MF.INDEX_BYTE (R186). -/
def mfIndexByte (e : State) (m : MatchFinder) (k : Int) : Byte := e.inByte (mfIndex m k)

/-- MF.MOVE_POS (R187). -/
def mfMovePos (m : MatchFinder) : MatchFinder :=
  { m with
    cyclicBufferPos :=
      if m.cyclicBufferSize ≤ m.cyclicBufferPos + 1#32 then 0#32 else m.cyclicBufferPos + 1#32
    pos := m.pos + 1#32 }

/-- `matchMinPos` (R182). -/
def matchMinPos (m : MatchFinder) : U32 :=
  if m.cyclicBufferSize < m.pos then m.pos - m.cyclicBufferSize else 0#32

/-- R189's loop: how many bytes from `p` equal those `back` before them, at most `n`. -/
def runLength (e : State) (p back : Int) : Nat → Nat
  | 0 => 0
  | n + 1 => if e.inByte p = e.inByte (p - back) then runLength e (p + 1) back n + 1 else 0

/-- `limit` of R189 after its first line: 0 where `pos + k` is past `streamPos`, the difference being an
exact integer as the test is (log 18). -/
def matchLimit (m : MatchFinder) (k : Int) (limit : Nat) : Nat :=
  if (m.streamPos.toNat : Int) < m.pos.toNat + k + limit then
    ((m.streamPos.toNat : Int) - (m.pos.toNat + k)).toNat
  else limit

/-- MF.MATCH_LEN (R189). `p + i` and `d + 1` are exact: for `d = 0xFFFFFFFF` the byte compared with lies
2^32 back, outside IN (DESIGN CHOICE, log 35). -/
def mfMatchLen (e : State) (m : MatchFinder) (k : Int) (d : U32) (limit : Nat) : Nat :=
  runLength e (mfIndex m k) ((d.toNat : Int) + 1) (matchLimit m k limit)

/-! ### Hashes (R184) -/

structure Hashes where
  h2 : U32
  h3 : U32
  hv : U32
  deriving DecidableEq, Repr

/-- MF.HASH (R184); `h2` and `h3` mean nothing for BT2. `cur + j` is exact: for a `cur` near 2^32, as
0xFFFFFFFF from `pos` 0, it is an index past IN and no wrap to IN[0] (DESIGN CHOICE, log 35). -/
def mfHash (e : State) (m : MatchFinder) (cur : U32) : Hashes :=
  let byte (j : Nat) : Byte := e.inByte (cur.toNat + j)
  match e.encCfg.mfKind with
  | .bt4 =>
    let t := crc (byte 0) ^^^ (byte 1).setWidth 32
    let t3 := t ^^^ ((byte 2).setWidth 32 <<< 8)
    { h2 := t &&& 1023#32
      h3 := t3 &&& 0xFFFF#32
      hv := (t3 ^^^ (crc (byte 3) <<< 5)) &&& m.hashMask }
  | .bt2 =>
    { h2 := 0#32
      h3 := 0#32
      hv := (byte 0).setWidth 32 ^^^ ((byte 1).setWidth 32 <<< 8) }

def hashGet (m : MatchFinder) (i : Nat) : U32 := Store.get 0#32 m.hash i

def hashSet (m : MatchFinder) (i : Nat) (v : U32) : MatchFinder :=
  { m with hash := Store.set 0#32 m.hash i v }

/-- The cell of `h2`, of `h3` and of the bucket (R190). -/
def hash2Index (h : Hashes) : Nat := h.h2.toNat
def hash3Index (h : Hashes) : Nat := 1024 + h.h3.toNat
def bucketIndex (kind : MfKind) (h : Hashes) : Nat := kind.kFix + h.hv.toNat

/-! ### The tree walk (R191) -/

def sonGet (son : Store U32) (i : U32) : U32 := Store.get 0#32 son i.toNat

def sonSet (son : Store U32) (i v : U32) : Store U32 := Store.set 0#32 son i.toNat v

/-- The son slot of a tag `delta` back (R182, R191). -/
def sonSlot (m : MatchFinder) (delta : U32) : U32 :=
  2#32 * (if delta ≤ m.cyclicBufferPos then m.cyclicBufferPos - delta
    else m.cyclicBufferPos - delta + m.cyclicBufferSize)

/-- R191's inner `while`: from `len`, at most `n` further bytes. `pby1 + len` and `cur + len` are exact,
here and below (DESIGN CHOICE, log 35). -/
def extendMatch (e : State) (pby1 cur : U32) : Nat → U32 → U32
  | 0, len => len
  | n + 1, len =>
    if e.inByte (pby1.toNat + len.toNat) = e.inByte (cur.toNat + len.toNat) then
      extendMatch e pby1 cur n (len + 1#32)
    else len

/-- The locals of R191's loop. -/
structure Walk where
  son : Store U32
  ptr0 : U32
  ptr1 : U32
  len0 : U32
  len1 : U32
  curMatch : U32
  /-- `D` of R190, in order -/
  d : List U32
  maxLen : U32
  deriving DecidableEq, Repr

/-- R191: `maxLen` and `D` after a match of `len` bytes at `delta`. -/
def emitPair (emit : Bool) (w : Walk) (len delta : U32) : Walk :=
  if emit && decide (w.maxLen < len) then
    { w with maxLen := len, d := w.d ++ [len, delta - 1#32] }
  else w

/-- R191: descend past the candidate, which matches exactly `len` bytes. -/
def descend (e : State) (cur cp len : U32) (w : Walk) : Walk :=
  if e.inByte ((w.curMatch - 1#32).toNat + len.toNat) < e.inByte (cur.toNat + len.toNat) then
    let son := sonSet w.son w.ptr1 w.curMatch
    { w with son := son, ptr1 := cp + 1#32, curMatch := sonGet son (cp + 1#32), len1 := len }
  else
    let son := sonSet w.son w.ptr0 w.curMatch
    { w with son := son, ptr0 := cp, curMatch := sonGet son cp, len0 := len }

/-- R191: the new root takes the children of the candidate that matches `lenLimit` bytes. -/
def splice (cp : U32) (w : Walk) : Walk :=
  let son := sonSet w.son w.ptr1 (sonGet w.son cp)
  { w with son := sonSet son w.ptr0 (sonGet son (cp + 1#32)) }

/-- R191: the walk ends with no candidate left. -/
def closeWalk (w : Walk) : Walk :=
  { w with son := sonSet (sonSet w.son w.ptr0 0#32) w.ptr1 0#32 }

/-- The length matched against the current candidate (R191), starting from `min len0 len1`. -/
def candidateLength (e : State) (cur lenLimit : U32) (w : Walk) : U32 :=
  let pby1 := w.curMatch - 1#32
  let len := if w.len0 ≤ w.len1 then w.len0 else w.len1
  if e.inByte (pby1.toNat + len.toNat) = e.inByte (cur.toNat + len.toNat) then
    extendMatch e pby1 cur (lenLimit - (len + 1#32)).toNat (len + 1#32)
  else len

/-- R191: the candidate has at least one byte more than `min len0 len1`. -/
def candidateExtends (e : State) (cur : U32) (w : Walk) : Bool :=
  let pby1 := w.curMatch - 1#32
  let len := if w.len0 ≤ w.len1 then w.len0 else w.len1
  decide (e.inByte (pby1.toNat + len.toNat) = e.inByte (cur.toNat + len.toNat))

/-- R191's loop with `count` comparisons left. -/
def walkLoop (e : State) (m : MatchFinder) (cur lenLimit : U32) (emit : Bool) :
    Nat → Walk → Walk
  | 0, w => closeWalk w
  | count + 1, w =>
    if w.curMatch ≤ matchMinPos m then closeWalk w
    else
      let delta := m.pos - w.curMatch
      let cp := sonSlot m delta
      let len := candidateLength e cur lenLimit w
      if candidateExtends e cur w then
        let w := emitPair emit w len delta
        if len = lenLimit then splice cp w
        else walkLoop e m cur lenLimit emit count (descend e cur cp len w)
      else walkLoop e m cur lenLimit emit count (descend e cur cp len w)

/-- MF.TREE_WALK (R191) from `D = d` and `maxLen`. -/
def mfTreeWalk (e : State) (m : MatchFinder) (curMatch lenLimit : U32) (emit : Bool)
    (d : List U32) (maxLen : U32) : MatchFinder × List U32 :=
  let w := walkLoop e m (m.pos - 1#32) lenLimit emit m.cutValue.toNat
    { son := m.son
      ptr0 := 2#32 * m.cyclicBufferPos + 1#32
      ptr1 := 2#32 * m.cyclicBufferPos
      len0 := e.encCfg.mfKind.directBytes
      len1 := e.encCfg.mfKind.directBytes
      curMatch := curMatch
      d := d
      maxLen := maxLen }
  ({ m with son := w.son }, w.d)

/-! ### GET_MATCHES and SKIP -/

/-- `lenLimit` of R190 and R194; none when fewer than minMatchCheck bytes are left. -/
def mfLenLimit (e : State) (m : MatchFinder) : Option U32 :=
  if m.pos.toNat + m.matchMaxLen.toNat ≤ m.streamPos.toNat then some m.matchMaxLen
  else if m.streamPos - m.pos < e.encCfg.mfKind.minMatchCheck then none
  else some (m.streamPos - m.pos)

/-- `D` and `maxLen` after R190's 2- and 3-byte candidates (BT4). -/
def shortCandidates (e : State) (m : MatchFinder) (cur m2 m3 curMatch : U32) : List U32 × U32 :=
  let same (t : U32) : Bool :=
    decide (matchMinPos m < t) && decide (e.inByte ((t.toNat : Int) - 1) = e.inByte cur.toNat)
  let first : List U32 × U32 :=
    if same m2 then ([2#32, m.pos - m2 - 1#32], 2#32) else ([], 1#32)
  let second : List U32 × U32 × U32 :=
    if same m3 then
      ((if m3 = m2 then first.1.dropLast.dropLast else first.1) ++ [3#32, m.pos - m3 - 1#32],
        3#32, m3)
    else (first.1, first.2, m2)
  if second.1 ≠ [] ∧ second.2.2 = curMatch then (second.1.dropLast.dropLast, 1#32)
  else (second.1, second.2.1)

/-- R190's candidates found before the walk, and `maxLen`. BT2's indices `curMatch - 1 + 2` and `cur + 2`
are exact (DESIGN CHOICE, log 35). -/
def directCandidates (e : State) (m : MatchFinder) (cur : U32) (h : Hashes) : List U32 × U32 :=
  let curMatch := hashGet m (bucketIndex e.encCfg.mfKind h)
  match e.encCfg.mfKind with
  | .bt4 => shortCandidates e m cur (hashGet m (hash2Index h)) (hashGet m (hash3Index h)) curMatch
  | .bt2 =>
    if matchMinPos m < curMatch ∧ e.inByte (curMatch.toNat + 1) ≠ e.inByte (cur.toNat + 2) then
      ([2#32, m.pos - curMatch - 1#32], 2#32)
    else ([], 1#32)

/-- The hash cells R190 and R194 write: 3 for BT4, 1 for BT2. -/
def hashInsert (e : State) (m : MatchFinder) (h : Hashes) : MatchFinder :=
  match e.encCfg.mfKind with
  | .bt4 =>
    hashSet (hashSet (hashSet m (hash2Index h) m.pos) (hash3Index h) m.pos)
      (bucketIndex .bt4 h) m.pos
  | .bt2 => hashSet m (bucketIndex .bt2 h) m.pos

/-- MF.GET_MATCHES (R190). -/
def mfGetMatches (e : State) (m : MatchFinder) : MatchFinder × List U32 :=
  match mfLenLimit e m with
  | none => (mfMovePos m, [])
  | some lenLimit =>
    let cur := m.pos - 1#32
    let h := mfHash e m cur
    let curMatch := hashGet m (bucketIndex e.encCfg.mfKind h)
    let first := directCandidates e m cur h
    let r := mfTreeWalk e (hashInsert e m h) curMatch lenLimit true first.1 first.2
    (mfMovePos r.1, r.2)

/-- One pass of R194's loop. -/
def mfSkipOne (e : State) (m : MatchFinder) : MatchFinder :=
  match mfLenLimit e m with
  | none => mfMovePos m
  | some lenLimit =>
    let h := mfHash e m (m.pos - 1#32)
    let curMatch := hashGet m (bucketIndex e.encCfg.mfKind h)
    mfMovePos (mfTreeWalk e (hashInsert e m h) curMatch lenLimit false [] 1#32).1

/-- MF.SKIP (R194). -/
def mfSkip (e : State) : Nat → MatchFinder → MatchFinder
  | 0, m => m
  | n + 1, m => mfSkip e n (mfSkipOne e m)

/-! ### Meanings -/

def execMfInit (s : State) : Host.Outcome State Fault Refusal :=
  answer .none { s with mf := mfInit s s.mf }

def hashRet (kind : MfKind) (h : Hashes) : Ret :=
  match kind with
  | .bt4 => .hash (some h.h2) (some h.h3) h.hv
  | .bt2 => .hash none none h.hv

def execMfHash (cur : U32) (s : State) : Host.Outcome State Fault Refusal :=
  answer (hashRet s.encCfg.mfKind (mfHash s s.mf cur)) s

def execMfAvail (s : State) : Host.Outcome State Fault Refusal :=
  answer (.word (mfAvail s.mf)) s

def execMfIndexByte (k : I32) (s : State) : Host.Outcome State Fault Refusal :=
  answer (.word ((mfIndexByte s s.mf k.toInt).setWidth 32)) s

def execMfMovePos (s : State) : Host.Outcome State Fault Refusal :=
  answer .none { s with mf := mfMovePos s.mf }

def execMfMatchLen (k : I32) (d limit : U32) (s : State) : Host.Outcome State Fault Refusal :=
  answer (.word (BitVec.ofNat 32 (mfMatchLen s s.mf k.toInt d limit.toNat))) s

def execMfGetMatches (s : State) : Host.Outcome State Fault Refusal :=
  answer (.cells (mfGetMatches s s.mf).2) { s with mf := (mfGetMatches s s.mf).1 }

/-- MF.TREE_WALK alone starts, as R190 does, from `D = []` and `maxLen = 1` (log 20). -/
def execMfTreeWalk (curMatch lenLimit : U32) (emit : Bool) (s : State) :
    Host.Outcome State Fault Refusal :=
  answer (.cells (mfTreeWalk s s.mf curMatch lenLimit emit [] 1#32).2)
    { s with mf := (mfTreeWalk s s.mf curMatch lenLimit emit [] 1#32).1 }

def execMfSkip (n : U32) (s : State) : Host.Outcome State Fault Refusal :=
  answer .none { s with mf := mfSkip s n.toNat s.mf }

end Sys2Proof.Machine
end

