-- ==== Sys2Proof/Machine/Automaton.lean ====
section
/-! DEFINITION. The state automaton, the rep distance register and the distance slots
(46_codec R250..R265). -/

namespace Sys2Proof.Machine

/-- ST.CHAR (R250). -/
def stChar (s : U4) : U4 :=
  if s < 4#4 then 0#4 else if s < 10#4 then s - 3#4 else s - 6#4

/-- ST.IS_CHAR (R255). -/
def stIsChar (s : U4) : Bool := decide (s < 7#4)

/-- ST.MATCH (R251). -/
def stMatch (s : U4) : U4 := if stIsChar s then 7#4 else 10#4

/-- ST.REP (R252). -/
def stRep (s : U4) : U4 := if stIsChar s then 8#4 else 11#4

/-- ST.SHORTREP (R253). -/
def stShortrep (s : U4) : U4 := if stIsChar s then 9#4 else 11#4

/-- REPS.PUSH (R258). -/
def repsPush (r : Quad) (d : U32) : Quad := ⟨d, r.r0, r.r1, r.r2⟩

/-- REPS.PROMOTE (R259); LONGREP0 leaves the register. -/
def repsPromote (r : Quad) (i : Nat) : Quad :=
  match i with
  | 0 => r
  | 1 => ⟨r.r1, r.r0, r.r2, r.r3⟩
  | 2 => ⟨r.r2, r.r0, r.r1, r.r3⟩
  | _ => ⟨r.r3, r.r0, r.r1, r.r2⟩

/-- `rep0..rep3 <- q`. -/
def State.setReps (s : State) (q : Quad) : State := { s with codec := { s.codec with reps := q } }

/-! ### Meanings -/

def stateRet (s : U4) : Ret := .word (s.setWidth 32)

def execStChar (v : Byte) (s : State) : Host.Outcome State Fault Refusal :=
  answer (stateRet (stChar (v.setWidth 4))) s

def execStMatch (v : Byte) (s : State) : Host.Outcome State Fault Refusal :=
  answer (stateRet (stMatch (v.setWidth 4))) s

def execStRep (v : Byte) (s : State) : Host.Outcome State Fault Refusal :=
  answer (stateRet (stRep (v.setWidth 4))) s

def execStShortrep (v : Byte) (s : State) : Host.Outcome State Fault Refusal :=
  answer (stateRet (stShortrep (v.setWidth 4))) s

def execStIsChar (v : Byte) (s : State) : Host.Outcome State Fault Refusal :=
  answer (.bool (stIsChar (v.setWidth 4))) s

def execLenToPosState (len : U32) (s : State) : Host.Outcome State Fault Refusal :=
  answer (.word (lenToPosStateOf len)) s

def execRepsPush (d : U32) (s : State) : Host.Outcome State Fault Refusal :=
  answer .none (s.setReps (repsPush s.codec.reps d))

def execRepsPromote (i : Byte) (s : State) : Host.Outcome State Fault Refusal :=
  answer .none (s.setReps (repsPromote s.codec.reps i.toNat))

def execPosSlot (d : U32) (s : State) : Host.Outcome State Fault Refusal :=
  answer (.word (posSlotOf d)) s

def execPosSlot2 (d : U32) (s : State) : Host.Outcome State Fault Refusal :=
  answer (.word (posSlot2Of d)) s

end Sys2Proof.Machine
end

