-- ==== Sys2Proof/Machine/Prices.lean ====
section
/-! DEFINITION. Price helpers and the distance and alignment price tables of the parser
(45_optimal_parser R230..R243). -/

namespace Sys2Proof.Machine

/-- OPT.REP_LEN1_PRICE (R230). -/
def repLen1Price (e : State) (st : U4) (ps : U32) : U32 :=
  e.cellPrice (isRepG0Cell st) false + e.cellPrice (isRep0LongCell st ps) false

/-- OPT.PURE_REP_PRICE (R231). -/
def pureRepPrice (e : State) (i : Nat) (st : U4) (ps : U32) : U32 :=
  if i = 0 then e.cellPrice (isRepG0Cell st) false + e.cellPrice (isRep0LongCell st ps) true
  else
    let p := e.cellPrice (isRepG0Cell st) true
    if i = 1 then p + e.cellPrice (isRepG1Cell st) false
    else p + e.cellPrice (isRepG1Cell st) true + e.cellPrice (isRepG2Cell st) (decide (i ≠ 2))

/-- OPT.REP_PRICE (R232). -/
def repPrice (e : State) (i : Nat) (len : U32) (st : U4) (ps : U32) : U32 :=
  lenPrice e .repLen (len - 2#32) ps + pureRepPrice e i st ps

/-- `distancesPrices[l2p * 128 + d]` and its neighbours (10_state R42). -/
def distancePrice (p : Prices) (l2p d : U32) : U32 :=
  Store.get 0#32 p.distancesPrices (l2p.toNat * 128 + d.toNat)

def slotPrice (p : Prices) (l2p slot : U32) : U32 :=
  Store.get 0#32 p.posSlotPrices (l2p.toNat * 64 + slot.toNat)

def alignPrice (p : Prices) (i : U32) : U32 := Store.get 0#32 p.alignPrices i.toNat

/-- OPT.POS_LEN_PRICE (R233). -/
def posLenPrice (e : State) (d len ps : U32) : U32 :=
  let l2p := lenToPosStateOf len
  let p :=
    if d < 128#32 then distancePrice e.prices l2p d
    else slotPrice e.prices l2p (posSlot2Of d) + alignPrice e.prices (d &&& 15#32)
  p + lenPrice e .matchLen (len - 2#32) ps

/-! ### Tables -/

/-- Writes `f i` at `base + i` for `i < n`. -/
def fillTable (f : Nat → U32) (base : Nat) : Nat → Store U32 → Store U32
  | 0, t => t
  | n + 1, t => Store.set 0#32 (fillTable f base n t) (base + n) (f n)

/-- `temp[i]` of R240, `i` in 4..127. -/
def footerPrice (e : State) (i : Nat) : U32 :=
  let d := BitVec.ofNat 32 i
  let slot := posSlotOf d
  btRprice e (posModelsTree slot) (footerBits slot) (d - slotBase slot)

/-- R240: the price of slot `s` in row `l`, direct bits included. -/
def posSlotPriceOf (e : State) (l s : Nat) : U32 :=
  let tree := btPrice e (posSlotTree (BitVec.ofNat 32 l)) 6 (BitVec.ofNat 32 s)
  if s < 14 then tree else tree + BitVec.ofNat 32 ((s / 2 - 1 - 4) * 64)

/-- R240: the rows of posSlotPrices below `n`. -/
def fillSlotRows (e : State) (size : Nat) : Nat → Store U32 → Store U32
  | 0, t => t
  | l + 1, t => fillTable (posSlotPriceOf e l) (l * 64) size (fillSlotRows e size l t)

/-- R240: `distancesPrices[l * 128 + i]`. -/
def distancePriceOf (e : State) (slots : Store U32) (l i : Nat) : U32 :=
  if i < 4 then Store.get 0#32 slots (l * 64 + i)
  else Store.get 0#32 slots (l * 64 + (posSlotOf (BitVec.ofNat 32 i)).toNat) + footerPrice e i

/-- R240: the rows of distancesPrices below `n`. -/
def fillDistanceRows (e : State) (slots : Store U32) : Nat → Store U32 → Store U32
  | 0, t => t
  | l + 1, t => fillTable (distancePriceOf e slots l) (l * 128) 128 (fillDistanceRows e slots l t)

/-- OPT.FILL_DIST (R240). -/
def fillDist (s : State) : State :=
  let slots := fillSlotRows s s.prices.distTableSize.toNat 4 s.prices.posSlotPrices
  { s with
    prices :=
      { s.prices with
        posSlotPrices := slots
        distancesPrices := fillDistanceRows s slots 4 s.prices.distancesPrices
        matchPriceCount := 0#32 } }

/-- OPT.FILL_ALIGN (R241). -/
def fillAlign (s : State) : State :=
  { s with
    prices :=
      { s.prices with
        alignPrices :=
          fillTable (fun i => btRprice s posAlignTree 4 (BitVec.ofNat 32 i)) 0 16
            s.prices.alignPrices
        alignPriceCount := 0#32 } }

/-! ### Meanings -/

def execOptRepLen1Price (st ps : Byte) (s : State) : Host.Outcome State Fault Refusal :=
  answer (.word (repLen1Price s (st.setWidth 4) (ps.setWidth 32))) s

def execOptPureRepPrice (i st ps : Byte) (s : State) : Host.Outcome State Fault Refusal :=
  answer (.word (pureRepPrice s i.toNat (st.setWidth 4) (ps.setWidth 32))) s

def execOptRepPrice (i : Byte) (len : U16) (st ps : Byte) (s : State) :
    Host.Outcome State Fault Refusal :=
  answer (.word (repPrice s i.toNat (len.setWidth 32) (st.setWidth 4) (ps.setWidth 32))) s

def execOptPosLenPrice (d : U32) (len : U16) (ps : Byte) (s : State) :
    Host.Outcome State Fault Refusal :=
  answer (.word (posLenPrice s d (len.setWidth 32) (ps.setWidth 32))) s

def execOptFillDist (s : State) : Host.Outcome State Fault Refusal := answer .none (fillDist s)

def execOptFillAlign (s : State) : Host.Outcome State Fault Refusal := answer .none (fillAlign s)

end Sys2Proof.Machine
end

