-- ==== Sys2Proof/Machine/Optimal.lean ====
section
/-! DEFINITION. The optimal parser (45_optimal_parser R210..R229). The functions take the state `e`
they read (IN, cells, prices, codec registers) and thread the parser and match finder they change;
`none` is a loop that does not end within the bound no session exceeds (log 19). -/

namespace Sys2Proof.Machine

/-- What the parser changes. -/
structure PM where
  p : Parser
  m : MatchFinder
  deriving DecidableEq, Repr

/-! ### Match candidate pipeline (R211..R213) -/

/-- Writes the cells of `ds` from index `i` on (log 22). -/
def writeCells : List U32 → Nat → Store U32 → Store U32
  | [], _, t => t
  | d :: ds, i, t => writeCells ds (i + 1) (Store.set 0#32 t i d)

/-- `D[k]` of `matchDistances` (10_state R40). -/
def distAt (p : Parser) (k : Nat) : U32 := Store.get 0#32 p.matchDistances k

/-- `D[numPairs - 1]` of R217. With no pair, which a long match kept over a READ_MATCH_DISTANCES
presented alone can leave, the index wraps as 00_scope R10 says: the cell 0xFFFFFFFF past the buffer is
read (DESIGN CHOICE, log 21). -/
def lastDistance (p : Parser) : U32 := distAt p (p.numDistancePairs - 1#32).toNat

def State.fastBytes (e : State) : U32 := e.encCfg.fastBytes.setWidth 32

/-- `lenRes` of R212, from the last pair of `p` after GET_MATCHES. -/
def longestLength (e : State) (x : PM) : U32 :=
  let n := x.p.numDistancePairs.toNat
  if n = 0 then 0#32
  else
    let len := distAt x.p (n - 2)
    if len = e.fastBytes then
      len + BitVec.ofNat 32
        (mfMatchLen e x.m ((len.toNat : Int) - 1) (distAt x.p (n - 1)) (273 - len.toNat))
    else len

/-- OPT.READ_MATCH_DISTANCES (R212). -/
def readMatchDistances (e : State) (x : PM) : U32 × PM :=
  let r := mfGetMatches e x.m
  let x : PM :=
    { p :=
        { x.p with
          matchDistances := writeCells r.2 0 x.p.matchDistances
          numDistancePairs := BitVec.ofNat 32 r.2.length
          additionalOffset := x.p.additionalOffset + 1#32 }
      m := r.1 }
  (longestLength e x, x)

/-- OPT.MOVE_POS (R213); `n = 0` does nothing. -/
def movePos (e : State) (n : U32) (x : PM) : PM :=
  { p := { x.p with additionalOffset := x.p.additionalOffset + n }
    m := mfSkip e n.toNat x.m }

/-- `MF.INDEX_BYTE k` (R211). -/
def byteAt (e : State) (x : PM) (k : I32) : Byte := mfIndexByte e x.m k.toInt

/-! ### The lattice (R214) -/

def node (o : Store Node) (i : Nat) : Node := Store.get Node.blank o i

def setNode (o : Store Node) (i : Nat) (n : Node) : Store Node := Store.set Node.blank o i n

def setNodePrice (o : Store Node) (i : Nat) (price : U32) : Store Node :=
  setNode o i { node o i with price := price }

/-- MakeAsChar (R214). -/
def makeAsChar (n : Node) : Node := { n with backPrev := 0xFFFFFFFF#32, prev1IsChar := false }

/-- MakeAsShortRep (R214). -/
def makeAsShortRep (n : Node) : Node := { n with backPrev := 0#32, prev1IsChar := false }

/-- IsShortRep (R214). -/
def isShortRep (n : Node) : Bool := decide (n.backPrev = 0#32)

/-- `if c < o[i].price: o[i].price <- c; …`. -/
def relax (o : Store Node) (i : Nat) (c : U32) (f : Node → Node) : Store Node :=
  if c < (node o i).price then setNode o i (f { node o i with price := c }) else o

/-- One token from node `from_`. -/
def byToken (from_ : Nat) (back : U32) (n : Node) : Node :=
  { n with posPrev := BitVec.ofNat 32 from_, backPrev := back, prev1IsChar := false }

/-- A literal and then rep 0, starting at `at_` (R223). -/
def byCharRep0 (at_ : Nat) (n : Node) : Node :=
  { n with posPrev := BitVec.ofNat 32 at_, backPrev := 0#32, prev1IsChar := true, prev2 := false }

/-- A token `back2` from node `from_`, a literal, and then rep 0 starting at `at_` (R224, R225). -/
def byHop (at_ from_ : Nat) (back2 : U32) (n : Node) : Node :=
  { n with
    posPrev := BitVec.ofNat 32 at_
    backPrev := 0#32
    prev1IsChar := true
    prev2 := true
    posPrev2 := BitVec.ofNat 32 from_
    backPrev2 := back2 }

/-- Sets the price of `n` nodes after `i` to infinity. -/
def openNodes : Nat → Nat → Store Node → Store Node
  | 0, _, o => o
  | n + 1, i, o => openNodes n (i + 1) (setNodePrice o (i + 1) kInfinityPrice)

/-- The lattice and its end. -/
structure Lat where
  o : Store Node
  lenEnd : Nat
  deriving DecidableEq, Repr

/-- `while lenEnd < target: lenEnd <- lenEnd + 1; o[lenEnd].price <- kInfinityPrice`. -/
def Lat.extend (l : Lat) (target : Nat) : Lat :=
  if l.lenEnd < target then
    { o := openNodes (target - l.lenEnd) l.lenEnd l.o, lenEnd := target }
  else l

def Lat.relax (l : Lat) (i : Nat) (c : U32) (f : Node → Node) : Lat :=
  { l with o := Machine.relax l.o i c f }

/-- `while len > D[offs]: offs <- offs + 2`, within the buffer's 274 pairs (log 19). -/
def skipPairs (p : Parser) (len : U32) : Nat → Nat → Option Nat
  | 0, _ => none
  | n + 1, offs => if distAt p offs < len then skipPairs p len n (offs + 2) else some offs

/-- Bounds on the parser's open loops (log 19). -/
def pairBound : Nat := 275
def lengthBound : Nat := 600
def sweepBound : Nat := 4097
def chainBound : Nat := 16384

/-! ### BACKWARD (R227) -/

/-- R227: the nodes that a literal-hop at `cur` expands into. -/
def expandHop (o : Store Node) (cur posMem : U32) : Store Node :=
  if (node o cur.toNat).prev1IsChar then
    let o := setNode o posMem.toNat
      { makeAsChar (node o posMem.toNat) with posPrev := posMem - 1#32 }
    if (node o cur.toNat).prev2 then
      let before := (posMem - 1#32).toNat
      setNode o before
        { node o before with
          prev1IsChar := false
          posPrev := (node o cur.toNat).posPrev2
          backPrev := (node o cur.toNat).backPrev2 }
    else o
  else o

/-- R227's loop. -/
def backwardLoop : Nat → U32 → U32 → U32 → Store Node → Option (Store Node)
  | 0, _, _, _, _ => none
  | n + 1, cur, posMem, backMem, o =>
    let o := expandHop o cur posMem
    let prev := node o posMem.toNat
    let o := setNode o posMem.toNat { prev with backPrev := backMem, posPrev := cur }
    if 0#32 < posMem then backwardLoop n posMem prev.posPrev prev.backPrev o else some o

/-- OPT.BACKWARD (R227). The rule gives `cur` no range: a node past 4095 reads as blank until written
(log 21, log 34). -/
def backward (cur : U32) (p : Parser) : Option (U32 × Parser) :=
  let start := node p.optimum cur.toNat
  match backwardLoop chainBound cur start.posPrev start.backPrev p.optimum with
  | none => none
  | some o =>
    let first := node o 0
    some (first.posPrev,
      { p with
        optimum := o
        optimumEndIndex := cur
        backRes := first.backPrev
        optimumCurrentIndex := first.posPrev })

/-! ### One node of the walk (R221..R225) -/

/-- `back < 4` for an i32 code. -/
def isRepCode (back : I32) : Bool := back.slt 4#32

/-- The reps after a token `back` taken with reps `b` (R221). -/
def repsAfter (b : Quad) (back : I32) : Quad :=
  if back = 0#32 then b
  else if back = 1#32 then ⟨b.r1, b.r0, b.r2, b.r3⟩
  else if back = 2#32 then ⟨b.r2, b.r0, b.r1, b.r3⟩
  else if back = 3#32 then ⟨b.r3, b.r0, b.r1, b.r2⟩
  else ⟨back - 4#32, b.r0, b.r1, b.r2⟩

/-- R221, first half: `posPrev` and `st`. -/
def deriveStart (o : Store Node) (cur : Nat) : U32 × U4 :=
  let n := node o cur
  if n.prev1IsChar then
    let st :=
      if n.prev2 then
        let st := (node o n.posPrev2.toNat).state
        if isRepCode n.backPrev2 then stRep st else stMatch st
      else (node o (n.posPrev - 1#32).toNat).state
    (n.posPrev - 1#32, stChar st)
  else (n.posPrev, (node o n.posPrev.toNat).state)

/-- R221: the state and the reps at node `cur`. -/
def deriveNode (o : Store Node) (cur : Nat) : U4 × Quad :=
  let n := node o cur
  let posPrev := (deriveStart o cur).1
  let st := (deriveStart o cur).2
  if posPrev = BitVec.ofNat 32 (cur - 1) then
    (if isShortRep n then stShortrep st else stChar st, (node o (cur - 1)).backs)
  else if n.prev1IsChar && n.prev2 then
    (stRep st, repsAfter (node o n.posPrev2.toNat).backs n.backPrev2)
  else
    (if isRepCode n.backPrev then stRep st else stMatch st,
      repsAfter (node o posPrev.toNat).backs n.backPrev)

/-- `position & posStateMask`. -/
def posStateAt (e : State) (position : U32) : U32 := position &&& e.codec.posStateMask

/-- `Price0(isMatch[(st << 4) + ps])` or `Price1`. -/
def isMatchPrice (e : State) (st : U4) (ps : U32) (bit : Bool) : U32 :=
  e.cellPrice (isMatchCell st ps) bit

/-- The fixed facts of the node being visited. -/
structure Visit where
  cur : Nat
  position : U32
  st : U4
  reps : Quad
  ps : U32
  curByte : Byte
  matchByte : Byte
  /-- cost of a literal from here, from the start of the sweep -/
  literalPrice : U32
  matchPrice : U32
  repMatchPrice : U32
  availFull : Nat
  avail : Nat
  deriving DecidableEq, Repr

/-- R222, R223: the facts of node `cur`, once F2 has given it `st` and `reps`. -/
def visitNode (e : State) (x : PM) (cur : Nat) (position : U32) (st : U4) (reps : Quad) : Visit :=
  let ps := posStateAt e position
  let curByte := byteAt e x (-1#32)
  let matchByte := byteAt e x (-reps.r0 - 2#32)
  let curPrice := (node x.p.optimum cur).price
  let matchPrice := curPrice + isMatchPrice e st ps true
  let availFull := min (4095 - cur) (mfAvail x.m + 1#32).toNat
  { cur := cur
    position := position
    st := st
    reps := reps
    ps := ps
    curByte := curByte
    matchByte := matchByte
    literalPrice :=
      curPrice + isMatchPrice e st ps false +
        litPrice e (litSelect e (position.setWidth 64) (byteAt e x (-2#32))) (!stIsChar st)
          matchByte curByte
    matchPrice := matchPrice
    repMatchPrice := matchPrice + e.cellPrice (isRepCell st) true
    availFull := availFull
    avail := min availFull e.fastBytes.toNat }

/-- R222 (F3): a literal or a short rep to the next node; and `nextIsChar`. -/
def tryOneByte (e : State) (v : Visit) (l : Lat) : Lat × Bool :=
  let next := v.cur + 1
  let toNext (n : Node) : Node := { n with posPrev := BitVec.ofNat 32 v.cur }
  let isLit := decide (v.literalPrice < (node l.o next).price)
  let l := l.relax next v.literalPrice fun n => makeAsChar (toNext n)
  let n := node l.o next
  let shortPrice := v.repMatchPrice + repLen1Price e v.st v.ps
  if v.matchByte = v.curByte ∧ ¬ (n.posPrev < BitVec.ofNat 32 v.cur ∧ n.backPrev = 0#32) ∧
      shortPrice ≤ n.price then
    ({ l with o := setNode l.o next (makeAsShortRep (toNext { n with price := shortPrice })) }, true)
  else (l, isLit)

/-- The cost of rep 0 of `len` bytes after reaching state `st` at `position` for `price`. -/
def rep0After (e : State) (price : U32) (st : U4) (position : U32) (len : Nat) : U32 :=
  let ps := posStateAt e position
  price + isMatchPrice e st ps true + e.cellPrice (isRepCell st) true +
    repPrice e 0 (BitVec.ofNat 32 len) st ps

/-- R223 (F4): a literal and then rep 0. -/
def tryCharRep0 (e : State) (x : PM) (v : Visit) (nextIsChar : Bool) (l : Lat) : Lat :=
  if !nextIsChar && decide (v.matchByte ≠ v.curByte) then
    let lenTest2 := mfMatchLen e x.m 0 v.reps.r0 (min (v.availFull - 1) e.fastBytes.toNat)
    if 2 ≤ lenTest2 then
      let target := v.cur + 1 + lenTest2
      (l.extend target).relax target
        (rep0After e v.literalPrice (stChar v.st) (v.position + 1#32) lenTest2)
        (byCharRep0 (v.cur + 1))
    else l
  else l

/-- R224, R225: after a token `back` of `len` bytes at distance `dist`, which costs `price` and
leads to state `st`, a literal and then rep 0. -/
def tryHop (e : State) (x : PM) (v : Visit) (len : Nat) (dist : U32) (back : U32) (price : U32)
    (st : U4) (l : Lat) : Lat :=
  if len < v.availFull then
    let lenTest2 := mfMatchLen e x.m len dist (min (v.availFull - 1 - len) e.fastBytes.toNat)
    if 2 ≤ lenTest2 then
      let n := BitVec.ofNat 32 len
      let position := v.position + n
      let literal :=
        price + isMatchPrice e st (posStateAt e position) false +
          litPrice e (litSelect e (position.setWidth 64) (byteAt e x (n - 2#32))) true
            (byteAt e x (n - 1#32 - (dist + 1#32))) (byteAt e x (n - 1#32))
      let target := v.cur + len + 1 + lenTest2
      (l.extend target).relax target
        (rep0After e literal (stChar st) (position + 1#32) lenTest2)
        (byHop (v.cur + len + 1) v.cur back)
    else l
  else l

/-- R219, R224: rep `i` at the lengths `len` down to 2 from node `cur`, `price` plus the length. -/
def relaxReps (e : State) (i : Nat) (price ps : U32) (cur : Nat) : Nat → Store Node → Store Node
  | 0, o => o
  | len + 1, o =>
    if len + 1 < 2 then o
    else
      relaxReps e i price ps cur len
        (relax o (cur + (len + 1))
          (price + lenPrice e .repLen (BitVec.ofNat 32 (len + 1) - 2#32) ps)
          (byToken cur (BitVec.ofNat 32 i)))

/-- R224 (F5) for rep `i`; and `startLen`. -/
def tryRep (e : State) (x : PM) (v : Visit) (i : Nat) (l : Lat × Nat) : Lat × Nat :=
  let dist := Quad.get v.reps i
  let lenTest := mfMatchLen e x.m (-1) dist v.avail
  if lenTest < 2 then l
  else
    let price := v.repMatchPrice + pureRepPrice e i v.st v.ps
    let lat := l.1.extend (v.cur + lenTest)
    let lat := { lat with o := relaxReps e i price v.ps v.cur lenTest lat.o }
    let lat := tryHop e x v lenTest dist (BitVec.ofNat 32 i)
      (v.repMatchPrice + repPrice e i (BitVec.ofNat 32 lenTest) v.st v.ps) (stRep v.st) lat
    (lat, if i = 0 then lenTest + 1 else l.2)

/-- R224 (F5). -/
def tryReps (e : State) (x : PM) (v : Visit) (l : Lat) : Lat × Nat :=
  tryRep e x v 3 (tryRep e x v 2 (tryRep e x v 1 (tryRep e x v 0 (l, 2))))

/-- R225's loop from length `len` at pair `offs`. -/
def matchLoop (e : State) (x : PM) (v : Visit) (normalMatchPrice : U32) (numPairs : Nat) :
    Nat → Nat → Nat → Lat → Option Lat
  | 0, _, _, _ => none
  | fuel + 1, len, offs, l =>
    let dist := distAt x.p (offs + 1)
    let c := normalMatchPrice + posLenPrice e dist (BitVec.ofNat 32 len) v.ps
    let l := l.relax (v.cur + len) c (byToken v.cur (dist + 4#32))
    if BitVec.ofNat 32 len = distAt x.p offs then
      let l := tryHop e x v len dist (dist + 4#32) c (stMatch v.st) l
      if offs + 2 = numPairs then some l
      else matchLoop e x v normalMatchPrice numPairs fuel (len + 1) (offs + 2) l
    else matchLoop e x v normalMatchPrice numPairs fuel (len + 1) offs l

/-- R225: the cut of the candidates to `avail` bytes; the new length and number of cells. -/
def cutPairs (v : Visit) (newLen : U32) (x : PM) : Option (PM × U32 × Nat) :=
  let avail := BitVec.ofNat 32 v.avail
  if avail < newLen then
    match skipPairs x.p avail pairBound 0 with
    | none => none
    | some k =>
      some ({ x with p := { x.p with matchDistances := Store.set 0#32 x.p.matchDistances k avail } },
        avail, k + 2)
  else some (x, newLen, x.p.numDistancePairs.toNat)

/-- R225 (F6). -/
def tryMatches (e : State) (x : PM) (v : Visit) (newLen : U32) (startLen : Nat) (l : Lat) :
    Option (PM × Lat) :=
  match cutPairs v newLen x with
  | none => none
  | some (x, newLen, numPairs) =>
    if newLen.toNat < startLen then some (x, l)
    else
      match skipPairs x.p (BitVec.ofNat 32 startLen) pairBound 0 with
      | none => none
      | some offs =>
        match matchLoop e x v (v.matchPrice + e.cellPrice (isRepCell v.st) false) numPairs
            lengthBound startLen offs (l.extend (v.cur + newLen.toNat)) with
        | none => none
        | some l => some (x, l)

def PM.setOptimum (x : PM) (o : Store Node) : PM := { x with p := { x.p with optimum := o } }

/-- R221 (F2): node `cur` gets its state and reps. -/
def placeNode (x : PM) (cur : Nat) : PM × U4 × Quad :=
  let d := deriveNode x.p.optimum cur
  let o := setNode x.p.optimum cur { node x.p.optimum cur with state := d.1, backs := d.2 }
  ({ x with p := { x.p with optimum := o, sweepReps := d.2 } }, d.1, d.2)

/-- R221..R225 (F2..F6) at node `cur`: the new lattice end and what was changed. -/
def visit (e : State) (x : PM) (cur lenEnd : Nat) (position newLen : U32) : Option (PM × Nat) :=
  let placed := placeNode x cur
  let x := placed.1
  let v := visitNode e x cur position placed.2.1 placed.2.2
  let f3 := tryOneByte e v { o := x.p.optimum, lenEnd := lenEnd }
  if v.availFull < 2 then some (x.setOptimum f3.1.o, f3.1.lenEnd)
  else
    let f5 := tryReps e x v (tryCharRep0 e x v f3.2 f3.1)
    match tryMatches e x v newLen f5.2 f5.1 with
    | none => none
    | some (x, l) => some (x.setOptimum l.o, l.lenEnd)

/-- BACKWARD inside a sweep. -/
def finishSweep (cur : Nat) (x : PM) : Option (U32 × PM) :=
  match backward (BitVec.ofNat 32 cur) x.p with
  | none => none
  | some (len, p) => some (len, { x with p := p })

/-- R220 (F1): the forward walk after node `cur`. -/
def sweep (e : State) : Nat → Nat → Nat → U32 → PM → Option (U32 × PM)
  | 0, _, _, _, _ => none
  | fuel + 1, cur, lenEnd, position, x =>
    let cur := cur + 1
    if cur = lenEnd then finishSweep cur x
    else
      let r := readMatchDistances e x
      let newLen := r.1
      let x := r.2
      if e.fastBytes ≤ newLen then
        finishSweep cur
          { x with p := { x.p with longestMatchLength := newLen, longestMatchWasFound := true } }
      else
        match visit e x cur lenEnd (position + 1#32) newLen with
        | none => none
        | some (x, lenEnd) => sweep e fuel cur lenEnd (position + 1#32) x

/-! ### GET_OPTIMUM (R210, R215..R219) -/

/-- R219's match loop from length `len` at pair `offs`. -/
def seedLoop (e : State) (p : Parser) (normalMatchPrice ps : U32) (numPairs : Nat) :
    Nat → Nat → Nat → Store Node → Option (Store Node)
  | 0, _, _, _ => none
  | fuel + 1, len, offs, o =>
    let dist := distAt p (offs + 1)
    let c := normalMatchPrice + posLenPrice e dist (BitVec.ofNat 32 len) ps
    let o := relax o len c (byToken 0 (dist + 4#32))
    if BitVec.ofNat 32 len = distAt p offs then
      if offs + 2 = numPairs then some o
      else seedLoop e p normalMatchPrice ps numPairs fuel (len + 1) (offs + 2) o
    else seedLoop e p normalMatchPrice ps numPairs fuel (len + 1) offs o

/-- R219: rep `i` from node 0. -/
def seedRep (e : State) (repMatchPrice : U32) (st : U4) (ps : U32) (repLens : Quad) (i : Nat)
    (o : Store Node) : Store Node :=
  relaxReps e i (repMatchPrice + pureRepPrice e i st ps) ps 0 (Quad.get repLens i).toNat o

/-- R219: the new matches from node 0. -/
def seedMatches (e : State) (p : Parser) (normalMatchPrice ps lenMain : U32) (repLen0 : U32)
    (o : Store Node) : Option (Store Node) :=
  let start := if 2#32 ≤ repLen0 then repLen0 + 1#32 else 2#32
  if lenMain < start then some o
  else
    match skipPairs p start pairBound 0 with
    | none => none
    | some offs =>
      seedLoop e p normalMatchPrice ps p.numDistancePairs.toNat lengthBound start.toNat offs o

def maxU32 (a b : U32) : U32 := if a < b then b else a

/-- Answers a packet decided without the lattice. -/
def decided (len : U32) (back : I32) (x : PM) : Option (U32 × PM) :=
  some (len, { x with p := { x.p with backRes := back } })

/-- R218 and R219 (D, E) and the walk, with the bytes at and before the node known. -/
def seedAndSweep (e : State) (position lenMain : U32) (repMax : Nat) (curByte matchByte : Byte)
    (x : PM) : Option (U32 × PM) :=
  let repLens := x.p.sweepRepLens
  let st := e.codec.state
  let ps := posStateAt e position
  let literalPrice :=
    isMatchPrice e st ps false +
      litPrice e (litSelect e (position.setWidth 64) e.codec.prevByte) (!stIsChar st) matchByte
        curByte
  let matchPrice := isMatchPrice e st ps true
  let repMatchPrice := matchPrice + e.cellPrice (isRepCell st) true
  let shortPrice := repMatchPrice + repLen1Price e st ps
  let o := setNode x.p.optimum 0 { node x.p.optimum 0 with state := st }
  let o := setNode o 1 (makeAsChar { node o 1 with price := literalPrice })
  let o := if matchByte = curByte then relax o 1 shortPrice makeAsShortRep else o
  let lenEnd := maxU32 lenMain (Quad.get repLens repMax)
  if lenEnd < 2#32 then decided 1#32 (node o 1).backPrev (x.setOptimum o)
  else
    let o := setNode o 1 { node o 1 with posPrev := 0#32 }
    let o := setNode o 0 { node o 0 with backs := x.p.sweepReps }
    let o := openNodes (lenEnd.toNat - 1) 1 o
    let o := seedRep e repMatchPrice st ps repLens 0 o
    let o := seedRep e repMatchPrice st ps repLens 1 o
    let o := seedRep e repMatchPrice st ps repLens 2 o
    let o := seedRep e repMatchPrice st ps repLens 3 o
    match seedMatches e x.p (matchPrice + e.cellPrice (isRepCell st) false) ps lenMain
        (Quad.get repLens 0) o with
    | none => none
    | some o => sweep e sweepBound 0 lenEnd.toNat position (x.setOptimum o)

/-- `repMaxIndex` of R216: ties keep the lowest index. -/
def repMaxIndex (l : Quad) : Nat :=
  let m1 := if l.r0 < l.r1 then 1 else 0
  let m2 := if Quad.get l m1 < l.r2 then 2 else m1
  if Quad.get l m2 < l.r3 then 3 else m2

/-- `repLens` of R216. -/
def measureReps (e : State) (m : MatchFinder) (q : Quad) : Quad :=
  let len (d : U32) : U32 := BitVec.ofNat 32 (mfMatchLen e m (-1) d 273)
  ⟨len q.r0, len q.r1, len q.r2, len q.r3⟩

/-- R216..R219 (B..E) and the walk. -/
def chooseToken (e : State) (position lenMain : U32) (x : PM) : Option (U32 × PM) :=
  let reps := e.codec.reps
  let repLens := measureReps e x.m reps
  let x : PM := { x with p := { x.p with sweepReps := reps, sweepRepLens := repLens } }
  let repMax := repMaxIndex repLens
  let repLen := Quad.get repLens repMax
  if e.fastBytes ≤ repLen then
    decided repLen (BitVec.ofNat 32 repMax) (movePos e (repLen - 1#32) x)
  else if e.fastBytes ≤ lenMain then
    decided lenMain (lastDistance x.p + 4#32)
      (movePos e (lenMain - 1#32) x)
  else
    let curByte := byteAt e x (-1#32)
    let matchByte := byteAt e x (-reps.r0 - 2#32)
    if lenMain < 2#32 ∧ curByte ≠ matchByte ∧ repLen < 2#32 then decided 1#32 0xFFFFFFFF#32 x
    else seedAndSweep e position lenMain repMax curByte matchByte x

/-- R215 (A), first part: replay the next pending token. -/
def replay (x : PM) : U32 × PM :=
  let n := node x.p.optimum x.p.optimumCurrentIndex.toNat
  (n.posPrev - x.p.optimumCurrentIndex,
    { x with p := { x.p with backRes := n.backPrev, optimumCurrentIndex := n.posPrev } })

/-- R215 (A), second part: `lenMain` of a new sweep. -/
def mainLength (e : State) (x : PM) : U32 × PM :=
  let x : PM := { x with p := { x.p with optimumCurrentIndex := 0#32, optimumEndIndex := 0#32 } }
  if x.p.longestMatchWasFound then
    (x.p.longestMatchLength, { x with p := { x.p with longestMatchWasFound := false } })
  else readMatchDistances e x

/-- OPT.GET_OPTIMUM (R210). -/
def getOptimum (e : State) (position : U32) (x : PM) : Option (U32 × PM) :=
  if x.p.optimumEndIndex ≠ x.p.optimumCurrentIndex then some (replay x)
  else
    let r := mainLength e x
    if mfAvail r.2.m + 1#32 < 2#32 then decided 1#32 0xFFFFFFFF#32 r.2
    else chooseToken e position r.1 r.2

/-! ### Meanings -/

/-- The parser's and match finder's part of a state. -/
def State.pm (s : State) : PM := ⟨s.parser, s.mf⟩

/-- A state with the parser's and match finder's part replaced. -/
def State.setPm (s : State) (x : PM) : State := { s with parser := x.p, mf := x.m }

def execOptGetOptimum (position : U32) (s : State) : Host.Outcome State Fault Refusal :=
  match getOptimum s position s.pm with
  | some (len, x) => answer (.word len) (s.setPm x)
  | none => .fault .parserHang

def execOptReadMatchDistances (s : State) : Host.Outcome State Fault Refusal :=
  answer (.word (readMatchDistances s s.pm).1) (s.setPm (readMatchDistances s s.pm).2)

def execOptMovePos (n : U32) (s : State) : Host.Outcome State Fault Refusal :=
  answer .none (s.setPm (movePos s n s.pm))

def execOptBackward (cur : U32) (s : State) : Host.Outcome State Fault Refusal :=
  match backward cur s.parser with
  | some (len, p) => answer (.word len) { s with parser := p }
  | none => .fault .parserHang

end Sys2Proof.Machine
end

