-- ==== Sys2Proof/Machine/Window.lean ====
section
/-! DEFINITION. Output window (47_output_window R300..R304). -/

namespace Sys2Proof.Machine

/-- The window OW.INIT leaves: `win` keeps what it holds (R300). -/
def windowFor (n : U32) (w : Window) : Window :=
  { w with windowSize := if n < 4096#32 then 4096#32 else n, winPos := 0#32, winFlushPos := 0#32 }

/-- OW.INIT (R300). -/
def owInit (n : U32) : Eng Unit := modify fun s => { s with window := windowFor n s.window }

def Window.cell (w : Window) (i : Nat) : Byte := Store.get Memory.blank w.win i

/-- R304's loop: `n` bytes of the window from index `i` go to OUT. -/
def flushBytes : Nat → Nat → Eng Unit
  | 0, _ => pure ()
  | n + 1, i => do
    let s ← get
    outWrite (s.window.cell i)
    flushBytes n (i + 1)

/-- R304 after its loop. -/
def afterFlush (w : Window) : Window :=
  let pos := if w.winPos = w.windowSize then 0#32 else w.winPos
  { w with winPos := pos, winFlushPos := pos }

/-- OW.FLUSH (R304). Its loop to `winPos - 1` is empty for `winPos` 0 (log 35). -/
def owFlush : Eng Unit := do
  let s ← get
  flushBytes (s.window.winPos.toNat - s.window.winFlushPos.toNat) s.window.winFlushPos.toNat
  modify fun s => { s with window := afterFlush s.window }

/-- R301 before its test. -/
def Window.push (w : Window) (b : Byte) : Window :=
  { w with
    win := Store.set Memory.blank w.win w.winPos.toNat b
    winPos := w.winPos + 1#32 }

/-- OW.PUT (R301). -/
def owPut (b : Byte) : Eng Unit := do
  modify fun s => { s with window := s.window.push b }
  let s ← get
  if s.window.winPos = s.window.windowSize then owFlush else pure ()

/-- `i` of R303, as an exact integer: with a MAX_DICT_SIZE above 2^31 a cell's index need not fit a
signed 32-bit value. For a `d` outside the window near 2^32, where 00_scope R10's wrap could land on a
cell, it stays outside and owGet answers a free byte (DESIGN CHOICE, log 35). -/
def Window.back (w : Window) (d : U32) : Int :=
  let i : Int := (w.winPos.toNat : Int) - d.toNat - 1
  if i < 0 then i + w.windowSize.toNat else i

/-- OW.GET (R303). An index outside the window gives a free byte (log 8); one inside it gives what the
cell holds, also for a `d` at or past the bytes written (log 34). -/
def owGet (s : State) (d : U32) : Byte :=
  let i := s.window.back d
  if 0 ≤ i ∧ i < s.window.windowSize.toNat then s.window.cell i.toNat
  else Config.freeByte s.freeCount i

/-- OW.COPY (R302). -/
def owCopy (d : U32) : Nat → Eng Unit
  | 0 => pure ()
  | n + 1 => do
    let s ← get
    owPut (owGet s d)
    owCopy d n

/-! ### Meanings -/

def execOwInit (n : U32) (s : State) : Host.Outcome State Fault Refusal := completeUnit (owInit n) s

def execOwPut (b : Byte) (s : State) : Host.Outcome State Fault Refusal := completeUnit (owPut b) s

def execOwCopy (d n : U32) (s : State) : Host.Outcome State Fault Refusal :=
  completeUnit (owCopy d n.toNat) s

def execOwGet (d : U32) (s : State) : Host.Outcome State Fault Refusal :=
  answer (.word ((owGet s d).setWidth 32)) s

def execOwFlush (s : State) : Host.Outcome State Fault Refusal := completeUnit owFlush s

end Sys2Proof.Machine
end

