-- ==== Sys2Proof/Machine/Codec.lean ====
section
/-! DEFINITION. The codec: header, packets of the encoder and of the decoder, and the starts of the
two sessions (46_codec R270..R278, R280..R282, R290, R292..R295). -/

namespace Sys2Proof.Machine

/-- A change of the codec registers only. -/
def modifyCodec (f : Codec → Codec) : Eng Unit := modify fun s => { s with codec := f s.codec }

/-- `state <- st`. -/
def setState (st : U4) : Eng Unit := modifyCodec fun c => { c with state := st }

/-- `rep0..rep3 <- q`. -/
def setRepRegs (q : Quad) : Eng Unit := modifyCodec fun c => { c with reps := q }

/-! ### Header -/

/-- The properties byte of R6. -/
def encProps : Byte := 0x5D#8

/-- `lc`, `lp`, `pb` of a properties byte (30_encoding R81). -/
def propsLc (v : Byte) : U4 := BitVec.ofNat 4 (v.toNat % 9)
def propsLp (v : Byte) : BitVec 3 := BitVec.ofNat 3 (v.toNat / 9 % 5)
def propsPb (v : Byte) : BitVec 3 := BitVec.ofNat 3 (v.toNat / 45)

/-- PROPS with the properties byte `v` and the fields it spells. -/
def Codec.withProps (c : Codec) (v : Byte) : Codec :=
  { c with propsByte := v, lc := propsLc v, lp := propsLp v, pb := propsPb v }

/-- The `n` low bytes of `v`, least significant first (20_memory R67). -/
def leBytes : Nat → Nat → List Byte
  | 0, _ => []
  | n + 1, v => BitVec.ofNat 8 v :: leBytes n (v / 256)

/-- CODEC.ENC_HEADER (R270). SIZE is written once its eight bytes are out (log 15). -/
def encHeader : Eng Unit := do
  outWrite encProps
  modifyCodec fun c => c.withProps encProps
  let s ← get
  outWriteAll (leBytes 4 s.codec.dictSize.toNat)
  outWriteAll (leBytes 8 s.host.inLen.toNat)
  modify fun s => { s with host := { s.host with size := s.host.inLen.setWidth 64 } }

/-- A little-endian number of `n` bytes of IN from index `i` (R271). -/
def inLE (s : State) : Nat → Nat → Nat
  | 0, _ => 0
  | n + 1, i => (s.inByte i).toNat + 256 * inLE s n (i + 1)

def State.withInPos (s : State) (v : U32) : State := { s with host := { s.host with inPos := v } }

/-- `max(dictSize, 1)` (30_encoding R82). -/
def dictCheck (dictSize : U32) : U32 := if dictSize = 0#32 then 1#32 else dictSize

/-- `outSize` of a size field (30_encoding R83). -/
def knownSize (size : U64) : Option U64 :=
  if size = 0xFFFFFFFFFFFFFFFF#64 then none else some size

/-- R271 once every check has passed: the registers of a header whose first five bytes are already
in `s`, with size field `size`. -/
def headerAccepted (s : State) (size : U64) : State :=
  { s with
    codec :=
      { s.codec with
        dictSizeCheck := dictCheck s.codec.dictSize
        outSize := knownSize size
        posStateMask := (1#32 <<< s.codec.pb.toNat) - 1#32
        literalPosMask := (1#32 <<< s.codec.lp.toNat) - 1#32 }
    host := { s.host with size := size, inPos := 13#32 } }

/-- R271 from the dictionary size on. -/
def decHeaderRest : Eng Unit := fun s =>
  let dictSize := BitVec.ofNat 32 (inLE s 4 1)
  let s : State := { s with codec := { s.codec with dictSize := dictSize } }
  if s.params.maxDictSize < dictSize then .error .unsupportedDictionarySize (s.withInPos 5#32)
  else if s.host.inLen < 13#32 then .error .truncatedInput (s.withInPos s.host.inLen)
  else .ok () (headerAccepted s (BitVec.ofNat 64 (inLE s 8 5)))

/-- CODEC.DEC_HEADER (R271). -/
def decHeader : Eng Unit := fun s =>
  if s.host.inLen < 5#32 then .error .invalidHeader (s.withInPos 0#32)
  else
    let v := s.inByte 0
    if 225#8 ≤ v then
      .error .invalidHeader
        (State.withInPos { s with codec := { s.codec with propsByte := v } } 1#32)
    else decHeaderRest { s with codec := s.codec.withProps v }

/-! ### Encoder packets -/

/-- The byte at `nowPos` (section 5). -/
def currentByte (s : State) : Byte := mfIndexByte s s.mf (-s.parser.additionalOffset).toInt

/-- The byte `rep0 + 1` before `nowPos` (R272). -/
def encMatchByte (s : State) : Byte :=
  mfIndexByte s s.mf (-s.codec.reps.r0 - 1#32 - s.parser.additionalOffset).toInt

/-- The literal block at `nowPos` (R272). -/
def litBlock (s : State) : U32 := litSelect s s.codec.nowPos s.codec.prevByte

/-- R272: the byte `b` through the literal coder, chosen in state `s`. -/
def encLitDecisions (s : State) (b : Byte) : Eng Unit :=
  if stIsChar s.codec.state then litEnc (litBlock s) b
  else litEncMatched (litBlock s) (encMatchByte s) b

/-- R272 for the byte `b`. -/
def encLitByte (b : Byte) : Eng Unit := do
  let s ← get
  encBit (isMatchCell s.codec.state s.posState) false
  encLitDecisions s b
  modifyCodec fun c => { c with prevByte := b, state := stChar c.state }

/-- CODEC.ENC_LIT (R272). -/
def encLit : Eng Unit := do
  let s ← get
  encLitByte (currentByte s)

def countMatch : Eng Unit :=
  modify fun s =>
    { s with prices := { s.prices with matchPriceCount := s.prices.matchPriceCount + 1#32 } }

def countAlign : Eng Unit :=
  modify fun s =>
    { s with prices := { s.prices with alignPriceCount := s.prices.alignPriceCount + 1#32 } }

/-- R276's footer of `d` in slot `slot ≥ 4`. -/
def encFooter (slot d : U32) : Eng Unit :=
  if slot < 14#32 then btRenc (posModelsTree slot) (footerBits slot) (d - slotBase slot)
  else do
    encDirect ((d - slotBase slot) >>> 4) (footerBits slot - 4)
    btRenc posAlignTree 4 ((d - slotBase slot) &&& 15#32)
    countAlign

/-- CODEC.ENC_DISTANCE (R276). -/
def encDistance (d len : U32) : Eng Unit := do
  btEnc (posSlotTree (lenToPosStateOf len)) 6 (posSlotOf d)
  if 4#32 ≤ posSlotOf d then encFooter (posSlotOf d) d else pure ()

/-- CODEC.ENC_MATCH (R273). A `d` at or above `dictSize` is coded all the same (log 34). -/
def encMatch (len d : U32) : Eng Unit := do
  let s ← get
  encBit (isMatchCell s.codec.state s.posState) true
  encBit (isRepCell s.codec.state) false
  setState (stMatch s.codec.state)
  lenEncCounted .matchLen (len - 2#32) s.posState
  encDistance d len
  setRepRegs (repsPush s.codec.reps d)
  countMatch

/-- R274's decisions that name rep `i`, in state `st` with `ps`; `short` is `len = 1`. -/
def encRepChoice (i : Nat) (short : Bool) (st : U4) (ps : U32) : Eng Unit :=
  if i = 0 then do
    encBit (isRepG0Cell st) false
    encBit (isRep0LongCell st ps) (!short)
  else if i = 1 then do
    encBit (isRepG0Cell st) true
    encBit (isRepG1Cell st) false
  else do
    encBit (isRepG0Cell st) true
    encBit (isRepG1Cell st) true
    encBit (isRepG2Cell st) (decide (i ≠ 2))

/-- R274's length and next state, from state `st` with `ps`. -/
def encRepLength (len : U32) (st : U4) (ps : U32) : Eng Unit :=
  if len = 1#32 then setState (stShortrep st)
  else do
    lenEncCounted .repLen (len - 2#32) ps
    setState (stRep st)

/-- CODEC.ENC_REP (R274); REPS.PROMOTE 0 leaves the register. -/
def encRep (i : Nat) (len : U32) : Eng Unit := do
  let s ← get
  encBit (isMatchCell s.codec.state s.posState) true
  encBit (isRepCell s.codec.state) true
  encRepChoice i (decide (len = 1#32)) s.codec.state s.posState
  encRepLength len s.codec.state s.posState
  setRepRegs (repsPromote s.codec.reps i)

/-- CODEC.ENC_EOS (R275). -/
def encEos : Eng Unit := do
  let s ← get
  encBit (isMatchCell s.codec.state s.posState) true
  encBit (isRepCell s.codec.state) false
  setState (stMatch s.codec.state)
  lenEnc .matchLen 0#32 s.posState
  btEnc (posSlotTree 0#32) 6 63#32
  encDirect 0x3FFFFFF#32 26
  btRenc posAlignTree 4 15#32

/-- R277 after a packet of `len` bytes: the positions; IN_POS shows `nowPos` (R285). -/
def encAdvance (len : U32) : Eng Unit :=
  modify fun s =>
    { s with
      parser := { s.parser with additionalOffset := s.parser.additionalOffset - len }
      codec := { s.codec with nowPos := s.codec.nowPos + len.setWidth 64 }
      host := { s.host with inPos := (s.codec.nowPos + len.setWidth 64).setWidth 32 } }

/-- R277: `prevByte` after a match or rep of `len` bytes. -/
def encLastByte (len : U32) : Eng Unit :=
  modify fun s =>
    { s with
      codec :=
        { s.codec with
          prevByte := mfIndexByte s s.mf (len - 1#32 - s.parser.additionalOffset).toInt } }

/-- R277: the packet of the token `back` of `len` bytes. A token that only a lattice outside a session
gives runs as the pseudocode stands, past the operand ranges of its packet (DESIGN CHOICE, log 34): a
negative `back` with `len ≠ 1` as ENC_REP with `i` not in 0..3, coded as rep 3; a rep 1..3 of `len` 1 with
SHORTREP's next state; a rep or a match of another `len` outside 2..273 with `len - 2` modulo 2^32. -/
def encTokenPacket (len : U32) (back : I32) : Eng Unit :=
  if len = 1#32 ∧ back = 0xFFFFFFFF#32 then encLit
  else if isRepCode back then do
    encRep back.toNat len
    encLastByte len
  else do
    encMatch len (back - 4#32)
    encLastByte len

/-- R277: the token `back` of `len` bytes, and the positions. -/
def encToken (len : U32) (back : I32) : Eng Unit := do
  encTokenPacket len back
  encAdvance len

/-- The refresh after a packet of the rows of length prices, which only a PRICE_REFRESH other than SDK
has (43_length_coder R171, log 7). -/
def refreshLengths (s : State) : State :=
  match s.params.priceRefresh with
  | .sdk => s
  | .other =>
    [LenSel.matchLen, .repLen].foldl (fun s c =>
      (List.range 16).foldl (fun s ps =>
        if Config.freeRefresh s.freeCount (lenPoint c ps + 32) then
          lenSetPrices c (BitVec.ofNat 32 ps) s
        else s) s) s

/-- R277's refresh (45_optimal_parser R242). -/
def refreshPrices (s : State) : State :=
  let idle := decide (s.parser.additionalOffset = 0#32)
  let s :=
    if refreshDue s 0 (idle && decide (128#32 ≤ s.prices.matchPriceCount)) then fillDist s else s
  let s :=
    if refreshDue s 1 (idle && decide (16#32 ≤ s.prices.alignPriceCount)) then fillAlign s else s
  refreshLengths s

/-- R277 after GET_OPTIMUM has returned `len`. -/
def encBlockWith (len : U32) : Eng Unit := do
  let s ← get
  encToken len s.parser.backRes
  modify refreshPrices

/-! ### The ENCODE session's start and first byte -/

/-- R280, R282: the registers of a new session at level row `row`. PROPS, DICT_SIZE, FAST_BYTES and
MF_KIND are latched; the match candidate buffer is 0 (10_state R40); SIZE is 0 until the header is
written (log 14). -/
def encStartRegs (row : LevelRow) (s : State) : State :=
  let dictSize := 1#32 <<< row.searchDepth
  let s : State :=
    { s with
      host := { s.host with outLen := 0#64, inPos := 0#32, size := 0#64 }
      probs := []
      codec :=
        { s.codec.withProps encProps with
          state := 0#4
          reps := Quad.zero
          prevByte := 0#8
          nowPos := 0#64
          dictSize := dictSize
          posStateMask := 3#32 }
      encCfg :=
        { fastBytes := row.fastBytes
          mfKind := if row.bt4 then .bt4 else .bt2
          writeEndMarker := s.host.writeEndMarker }
      parser :=
        { s.parser with
          matchDistances := []
          additionalOffset := 0#32
          longestMatchWasFound := false
          longestMatchLength := 0#32
          numDistancePairs := 0#32
          optimumEndIndex := 0#32
          optimumCurrentIndex := 0#32 }
      prices :=
        { s.prices with
          matchPriceCount := 0#32
          alignPriceCount := 0#32
          distTableSize := BitVec.ofNat 32 (2 * row.searchDepth) } }
  { s with mf := mfInit s s.mf }

/-- `for ps in 0..3: LEN.SET_PRICES C, ps` after `C.tableSize <- fastBytes - 1` (R282). -/
def fillLenTables (c : LenSel) (s : State) : State :=
  let t := s.prices.len c
  let s : State :=
    { s with
      prices :=
        s.prices.setLen c { t with tableSize := s.encCfg.fastBytes.setWidth 32 - 1#32 } }
  lenSetPrices c 3#32 (lenSetPrices c 2#32 (lenSetPrices c 1#32 (lenSetPrices c 0#32 s)))

/-- R282's price tables. -/
def encStartPrices (s : State) : State :=
  fillLenTables .repLen (fillLenTables .matchLen (fillAlign (fillDist s)))

/-- The header registers before a session has written them: 0 (60_exceptions R312; log 14). -/
def clearHeaderRegs (s : State) : State :=
  { s with
    host := { s.host with size := 0#64 }
    codec := { s.codec with propsByte := 0#8, lc := 0#4, lp := 0#3, pb := 0#3, dictSize := 0#32 } }

/-- `raise ConfigError` (60_exceptions R313). R281's checks stand before any write; R312 then has the
header registers hold 0, which is recorded as the error is raised (log 33). -/
def raiseConfigError : Eng Unit := do
  modify clearHeaderRegs
  raise .configError

/-- R281's checks, then R282. Nothing is written before a check has passed. -/
def encSessionStart : Eng Unit := do
  let s ← get
  match levelRow s.host.level with
  | none => raiseConfigError
  | some row =>
    if s.maxInLen < s.host.inLen.toNat then raiseConfigError
    else do
      modify fun s => encStartPrices (encStartRegs row s)
      encHeader
      encInit

/-- R286's lines before its loop: byte 0 as a plain literal. -/
def encFirstByte : Eng Unit := do
  modify fun s => s.setPm (readMatchDistances s s.pm).2
  let s ← get
  encBit (isMatchCell s.codec.state 0#32) false
  setState (stChar s.codec.state)
  litEnc (litSelect s 0#64 s.codec.prevByte) (currentByte s)
  modifyCodec fun c => { c with prevByte := currentByte s }
  encAdvance 1#32

/-! ### Decoder packets -/

/-- R278's footer of slot `slot ≥ 4`. -/
def decFooter (slot : U32) : Eng U32 :=
  if slot < 14#32 then do
    let r ← btRdec (posModelsTree slot) (footerBits slot)
    pure (slotBase slot + r)
  else do
    let hi ← decDirect (footerBits slot - 4) 0#32
    let lo ← btRdec posAlignTree 4
    pure (slotBase slot + (hi <<< 4) + lo)

/-- CODEC.DEC_DISTANCE (R278). -/
def decDistance (len : U32) : Eng U32 := do
  let slot ← btDec (posSlotTree (lenToPosStateOf len)) 6
  if slot < 4#32 then pure slot else decFooter slot

/-- CODEC.CHECK_DIST (R293). -/
def checkDist : Eng Unit := fun s =>
  if s.codec.nowPos ≤ s.codec.reps.r0.setWidth 64 ∨ s.codec.dictSizeCheck ≤ s.codec.reps.r0 then
    .error .corruptStream s
  else .ok () s

/-- R294's condition: `nowPos` is below a known size. -/
def belowSize (s : State) : Bool :=
  match s.codec.outSize with
  | none => false
  | some size => decide (s.codec.nowPos < size)

/-- CODEC.DEC_EARLY_END_CHECK (R294). -/
def earlyEndCheck (s : State) : State :=
  if belowSize s then { s with host := { s.host with earlyEnd := true } } else s

/-- R295 after the size check: copy `n` bytes. -/
def copyBytes (n : U32) : Eng Unit := do
  let s ← get
  owCopy s.codec.reps.r0 n.toNat
  modify fun s =>
    { s with
      codec :=
        { s.codec with
          nowPos := s.codec.nowPos + n.setWidth 64
          prevByte := owGet s 0#32 } }

/-- CODEC.COPY (R295). The cut length is reduced to 32 bits (log 31). -/
def copy (len : U32) : Eng Unit := do
  let s ← get
  match s.codec.outSize with
  | none => copyBytes len
  | some size =>
    if size < s.codec.nowPos + len.setWidth 64 then
      match s.params.overshoot with
      | .corrupt => raise .corruptStream
      | .truncate =>
        modify fun s => { s with host := { s.host with outTruncated := true } }
        copyBytes ((size - s.codec.nowPos).setWidth 32)
    else copyBytes len

/-- The literal block at `nowPos` as R292 writes it, from `literalPosMask`. -/
def decLitBlock (c : Codec) : U32 :=
  ((c.nowPos.setWidth 32 &&& c.literalPosMask) <<< c.lc.toNat) +
    (c.prevByte.setWidth 32 >>> (8 - c.lc.toNat))

/-- R292: the decisions of a literal's byte, after `isMatch`. -/
def decLitByte : Eng Byte := do
  let s ← get
  if stIsChar s.codec.state then litDec (decLitBlock s.codec)
  else litDecMatched (decLitBlock s.codec) (owGet s s.codec.reps.r0)

/-- R292: the effect of a literal `b`. -/
def putLiteral (b : Byte) : Eng Unit := do
  owPut b
  modifyCodec fun c =>
    { c with prevByte := b, nowPos := c.nowPos + 1#64, state := stChar c.state }

/-- R292's decisions that name a rep: its index, and whether it is the short rep. -/
def decRepChoice (st : U4) (ps : U32) : Eng (Nat × Bool) := do
  let g0 ← decBit (isRepG0Cell st)
  if g0 then
    let g1 ← decBit (isRepG1Cell st)
    if g1 then
      let g2 ← decBit (isRepG2Cell st)
      pure (if g2 then 3 else 2, false)
    else pure (1, false)
  else
    let long ← decBit (isRep0LongCell st ps)
    pure (0, !long)

/-- R292's rep branch up to the copy: the length. -/
def decRep (st : U4) (ps : U32) : Eng U32 := do
  let r ← decRepChoice st ps
  if r.2 then
    setState (stShortrep st)
    pure 1#32
  else
    modifyCodec fun c => { c with reps := repsPromote c.reps r.1 }
    let k ← lenDec .repLen ps
    setState (stRep st)
    pure (2#32 + k)

/-- R292's MATCH branch up to the test for the end marker: the length. -/
def decMatch (st : U4) (ps : U32) : Eng U32 := do
  let k ← lenDec .matchLen ps
  setState (stMatch st)
  let d ← decDistance (2#32 + k)
  modifyCodec fun c => { c with reps := repsPush c.reps d }
  pure (2#32 + k)

/-- R292's last three lines. -/
def checkedCopy (len : U32) : Eng Ret := do
  checkDist
  copy len
  pure .cont

/-- R292 after a MATCH has been pushed: the end marker ends the session. -/
def afterMatch (len : U32) : Eng Ret := do
  let s ← get
  if s.codec.reps.r0 = kEndMarker then
    modify earlyEndCheck
    pure .endOfStream
  else checkedCopy len

/-- CODEC.DEC_PACKET (R292). -/
def decPacket : Eng Ret := do
  let s ← get
  let st := s.codec.state
  let ps := s.posState
  let isMatch ← decBit (isMatchCell st ps)
  if isMatch then
    let isRep ← decBit (isRepCell st)
    if isRep then
      let len ← decRep st ps
      checkedCopy len
    else
      let len ← decMatch st ps
      afterMatch len
  else
    let b ← decLitByte
    putLiteral b
    pure .cont

/-! ### The DECODE session's start -/

/-- R290's registers after the header. -/
def decStartRegs (s : State) : State :=
  { s with
    probs := []
    codec := { s.codec with state := 0#4, reps := Quad.zero, prevByte := 0#8, nowPos := 0#64 } }

/-- R290 after its first line, which is the command's (`enterSession`). The check stands before any
write (60_exceptions R313); the header registers are 0 until DEC_HEADER reaches them (R312; log 14). -/
def decSessionStart : Eng Unit := do
  let s ← get
  if s.params.inMemBytes < s.host.inLen.toNat then raiseConfigError
  else
    modify clearHeaderRegs
    decHeader
    modify decStartRegs
    let s ← get
    owInit s.codec.dictSizeCheck
    decInit

/-! ### Meanings -/

def execCodecEncHeader (s : State) : Host.Outcome State Fault Refusal := completeUnit encHeader s

def execCodecDecHeader (s : State) : Host.Outcome State Fault Refusal := completeUnit decHeader s

def execCodecEncLit (s : State) : Host.Outcome State Fault Refusal := completeUnit encLit s

def execCodecEncMatch (len : U16) (d : U32) (s : State) : Host.Outcome State Fault Refusal :=
  completeUnit (encMatch (len.setWidth 32) d) s

def execCodecEncRep (i : Byte) (len : U16) (s : State) : Host.Outcome State Fault Refusal :=
  completeUnit (encRep i.toNat (len.setWidth 32)) s

def execCodecEncEos (s : State) : Host.Outcome State Fault Refusal := completeUnit encEos s

def execCodecEncDistance (d : U32) (len : U16) (s : State) : Host.Outcome State Fault Refusal :=
  completeUnit (encDistance d (len.setWidth 32)) s

def execCodecEncBlock (s : State) : Host.Outcome State Fault Refusal :=
  match getOptimum s (s.codec.nowPos.setWidth 32) s.pm with
  | some (len, x) => completeUnit (encBlockWith len) (s.setPm x)
  | none => .fault .parserHang

def execCodecDecDistance (len : U16) (s : State) : Host.Outcome State Fault Refusal :=
  completeWord (decDistance (len.setWidth 32)) s

def execCodecDecPacket (s : State) : Host.Outcome State Fault Refusal := complete decPacket s

def execCodecCheckDist (s : State) : Host.Outcome State Fault Refusal := completeUnit checkDist s

def execCodecDecEarlyEndCheck (s : State) : Host.Outcome State Fault Refusal :=
  answer .none (earlyEndCheck s)

def execCodecCopy (len : U16) (s : State) : Host.Outcome State Fault Refusal :=
  completeUnit (copy (len.setWidth 32)) s

end Sys2Proof.Machine
end

