-- ==== Sys2Proof/Machine/Packet.lean ====
section
/-! DEFINITION. The packets of the coded body (30_encoding R85..R92) as instructions. In DEC_RUN a
packet is what DEC_PACKET performs once its decisions are decoded; in every other phase it is coded
by the range encoder as ENC_BLOCK's packet (log 6). -/

namespace Sys2Proof.Machine

/-! ### Performing a decoded packet (46_codec R292) -/

/-- A literal `b`. -/
def performLit (b : Byte) : Eng Ret := do
  putLiteral b
  pure .cont

/-- A MATCH of `len` bytes at `d`; the end marker is one (30_encoding R92). -/
def performMatch (len d : U32) : Eng Ret := do
  modifyCodec fun c => { c with state := stMatch c.state, reps := repsPush c.reps d }
  afterMatch len

/-- A short rep. -/
def performShortrep : Eng Ret := do
  modifyCodec fun c => { c with state := stShortrep c.state }
  checkedCopy 1#32

/-- A long rep `i` of `len` bytes. -/
def performLongrep (i : Nat) (len : U32) : Eng Ret := do
  modifyCodec fun c => { c with state := stRep c.state, reps := repsPromote c.reps i }
  checkedCopy len

/-! ### Coding a packet (46_codec R277) -/

/-- A literal `b`. -/
def codeLit (b : Byte) : Eng Ret := do
  encLitByte b
  encAdvance 1#32
  pure .none

/-- A MATCH of `len` bytes at `d`. -/
def codeMatch (len d : U32) : Eng Ret := do
  encMatch len d
  encLastByte len
  encAdvance len
  pure .none

/-- Rep `i` of `len` bytes; the short rep is rep 0 of one byte. -/
def codeRep (i : Nat) (len : U32) : Eng Ret := do
  encRep i len
  encLastByte len
  encAdvance len
  pure .none

/-- The end marker. -/
def codeEos : Eng Ret := do
  encEos
  pure .none

/-- A packet in DEC_RUN, and in every other phase. -/
def packetBy (perform code : Eng Ret) (s : State) : Host.Outcome State Fault Refusal :=
  if s.phase = .decRun then complete perform s else complete code s

/-! ### A packet off the body -/

/-- The decisions of one packet, decoded: the packet they spell (30_encoding R85..R92). Only the
cells and the range decoder change. DEC_PACKET is this and then the packet's effect
(`Obligations.DecPacketIsFetchThenPerform`). -/
def fetchPacket : Eng Instr := do
  let s ← get
  let st := s.codec.state
  let ps := s.posState
  let isMatch ← decBit (isMatchCell st ps)
  if isMatch then
    let isRep ← decBit (isRepCell st)
    if isRep then
      let r ← decRepChoice st ps
      if r.2 then pure .shortrep
      else
        let k ← lenDec .repLen ps
        let len : U16 := (2#32 + k).setWidth 16
        pure (match r.1 with
          | 0 => .longrep0 len
          | 1 => .longrep1 len
          | 2 => .longrep2 len
          | _ => .longrep3 len)
    else
      let k ← lenDec .matchLen ps
      let d ← decDistance (2#32 + k)
      let len : U16 := (2#32 + k).setWidth 16
      pure (if len = 2#16 ∧ d = kEndMarker then .eos else .matchDist len d)
  else
    let b ← decLitByte
    pure (.lit b)

/-! ### Meanings -/

def execLit (b : Byte) (s : State) : Host.Outcome State Fault Refusal :=
  packetBy (performLit b) (codeLit b) s

def execMatchDist (len : U16) (d : U32) (s : State) : Host.Outcome State Fault Refusal :=
  packetBy (performMatch (len.setWidth 32) d) (codeMatch (len.setWidth 32) d) s

def execShortrep (s : State) : Host.Outcome State Fault Refusal :=
  packetBy performShortrep (codeRep 0 1#32) s

def execLongrep0 (len : U16) (s : State) : Host.Outcome State Fault Refusal :=
  packetBy (performLongrep 0 (len.setWidth 32)) (codeRep 0 (len.setWidth 32)) s

def execLongrep1 (len : U16) (s : State) : Host.Outcome State Fault Refusal :=
  packetBy (performLongrep 1 (len.setWidth 32)) (codeRep 1 (len.setWidth 32)) s

def execLongrep2 (len : U16) (s : State) : Host.Outcome State Fault Refusal :=
  packetBy (performLongrep 2 (len.setWidth 32)) (codeRep 2 (len.setWidth 32)) s

def execLongrep3 (len : U16) (s : State) : Host.Outcome State Fault Refusal :=
  packetBy (performLongrep 3 (len.setWidth 32)) (codeRep 3 (len.setWidth 32)) s

def execEos (s : State) : Host.Outcome State Fault Refusal :=
  packetBy (performMatch 2#32 kEndMarker) codeEos s

end Sys2Proof.Machine
end

