-- ==== Sys2Proof/Machine/HostCommand.lean ====
section
/-! DEFINITION. The host commands: what a write to CTRL does (10_state R21; 46_codec R296..R299). -/

namespace Sys2Proof.Machine

/-- The fields of CTRL that a write sets (R21). -/
def State.writeCtrlFields (s : State) (irqEn marker : Bool) : State :=
  { s with host := { s.host with irqEn := irqEn, writeEndMarker := marker } }

/-- A write that is ignored: no field of CTRL changes, CMD_IGNORED is set (R296). -/
def ignoreCommand (s : State) : State := { s with host := { s.host with cmdIgnored := true } }

/-- RESET's state (R297, 70_reset_and_hazards R335): IN, OUT and the CTRL fields just written are
kept, and the model's own fields `params`, `agenda` and `freeCount` (log 11); IN_LEN is 0 (log 16). -/
def commandReset (s : State) : State :=
  { State.resetWith s.params with
    host :=
      { (State.resetWith s.params).host with
        irqEn := s.host.irqEn, writeEndMarker := s.host.writeEndMarker }
    inMem := s.inMem
    outMem := s.outMem
    agenda := s.agenda
    freeCount := s.freeCount }

/-- A command is accepted only while not BUSY (R296). -/
def commandBy (accepted : State → State) (irqEn marker : Bool) (s : State) :
    Host.Outcome State Fault Refusal :=
  if s.busy then .next (ignoreCommand s) else .next (accepted (s.writeCtrlFields irqEn marker))

/-! ### Meanings -/

/-- NOP writes the two fields only (R296); it is no command, so it leaves CMD_IGNORED (log 17). -/
def execNop (irqEn marker : Bool) (s : State) : Host.Outcome State Fault Refusal :=
  commandBy id irqEn marker s

def execReset (irqEn marker : Bool) (s : State) : Host.Outcome State Fault Refusal :=
  commandBy commandReset irqEn marker s

/-- ENCODE (R298): the start of the session; the engine's turns run the rest. -/
def execEncode (irqEn marker : Bool) (s : State) : Host.Outcome State Fault Refusal :=
  commandBy (fun s => finish ((encSessionStart >>= fun _ => pure .none) (enterSession .encFirst s)))
    irqEn marker s

/-- DECODE (R299): the start of the session; the engine's turns run the rest. -/
def execDecode (irqEn marker : Bool) (s : State) : Host.Outcome State Fault Refusal :=
  commandBy (fun s => finish ((decSessionStart >>= fun _ => pure .none) (enterSession .decLoop s)))
    irqEn marker s

/-- A reserved OP is ignored at any time (R296). -/
def execCtrlReserved4 (_op : BitVec 2) (_irqEn _marker : Bool) (s : State) :
    Host.Outcome State Fault Refusal := .next (ignoreCommand s)

/-- A reserved OP is ignored at any time (R296). -/
def execCtrlReserved8 (_op : BitVec 3) (_irqEn _marker : Bool) (s : State) :
    Host.Outcome State Fault Refusal := .next (ignoreCommand s)

end Sys2Proof.Machine
end

