-- ==== Sys2Proof/Machine/Dispatch.lean ====
section
/-! DEFINITION. The meaning of every instruction, one arm per constructor of Instr. -/

namespace Sys2Proof.Machine

def exec (i : Instr) (s : State) : Host.Outcome State Fault Refusal :=
  match i with
  -- 40_range_coder
  | .rcEncInit => Sys2Proof.Machine.execRcEncInit s
  | .rcEncBit p bit => Sys2Proof.Machine.execRcEncBit p bit s
  | .rcShiftLow => Sys2Proof.Machine.execRcShiftLow s
  | .rcEncDirect value n => Sys2Proof.Machine.execRcEncDirect value n s
  | .rcEncFlush => Sys2Proof.Machine.execRcEncFlush s
  | .rcDecInit => Sys2Proof.Machine.execRcDecInit s
  | .rcDecBit p => Sys2Proof.Machine.execRcDecBit p s
  | .rcDecDirect n => Sys2Proof.Machine.execRcDecDirect n s
  | .rcPriceBit p bit => Sys2Proof.Machine.execRcPriceBit p bit s
  -- 41_bit_tree
  | .btEnc t n sym => Sys2Proof.Machine.execBtEnc t n sym s
  | .btDec t n => Sys2Proof.Machine.execBtDec t n s
  | .btPrice t n sym => Sys2Proof.Machine.execBtPrice t n sym s
  | .btRenc t n sym => Sys2Proof.Machine.execBtRenc t n sym s
  | .btRdec t n => Sys2Proof.Machine.execBtRdec t n s
  | .btRprice t n sym => Sys2Proof.Machine.execBtRprice t n sym s
  | .btInit a k => Sys2Proof.Machine.execBtInit a k s
  -- 42_literal_coder
  | .litSelect pos prevByte => Sys2Proof.Machine.execLitSelect pos prevByte s
  | .litEnc c sym => Sys2Proof.Machine.execLitEnc c sym s
  | .litEncMatched c matchByte sym => Sys2Proof.Machine.execLitEncMatched c matchByte sym s
  | .litDec c => Sys2Proof.Machine.execLitDec c s
  | .litDecMatched c matchByte => Sys2Proof.Machine.execLitDecMatched c matchByte s
  | .litPrice c matchMode matchByte sym => Sys2Proof.Machine.execLitPrice c matchMode matchByte sym s
  -- 43_length_coder
  | .lenEnc c k ps => Sys2Proof.Machine.execLenEnc c k ps s
  | .lenDec c ps => Sys2Proof.Machine.execLenDec c ps s
  | .lenSetPrices c ps => Sys2Proof.Machine.execLenSetPrices c ps s
  | .lenPrice c k ps => Sys2Proof.Machine.execLenPrice c k ps s
  | .lenEncCounted c k ps => Sys2Proof.Machine.execLenEncCounted c k ps s
  -- 44_match_finder
  | .mfInit => Sys2Proof.Machine.execMfInit s
  | .mfHash cur => Sys2Proof.Machine.execMfHash cur s
  | .mfAvail => Sys2Proof.Machine.execMfAvail s
  | .mfIndexByte k => Sys2Proof.Machine.execMfIndexByte k s
  | .mfMovePos => Sys2Proof.Machine.execMfMovePos s
  | .mfMatchLen k d limit => Sys2Proof.Machine.execMfMatchLen k d limit s
  | .mfGetMatches => Sys2Proof.Machine.execMfGetMatches s
  | .mfTreeWalk curMatch lenLimit emit => Sys2Proof.Machine.execMfTreeWalk curMatch lenLimit emit s
  | .mfSkip n => Sys2Proof.Machine.execMfSkip n s
  -- 45_optimal_parser
  | .optGetOptimum position => Sys2Proof.Machine.execOptGetOptimum position s
  | .optReadMatchDistances => Sys2Proof.Machine.execOptReadMatchDistances s
  | .optMovePos n => Sys2Proof.Machine.execOptMovePos n s
  | .optBackward cur => Sys2Proof.Machine.execOptBackward cur s
  | .optRepLen1Price st ps => Sys2Proof.Machine.execOptRepLen1Price st ps s
  | .optPureRepPrice rep st ps => Sys2Proof.Machine.execOptPureRepPrice rep st ps s
  | .optRepPrice rep len st ps => Sys2Proof.Machine.execOptRepPrice rep len st ps s
  | .optPosLenPrice d len ps => Sys2Proof.Machine.execOptPosLenPrice d len ps s
  | .optFillDist => Sys2Proof.Machine.execOptFillDist s
  | .optFillAlign => Sys2Proof.Machine.execOptFillAlign s
  -- 46_codec, automaton, reps and slots
  | .stChar v => Sys2Proof.Machine.execStChar v s
  | .stMatch v => Sys2Proof.Machine.execStMatch v s
  | .stRep v => Sys2Proof.Machine.execStRep v s
  | .stShortrep v => Sys2Proof.Machine.execStShortrep v s
  | .stIsChar v => Sys2Proof.Machine.execStIsChar v s
  | .lenToPosState len => Sys2Proof.Machine.execLenToPosState len s
  | .repsPush d => Sys2Proof.Machine.execRepsPush d s
  | .repsPromote rep => Sys2Proof.Machine.execRepsPromote rep s
  | .posSlot d => Sys2Proof.Machine.execPosSlot d s
  | .posSlot2 d => Sys2Proof.Machine.execPosSlot2 d s
  -- 46_codec, sequencer
  | .codecEncHeader => Sys2Proof.Machine.execCodecEncHeader s
  | .codecDecHeader => Sys2Proof.Machine.execCodecDecHeader s
  | .codecEncLit => Sys2Proof.Machine.execCodecEncLit s
  | .codecEncMatch len d => Sys2Proof.Machine.execCodecEncMatch len d s
  | .codecEncRep rep len => Sys2Proof.Machine.execCodecEncRep rep len s
  | .codecEncEos => Sys2Proof.Machine.execCodecEncEos s
  | .codecEncDistance d len => Sys2Proof.Machine.execCodecEncDistance d len s
  | .codecEncBlock => Sys2Proof.Machine.execCodecEncBlock s
  | .codecDecDistance len => Sys2Proof.Machine.execCodecDecDistance len s
  | .codecDecPacket => Sys2Proof.Machine.execCodecDecPacket s
  | .codecCheckDist => Sys2Proof.Machine.execCodecCheckDist s
  | .codecDecEarlyEndCheck => Sys2Proof.Machine.execCodecDecEarlyEndCheck s
  | .codecCopy len => Sys2Proof.Machine.execCodecCopy len s
  -- 47_output_window
  | .owInit n => Sys2Proof.Machine.execOwInit n s
  | .owPut b => Sys2Proof.Machine.execOwPut b s
  | .owCopy d n => Sys2Proof.Machine.execOwCopy d n s
  | .owGet d => Sys2Proof.Machine.execOwGet d s
  | .owFlush => Sys2Proof.Machine.execOwFlush s
  -- host commands
  | .nop irqEn writeEndMarker => Sys2Proof.Machine.execNop irqEn writeEndMarker s
  | .reset irqEn writeEndMarker => Sys2Proof.Machine.execReset irqEn writeEndMarker s
  | .encode irqEn writeEndMarker => Sys2Proof.Machine.execEncode irqEn writeEndMarker s
  | .decode irqEn writeEndMarker => Sys2Proof.Machine.execDecode irqEn writeEndMarker s
  | .ctrlReserved4 op irqEn writeEndMarker => Sys2Proof.Machine.execCtrlReserved4 op irqEn writeEndMarker s
  | .ctrlReserved8 op irqEn writeEndMarker => Sys2Proof.Machine.execCtrlReserved8 op irqEn writeEndMarker s
  -- stream packets
  | .lit b => Sys2Proof.Machine.execLit b s
  | .matchDist len d => Sys2Proof.Machine.execMatchDist len d s
  | .shortrep => Sys2Proof.Machine.execShortrep s
  | .longrep0 len => Sys2Proof.Machine.execLongrep0 len s
  | .longrep1 len => Sys2Proof.Machine.execLongrep1 len s
  | .longrep2 len => Sys2Proof.Machine.execLongrep2 len s
  | .longrep3 len => Sys2Proof.Machine.execLongrep3 len s
  | .eos => Sys2Proof.Machine.execEos s

end Sys2Proof.Machine
end

