-- ==== Sys2Proof/Machine/HostPort.lean ====
section
/-! DEFINITION. What the host does to the core other than wait: writes to the registers
(10_state R21..R31, 70_reset_and_hazards R341), to IN and OUT (20_memory R60), and power-on reset
(70_reset_and_hazards R335). -/

namespace Sys2Proof.Machine

/-- The instruction a code spells runs; a code that spells none is refused (30_encoding R103). -/
def runCode (c : Code) (s : State) : Host.Outcome State Fault Refusal :=
  match decode c with
  | .ok i => exec i s
  | .error r => .refused (.badCode r)

/-- A write of `w` to register `n` (R21, R23, R24; the other registers are read-only or reserved,
20_memory R62). -/
def regWrite (n : Byte) (w : U32) (s : State) : Host.Outcome State Fault Refusal :=
  match n.toNat with
  | 0 => exec (decodeCtrl w) s
  | 2 => .next { s with host := { s.host with level := w.extractLsb' 0 4 } }
  | 3 => if s.busy then .next s else .next { s with host := { s.host with inLen := w } }
  | _ => .next s

/-- A host write of a byte of IN (R60). While BUSY it is refused, as 70_reset_and_hazards R345 lets a
model do, and to refuse is to ignore (93_implementation_defined; log 24). -/
def hostWriteIn (a : Nat) (b : Byte) (s : State) : Host.Outcome State Fault Refusal :=
  if s.params.inMemBytes ≤ a then .fault .noSuchInAddress
  else if s.busy then .next s
  else .next { s with inMem := s.inMem.write a b }

/-- A host write of a byte of OUT (R60). While BUSY the byte it writes has no defined value, so it is
a free one, and the session goes on (70_reset_and_hazards R346, log 24). -/
def hostWriteOut (a : Nat) (b : Byte) (s : State) : Host.Outcome State Fault Refusal :=
  if s.params.outMemBytes ≤ a then .fault .noSuchOutAddress
  else if s.busy then .next { s with outMem := s.outMem.write a (Config.freeByte s.freeCount a) }
  else .next { s with outMem := s.outMem.write a b }

/-- Power-on reset (R335). The model's own fields `params`, `agenda` and `freeCount` stay (log 11). -/
def powerOnReset (s : State) : State :=
  { State.resetWith s.params with agenda := s.agenda, freeCount := s.freeCount }

end Sys2Proof.Machine
end

