-- ==== Sys2Proof/Machine/Sequencer.lean ====
section
/-! DEFINITION. The engine's turns: the run loops of ENC_RUN (46_codec R286) and DEC_RUN (R291), one
section or one packet a turn (log 1). -/

namespace Sys2Proof.Machine

/-- Moves to a place in the run loop. -/
def State.goTo (s : State) (q : Seq) : State := { s with host := { s.host with seq := q } }

def goTo (q : Seq) : Eng Unit := modify fun s => s.goTo q

/-- ENC_RUN at its start (R286): with no input it finishes, else it codes the first byte. -/
def turnEncFirst (s : State) : Host.Outcome State Fault Refusal :=
  if mfAvail s.mf = 0#32 then .next (s.goTo .encFinish)
  else completeUnit (encFirstByte >>= fun _ => goTo .encLoop) s

/-- ENC_RUN at the test of its `while` (R286). -/
def turnEncLoop (s : State) : Host.Outcome State Fault Refusal :=
  if s.parser.additionalOffset = 0#32 ∧ mfAvail s.mf = 0#32 then .next (s.goTo .encFinish)
  else execCodecEncBlock s

/-- ENC_RUN at `finish` (R286, R287). -/
def turnEncFinish (s : State) : Host.Outcome State Fault Refusal :=
  if s.encCfg.writeEndMarker then completeUnit (encEos >>= fun _ => goTo .encFlush) s
  else .next (s.goTo .encFlush)

/-- ENC_RUN's flush and its end (R286; 60_exceptions R324). -/
def turnEncFlush (s : State) : Host.Outcome State Fault Refusal :=
  completeUnit (encFlush >>= fun _ => modify completeSession) s

/-- `nowPos = outSize` for a known size (R291). -/
def atSize (s : State) : Bool :=
  match s.codec.outSize with
  | none => false
  | some size => decide (s.codec.nowPos = size)

/-- R291's test of what DEC_PACKET returned: the end marker leaves the loop. -/
def leaveAtEnd (r : Ret) (s : State) : State := if r = .endOfStream then s.goTo .decFlush else s

/-- A packet of DEC_RUN (R291). -/
def decLoopPacket : Eng Ret := do
  let r ← decPacket
  modify (leaveAtEnd r)
  pure r

/-- DEC_RUN at the head of its `loop` (R291). -/
def turnDecLoop (s : State) : Host.Outcome State Fault Refusal :=
  if atSize s then .next (s.goTo .decFlush) else complete decLoopPacket s

/-- DEC_RUN's flush and its end (R291; 60_exceptions R324). -/
def turnDecFlush (s : State) : Host.Outcome State Fault Refusal :=
  completeUnit (owFlush >>= fun _ => modify completeSession) s

/-- One turn of the engine: what it does is fixed by PHASE and the place in the run loop
(10_state R32); in IDLE, DONE and ERROR it does nothing (60_exceptions R334). -/
def engineTurn (s : State) : Host.Outcome State Fault Refusal :=
  match s.host.seq with
  | .idle => .next s
  | .encFirst => turnEncFirst s
  | .encLoop => turnEncLoop s
  | .encFinish => turnEncFinish s
  | .encFlush => turnEncFlush s
  | .decLoop => turnDecLoop s
  | .decFlush => turnDecFlush s
  | .done => .next s
  | .error => .next s

/-- One input of the agenda (log 2). -/
def takeInput (x : Input) (s : State) : Host.Outcome State Fault Refusal :=
  match x with
  | .code c => runCode c s
  | .regWrite n w => regWrite n w s
  | .inWrite a b => hostWriteIn a b s
  | .outWrite a b => hostWriteOut a b s
  | .engine => engineTurn s
  | .powerOn => .next (powerOnReset s)

/-- The state a step's own work starts from: the input taken off the agenda, the counter of free
values moved on (log 8). -/
def State.tick (s : State) : State :=
  { s with agenda := s.agenda.tail, freeCount := s.freeCount + 1 }

end Sys2Proof.Machine
end

