-- ==== Sys2Proof/Machine/Step.lean ====
section
/-! DEFINITION. One step: the next input of the agenda, or, when there is none, one turn of the
engine (log 1, log 2). -/

namespace Sys2Proof.Machine

def step (s : State) : Host.Outcome State Fault Refusal :=
  match s.agenda with
  | [] => engineTurn s.tick
  | x :: _ => takeInput x s.tick

/-- `s` with the instruction of a word, numbered as spec/opcode_table.json numbers it, presented as
the next input (log 2). -/
def State.withFetchWord (s : State) (nbits w : Nat) : State :=
  { s with agenda := .code (tableCode nbits w) :: s.agenda }

end Sys2Proof.Machine
end

