-- ==== Sys2Proof/Safety.lean ====
section
/-! DEFINITION. The terms the claims use: what room an operation needs to run to its end, what the
machine keeps from step to step, what each group of operations may change, and the decision
sequences and tables of the rules written independently of the machine. -/

namespace Sys2Proof

open Machine

/-! ### Room -/

/-- OUT can take what `k` more SHIFT_LOWs emit: each adds one to the bytes written plus `cacheSize`
(40_range_coder R118). -/
def EncRoom (s : State) (k : Nat) : Prop :=
  1 ≤ s.enc.cacheSize.toNat ∧ s.host.outLen.toNat + s.enc.cacheSize.toNat + k ≤ s.outCap + 1

/-- `k` bytes of IN are left for the decoder. -/
def DecInput (s : State) (k : Nat) : Prop := s.host.inPos.toNat + k ≤ s.host.inLen.toNat

/-- Bytes of the window not yet flushed to OUT (10_state R46). -/
def unflushed (w : Window) : Nat := w.winPos.toNat - w.winFlushPos.toNat

/-- The window's indices are in order, and OUT can take its unflushed bytes and `n` more. -/
def WinRoom (s : State) (n : Nat) : Prop :=
  s.window.winFlushPos.toNat ≤ s.window.winPos.toNat ∧
    s.window.winPos.toNat < s.window.windowSize.toNat ∧
    s.host.outLen.toNat + unflushed s.window + n ≤ s.outCap

/-- No error is raised between `s` and `t`: PHASE, the place in the run loop and ERR_CODE stay. -/
def NoError (s t : State) : Prop := t.host.seq = s.host.seq ∧ t.host.errCode = s.host.errCode

/-! ### The invariant -/

/-- Every listed cell holds a value of 31..2017 (10_state R35); an unlisted cell holds 1024. -/
def cellsBounded (t : Store U16) : Bool := t.all fun e => decide (31#16 ≤ e.2) && decide (e.2 ≤ 2017#16)

/-- The canonical form of every private memory but the cells (20_memory R61). -/
def tablesWf (s : State) : Bool :=
  Store.wf Memory.blank s.window.win && Store.wf 0#32 s.mf.son && Store.wf 0#32 s.mf.hash &&
    Store.wf 0#32 s.parser.matchDistances && Store.wf Node.blank s.parser.optimum &&
    Store.wf 0#32 s.prices.posSlotPrices && Store.wf 0#32 s.prices.distancesPrices &&
    Store.wf 0#32 s.prices.alignPrices && Store.wf 0#32 s.prices.matchLen.prices &&
    Store.wf 0#32 s.prices.matchLen.counters && Store.wf 0#32 s.prices.repLen.prices &&
    Store.wf 0#32 s.prices.repLen.counters

/-- The sizes an ENCODE session gives its tables stay inside the arrays of 10_state R42, R43. -/
def sizesBounded (s : State) : Bool :=
  decide (s.prices.distTableSize ≤ 64#32) && decide (s.prices.matchLen.tableSize ≤ 272#32) &&
    decide (s.prices.repLen.tableSize ≤ 272#32) && decide (s.encCfg.fastBytes ≤ 255#9)

/-- What every step keeps, whatever the host presents. -/
structure Inv (s : State) : Prop where
  /-- 00_scope R9 -/
  params : s.params.wf = true
  inCanonical : Memory.wf s.inMem = true
  outCanonical : Memory.wf s.outMem = true
  cellsCanonical : Store.wf probInit s.probs = true
  tablesCanonical : tablesWf s = true
  /-- 10_state R35 -/
  cells : cellsBounded s.probs = true
  /-- 10_state R38 -/
  state : s.codec.state ≤ 11#4
  /-- 30_encoding R81 -/
  props : s.codec.lc ≤ 8#4 ∧ s.codec.lp ≤ 4#3 ∧ s.codec.pb ≤ 4#3
  /-- 10_state R42, R43 -/
  sizes : sizesBounded s = true
  /-- 20_memory R64 -/
  outBounded : s.host.outLen.toNat ≤ s.outCap
  /-- 60_exceptions R311, R324 -/
  errorCode : s.host.errCode ≤ 6#4 ∧ (s.host.errCode ≠ 0#4 ↔ s.host.seq = .error)
  /-- 40_range_coder R115 -/
  encRange : kTopValue ≤ s.enc.range
  /-- 40_range_coder R116 -/
  encLow : s.phase = .encRun → s.enc.low.toNat + s.enc.range.toNat < 2 ^ 33
  /-- 40_range_coder R115 -/
  decRange : s.phase = .decRun → kTopValue ≤ s.dec.range
  /-- 10_state R46 -/
  window : s.phase = .decRun →
    4096 ≤ s.window.windowSize.toNat ∧ s.window.winFlushPos.toNat ≤ s.window.winPos.toNat ∧
      s.window.winPos.toNat < s.window.windowSize.toNat

/-! ### Frames: what is the same in `t` as in `s` -/

/-- The bytes of OUT outside those appended between `s` and `t`: OutWrite stores at OUT_LEN
(20_memory R64), so the stored bytes are those from the old OUT_LEN to the new. -/
def OutAppended (s t : State) : Prop :=
  s.host.outLen.toNat ≤ t.host.outLen.toNat ∧
    ∀ a : Nat, a < s.host.outLen.toNat ∨ t.host.outLen.toNat ≤ a →
      t.outMem.read a = s.outMem.read a

/-- Only the listed host registers differ. -/
def HostSame (s t : State) : Prop :=
  t.host =
    { s.host with
      outLen := t.host.outLen, inPos := t.host.inPos, seq := t.host.seq,
      errCode := t.host.errCode, earlyEnd := t.host.earlyEnd,
      outTruncated := t.host.outTruncated, size := t.host.size }

/-- PHASE and ERR_CODE are those of `s`, or the error entry was taken (60_exceptions R320). -/
def SeqSameOrError (s t : State) : Prop :=
  NoError s t ∨ (t.host.seq = .error ∧ t.host.errCode ≠ 0#4)

/-- What no operation of the engine changes: IN, the parameters and the model's own counters. -/
structure CoreFrame (s t : State) : Prop where
  params : t.params = s.params
  inMem : t.inMem = s.inMem
  agenda : t.agenda = s.agenda
  freeCount : t.freeCount = s.freeCount
  host : HostSame s t
  seq : SeqSameOrError s t

/-- An operation of the range encoder: only its registers, the cells of `P`, OUT and OUT_LEN. -/
structure EncFrame (P : CellRef → Prop) (s t : State) : Prop where
  core : CoreFrame s t
  out : OutAppended s t
  inPos : t.host.inPos = s.host.inPos
  flags : t.host.earlyEnd = s.host.earlyEnd ∧ t.host.outTruncated = s.host.outTruncated ∧
    t.host.size = s.host.size
  cells : ∀ c : CellRef, ¬ P c → t.prob c = s.prob c
  dec : t.dec = s.dec
  codec : t.codec = s.codec
  encCfg : t.encCfg = s.encCfg
  prices : t.prices = s.prices
  parser : t.parser = s.parser
  mf : t.mf = s.mf
  window : t.window = s.window

/-- An operation of the range decoder: only its registers, IN_POS and the cells of `P`. -/
structure DecFrame (P : CellRef → Prop) (s t : State) : Prop where
  core : CoreFrame s t
  outMem : t.outMem = s.outMem
  outLen : t.host.outLen = s.host.outLen
  flags : t.host.earlyEnd = s.host.earlyEnd ∧ t.host.outTruncated = s.host.outTruncated ∧
    t.host.size = s.host.size
  cells : ∀ c : CellRef, ¬ P c → t.prob c = s.prob c
  enc : t.enc = s.enc
  codec : t.codec = s.codec
  encCfg : t.encCfg = s.encCfg
  prices : t.prices = s.prices
  parser : t.parser = s.parser
  mf : t.mf = s.mf
  window : t.window = s.window

/-- An operation of the output window: only it, OUT and OUT_LEN. -/
structure WinFrame (s t : State) : Prop where
  core : CoreFrame s t
  out : OutAppended s t
  inPos : t.host.inPos = s.host.inPos
  flags : t.host.earlyEnd = s.host.earlyEnd ∧ t.host.outTruncated = s.host.outTruncated ∧
    t.host.size = s.host.size
  probs : t.probs = s.probs
  enc : t.enc = s.enc
  dec : t.dec = s.dec
  codec : t.codec = s.codec
  encCfg : t.encCfg = s.encCfg
  prices : t.prices = s.prices
  parser : t.parser = s.parser
  mf : t.mf = s.mf

/-- What an encoder's packet or turn leaves alone: the decoder, the window, the configuration and the
status bits of DECODE (47_output_window R306). -/
structure EncoderSide (s t : State) : Prop where
  core : CoreFrame s t
  out : OutAppended s t
  dec : t.dec = s.dec
  window : t.window = s.window
  encCfg : t.encCfg = s.encCfg
  flags : t.host.earlyEnd = s.host.earlyEnd ∧ t.host.outTruncated = s.host.outTruncated ∧
    t.host.size = s.host.size

/-- What a decoder's packet or turn leaves alone: everything of the encoder's. -/
structure DecoderSide (s t : State) : Prop where
  core : CoreFrame s t
  out : OutAppended s t
  enc : t.enc = s.enc
  encCfg : t.encCfg = s.encCfg
  prices : t.prices = s.prices
  parser : t.parser = s.parser
  mf : t.mf = s.mf
  size : t.host.size = s.host.size

/-- An operation that writes OUT ends without an error or with ResourceExhausted and OUT full
(60_exceptions R311, R312). -/
def EndsOrOutFull (s t : State) : Prop :=
  NoError s t ∨
    (t.host.seq = .error ∧ t.host.errCode = 5#4 ∧ t.outCap ≤ t.host.outLen.toNat)

/-- An operation that reads IN ends without an error or with TruncatedInput and no byte left. -/
def EndsOrTruncated (s t : State) : Prop :=
  NoError s t ∨
    (t.host.seq = .error ∧ t.host.errCode = 3#4 ∧ t.host.inLen ≤ t.host.inPos ∧
      (s.host.inPos ≤ s.host.inLen → t.host.inPos = t.host.inLen))

/-! ### Decision sequences (30_encoding R85..R94), apart from the machine -/

/-- The cells and decisions of an `n`-level forward tree for `sym` (41_bit_tree R135): at level `k`
the node is 1 followed by the `k` bits already coded, that is `2^k + sym / 2^(n-k)`. -/
def treePath (t : CellRef) (n sym : Nat) : List (CellRef × Bool) :=
  (List.range n).map fun k =>
    (treeCell t (BitVec.ofNat 32 (2 ^ k + sym / 2 ^ (n - k))), sym.testBit (n - 1 - k))

/-- The `k` low bits of `sym` in reverse order: bit 0 is the highest. -/
def reverseBits : Nat → Nat → Nat
  | 0, _ => 0
  | k + 1, sym => 2 * reverseBits k sym + (sym / 2 ^ k) % 2

/-- The cells and decisions of an `n`-level reverse tree (41_bit_tree R138): at level `k` the node
is 1 followed by the `k` bits already coded, first bit highest. -/
def reversePath (t : CellRef) (n sym : Nat) : List (CellRef × Bool) :=
  (List.range n).map fun k =>
    (treeCell t (BitVec.ofNat 32 (2 ^ k + reverseBits k sym)), sym.testBit k)

/-- The cells and decisions of a matched literal (42_literal_coder R153): in the matched cells up to
and including the first bit at which `sym` and `matchByte` differ, in the normal cells after it. -/
def matchedPath (c : Nat) (matchByte sym : Byte) : List (CellRef × Bool) :=
  (List.range 8).map fun k =>
    let node := 2 ^ k + sym.toNat / 2 ^ (8 - k)
    let same := decide (sym.toNat / 2 ^ (8 - k) = matchByte.toNat / 2 ^ (8 - k))
    let offset := if same then 256 * (1 + (matchByte.toNat / 2 ^ (7 - k)) % 2) else 0
    (⟨.literal, BitVec.ofNat 32 (768 * c + offset + node)⟩, sym.toNat.testBit (7 - k))

/-- The cells and decisions of a normal literal (42_literal_coder R152). -/
def literalPath (c : Nat) (sym : Byte) : List (CellRef × Bool) :=
  treePath ⟨.literal, BitVec.ofNat 32 (768 * c)⟩ 8 sym.toNat

/-- The cells and decisions of length symbol `k` (30_encoding R93). -/
def lengthPath (c : LenSel) (ps k : Nat) : List (CellRef × Bool) :=
  if k < 8 then
    (⟨.lenChoice c, 0#32⟩, false) :: treePath ⟨.lenLow c, BitVec.ofNat 32 (8 * ps)⟩ 3 k
  else if k < 16 then
    (⟨.lenChoice c, 0#32⟩, true) :: (⟨.lenChoice c, 1#32⟩, false) ::
      treePath ⟨.lenMid c, BitVec.ofNat 32 (8 * ps)⟩ 3 (k - 8)
  else
    (⟨.lenChoice c, 0#32⟩, true) :: (⟨.lenChoice c, 1#32⟩, true) ::
      treePath ⟨.lenHigh c, 0#32⟩ 8 (k - 16)

/-- RC.ENC_BIT on each cell and decision in turn. -/
def encBits : List (CellRef × Bool) → Eng Unit
  | [] => pure ()
  | d :: ds => do
    encBit d.1 d.2
    encBits ds

/-- What the range coder codes: a decision with a cell, or the `n` low bits of a value. -/
inductive Coded
  | bit (c : CellRef) (b : Bool)
  | direct (value : U32) (n : Nat)
  deriving DecidableEq, Repr

def bitsOf (ds : List (CellRef × Bool)) : List Coded := ds.map fun d => .bit d.1 d.2

/-- How many binary decisions `ds` holds. -/
def codedBits : List Coded → Nat
  | [] => 0
  | .bit _ _ :: ds => 1 + codedBits ds
  | .direct _ n :: ds => n + codedBits ds

/-- The cells of `ds`. -/
def codedCells : List Coded → List CellRef
  | [] => []
  | .bit c _ :: ds => c :: codedCells ds
  | .direct _ _ :: ds => codedCells ds

/-- RC.ENC_BIT or RC.ENC_DIRECT on each in turn. -/
def encCoded : List Coded → Eng Unit
  | [] => pure ()
  | .bit c b :: ds => do
    encBit c b
    encCoded ds
  | .direct v n :: ds => do
    encDirect v n
    encCoded ds

/-- What the decoder returns for a coded item. -/
def Coded.value : Coded → U32
  | .bit _ b => bitWord b
  | .direct v n => BitVec.ofNat 32 (v.toNat % 2 ^ n)

/-- RC.DEC_BIT or RC.DEC_DIRECT for each item in turn: what they return. -/
def decCoded : List Coded → Eng (List U32)
  | [] => pure []
  | .bit c _ :: ds => do
    let b ← decBit c
    let vs ← decCoded ds
    pure (bitWord b :: vs)
  | .direct _ n :: ds => do
    let v ← decDirect n 0#32
    let vs ← decCoded ds
    pure (v :: vs)

/-- In `s` the decoder reads the items `ds`, with the values they have, and stops in `u`. -/
def Reads (ds : List Coded) (s u : State) : Prop := decCoded ds s = .ok (ds.map Coded.value) u

/-- With room in OUT for it, `o` is `s` with `ds` coded and then `f` done. -/
def CodesThen (ds : List Coded) (f : State → State) (s : State)
    (o : Host.Outcome State Fault Refusal) : Prop :=
  EncRoom s (codedBits ds) →
    ∃ t, encCoded ds s = .ok () t ∧ NoError s t ∧ o = .next { f t with ret := .none }

/-- The instruction that codes an item, and the one that decodes it. -/
def Coded.encInstr : Coded → Instr
  | .bit c b => .rcEncBit c b
  | .direct v n => .rcEncDirect v (BitVec.ofNat 8 n)

def Coded.decInstr : Coded → Instr
  | .bit c _ => .rcDecBit c
  | .direct _ n => .rcDecDirect (BitVec.ofNat 8 n)

/-- A list of instructions run one after another: what each returned, and the state after them. -/
def runInstrs : List Instr → State → Option (List Ret × State)
  | [], s => some ([], s)
  | i :: is, s =>
    match exec i s with
    | .next t =>
      match runInstrs is t with
      | some (rs, u) => some (t.ret :: rs, u)
      | none => none
    | .fault _ => none
    | .refused _ => none

/-- The decisions of the distance `d` after a length `len` (30_encoding R94). -/
def distanceCode (len d : Nat) : List Coded :=
  let slot := slotOf d
  let footer := slot / 2 - 1
  let base := (2 + slot % 2) * 2 ^ footer
  bitsOf (treePath ⟨.posSlot, BitVec.ofNat 32 (64 * min (len - 2) 3)⟩ 6 slot) ++
    if slot < 4 then []
    else if slot < 14 then
      bitsOf (reversePath ⟨.posModels, BitVec.ofInt 32 ((base : Int) - slot - 1)⟩ footer (d - base))
    else
      .direct (BitVec.ofNat 32 ((d - base) / 16)) (footer - 4) ::
        bitsOf (reversePath ⟨.posAlign, 0#32⟩ 4 ((d - base) % 16))

/-- `isMatch[cs]`, `isRep[s]` and the rep cells, `st` being the state and `ps` the posState
(10_state R36). -/
def cellOf (a : ProbArray) (i : Nat) : CellRef := ⟨a, BitVec.ofNat 32 i⟩

/-- The decisions of LIT `b` in state `st` with literal block `c` (R85). -/
def litPacket (st ps c : Nat) (matchByte b : Byte) : List Coded :=
  .bit (cellOf .isMatch (16 * st + ps)) false ::
    bitsOf (if st < 7 then literalPath c b else matchedPath c matchByte b)

/-- The decisions of MATCH `len, d` (R86); EOS is `MATCH 2, 0xFFFFFFFF` (R92). -/
def matchPacket (st ps len d : Nat) : List Coded :=
  .bit (cellOf .isMatch (16 * st + ps)) true :: .bit (cellOf .isRep st) false ::
    (bitsOf (lengthPath .matchLen ps (len - 2)) ++ distanceCode len d)

/-- The decisions that name rep `i` (R87..R91); `short` is SHORTREP. -/
def repNaming (st ps i : Nat) (short : Bool) : List (CellRef × Bool) :=
  match i with
  | 0 => [(cellOf .isRepG0 st, false), (cellOf .isRep0Long (16 * st + ps), !short)]
  | 1 => [(cellOf .isRepG0 st, true), (cellOf .isRepG1 st, false)]
  | 2 => [(cellOf .isRepG0 st, true), (cellOf .isRepG1 st, true), (cellOf .isRepG2 st, false)]
  | _ => [(cellOf .isRepG0 st, true), (cellOf .isRepG1 st, true), (cellOf .isRepG2 st, true)]

/-- The decisions of rep `i` of `len` bytes; `REP 0, 1` is SHORTREP (R87..R91). -/
def repPacket (st ps i len : Nat) : List Coded :=
  .bit (cellOf .isMatch (16 * st + ps)) true :: .bit (cellOf .isRep st) true ::
    (bitsOf (repNaming st ps i (decide (len = 1))) ++
      if len = 1 then [] else bitsOf (lengthPath .repLen ps (len - 2)))

/-- The price of a decision sequence, every cell taken before coding (41_bit_tree R144). -/
def pathPrice (s : State) (ds : List (CellRef × Bool)) : U32 :=
  (ds.map fun d => priceBit (s.prob d.1) d.2).sum

/-- `prices[ps][k]` and `counters[ps]` of a length coder. -/
def lenPriceAt (p : LenPrices) (ps k : Nat) : U32 := Store.get 0#32 p.prices (272 * ps + k)
def lenCounterAt (p : LenPrices) (ps : Nat) : U32 := Store.get 0#32 p.counters ps

/-! ### Tables of the rules, apart from the machine -/

/-- The pass of 41_bit_tree R141's outer loop for `i`: entries `start .. end - 1` of ProbPrice. -/
def probPriceSegment (i : Nat) : List Nat :=
  let first := 1 <<< (8 - i)
  let last := 1 <<< (9 - i)
  (List.range (last - first)).map fun k => (i <<< 6) + (((last - (first + k)) <<< 6) >>> (8 - i))

/-- ProbPrice as the loops of 41_bit_tree R141 fill it. -/
def probPriceTable : List Nat :=
  0 :: ([8, 7, 6, 5, 4, 3, 2, 1, 0].map probPriceSegment).flatten

/-- FastPos as 46_codec R262 fills it. -/
def fastPosTable : List Nat :=
  0 :: 1 :: ((List.range 20).map fun k => List.replicate (2 ^ ((k + 2) / 2 - 1)) (k + 2)).flatten

/-- The state transition table of 46_codec R254: after LIT, MATCH or EOS, LONGREP, SHORTREP. -/
def transitionTable : List (Nat × Nat × Nat × Nat) :=
  [(0, 7, 8, 9), (0, 7, 8, 9), (0, 7, 8, 9), (0, 7, 8, 9), (1, 7, 8, 9), (2, 7, 8, 9),
    (3, 7, 8, 9), (4, 10, 11, 11), (5, 10, 11, 11), (6, 10, 11, 11), (4, 10, 11, 11),
    (5, 10, 11, 11)]

/-! ### The output window as a linear history (47_output_window R305) -/

/-- `n` bytes of a memory from index `i`. -/
def bytesFrom (f : Nat → Byte) : Nat → Nat → List Byte
  | 0, _ => []
  | n + 1, i => f i :: bytesFrom f n (i + 1)

/-- OUT's session bytes, then the window's unflushed bytes. -/
def history (s : State) : List Byte :=
  bytesFrom s.outMem.read s.host.outLen.toNat 0 ++
    bytesFrom s.window.cell (unflushed s.window) s.window.winFlushPos.toNat

/-- The bytes passed to OW.PUT since OW.INIT are `H`: OUT's session bytes and the unflushed bytes
spell them, and OW.GET reads them back. -/
def WindowHolds (H : List Byte) (s : State) : Prop :=
  history s = H ∧
    ∀ d : U32, d.toNat < H.length → d.toNat < s.window.windowSize.toNat →
      H[H.length - d.toNat - 1]? = some (owGet s d)

/-- `H` with `n` more bytes, each the one `d + 1` back (R302). -/
def copied (d : Nat) : Nat → List Byte → List Byte
  | 0, H => H
  | n + 1, H => copied d n (H ++ [H.getD (H.length - d - 1) 0#8])

/-! ### Hashes and the match finder's tables -/

/-- CRC as the loops of 44_match_finder R183 fill it. -/
def crcTable : List Nat :=
  (List.range 256).map fun i =>
    (List.range 8).foldl (fun r _ => if r % 2 = 1 then (r / 2) ^^^ 0xEDB88320 else r / 2) i

/-- `IN[i + j]`, as a number. -/
def byteNumber (s : State) (i j : Nat) : Nat := (s.inByte ((i + j : Nat) : Int)).toNat

/-- `t` of 44_match_finder R184, before `h2` and before `h3`. -/
def crcPair (s : State) (i : Nat) : Nat := crcTable.getD (byteNumber s i 0) 0 ^^^ byteNumber s i 1
def crcTriple (s : State) (i : Nat) : Nat := crcPair s i ^^^ (256 * byteNumber s i 2)

/-- `h2`, `h3` and `hv` of BT4 for the bytes at index `i` (R184). -/
def hash2Of (s : State) (i : Nat) : Nat := crcPair s i % 1024
def hash3Of (s : State) (i : Nat) : Nat := crcTriple s i % 65536
def hash4Of (s : State) (i : Nat) : Nat :=
  (crcTriple s i ^^^ (32 * crcTable.getD (byteNumber s i 3) 0 % 2 ^ 32)) &&& s.mf.hashMask.toNat

/-- `hv` of either kind (R184). -/
def bucketOf (s : State) (i : Nat) : Nat :=
  match s.encCfg.mfKind with
  | .bt4 => hash4Of s i
  | .bt2 => byteNumber s i 0 + 256 * byteNumber s i 1

/-- Tag `t` is in the window (R182). -/
def Live (m : MatchFinder) (t : Nat) : Prop :=
  m.pos.toNat - m.cyclicBufferSize.toNat < t ∧ t < m.pos.toNat

/-- The child of tag `t` (R181, R182): `side` 0 holds smaller strings, `side` 1 greater ones. -/
def childOf (m : MatchFinder) (t side : Nat) : Nat :=
  (Store.get 0#32 m.son (2 * ((t - 1) % m.cyclicBufferSize.toNat) + side)).toNat

/-- `u` is in the live tree with root `t`. -/
inductive Under (m : MatchFinder) : Nat → Nat → Prop
  | root {t : Nat} : Live m t → Under m t t
  | child {t u : Nat} (side : Nat) : side < 2 → Live m t → Under m (childOf m t side) u → Under m t u

/-- The root of bucket `h` (R190). -/
def rootOf (s : State) (h : Nat) : Nat := (hashGet s.mf (s.encCfg.mfKind.kFix + h)).toNat

/-- The `n` bytes of IN from index `i` as a number, the first the most significant: of two strings of
`n` bytes the smaller number is the earlier string. -/
def stringNumber (s : State) : Nat → Nat → Nat
  | 0, _ => 0
  | n + 1, i => byteNumber s i 0 * 256 ^ n + stringNumber s n (i + 1)

/-- `lenLimit` of R190 where a byte is inserted. -/
def bytesCompared (m : MatchFinder) : Nat :=
  min m.matchMaxLen.toNat (m.streamPos.toNat - m.pos.toNat)

/-- What MF.INIT leaves in an ENCODE session and GET_MATCHES and SKIP keep: the positions are those
of R180 and R181; a hash cell and a tree hold tags of bytes with that hash; and each tree is ordered
by the strings at its tags, as far as the bytes left allow (R182, R188, R190, R191). -/
structure FinderInv (s : State) : Prop where
  canonical : Store.wf 0#32 s.mf.hash = true ∧ Store.wf 0#32 s.mf.son = true
  input : s.host.inLen.toNat ≤ s.maxInLen
  positions : 1 ≤ s.mf.pos.toNat ∧ s.mf.pos.toNat ≤ s.mf.streamPos.toNat ∧
    s.mf.streamPos.toNat = s.host.inLen.toNat + 1
  window : 1 ≤ s.codec.dictSize.toNat ∧ s.mf.cyclicBufferSize.toNat = s.codec.dictSize.toNat + 1 ∧
    s.mf.cyclicBufferSize.toNat < 2 ^ 31 ∧
    s.mf.cyclicBufferPos.toNat = (s.mf.pos.toNat - 1) % s.mf.cyclicBufferSize.toNat
  limits : s.encCfg.mfKind.minMatchCheck.toNat ≤ s.mf.matchMaxLen.toNat ∧
    s.mf.matchMaxLen.toNat ≤ 273 ∧ 1 ≤ s.mf.cutValue.toNat
  heads : ∀ i, (hashGet s.mf i).toNat < s.mf.pos.toNat
  short : s.encCfg.mfKind = .bt4 → ∀ i,
    (i < 1024 → Live s.mf (hashGet s.mf i).toNat → hash2Of s ((hashGet s.mf i).toNat - 1) = i) ∧
    (i < 65536 → Live s.mf (hashGet s.mf (1024 + i)).toNat →
      hash3Of s ((hashGet s.mf (1024 + i)).toNat - 1) = i)
  buckets : ∀ h t, Under s.mf (rootOf s h) t →
    bucketOf s (t - 1) = h ∧ t + s.encCfg.mfKind.minMatchCheck.toNat ≤ s.mf.streamPos.toNat
  trees : ∀ h t, Under s.mf (rootOf s h) t →
    childOf s.mf t 0 < t ∧ childOf s.mf t 1 < t ∧
    (∀ u, Under s.mf (childOf s.mf t 0) u →
      stringNumber s (bytesCompared s.mf) (u - 1) ≤ stringNumber s (bytesCompared s.mf) (t - 1)) ∧
    ∀ u, Under s.mf (childOf s.mf t 1) u →
      stringNumber s (bytesCompared s.mf) (t - 1) ≤ stringNumber s (bytesCompared s.mf) (u - 1)

/-- Output properties of GET_MATCHES from `s` (44_match_finder R192): `d` holds the pairs. -/
structure RealMatches (s : State) (d : List (U32 × U32)) : Prop where
  rising : (d.map fun x => x.1.toNat).Pairwise (· < ·)
  lengths : ∀ x ∈ d, 2 ≤ x.1.toNat ∧ x.1.toNat ≤ bytesCompared s.mf
  near : ∀ x ∈ d, x.2.toNat < min s.codec.dictSize.toNat (s.mf.pos.toNat - 1)
  agree : ∀ x ∈ d, ∀ j < x.1.toNat,
    byteNumber s (s.mf.pos.toNat - 1) j = byteNumber s (s.mf.pos.toNat - 1 - (x.2.toNat + 1)) j

/-! ### The lattice -/

/-- The tokens that reach node `cur` in one step of its chain, last first: where each starts, where
it ends, and its code (45_optimal_parser R214). -/
def tokensInto (n : Node) (cur : Nat) : List (Nat × Nat × U32) :=
  let p := n.posPrev.toNat
  if n.prev1IsChar then
    (p, cur, n.backPrev) :: (p - 1, p, 0xFFFFFFFF#32) ::
      if n.prev2 then [(n.posPrev2.toNat, p - 1, n.backPrev2)] else []
  else [(p, cur, n.backPrev)]

/-- Where the first of those tokens starts. -/
def tokensFrom (n : Node) : Nat :=
  if n.prev1IsChar then if n.prev2 then n.posPrev2.toNat else n.posPrev.toNat - 1
  else n.posPrev.toNat

/-- The tokens of the chain from node 0 to `cur`, last first, within `fuel` steps. -/
def chainTokens (o : Store Node) : Nat → Nat → List (Nat × Nat × U32)
  | 0, _ => []
  | fuel + 1, cur =>
    if cur = 0 then []
    else tokensInto (node o cur) cur ++ chainTokens o fuel (tokensFrom (node o cur))

/-- Every node up to `cur` starts below itself, and so does the first token of a hop below the
literal that precedes its rep (45_optimal_parser R214). -/
def ChainDown (o : Store Node) (cur : Nat) : Prop :=
  ∀ i, 0 < i → i ≤ cur →
    (node o i).posPrev.toNat < i ∧
      ((node o i).prev1IsChar = true → 0 < (node o i).posPrev.toNat ∧
        ((node o i).prev2 = true → (node o i).posPrev2.toNat + 1 < (node o i).posPrev.toNat))

/-- A node's record as the phases write it (R214, R219, R222..R225): a hop ends in rep 0 of at least
two bytes, and a token of more than one byte is no literal. -/
def RecordOk (n : Node) (cur : Nat) : Prop :=
  n.posPrev.toNat < cur ∧
    (n.prev1IsChar = false → n.posPrev.toNat + 1 < cur → n.backPrev.toNat < 2 ^ 31) ∧
    (n.prev1IsChar = true → 0 < n.posPrev.toNat ∧ n.posPrev.toNat + 1 < cur ∧ n.backPrev = 0#32 ∧
      (n.prev2 = true → n.posPrev2.toNat + 2 < n.posPrev.toNat ∧ n.backPrev2.toNat < 2 ^ 31))

/-- `state` and the reps after a token of `len` bytes (46_codec R250..R253, R258, R259). -/
def tokenEffect (code : U32) (len : Nat) (x : U4 × Quad) : U4 × Quad :=
  if len = 1 then (if code = 0#32 then stShortrep x.1 else stChar x.1, x.2)
  else if code.toNat < 4 then (stRep x.1, repsPromote x.2 code.toNat)
  else (stMatch x.1, repsPush x.2 (code - 4#32))

/-- `state` and the reps at node `cur`: those of the node its tokens start from, after the tokens. -/
def stateInto (o : Store Node) (cur : Nat) : U4 × Quad :=
  let start := node o (tokensFrom (node o cur))
  (tokensInto (node o cur) cur).foldr (fun t x => tokenEffect t.2.2 (t.2.1 - t.1) x)
    (start.state, start.backs)

/-! ### Costs of the parser's tokens: the prices of the decisions that code them -/

/-- A literal `b` in state `st` at `position`, `prev` being the byte before it and `m` the byte at
rep 0 (45_optimal_parser R218, R222). -/
def litCost (e : State) (st : U4) (position : U32) (prev m b : Byte) : U32 :=
  let c := (litSelect e (position.setWidth 64) prev).toNat
  pathPrice e ((cellOf .isMatch (16 * st.toNat + (posStateAt e position).toNat), false) ::
    if st.toNat < 7 then literalPath c b else matchedPath c m b)

/-- The decisions of rep `i` before its length. -/
def repHeadCost (e : State) (st : U4) (position : U32) (i : Nat) (short : Bool) : U32 :=
  let ps := (posStateAt e position).toNat
  pathPrice e ((cellOf .isMatch (16 * st.toNat + ps), true) :: (cellOf .isRep st.toNat, true) ::
    repNaming st.toNat ps i short)

/-- Rep `i` of `len` bytes, at least 2 (R219, R224). -/
def repCost (e : State) (st : U4) (position : U32) (i len : Nat) : U32 :=
  repHeadCost e st position i false +
    lenPriceAt e.prices.repLen (posStateAt e position).toNat (len - 2)

/-- A MATCH of `len` bytes at `d` (R219, R225, R233). -/
def matchCost (e : State) (st : U4) (position : U32) (len : Nat) (d : U32) : U32 :=
  let ps := (posStateAt e position).toNat
  let row := min (len - 2) 3
  pathPrice e [(cellOf .isMatch (16 * st.toNat + ps), true), (cellOf .isRep st.toNat, false)] +
    (if d.toNat < 128 then Store.get 0#32 e.prices.distancesPrices (128 * row + d.toNat)
      else Store.get 0#32 e.prices.posSlotPrices (64 * row + (posSlot2Of d).toNat) +
        Store.get 0#32 e.prices.alignPrices (d.toNat % 16)) +
    lenPriceAt e.prices.matchLen ps (len - 2)

/-! ### Offers: what a node's phases propose to the nodes after it -/

/-- What precedes the token that ends at a node: nothing, a literal, or a token and a literal. -/
inductive Lead
  | none
  | literal
  | token (start : Nat) (code : U32)
  deriving DecidableEq, Repr

/-- A way to reach node `target` for `price`: a token `code` from node `start`, after `lead`. -/
structure Offer where
  target : Nat
  price : U32
  start : Nat
  code : U32
  lead : Lead
  deriving DecidableEq, Repr

/-- The node holds the offer (R214). -/
def Offer.heldBy (f : Offer) (n : Node) : Bool :=
  decide (n.price = f.price ∧ n.posPrev.toNat = f.start ∧ n.backPrev = f.code) &&
    match f.lead with
    | .none => !n.prev1IsChar
    | .literal => n.prev1IsChar && !n.prev2
    | .token start code => n.prev1IsChar && n.prev2 &&
        decide (n.posPrev2.toNat = start ∧ n.backPrev2 = code)

/-- `new` is the node `old`, at price `base`, once `offers` have been made in order: an offer is taken
when it is strictly cheaper, so the first of the cheapest stands. -/
structure Settles (base : U32) (old new : Node) (offers : List Offer) : Prop where
  rest : new.state = old.state ∧ new.backs = old.backs
  untaken : (∀ f ∈ offers, base ≤ f.price) → new = { old with price := base }
  taken : ∀ f before after, offers = before ++ f :: after → f.price < base →
    (∀ g ∈ before, f.price < g.price) → (∀ g ∈ after, f.price ≤ g.price) → f.heldBy new = true

/-- The candidates in `matchDistances`: `d` holds length and distance, lengths rising; `longest` is
the last length, or 0 (10_state R40, 44_match_finder R192). -/
structure CandidatesAre (p : Parser) (d : List (Nat × U32)) (longest : U32) : Prop where
  count : p.numDistancePairs.toNat = 2 * d.length
  cells : ∀ k (h : k < d.length), distAt p (2 * k) = BitVec.ofNat 32 d[k].1 ∧
    distAt p (2 * k + 1) = d[k].2
  rising : (d.map Prod.fst).Pairwise (· < ·)
  lengths : ∀ x ∈ d, 2 ≤ x.1 ∧ x.1 ≤ 273
  near : ∀ x ∈ d, x.2.toNat < 2 ^ 31 - 4
  last : longest.toNat = (d.getLast?.map Prod.fst).getD 0

/-- The distance of the first candidate of at least `len` bytes (45_optimal_parser R219, R225). -/
def distanceFor (d : List (Nat × U32)) (len : Nat) : U32 :=
  ((d.find? fun x => decide (len ≤ x.1)).map Prod.snd).getD 0#32

/-- R225's cut of the candidates to `avail` bytes. -/
def cutCandidates (d : List (Nat × U32)) (avail : Nat) : List (Nat × U32) :=
  match d.find? fun x => decide (avail ≤ x.1) with
  | some x => (d.takeWhile fun x => decide (x.1 < avail)) ++ [(avail, x.2)]
  | none => d

/-- Rep `i` at the lengths `most` down to 2 from node `cur`, which was reached for `price`. -/
def repOffers (e : State) (st : U4) (position : U32) (price : U32) (cur i most : Nat) : List Offer :=
  (List.range (most - 1)).map fun k =>
    ⟨cur + (most - k), price + repCost e st position i (most - k), cur, BitVec.ofNat 32 i, .none⟩

/-- The matches of `first` to `most` bytes from node `cur`, each at the nearest candidate that has
them; `hop` gives what follows the longest match of a candidate. -/
def matchOffers (e : State) (st : U4) (position : U32) (price : U32) (cur : Nat)
    (d : List (Nat × U32)) (first most : Nat) (hop : Nat → U32 → U32 → List Offer) : List Offer :=
  (List.range (most + 1 - first)).flatMap fun k =>
    let len := first + k
    let dist := distanceFor d len
    let cost := price + matchCost e st position len dist
    ⟨cur + len, cost, cur, dist + 4#32, .none⟩ ::
      if d.any fun x => decide (x.1 = len) then hop len dist cost else []

/-- R224, R225: after a token `code` of `len` bytes at `dist` from node `cur`, reached with it for
`cost` in state `st`: a literal and then rep 0 of as many bytes as agree. -/
def hopOffers (e : State) (x : PM) (cur : Nat) (position : U32) (availFull : Nat) (st : U4)
    (code : U32) (len : Nat) (dist cost : U32) : List Offer :=
  let n := BitVec.ofNat 32 len
  let len2 := mfMatchLen e x.m len dist (min (availFull - 1 - len) e.encCfg.fastBytes.toNat)
  if len < availFull ∧ 2 ≤ len2 then
    let literal := cost + litCost e st (position + n) (byteAt e x (n - 2#32))
      (byteAt e x (n - 1#32 - (dist + 1#32))) (byteAt e x (n - 1#32))
    [⟨cur + len + 1 + len2, literal + repCost e (stChar st) (position + n + 1#32) 0 len2,
      cur + len + 1, 0#32, .token cur code⟩]
  else []

/-- Phase E (45_optimal_parser R219): what node 0 offers to the nodes 2 and up. -/
def seedOffers (e : State) (position : U32) (repLens : List Nat) (d : List (Nat × U32))
    (longest : Nat) : List Offer :=
  let st := e.codec.state
  let rep0 := repLens.getD 0 0
  ((List.range 4).flatMap fun i => repOffers e st position 0#32 0 i (repLens.getD i 0)) ++
    matchOffers e st position 0#32 0 d (if 2 ≤ rep0 then rep0 + 1 else 2) longest fun _ _ _ => []

/-- Node 1 once phase D has priced it (R218): a literal, or a short rep if that is cheaper. -/
def firstNode (e : State) (position : U32) (m b : Byte) (n : Node) : Node :=
  let lit := litCost e e.codec.state position e.codec.prevByte m b
  let short := repHeadCost e e.codec.state position 0 true
  if m = b ∧ short < lit then { n with price := short, backPrev := 0#32, prev1IsChar := false }
  else { n with price := lit, backPrev := 0xFFFFFFFF#32, prev1IsChar := false }

/-- `o` is the lattice `old` after phases D and E with a lattice of `lenEnd` nodes (R218, R219). -/
structure Seeded (e : State) (position : U32) (reps : Quad) (m b : Byte) (offers : List Offer)
    (lenEnd : Nat) (old o : Store Node) : Prop where
  node0 : node o 0 = { node old 0 with state := e.codec.state, backs := reps }
  node1 : node o 1 = { firstNode e position m b (node old 1) with posPrev := 0#32 }
  seeds : ∀ i, 2 ≤ i → i ≤ lenEnd →
    Settles kInfinityPrice (node old i) (node o i) (offers.filter fun f => decide (f.target = i))
  beyond : ∀ i, lenEnd < i → node o i = node old i
  records : ∀ i, 1 ≤ i → i ≤ lenEnd → (node o i).price < kInfinityPrice → RecordOk (node o i) i

/-- Phase F3 (R222): the node after `cur`, from what it held. -/
def nextNode (cur : Nat) (lit short : U32) (sameByte : Bool) (n : Node) : Node :=
  let n1 := if lit < n.price then
      { n with
        price := lit, posPrev := BitVec.ofNat 32 cur, backPrev := 0xFFFFFFFF#32
        prev1IsChar := false }
    else n
  if sameByte = true ∧ ¬ (n1.posPrev.toNat < cur ∧ n1.backPrev = 0#32) ∧ short ≤ n1.price then
    { n1 with price := short, posPrev := BitVec.ofNat 32 cur, backPrev := 0#32, prev1IsChar := false }
  else n1

/-- `y` and `newEnd` are what phases F2..F6 leave at node `cur` (45_optimal_parser R221..R225) from
`x`, a lattice of `lenEnd` nodes and the candidates `d`, the longest of `newLen` bytes. -/
structure Visited (e : State) (x : PM) (cur lenEnd : Nat) (position : U32) (d : List (Nat × U32))
    (newLen : Nat) (y : PM) (newEnd : Nat) : Prop where
  /-- only the lattice, the reps of the sweep and the cut candidates change -/
  frame : y = { x with p := { x.p with
    optimum := y.p.optimum, sweepReps := (stateInto x.p.optimum cur).2
    matchDistances := y.p.matchDistances } }
  before : ∀ i, i < cur → node y.p.optimum i = node x.p.optimum i
  /-- R226 -/
  bound : lenEnd ≤ newEnd ∧ newEnd ≤ 4095
  records : (∀ i, cur < i → i ≤ lenEnd → (node x.p.optimum i).price < kInfinityPrice →
      RecordOk (node x.p.optimum i) i) →
    ∀ i, cur < i → i ≤ newEnd → (node y.p.optimum i).price < kInfinityPrice →
      RecordOk (node y.p.optimum i) i
  /-- R221 -/
  here : node y.p.optimum cur = { node x.p.optimum cur with
    state := (stateInto x.p.optimum cur).1, backs := (stateInto x.p.optimum cur).2 }
  /-- R222..R225 -/
  onward :
    let st := (stateInto x.p.optimum cur).1
    let reps := (stateInto x.p.optimum cur).2
    let price := (node x.p.optimum cur).price
    let curByte := byteAt e x (-1#32)
    let matchByte := byteAt e x (-reps.r0 - 2#32)
    let fast := e.encCfg.fastBytes.toNat
    let lit := price + litCost e st position (byteAt e x (-2#32)) matchByte curByte
    let old := node x.p.optimum (cur + 1)
    let next := nextNode cur lit (price + repHeadCost e st position 0 true)
      (decide (matchByte = curByte)) old
    let availFull := min (4095 - cur) (mfAvail x.m + 1#32).toNat
    let avail := min availFull fast
    let len1 := mfMatchLen e x.m 0 reps.r0 (min (availFull - 1) fast)
    let charRep0 : List Offer :=
      if next = old ∧ matchByte ≠ curByte ∧ 2 ≤ len1 then
        [⟨cur + 1 + len1, lit + repCost e (stChar st) (position + 1#32) 0 len1, cur + 1, 0#32,
          .literal⟩]
      else []
    let repLen (i : Nat) : Nat := mfMatchLen e x.m (-1) (reps.get i) avail
    let reps4 : List Offer := (List.range 4).flatMap fun i =>
      if 2 ≤ repLen i then
        repOffers e st position price cur i (repLen i) ++
          hopOffers e x cur position availFull (stRep st) (BitVec.ofNat 32 i) (repLen i) (reps.get i)
            (price + repCost e st position i (repLen i))
      else []
    let cut := if avail < newLen then cutCandidates d avail else d
    let matches_ : List Offer :=
      matchOffers e st position price cur cut (if 2 ≤ repLen 0 then repLen 0 + 1 else 2)
        (min newLen avail) fun len dist cost =>
          hopOffers e x cur position availFull (stMatch st) (dist + 4#32) len dist cost
    let offers := if availFull < 2 then [] else charRep0 ++ reps4 ++ matches_
    (∀ k, distAt y.p k =
      if 2 ≤ availFull ∧ avail < newLen ∧ k = 2 * (d.takeWhile fun x => decide (x.1 < avail)).length
      then BitVec.ofNat 32 avail
      else distAt x.p k) ∧
    node y.p.optimum (cur + 1) = next ∧
    newEnd = offers.foldl (fun n f => max n f.target) lenEnd ∧
    (∀ i, cur + 2 ≤ i → i ≤ newEnd →
      Settles (if i ≤ lenEnd then (node x.p.optimum i).price else kInfinityPrice)
        (node x.p.optimum i) (node y.p.optimum i) (offers.filter fun f => decide (f.target = i))) ∧
    ∀ i, newEnd < i → node y.p.optimum i = node x.p.optimum i

/-! ### What the sessions' starts leave -/

/-- An error entry written out (60_exceptions R320): PHASE is ERROR and ERR_CODE is `code`. -/
def erred (code : U4) (s : State) : State :=
  { s with host := { s.host with seq := .error, errCode := code }, ret := .none }

/-- The little-endian number in the `n` bytes from index `i`. -/
def leNat (f : Nat → Byte) (n i : Nat) : Nat :=
  ((List.range n).map fun k => (f (i + k)).toNat * 256 ^ k).sum

/-- The values 70_reset_and_hazards R335 gives, for parameters `p` and the two CTRL fields. -/
structure ResetState (p : Params) (irqEn marker : Bool) (t : State) : Prop where
  params : t.params = p
  phase : t.phase = .idle
  ctrl : t.host.irqEn = irqEn ∧ t.host.writeEndMarker = marker
  status : t.readReg 1 = 0#32
  level : t.host.level = 5#4
  input : t.host.inLen = 0#32 ∧ t.host.inPos = 0#32
  outLen : t.host.outLen = 0#64
  header : ∀ n, 8 ≤ n → n ≤ 13 → t.readReg n = 0#32
  constants : t.readReg 5 = BitVec.ofNat 32 (min p.outMemBytes 4294967295) ∧
    t.readReg 14 = p.maxDictSize
  enc : t.enc = ⟨0#64, 0xFFFFFFFF#32, 0#8, 1#64, 0#64⟩
  dec : t.dec = ⟨0#32, 0xFFFFFFFF#32⟩
  cells : ∀ c, t.prob c = 1024#16
  codec : t.codec.state = 0#4 ∧ t.codec.reps = ⟨0#32, 0#32, 0#32, 0#32⟩ ∧ t.codec.prevByte = 0#8 ∧
    t.codec.nowPos = 0#64
  decoder : t.codec.lc = 0#4 ∧ t.codec.lp = 0#3 ∧ t.codec.pb = 0#3 ∧ t.codec.dictSize = 0#32 ∧
    t.codec.dictSizeCheck = 0#32 ∧ t.codec.posStateMask = 0#32 ∧ t.codec.literalPosMask = 0#32 ∧
    t.codec.outSize = none
  candidates : (∀ k, distAt t.parser k = 0#32) ∧ t.parser.numDistancePairs = 0#32 ∧
    t.parser.longestMatchLength = 0#32 ∧ t.parser.longestMatchWasFound = false ∧
    t.parser.additionalOffset = 0#32
  lattice : t.parser.optimumEndIndex = 0#32 ∧ t.parser.optimumCurrentIndex = 0#32 ∧
    t.parser.backRes = 0#32
  encCfg : t.encCfg = ⟨0#9, .bt2, false⟩
  mf : t.mf.pos = 0#32 ∧ t.mf.streamPos = 0#32 ∧ t.mf.cyclicBufferSize = 0#32 ∧
    t.mf.cyclicBufferPos = 0#32 ∧ t.mf.hashMask = 0#32 ∧ t.mf.cutValue = 0#32 ∧
    t.mf.matchMaxLen = 0#32
  hash : ∀ i, hashGet t.mf i = 0#32
  window : t.window.winPos = 0#32 ∧ t.window.winFlushPos = 0#32 ∧ t.window.windowSize = 4096#32
  irq : t.irq = false

/-- `v` is the table `old` after one counted length in posState `ps`: the counter goes down, and where a
refresh is due (at 0 under PRICE_REFRESH = SDK) the row is priced anew from the cells of `t`
(43_length_coder R169, R171). -/
structure Counted (c : LenSel) (ps : Nat) (old : LenPrices) (t : State) (v : LenPrices) : Prop where
  size : v.tableSize = old.tableSize
  counters : ∀ q, lenCounterAt v q =
    if q = ps then
      if refreshDue t (lenPoint c ps) (decide (lenCounterAt old ps = 1#32)) then old.tableSize
      else lenCounterAt old ps - 1#32
    else lenCounterAt old q
  prices : ∀ q j, j < 272 → lenPriceAt v q j =
    if refreshDue t (lenPoint c ps) (decide (lenCounterAt old ps = 1#32)) = true ∧ q = ps ∧
        j < old.tableSize.toNat then
      pathPrice t (lengthPath c ps j)
    else lenPriceAt old q j

/-- The length prices of fresh cells (43_length_coder R167's example). -/
def freshLenPrice (k : Nat) : U32 := if k < 8 then 256#32 else if k < 16 then 320#32 else 640#32

/-- The price tables an ENCODE session starts with, every cell being 1024 (45_optimal_parser R243). -/
structure FreshPrices (row : LevelRow) (p : Prices) : Prop where
  counts : p.matchPriceCount = 0#32 ∧ p.alignPriceCount = 0#32
  slots : p.distTableSize.toNat = 2 * row.searchDepth
  slotPrices : ∀ l n, l < 4 → n < 2 * row.searchDepth →
    Store.get 0#32 p.posSlotPrices (64 * l + n) =
      BitVec.ofNat 32 (384 + if n < 14 then 0 else 64 * (n / 2 - 5))
  distances : ∀ l i, l < 4 → i < 128 →
    Store.get 0#32 p.distancesPrices (128 * l + i) =
      BitVec.ofNat 32 (384 + if i < 4 then 0 else 64 * (slotOf i / 2 - 1))
  align : ∀ i, i < 16 → Store.get 0#32 p.alignPrices i = 256#32
  lengths : ∀ c, (p.len c).tableSize = row.fastBytes.setWidth 32 - 1#32 ∧ ∀ ps, ps < 4 →
    lenCounterAt (p.len c) ps = row.fastBytes.setWidth 32 - 1#32 ∧
      ∀ k, k < row.fastBytes.toNat - 1 → lenPriceAt (p.len c) ps k = freshLenPrice k

/-- MF.INIT's values (44_match_finder R180) for a level row and an input of `inLen` bytes. -/
structure FinderStarted (row : LevelRow) (inLen : U32) (m : MatchFinder) : Prop where
  positions : m.pos = 1#32 ∧ m.streamPos = inLen + 1#32 ∧ m.cyclicBufferPos = 0#32
  size : m.cyclicBufferSize.toNat = 2 ^ row.searchDepth + 1
  limits : m.cutValue.toNat = 16 + row.fastBytes.toNat / 2 ∧ m.matchMaxLen.toNat = row.fastBytes.toNat
  mask : m.hashMask.toNat = if row.bt4 then 2 ^ (row.searchDepth - 1) - 1 else 65535
  hash : ∀ i, hashGet m i = 0#32

/-- The 13 bytes of the header (30_encoding R80) that ENCODE writes. -/
def headerBytes (dictSize inLen : U32) : List Byte :=
  0x5D#8 :: ((List.range 4).map fun k => BitVec.ofNat 8 (dictSize.toNat / 256 ^ k)) ++
    ((List.range 8).map fun k => BitVec.ofNat 8 (inLen.toNat / 256 ^ k))

/-- The state `t` in which an ENCODE session accepted in `s` stands before its first byte
(46_codec R280, R282, R298). -/
structure EncodeStarted (row : LevelRow) (irqEn marker : Bool) (s t : State) : Prop where
  kept : t.params = s.params ∧ t.inMem = s.inMem ∧ t.host.inLen = s.host.inLen ∧
    t.host.level = s.host.level ∧ t.agenda = s.agenda ∧ t.freeCount = s.freeCount
  ctrl : t.host.irqEn = irqEn ∧ t.host.writeEndMarker = marker
  place : t.host.seq = .encFirst
  status : t.host.errCode = 0#4 ∧ t.host.earlyEnd = false ∧ t.host.outTruncated = false ∧
    t.host.cmdIgnored = false
  counts : t.host.outLen = 13#64 ∧ t.host.inPos = 0#32 ∧ t.host.size = s.host.inLen.setWidth 64
  out : ∀ a, t.outMem.read a = ((headerBytes t.codec.dictSize s.host.inLen)[a]?).getD (s.outMem.read a)
  props : t.codec.propsByte = 0x5D#8 ∧ t.codec.lc = 3#4 ∧ t.codec.lp = 0#3 ∧ t.codec.pb = 2#3
  latched : t.codec.dictSize.toNat = 2 ^ row.searchDepth ∧ t.codec.posStateMask = 3#32 ∧
    t.encCfg = ⟨row.fastBytes, if row.bt4 then .bt4 else .bt2, marker⟩
  cells : ∀ c, t.prob c = 1024#16
  codec : t.codec.state = 0#4 ∧ t.codec.reps = ⟨0#32, 0#32, 0#32, 0#32⟩ ∧ t.codec.prevByte = 0#8 ∧
    t.codec.nowPos = 0#64
  candidates : t.parser.additionalOffset = 0#32 ∧ t.parser.longestMatchWasFound = false ∧
    t.parser.longestMatchLength = 0#32 ∧ t.parser.numDistancePairs = 0#32 ∧
    t.parser.optimumEndIndex = 0#32 ∧ t.parser.optimumCurrentIndex = 0#32
  finder : FinderStarted row s.host.inLen t.mf
  prices : FreshPrices row t.prices
  enc : t.enc = ⟨0#64, 0xFFFFFFFF#32, 0#8, 1#64, 0#64⟩
  decoder : t.dec = s.dec ∧ t.window = s.window

/-- The codec registers a header with properties byte `v`, dictionary size `dict` and size field
`size` gives (46_codec R271). -/
def headerCodec (c : Codec) (v : Byte) (dict size : Nat) : Codec :=
  { c with
    propsByte := v
    lc := BitVec.ofNat 4 (v.toNat % 9)
    lp := BitVec.ofNat 3 (v.toNat / 9 % 5)
    pb := BitVec.ofNat 3 (v.toNat / 45)
    dictSize := BitVec.ofNat 32 dict
    dictSizeCheck := BitVec.ofNat 32 (max dict 1)
    outSize := if size = 2 ^ 64 - 1 then none else some (BitVec.ofNat 64 size)
    posStateMask := BitVec.ofNat 32 (2 ^ (v.toNat / 45) - 1)
    literalPosMask := BitVec.ofNat 32 (2 ^ (v.toNat / 9 % 5) - 1) }

/-- The state `t` in which a DECODE session accepted in `s` stands before its first packet
(46_codec R290, R299). -/
structure DecodeStarted (irqEn marker : Bool) (s t : State) : Prop where
  kept : t.params = s.params ∧ t.inMem = s.inMem ∧ t.outMem = s.outMem ∧
    t.host.inLen = s.host.inLen ∧ t.host.level = s.host.level ∧ t.agenda = s.agenda ∧
    t.freeCount = s.freeCount
  ctrl : t.host.irqEn = irqEn ∧ t.host.writeEndMarker = marker
  place : t.host.seq = .decLoop
  status : t.host.errCode = 0#4 ∧ t.host.earlyEnd = false ∧ t.host.outTruncated = false ∧
    t.host.cmdIgnored = false
  counts : t.host.outLen = 0#64 ∧ t.host.inPos = 18#32 ∧
    t.host.size = BitVec.ofNat 64 (leNat s.inMem.read 8 5)
  codec : t.codec =
    { headerCodec s.codec (s.inMem.read 0) (leNat s.inMem.read 4 1) (leNat s.inMem.read 8 5) with
      state := 0#4, reps := ⟨0#32, 0#32, 0#32, 0#32⟩, prevByte := 0#8, nowPos := 0#64 }
  cells : ∀ c, t.prob c = 1024#16
  window : t.window.winPos = 0#32 ∧ t.window.winFlushPos = 0#32 ∧
    t.window.windowSize.toNat = max (leNat s.inMem.read 4 1) 4096
  dec : t.dec.range = 0xFFFFFFFF#32 ∧ t.dec.code.toNat =
    (s.inMem.read 14).toNat * 2 ^ 24 + (s.inMem.read 15).toNat * 2 ^ 16 +
      (s.inMem.read 16).toNat * 2 ^ 8 + (s.inMem.read 17).toNat
  encoder : t.enc = s.enc ∧ t.encCfg = s.encCfg ∧ t.prices = s.prices ∧ t.parser = s.parser ∧
    t.mf = s.mf

end Sys2Proof
end

