-- ==== Sys2Proof/Certificates/Slice0/Obligations.lean ====
section
/-! DEFINITION. The statements for the provers. -/

section

open Sys2Proof Sys2Proof.Machine

/-! ### Reset, steps, host -/

/-- 70_reset_and_hazards R335, 46_codec R297: power-on reset and RESET give every value R335 states;
RESET also keeps IN and OUT. -/
def Obligations.ResetGivesTheStatedValues : Prop :=
  ResetState Params.default false true State.reset ∧
  (∀ (s : State) (tail : List Input), s.agenda = .powerOn :: tail →
    ∃ t, step s = .next t ∧ ResetState s.params false s.params.writeEndMarker t) ∧
  ∀ (irqEn marker : Bool) (s : State), s.busy = false →
    ∃ t, exec (.reset irqEn marker) s = .next t ∧ ResetState s.params irqEn marker t ∧
      t.inMem = s.inMem ∧ t.outMem = s.outMem

/-- A step runs the instruction its input decodes to (the agenda is the model's: log 2). -/
def Obligations.StepRunsTheDecodedInstruction : Prop :=
  (∀ (s : State) (c : Code) (tail : List Input) (i : Instr),
    s.agenda = .code c :: tail → decode c = .ok i →
      step s = exec i { s with agenda := tail, freeCount := s.freeCount + 1 }) ∧
  (∀ (s : State) (w : U32) (tail : List Input), s.agenda = .regWrite 0#8 w :: tail →
      step s = exec (decodeCtrl w) { s with agenda := tail, freeCount := s.freeCount + 1 }) ∧
  (∀ (s : State) (c : Code) (tail : List Input) (r : Reject),
    s.agenda = .code c :: tail → decode c = .error r → step s = .refused (.badCode r)) ∧
  ∀ (s : State) (nbits w : Nat) (i : Instr), decodeTableWord nbits w = some i →
    step (s.withFetchWord nbits w) = exec i { s with freeCount := s.freeCount + 1 }

/-- 60_exceptions R334: in IDLE, DONE and ERROR the engine does nothing, and of what the host can do
only an accepted ENCODE or DECODE makes it busy. -/
def Obligations.IdleEngineWaitsForACommand : Prop :=
  (∀ s : State, s.phase = .idle ∨ s.phase = .done ∨ s.phase = .error → engineTurn s = .next s) ∧
  ∀ (s t : State) (x : Input), s.busy = false → (∀ c, x ≠ .code c) → takeInput x s = .next t →
    t.busy = true → ∃ w : U32, x = .regWrite 0#8 w ∧ (w &&& 15#32 = 2#32 ∨ w &&& 15#32 = 3#32)

/-- 10_state R21, 30_encoding R100, 46_codec R296, 60_exceptions R326: which command a CTRL word issues;
a CTRL write while BUSY, or with a reserved OP at any time, only sets CMD_IGNORED; an accepted NOP only
writes the two fields (it leaves CMD_IGNORED: log 17); an accepted command clears CMD_IGNORED. -/
def Obligations.CommandsAreAcceptedOrIgnored : Prop :=
  (∀ w : U32,
    let irqEn := w.getLsbD 4
    let marker := w.getLsbD 5
    let op := w.toNat % 16
    (op = 0 → decodeCtrl w = .nop irqEn marker) ∧ (op = 1 → decodeCtrl w = .reset irqEn marker) ∧
    (op = 2 → decodeCtrl w = .encode irqEn marker) ∧
    (op = 3 → decodeCtrl w = .decode irqEn marker) ∧
    (4 ≤ op → op < 8 → decodeCtrl w = .ctrlReserved4 (BitVec.ofNat 2 op) irqEn marker) ∧
    (8 ≤ op → decodeCtrl w = .ctrlReserved8 (BitVec.ofNat 3 op) irqEn marker)) ∧
  ∀ (irqEn marker : Bool) (s : State),
    let ignored := Host.Outcome.next (φ := Fault) (ρ := Refusal)
      { s with host := { s.host with cmdIgnored := true } }
    (s.busy = true →
      exec (.nop irqEn marker) s = ignored ∧ exec (.reset irqEn marker) s = ignored ∧
      exec (.encode irqEn marker) s = ignored ∧ exec (.decode irqEn marker) s = ignored) ∧
    (∀ op, exec (.ctrlReserved4 op irqEn marker) s = ignored) ∧
    (∀ op, exec (.ctrlReserved8 op irqEn marker) s = ignored) ∧
    (s.busy = false →
      exec (.nop irqEn marker) s =
        .next { s with host := { s.host with irqEn := irqEn, writeEndMarker := marker } } ∧
      (∃ t, exec (.reset irqEn marker) s = .next t ∧ t.host.cmdIgnored = false) ∧
      (∃ t, exec (.encode irqEn marker) s = .next t ∧ t.host.cmdIgnored = false) ∧
      ∃ t, exec (.decode irqEn marker) s = .next t ∧ t.host.cmdIgnored = false)

/-- 10_state R21..R32, 20_memory R62, 60_exceptions R325: what every register reads as, and irq. -/
def Obligations.RegistersReadTheirFields : Prop :=
  (∀ s : State,
    let running := s.phase = .encRun ∨ s.phase = .decRun
    (s.readReg 1).toNat =
      (if running then 1 else 0) + (if s.phase = .done then 2 else 0) +
        (if s.phase = .error then 4 else 0) + 16 * s.host.errCode.toNat +
        256 * s.host.earlyEnd.toNat + 512 * s.host.cmdIgnored.toNat +
        1024 * s.host.outTruncated.toNat ∧
    (s.irq = true ↔ s.host.irqEn = true ∧ (s.phase = .done ∨ s.phase = .error))) ∧
  ∀ s : State,
    (s.readReg 0).toNat = 16 * s.host.irqEn.toNat + 32 * s.host.writeEndMarker.toNat ∧
    (s.readReg 2).toNat = s.host.level.toNat ∧ s.readReg 3 = s.host.inLen ∧
    s.readReg 4 = s.host.inPos ∧ (s.readReg 5).toNat = min s.params.outMemBytes (2 ^ 32 - 1) ∧
    (s.readReg 6).toNat + 2 ^ 32 * (s.readReg 7).toNat = s.host.outLen.toNat ∧
    (s.readReg 8).toNat = s.codec.propsByte.toNat + 256 * s.codec.lc.toNat +
      4096 * s.codec.lp.toNat + 65536 * s.codec.pb.toNat ∧
    s.readReg 9 = s.codec.dictSize ∧
    (s.readReg 10).toNat + 2 ^ 32 * (s.readReg 11).toNat = s.host.size.toNat ∧
    (s.readReg 12).toNat = s.encCfg.fastBytes.toNat ∧
    (s.readReg 13 = 0#32 ↔ s.encCfg.mfKind = .bt2) ∧ (s.readReg 13 = 1#32 ↔ s.encCfg.mfKind = .bt4) ∧
    s.readReg 14 = s.params.maxDictSize ∧ ∀ n, 15 ≤ n → s.readReg n = 0#32

/-- 10_state R23, R24, 20_memory R60, R62, 70_reset_and_hazards R341, R345, R346: host writes to the
registers but CTRL, to IN and to OUT. While BUSY a write of IN changes nothing (R345 lets a model
refuse it) and a write of OUT leaves a byte of no defined value there; both are log 24, and the stops
at a nonexistent address are log 25. -/
def Obligations.HostWritesReachOnlyTheirTarget : Prop :=
  (∀ (n : Byte) (w : U32) (s : State),
    (n = 2#8 → regWrite n w s =
      .next { s with host := { s.host with level := BitVec.ofNat 4 (w.toNat % 16) } }) ∧
    (n = 3#8 → regWrite n w s =
      .next (if s.busy then s else { s with host := { s.host with inLen := w } })) ∧
    (n ≠ 0#8 → n ≠ 2#8 → n ≠ 3#8 → regWrite n w s = .next s)) ∧
  ∀ (a : Nat) (b : Byte) (s : State),
    (s.params.inMemBytes ≤ a → hostWriteIn a b s = .fault .noSuchInAddress) ∧
    (a < s.params.inMemBytes → s.busy = true → hostWriteIn a b s = .next s) ∧
    (a < s.params.inMemBytes → s.busy = false → Memory.wf s.inMem = true →
      ∃ m : Memory, hostWriteIn a b s = .next { s with inMem := m } ∧
        ∀ x, m.read x = if x = a then b else s.inMem.read x) ∧
    (s.params.outMemBytes ≤ a → hostWriteOut a b s = .fault .noSuchOutAddress) ∧
    (a < s.params.outMemBytes → s.busy = true → Memory.wf s.outMem = true →
      ∃ (m : Memory) (v : Byte), hostWriteOut a b s = .next { s with outMem := m } ∧
        ∀ x, m.read x = if x = a then v else s.outMem.read x) ∧
    (a < s.params.outMemBytes → s.busy = false → Memory.wf s.outMem = true →
      ∃ m : Memory, hostWriteOut a b s = .next { s with outMem := m } ∧
        ∀ x, m.read x = if x = a then b else s.outMem.read x)

/-! ### Sessions -/

/-- 00_scope R7, 46_codec R280, R281, R282, R298 and 60_exceptions R312, R313: the level table; an
accepted ENCODE checks LEVEL, then IN_LEN, and if either is bad ends in ConfigError with PROPS,
DICT_SIZE and SIZE at 0, as R312 has them, and nothing else written (that R312's zeros are recorded
with the error, after R281's checks, is the model's choice, log 33); else it starts the session; with no
room for the header it ends in ResourceExhausted with OUT full. -/
def Obligations.EncodeChecksThenStartsTheSession : Prop :=
  (∀ l : U4, levelRow l = none ↔ l = 0#4 ∨ 9#4 < l) ∧
  ([1#4, 2#4, 3#4, 4#4, 5#4, 6#4, 7#4, 8#4, 9#4] : List U4).map levelRow =
    [some ⟨16, 64, false⟩, some ⟨20, 64, false⟩, some ⟨19, 64, true⟩, some ⟨20, 64, true⟩,
      some ⟨21, 128, true⟩, some ⟨22, 128, true⟩, some ⟨23, 128, true⟩, some ⟨24, 255, true⟩,
      some ⟨25, 255, true⟩] ∧
  ∀ (irqEn marker : Bool) (s : State), s.busy = false → Memory.wf s.outMem = true →
    (levelRow s.host.level = none ∨ s.maxInLen < s.host.inLen.toNat →
      exec (.encode irqEn marker) s =
        .next (erred 6#4 { s with
          codec := { s.codec with
            propsByte := 0#8, lc := 0#4, lp := 0#3, pb := 0#3, dictSize := 0#32 }
          host := { s.host with
            irqEn := irqEn, writeEndMarker := marker, outLen := 0#64, inPos := 0#32, size := 0#64
            earlyEnd := false, cmdIgnored := false, outTruncated := false } })) ∧
    (∀ row, levelRow s.host.level = some row → s.host.inLen.toNat ≤ s.maxInLen → 13 ≤ s.outCap →
      ∃ t, exec (.encode irqEn marker) s = .next t ∧ EncodeStarted row irqEn marker s t) ∧
    (∀ row, levelRow s.host.level = some row → s.host.inLen.toNat ≤ s.maxInLen → s.outCap < 13 →
      ∃ t, exec (.encode irqEn marker) s = .next t ∧ t.host.seq = .error ∧ t.host.errCode = 5#4 ∧
        t.host.inPos = 0#32 ∧ t.host.outLen.toNat = s.outCap)

/-- 46_codec R286, R287 and 60_exceptions R324: the turns of ENC_RUN. The first byte is a plain
literal of posState 0 (`litPacket 0 …` is the normal mode, its cell `isMatch[state << 4]`); the
premises of that clause are what `EncodeStarted` gives. A turn without the room it needs ends where
the operation in it that finds OUT full ends: the first byte at its `isMatch` or in its literal, the
end marker, the flush. -/
def Obligations.EncodeRunLoop : Prop :=
  ∀ s : State,
    (s.host.seq = .encFirst → mfAvail s.mf = 0#32 →
      engineTurn s = .next { s with host := { s.host with seq := .encFinish } }) ∧
    (s.host.seq = .encFirst → mfAvail s.mf ≠ 0#32 → s.codec.lc = 3#4 → s.codec.lp = 0#3 →
      s.codec.nowPos = 0#64 →
      ∃ r u, exec .optReadMatchDistances s = .next u ∧ r = currentByte u ∧
        CodesThen (litPacket 0 (16 * s.codec.state.toNat) (s.codec.prevByte.toNat / 32) 0#8 r)
          (fun t => { t with
            codec := { t.codec with state := stChar s.codec.state, prevByte := r, nowPos := 1#64 }
            parser := { t.parser with additionalOffset := s.parser.additionalOffset }
            host := { t.host with inPos := 1#32, seq := .encLoop } })
          { u with ret := s.ret } (engineTurn s) ∧
        ∀ w, exec (.rcEncBit (cellOf .isMatch (16 * s.codec.state.toNat)) false) u = .next w →
          (w.host.seq = .error → engineTurn s = .next w) ∧
          (w.host.seq ≠ .error → ∀ t,
            exec (.litEnc (BitVec.ofNat 16 (s.codec.prevByte.toNat / 32)) r)
              { w with codec := { w.codec with state := stChar s.codec.state } } = .next t →
            t.host.seq = .error → engineTurn s = .next t)) ∧
    (s.host.seq = .encLoop → s.parser.additionalOffset = 0#32 ∧ mfAvail s.mf = 0#32 →
      engineTurn s = .next { s with host := { s.host with seq := .encFinish } }) ∧
    (s.host.seq = .encLoop → ¬ (s.parser.additionalOffset = 0#32 ∧ mfAvail s.mf = 0#32) →
      engineTurn s = exec .codecEncBlock s) ∧
    (s.host.seq = .encFinish → s.encCfg.writeEndMarker = false →
      engineTurn s = .next { s with host := { s.host with seq := .encFlush } }) ∧
    (s.host.seq = .encFinish → s.encCfg.writeEndMarker = true → EncRoom s 48 →
      ∃ t, exec .codecEncEos s = .next t ∧ NoError s t ∧
        engineTurn s = .next { t with host := { t.host with seq := .encFlush } }) ∧
    (s.host.seq = .encFinish → s.encCfg.writeEndMarker = true →
      ∀ t, exec .codecEncEos s = .next t → t.host.seq = .error → engineTurn s = .next t) ∧
    (s.host.seq = .encFlush →
      ∀ t, exec .rcEncFlush s = .next t → t.host.seq = .error → engineTurn s = .next t) ∧
    (s.host.seq = .encFlush → EncRoom s 5 →
      ∃ t, exec .rcEncFlush s = .next t ∧ NoError s t ∧
        engineTurn s = .next { t with host := { t.host with seq := .done, errCode := 0#4 } })

/-- 46_codec R290, R299, R271 and 60_exceptions R312, R313: an accepted DECODE, with the error of
each check with IN_POS and OUT_LEN, or the session started. -/
def Obligations.DecodeChecksThenStartsTheSession : Prop :=
  ∀ (irqEn marker : Bool) (s : State), s.busy = false →
    ∃ t, exec (.decode irqEn marker) s = .next t ∧
    (s.params.inMemBytes < s.host.inLen.toNat →
      t.host.seq = .error ∧ t.host.errCode = 6#4 ∧ t.host.inPos = 0#32 ∧ t.host.outLen = 0#64) ∧
    (s.host.inLen.toNat ≤ s.params.inMemBytes →
      let n := s.host.inLen.toNat
      let v := s.inMem.read 0
      let dict := leNat s.inMem.read 4 1
      (n < 5 → t.host.seq = .error ∧ t.host.errCode = 1#4 ∧ t.host.inPos = 0#32 ∧
        t.host.outLen = 0#64) ∧
      (5 ≤ n → 225 ≤ v.toNat → t.host.seq = .error ∧ t.host.errCode = 1#4 ∧ t.host.inPos = 1#32 ∧
        t.host.outLen = 0#64) ∧
      (5 ≤ n → v.toNat < 225 → s.params.maxDictSize.toNat < dict →
        t.host.seq = .error ∧ t.host.errCode = 2#4 ∧ t.host.inPos = 5#32 ∧ t.host.outLen = 0#64) ∧
      (5 ≤ n → v.toNat < 225 → dict ≤ s.params.maxDictSize.toNat → n < 18 →
        t.host.seq = .error ∧ t.host.errCode = 3#4 ∧ t.host.inPos = s.host.inLen ∧
          t.host.outLen = 0#64) ∧
      (18 ≤ n → v.toNat < 225 → dict ≤ s.params.maxDictSize.toNat →
        DecodeStarted irqEn marker s t))

/-- 46_codec R291 and 60_exceptions R324: the turns of DEC_RUN. -/
def Obligations.DecodeRunLoop : Prop :=
  ∀ s : State,
    (s.host.seq = .decLoop → s.codec.outSize = some s.codec.nowPos →
      engineTurn s = .next { s with host := { s.host with seq := .decFlush } }) ∧
    (s.host.seq = .decLoop → s.codec.outSize ≠ some s.codec.nowPos →
      ∃ t, exec .codecDecPacket s = .next t ∧
        engineTurn s = .next
          (if t.ret = .endOfStream then { t with host := { t.host with seq := .decFlush } } else t)) ∧
    (s.host.seq = .decFlush → WinRoom s 0 →
      ∃ t, exec .owFlush s = .next t ∧ NoError s t ∧
        engineTurn s = .next { t with host := { t.host with seq := .done, errCode := 0#4 } }) ∧
    (s.host.seq = .decFlush → ∀ t, exec .owFlush s = .next t → t.host.seq = .error →
      engineTurn s = .next t)

/-! ### The invariant, the frames of whole groups -/

/-- The invariant holds after reset, for every choice of the parameters 00_scope R9 allows. -/
def Obligations.ResetMeetsTheInvariant : Prop :=
  Inv State.reset ∧ ∀ p : Params, p.wf = true → Inv (State.resetWith p)

/-- 00_scope R9, 10_state R35, R38, R46, 40_range_coder R115, R116, 20_memory R64, 60_exceptions R311:
every step keeps the invariant, from every state that has it. -/
def Obligations.EveryStepKeepsTheInvariant : Prop :=
  ∀ s t : State, Inv s → step s = .next t → Inv t

/-- 60_exceptions R311, R320, R323, 10_state R51, 47_output_window R306: no micro-op, packet or turn of the
engine writes IN, the parameters or what only the host writes; PHASE and ERR_CODE stay but for an error;
a turn of ENC_RUN touches neither the decoder nor the window, a turn of DEC_RUN nothing of the encoder. -/
def Obligations.OperationsKeepToTheirSide : Prop :=
  ((∀ (i : Instr) (s t : State),
    (∀ a b, i ≠ .nop a b) → (∀ a b, i ≠ .reset a b) → (∀ a b, i ≠ .encode a b) →
    (∀ a b, i ≠ .decode a b) → (∀ o a b, i ≠ .ctrlReserved4 o a b) →
    (∀ o a b, i ≠ .ctrlReserved8 o a b) → exec i s = .next t → CoreFrame s t) ∧
  ∀ s t : State, engineTurn s = .next t →
    t.params = s.params ∧ t.inMem = s.inMem ∧ t.agenda = s.agenda ∧ t.freeCount = s.freeCount ∧
      HostSame s t) ∧
  ∀ s t : State, Memory.wf s.outMem = true → engineTurn s = .next t →
    OutAppended s t ∧
    (s.phase = .encRun → t.dec = s.dec ∧ t.window = s.window ∧ t.encCfg = s.encCfg ∧
      t.host.earlyEnd = s.host.earlyEnd ∧ t.host.outTruncated = s.host.outTruncated ∧
      t.host.size = s.host.size) ∧
    (s.phase = .decRun → t.enc = s.enc ∧ t.encCfg = s.encCfg ∧ t.prices = s.prices ∧
      t.parser = s.parser ∧ t.mf = s.mf ∧ t.host.size = s.host.size)

/-! ### Encoding -/

/-- Every well-formed instruction is decoded back from its code, every operand at every value. Codes
of micro-ops are the model's (log 3); CTRL words are 30_encoding R100's, packets R85..R94's. -/
def Obligations.DecodeOfEncodeIsTheInstruction : Prop :=
  ∀ i : Instr, i.wf = true → decode (encode i) = .ok i

/-- 30_encoding R95: a packet's decisions tell where it ends, and no packet's decisions begin
another's. -/
def Obligations.PacketsAreSelfDelimiting : Prop :=
  (∀ (i : Instr) (ds rest : List Bool), i.wf = true → encode i = .packet ds →
    decodePacket (ds ++ rest) = .ok (i, rest)) ∧
  ∀ (i j : Instr) (ds es : List Bool), i.wf = true → j.wf = true → encode i = .packet ds →
    encode j = .packet es → ds <+: es → i = j

/-- Words written out from 30_encoding's tables decode to what they stand for. -/
def Obligations.WordsOfTheSpecDecode : Prop :=
  decodeTableWord 8 0x13 = some .rcShiftLow ∧ decodeTableWord 8 0x50 = some .mfInit ∧
  decodeTableWord 8 0x89 = some .codecDecPacket ∧ decodeTableWord 8 0x94 = some .owFlush ∧
  decode (.ctrl 0x32#32) = .ok (.encode true true) ∧
  decodeTableWord 32 0x2 = some (.encode false false) ∧
  decode (.packet [false, false, true, false, false, false, false, false, true]) =
    .ok (.lit 0x41#8) ∧
  decode (.packet [true, true, false, false]) = .ok .shortrep ∧
  decode (.micro [0x15#8]) = .error .unassignedMicroOp

/-! ### Range encoder -/

/-- 40_range_coder R110, R117, R118: ENC_INIT sets the registers; ENC_FLUSH is five SHIFT_LOWs: from
`low` below 2^33 (R116) they leave no byte pending and add five to the bytes written plus
`cacheSize`. -/
def Obligations.EncoderInitAndFlush : Prop :=
  (∀ s : State, exec .rcEncInit s =
    .next { s with enc := ⟨0#64, 0xFFFFFFFF#32, 0#8, 1#64, 0#64⟩, ret := .none }) ∧
  ∀ s : State, EncRoom s 5 → s.enc.low.toNat < 2 ^ 33 →
    ∃ t, exec .rcEncFlush s = .next t ∧ NoError s t ∧
      runInstrs (List.replicate 5 .rcShiftLow) s = some (List.replicate 5 .none, t) ∧
      t.enc.low = 0#64 ∧ t.enc.cache = 0#8 ∧ t.enc.cacheSize = 1#64 ∧ t.enc.range = s.enc.range ∧
      t.host.outLen.toNat + 1 = s.host.outLen.toNat + s.enc.cacheSize.toNat + 5 ∧
      t.enc.outPosition =
        s.enc.outPosition + BitVec.ofNat 64 (t.host.outLen.toNat - s.host.outLen.toNat)

/-- 40_range_coder R111: ENC_BIT splits the interval, adapts the cell, and then, if `range` is below
2^24, shifts it by 8 and runs SHIFT_LOW; with room for that it runs to its end. -/
def Obligations.EncBitCodesOneDecision : Prop :=
  ∀ (c : CellRef) (bit : Bool) (s : State),
    let p := s.prob c
    let bound := (s.enc.range >>> 11) * p.setWidth 32
    let split := if bit then
        { s.setProb c (p - (p >>> 5)) with
          enc := { s.enc with low := s.enc.low + bound.setWidth 64, range := s.enc.range - bound } }
      else { s.setProb c (p + ((2048#16 - p) >>> 5)) with enc := { s.enc with range := bound } }
    exec (.rcEncBit c bit) s =
      (if split.enc.range < 0x01000000#32 then
        exec .rcShiftLow { split with enc := { split.enc with range := split.enc.range <<< 8 } }
      else .next { split with ret := .none }) ∧
    (EncRoom s 1 → ∃ t, exec (.rcEncBit c bit) s = .next t ∧ NoError s t)

/-- 40_range_coder R114, for the cells ENC_BIT and DEC_BIT write (R111, R121): the new value, when it
is the old one, and that it stays in 31..2017. -/
def Obligations.AdaptationLaw : Prop :=
  ∀ (c : CellRef) (s : State), Store.wf probInit s.probs = true →
    31 ≤ (s.prob c).toNat → (s.prob c).toNat ≤ 2017 →
    (∀ (b : Bool) (t : State), exec (.rcEncBit c b) s = .next t →
      (t.prob c).toNat = (if b then (s.prob c).toNat - (s.prob c).toNat / 32
        else (s.prob c).toNat + (2048 - (s.prob c).toNat) / 32) ∧
      31 ≤ (t.prob c).toNat ∧ (t.prob c).toNat ≤ 2017 ∧
      (t.prob c = s.prob c ↔ if b then (s.prob c).toNat ≤ 31 else 2017 ≤ (s.prob c).toNat)) ∧
    (∀ t : State, exec (.rcDecBit c) s = .next t →
      let b := ¬ s.dec.code < (s.dec.range >>> 11) * (s.prob c).setWidth 32
      (b → (t.prob c).toNat = (s.prob c).toNat - (s.prob c).toNat / 32) ∧
      (¬ b → (t.prob c).toNat = (s.prob c).toNat + (2048 - (s.prob c).toNat) / 32))

/-- 40_range_coder R112: when the top byte is not settled it is held; when it is, `cacheSize` bytes go
out (the cached one and then 0xFF bytes, each plus the carry), as far as OUT has room, and without
room for all of them the error is ResourceExhausted with the registers as they are at that point. With
`cacheSize` 0, of which R112 has no words, the loop is taken as written and makes 2^64 passes (log 23). -/
def Obligations.ShiftLowHoldsOrEmits : Prop :=
  ∀ s : State, Memory.wf s.outMem = true → s.host.outLen.toNat ≤ s.outCap →
    let low := s.enc.low.toNat
    let settled := low < 0xFF000000 ∨ 2 ^ 32 ≤ low
    let carry := BitVec.ofNat 8 (low / 2 ^ 32)
    let n := if s.enc.cacheSize = 0#64 then 2 ^ 64 else s.enc.cacheSize.toNat
    let free := s.outCap - s.host.outLen.toNat
    let emitted (t : State) (k : Nat) : Prop :=
      t.host.outLen.toNat = s.host.outLen.toNat + k ∧
      (∀ j, j < k → t.outMem.read (s.host.outLen.toNat + j) =
        (if j = 0 then s.enc.cache else 0xFF#8) + carry) ∧
      ∀ a, a < s.host.outLen.toNat ∨ s.host.outLen.toNat + k ≤ a → t.outMem.read a = s.outMem.read a
    (¬ settled → exec .rcShiftLow s =
      .next { s with
        enc := { s.enc with
          cacheSize := s.enc.cacheSize + 1#64, low := BitVec.ofNat 64 (low % 2 ^ 24 * 2 ^ 8) }
        ret := .none }) ∧
    (settled → n ≤ free → ∃ t, exec .rcShiftLow s = .next t ∧ NoError s t ∧ emitted t n ∧
      t = { s with
        outMem := t.outMem, host := { s.host with outLen := t.host.outLen }, ret := .none
        enc := { s.enc with
          low := BitVec.ofNat 64 (low % 2 ^ 24 * 2 ^ 8)
          cache := BitVec.ofNat 8 (low / 2 ^ 24)
          cacheSize := 1#64
          outPosition := s.enc.outPosition + BitVec.ofNat 64 n } }) ∧
    (settled → free < n → ∃ t, exec .rcShiftLow s = .next t ∧ emitted t free ∧
      t = { s with
        outMem := t.outMem
        host := { s.host with outLen := t.host.outLen, seq := .error, errCode := 5#4 }
        ret := .none
        enc := { s.enc with
          cacheSize := s.enc.cacheSize - BitVec.ofNat 64 free
          outPosition := s.enc.outPosition + BitVec.ofNat 64 free } })

/-- 40_range_coder R113: ENC_DIRECT of no bits does nothing; of `n + 1` bits it halves `range`, adds
it to `low` for a 1 in bit `n`, shifts as ENC_BIT does, and goes on with the `n` lower bits. -/
def Obligations.EncDirectCodesBitByBit : Prop :=
  (∀ (value : U32) (s : State), exec (.rcEncDirect value 0#8) s = .next { s with ret := .none }) ∧
  (∀ (value : U32) (n : Byte) (s : State), n.toNat < 32 →
    let range := s.enc.range >>> 1
    let enc := { s.enc with
      low := if value.getLsbD n.toNat then s.enc.low + range.setWidth 64 else s.enc.low
      range := range }
    (0x01000000#32 ≤ range →
      exec (.rcEncDirect value (n + 1#8)) s = exec (.rcEncDirect value n) { s with enc := enc }) ∧
    (range < 0x01000000#32 → ∀ t,
      shiftLow { s with enc := { enc with range := range <<< 8 } } = .ok () t →
        exec .rcShiftLow { s with enc := { enc with range := range <<< 8 } } =
          .next { t with ret := .none } ∧
        exec (.rcEncDirect value (n + 1#8)) s = exec (.rcEncDirect value n) t) ∧
    (range < 0x01000000#32 → ∀ e t,
      shiftLow { s with enc := { enc with range := range <<< 8 } } = .error e t →
        exec (.rcEncDirect value (n + 1#8)) s =
          exec .rcShiftLow { s with enc := { enc with range := range <<< 8 } })) ∧
  ∀ (value : U32) (n : Byte) (s : State), n.toNat ≤ 32 → EncRoom s n.toNat →
    ∃ t, exec (.rcEncDirect value n) s = .next t ∧ NoError s t

/-! ### Range decoder -/

/-- 40_range_coder R120, R121: DEC_INIT reads five bytes, the first of which is shifted out of `code`;
DEC_BIT decides by `code` against `bound`, adapts the cell, and then, if `range` is below 2^24, shifts
one byte of IN in. With no byte left either ends in TruncatedInput. -/
def Obligations.DecInitAndDecBit : Prop :=
  (∀ s : State,
    let b (k : Nat) : Nat := (s.inByte ((s.host.inPos.toNat + k : Nat) : Int)).toNat
    (DecInput s 5 → exec .rcDecInit s =
      .next { s with
        dec :=
          { code := BitVec.ofNat 32 (b 1 * 2 ^ 24 + b 2 * 2 ^ 16 + b 3 * 2 ^ 8 + b 4)
            range := 0xFFFFFFFF#32 }
        host := { s.host with inPos := s.host.inPos + 5#32 }
        ret := .none }) ∧
    (¬ DecInput s 5 → ∃ t, exec .rcDecInit s = .next t ∧ t.host.seq = .error ∧
      t.host.errCode = 3#4 ∧ DecFrame (fun _ => False) s t ∧
      (s.host.inPos ≤ s.host.inLen → t.host.inPos = s.host.inLen))) ∧
  ∀ (c : CellRef) (s : State),
    let p := s.prob c
    let bound := (s.dec.range >>> 11) * p.setWidth 32
    let bit := ¬ s.dec.code < bound
    let split := if s.dec.code < bound then
        { s.setProb c (p + ((2048#16 - p) >>> 5)) with dec := { s.dec with range := bound } }
      else
        { s.setProb c (p - (p >>> 5)) with
          dec := { code := s.dec.code - bound, range := s.dec.range - bound } }
    let returned := Ret.word (if s.dec.code < bound then 0#32 else 1#32)
    (0x01000000#32 ≤ split.dec.range →
      exec (.rcDecBit c) s = .next { split with ret := returned }) ∧
    (split.dec.range < 0x01000000#32 → s.host.inPos < s.host.inLen →
      exec (.rcDecBit c) s =
        .next { split with
          dec :=
            { code := (split.dec.code <<< 8) ||| (s.inByte s.host.inPos.toNat).setWidth 32
              range := split.dec.range <<< 8 }
          host := { s.host with inPos := s.host.inPos + 1#32 }
          ret := returned }) ∧
    (split.dec.range < 0x01000000#32 → s.host.inLen ≤ s.host.inPos →
      exec (.rcDecBit c) s = .next (erred 3#4 split)) ∧
    (DecInput s 1 → ∃ t, exec (.rcDecBit c) s = .next t ∧ NoError s t ∧
      (t.ret = .word 1#32 ↔ bit) ∧ (t.ret = .word 0#32 ↔ ¬ bit))

/-- 40_range_coder R122: DEC_DIRECT of no bits returns 0; else the first bit is decided by the top
bit of `code - range` with `range` halved (`code < range` where `code` is below twice `range`), and
the rest are decoded after one byte is shifted in if `range` has fallen below 2^24. -/
def Obligations.DecDirectDecodesBitByBit : Prop :=
  (∀ s : State, exec (.rcDecDirect 0#8) s = .next { s with ret := .word 0#32 }) ∧
  (∀ (n : Nat) (acc : U32) (s : State),
    let range := s.dec.range >>> 1
    let one := ¬ (s.dec.code - range).getLsbD 31
    let dec : RangeDec := { code := if (s.dec.code - range).getLsbD 31 then s.dec.code
                              else s.dec.code - range, range := range }
    let acc' := (acc <<< 1) ||| (if (s.dec.code - range).getLsbD 31 then 0#32 else 1#32)
    (s.dec.code.toNat < 2 * range.toNat → (one ↔ range ≤ s.dec.code)) ∧
    (0x01000000#32 ≤ range → decDirect (n + 1) acc s = decDirect n acc' { s with dec := dec }) ∧
    (range < 0x01000000#32 → s.host.inPos < s.host.inLen →
      decDirect (n + 1) acc s = decDirect n acc'
        { s with
          dec :=
            { code := (dec.code <<< 8) ||| (s.inByte s.host.inPos.toNat).setWidth 32
              range := range <<< 8 }
          host := { s.host with inPos := s.host.inPos + 1#32 } }) ∧
    (range < 0x01000000#32 → s.host.inLen ≤ s.host.inPos →
      decDirect (n + 1) acc s = .error .truncatedInput { s with dec := dec })) ∧
  ∀ (n : Byte) (s : State),
    (∀ v t, decDirect n.toNat 0#32 s = .ok v t →
      exec (.rcDecDirect n) s = .next { t with ret := .word v }) ∧
    (∀ e t, decDirect n.toNat 0#32 s = .error e t → exec (.rcDecDirect n) s = .next (erred e.code t)) ∧
    (DecInput s n.toNat → ∃ t v, exec (.rcDecDirect n) s = .next t ∧ t.ret = .word v ∧ NoError s t)

/-- 40_range_coder R123, the mirror law: ENC_INIT, any ENC_BITs and ENC_DIRECTs, and ENC_FLUSH write
bytes from which DEC_INIT and the matching DEC_BITs and DEC_DIRECTs, started with equal cells, return
the same bits, leave equal cells, and read exactly the bytes written. -/
def Obligations.MirrorLaw : Prop :=
  ∀ (ds : List Coded) (s : State),
    (∀ v n, Coded.direct v n ∈ ds → n ≤ 32) → Memory.wf s.outMem = true →
    Store.wf probInit s.probs = true → cellsBounded s.probs = true →
    s.host.outLen.toNat + codedBits ds + 5 ≤ s.outCap →
    ∃ rs t, runInstrs (.rcEncInit :: ds.map Coded.encInstr ++ [.rcEncFlush]) s = some (rs, t) ∧
      NoError s t ∧
      ∀ d : State, d.probs = s.probs →
        let written := t.host.outLen.toNat - s.host.outLen.toNat
        DecInput d written →
        (∀ k, k < written → d.inByte ((d.host.inPos.toNat + k : Nat) : Int) =
          t.outMem.read (s.host.outLen.toNat + k)) →
        ∃ u, runInstrs (.rcDecInit :: ds.map Coded.decInstr) d =
            some (.none :: ds.map (fun x => Ret.word x.value), u) ∧
          NoError d u ∧ u.probs = t.probs ∧
          u.host.inPos.toNat = d.host.inPos.toNat + written

/-- 40_range_coder R126, 41_bit_tree R137, R140, R141, R144, 42_literal_coder R156: PRICE_BIT reads the
table R141's loop fills (for a 1 at cell 31 that is entry 504 = 2, where R126's example says 1: the model
follows R141, log 29); a tree's or a literal's price is the sum of the prices of the decisions the encoder
of the same symbol codes, every cell taken before coding (reverse trees of 6 to 8 levels: log 32). -/
def Obligations.PricesAreThoseOfTheDecisions : Prop :=
  ((∀ (p : U16) (bit : Bool) (s : State), 31 ≤ p.toNat → p.toNat ≤ 2017 →
    exec (.rcPriceBit p bit) s =
      .next { s with ret := .word (BitVec.ofNat 32
        (probPriceTable.getD (if bit then (2048 - p.toNat) / 4 else p.toNat / 4) 0)) }) ∧
  probPriceTable.length = 512) ∧
  (∀ (t : CellRef) (n sym : Byte) (s : State), (Instr.btPrice t n sym).wf = true →
    exec (.btPrice t n sym) s =
      .next { s with ret := .word (pathPrice s (treePath t n.toNat sym.toNat)) }) ∧
  (∀ (t : CellRef) (n sym : Byte) (s : State), (Instr.btRprice t n sym).wf = true →
    exec (.btRprice t n sym) s =
      .next { s with ret := .word (pathPrice s (reversePath t n.toNat sym.toNat)) }) ∧
  ∀ (c : U16) (matchMode : Bool) (m sym : Byte) (s : State),
    exec (.litPrice c matchMode m sym) s =
      .next { s with ret := .word (pathPrice s
        (if matchMode then matchedPath c.toNat m sym else literalPath c.toNat sym)) }

/-! ### Trees, literals, lengths -/

/-- 41_bit_tree R135, R138, 42_literal_coder R152, R153, 43_length_coder R165: each tree encoder codes
the decisions of its symbol's path, in order, and with room for them runs to its end. (R138 names 1 to
5 levels in the core; that BT.RENC takes 6 to 8 as well is log 32.) -/
def Obligations.TreeEncodersCodeTheirPaths : Prop :=
  let codes (i : Instr) (path : List (CellRef × Bool)) (s : State) : Prop :=
    exec i s = completeUnit (encBits path) s ∧
      (EncRoom s path.length → ∃ t, exec i s = .next t ∧ NoError s t)
  (∀ (t : CellRef) (n sym : Byte) (s : State), (Instr.btEnc t n sym).wf = true →
    codes (.btEnc t n sym) (treePath t n.toNat sym.toNat) s) ∧
  (∀ (t : CellRef) (n sym : Byte) (s : State), (Instr.btRenc t n sym).wf = true →
    codes (.btRenc t n sym) (reversePath t n.toNat sym.toNat) s) ∧
  (∀ (c : U16) (sym : Byte) (s : State), codes (.litEnc c sym) (literalPath c.toNat sym) s) ∧
  (∀ (c : U16) (m sym : Byte) (s : State),
    codes (.litEncMatched c m sym) (matchedPath c.toNat m sym) s) ∧
  ∀ (c : LenSel) (k : U16) (ps : Byte) (s : State), (Instr.lenEnc c k ps).wf = true →
    codes (.lenEnc c k ps) (lengthPath c ps.toNat k.toNat) s

/-- 41_bit_tree R136, R139, R143, 42_literal_coder R154, R155, R158, 43_length_coder R166, R172: each
tree decoder returns the symbol whose path's decisions it has read, changes nothing else, and with
enough bytes of IN always finds one (BT.RDEC of 6 to 8 levels: log 32). -/
def Obligations.TreeDecodersReturnTheSymbolRead : Prop :=
  let returns (i : Instr) (path : Nat → List (CellRef × Bool)) (size levels : Nat) (s : State) : Prop :=
    (∀ sym u, sym < size → Reads (bitsOf (path sym)) s u →
      exec i s = .next { u with ret := .word (BitVec.ofNat 32 sym) }) ∧
    (DecInput s levels → ∃ sym u, sym < size ∧ Reads (bitsOf (path sym)) s u ∧ NoError s u ∧
      exec i s = .next { u with ret := .word (BitVec.ofNat 32 sym) })
  (∀ (t : CellRef) (n : Byte) (s : State), (Instr.btDec t n).wf = true →
    returns (.btDec t n) (treePath t n.toNat) (2 ^ n.toNat) n.toNat s) ∧
  (∀ (t : CellRef) (n : Byte) (s : State), (Instr.btRdec t n).wf = true →
    returns (.btRdec t n) (reversePath t n.toNat) (2 ^ n.toNat) n.toNat s) ∧
  (∀ (c : U16) (s : State),
    returns (.litDec c) (fun b => literalPath c.toNat (BitVec.ofNat 8 b)) 256 8 s) ∧
  (∀ (c : U16) (m : Byte) (s : State),
    returns (.litDecMatched c m) (fun b => matchedPath c.toNat m (BitVec.ofNat 8 b)) 256 8 s) ∧
  ∀ (c : LenSel) (ps : Byte) (s : State), (Instr.lenDec c ps).wf = true →
    returns (.lenDec c ps) (lengthPath c ps.toNat) 272 10 s

/-- 41_bit_tree R145, 42_literal_coder R150: BT.INIT sets its cells to 1024 and nothing else; LIT.SELECT
joins the low `lp` bits of the position and the high `lc` bits of the byte before, and names a block. -/
def Obligations.BtInitAndLitSelect : Prop :=
  (∀ (a : CellRef) (k : U32) (s : State), (Instr.btInit a k).wf = true →
    Store.wf probInit s.probs = true →
    ∃ t, exec (.btInit a k) s = .next t ∧ t = { s with probs := t.probs, ret := .none } ∧
      ∀ c, t.prob c =
        if c.arr = a.arr ∧ a.idx.toNat ≤ c.idx.toNat ∧ c.idx.toNat < a.idx.toNat + k.toNat then 1024#16
        else s.prob c) ∧
  ∀ (pos : U64) (prevByte : Byte) (s : State), s.codec.lc.toNat ≤ 8 → s.codec.lp.toNat ≤ 4 →
    ∃ c : U32, exec (.litSelect pos prevByte) s = .next { s with ret := .word c } ∧
      c.toNat = pos.toNat % 2 ^ s.codec.lp.toNat * 2 ^ s.codec.lc.toNat +
        prevByte.toNat / 2 ^ (8 - s.codec.lc.toNat) ∧
      c.toNat < 2 ^ (s.codec.lc.toNat + s.codec.lp.toNat)

/-- 43_length_coder R167, R168, R169: SET_PRICES writes the prices of the symbols below `tableSize` of one
posState, and its counter; LEN.PRICE reads one, at and past `tableSize` whatever the table holds there
(log 34); ENC_COUNTED codes as LEN.ENC, counts down, and at 0 (PRICE_REFRESH = SDK; log 7) sets the
prices from the cells after coding. -/
def Obligations.LengthPrices : Prop :=
  ((∀ (c : LenSel) (ps : Byte) (s : State), (Instr.lenSetPrices c ps).wf = true →
    Store.wf 0#32 (s.prices.len c).prices = true → Store.wf 0#32 (s.prices.len c).counters = true →
    (s.prices.len c).tableSize ≤ 272#32 →
    ∃ v : LenPrices, exec (.lenSetPrices c ps) s =
        .next { s with prices := s.prices.setLen c v, ret := .none } ∧
      v.tableSize = (s.prices.len c).tableSize ∧
      (∀ q k, k < 272 → lenPriceAt v q k =
        if q = ps.toNat ∧ k < v.tableSize.toNat then pathPrice s (lengthPath c ps.toNat k)
        else lenPriceAt (s.prices.len c) q k) ∧
      ∀ q, lenCounterAt v q =
        if q = ps.toNat then v.tableSize else lenCounterAt (s.prices.len c) q) ∧
  ∀ (c : LenSel) (k : U16) (ps : Byte) (s : State),
    exec (.lenPrice c k ps) s =
      .next { s with ret := .word (lenPriceAt (s.prices.len c) ps.toNat k.toNat) }) ∧
  ∀ (c : LenSel) (k : U16) (ps : Byte) (s : State), (Instr.lenEncCounted c k ps).wf = true →
    Store.wf 0#32 (s.prices.len c).prices = true → Store.wf 0#32 (s.prices.len c).counters = true →
    (s.prices.len c).tableSize ≤ 272#32 →
    let path := lengthPath c ps.toNat k.toNat
    (∀ u, encBits path s = .ok () u → ∃ v : LenPrices,
      exec (.lenEncCounted c k ps) s =
        .next { u with prices := s.prices.setLen c v, ret := .none } ∧
      Counted c ps.toNat (s.prices.len c) u v) ∧
    (∀ e u, encBits path s = .error e u →
      exec (.lenEncCounted c k ps) s = .next (erred e.code u)) ∧
    (EncRoom s path.length → ∃ t, exec (.lenEncCounted c k ps) s = .next t ∧ NoError s t)

/-! ### Match finder -/

/-- 44_match_finder R180, R185, R186, R187: MF.INIT sets every element but `son`; AVAIL and INDEX_BYTE
read, INDEX_BYTE at the exact index (the model's choice outside `0 .. 2^32 - 1`, log 35); MOVE_POS
advances by one byte. -/
def Obligations.MatchFinderInitAndAccessors : Prop :=
  (∀ s : State, ∃ m : MatchFinder, exec .mfInit s = .next { s with mf := m, ret := .none } ∧
    m.pos = 1#32 ∧ m.streamPos = s.host.inLen + 1#32 ∧
    m.cyclicBufferSize = s.codec.dictSize + 1#32 ∧ m.cyclicBufferPos = 0#32 ∧ m.son = s.mf.son ∧
    (∀ i, hashGet m i = 0#32) ∧
    m.cutValue.toNat = 16 + s.encCfg.fastBytes.toNat / 2 ∧
    m.matchMaxLen.toNat = s.encCfg.fastBytes.toNat ∧
    (s.encCfg.mfKind = .bt2 → m.hashMask = 0xFFFF#32) ∧
    ∀ n, 16 ≤ n → n ≤ 25 → s.codec.dictSize.toNat = 2 ^ n → s.encCfg.mfKind = .bt4 →
      m.hashMask.toNat = 2 ^ (max n 17 - 1) - 1) ∧
  ∀ s : State,
    exec .mfAvail s = .next { s with ret := .word (s.mf.streamPos - s.mf.pos) } ∧
    (∀ k : I32, exec (.mfIndexByte k) s = .next { s with
      ret := .word ((s.inByte ((s.mf.pos.toNat : Int) - 1 + k.toInt)).setWidth 32) }) ∧
    exec .mfMovePos s = .next { s with
      mf := { s.mf with
        pos := s.mf.pos + 1#32
        cyclicBufferPos :=
          if s.mf.cyclicBufferPos + 1#32 < s.mf.cyclicBufferSize then s.mf.cyclicBufferPos + 1#32
          else 0#32 }
      ret := .none }

/-- 44_match_finder R183, R184: what MF.HASH returns for BT2 and, over the table R183's loops fill, for
BT4; and that for BT4 `h2` with the first byte tells the second byte and `h3` with it tells the second
and third. The indices `cur + j` are exact (the model's choice past 2^32 - 1, log 35). -/
def Obligations.HashesTellTheirBytes : Prop :=
  (∀ (cur : U32) (s : State), s.encCfg.mfKind = .bt2 →
    exec (.mfHash cur) s = .next { s with ret := .hash none none (BitVec.ofNat 32
      ((s.inByte cur.toNat).toNat + 256 * (s.inByte ((cur.toNat : Int) + 1)).toNat)) }) ∧
  (∀ (cur : U32) (s : State), s.encCfg.mfKind = .bt4 →
    let h2 := BitVec.ofNat 32 (hash2Of s cur.toNat)
    let h3 := BitVec.ofNat 32 (hash3Of s cur.toNat)
    let hv := BitVec.ofNat 32 (hash4Of s cur.toNat)
    exec (.mfHash cur) s = .next { s with ret := .hash (some h2) (some h3) hv }) ∧
  ∀ (a b : U32) (s : State), s.encCfg.mfKind = .bt4 →
    ∃ h2 h3 hv k2 k3 kv,
      exec (.mfHash a) s = .next { s with ret := .hash (some h2) (some h3) hv } ∧
      exec (.mfHash b) s = .next { s with ret := .hash (some k2) (some k3) kv } ∧
      h2 < 1024#32 ∧ h3 < 65536#32 ∧ hv &&& s.mf.hashMask = hv ∧
      (s.inByte a.toNat = s.inByte b.toNat → h2 = k2 →
        s.inByte ((a.toNat : Int) + 1) = s.inByte ((b.toNat : Int) + 1)) ∧
      (s.inByte a.toNat = s.inByte b.toNat → h3 = k3 →
        s.inByte ((a.toNat : Int) + 1) = s.inByte ((b.toNat : Int) + 1) ∧
        s.inByte ((a.toNat : Int) + 2) = s.inByte ((b.toNat : Int) + 2))

/-- 44_match_finder R189: MATCH_LEN returns how many bytes from index `pos - 1 + k` equal those
`d + 1` before them, at most `limit` and at most what is left of the input; the sums are exact, also
where no session goes (log 18, log 35). -/
def Obligations.MatchLenIsTheLongestAgreement : Prop :=
  ∀ (k : I32) (d limit : U32) (s : State),
    let p : Int := (s.mf.pos.toNat : Int) - 1 + k.toInt
    let left : Int := (s.mf.streamPos.toNat : Int) - (s.mf.pos.toNat + k.toInt)
    let cap : Nat := min limit.toNat left.toNat
    ∃ n : Nat, n ≤ cap ∧
      exec (.mfMatchLen k d limit) s = .next { s with ret := .word (BitVec.ofNat 32 n) } ∧
      (∀ i : Nat, i < n → s.inByte (p + i) = s.inByte (p + i - ((d.toNat : Int) + 1))) ∧
      (n < cap → s.inByte (p + n) ≠ s.inByte (p + n - ((d.toNat : Int) + 1)))

/-- 44_match_finder R191: TREE_WALK changes `son` only, and appends to `D` only with `emit`, at most
one pair per comparison, in strictly increasing length. With no live candidate it writes two empty
children; a first candidate that matches `lenLimit` bytes gives its children to the new root. Run as an
instruction it starts from `D = []` and `maxLen = 1` (log 20); its indices into IN are exact (log 35). -/
def Obligations.TreeWalkInsertsTheRoot : Prop :=
  ∀ (curMatch lenLimit : U32) (emit : Bool) (s : State),
    let m := s.mf
    let minPos := if m.cyclicBufferSize < m.pos then m.pos - m.cyclicBufferSize else 0#32
    let delta := m.pos - curMatch
    let cp := 2#32 * (if delta ≤ m.cyclicBufferPos then m.cyclicBufferPos - delta
      else m.cyclicBufferPos - delta + m.cyclicBufferSize)
    let slot := 2#32 * m.cyclicBufferPos
    let direct := if s.encCfg.mfKind = .bt2 then 2 else 0
    ∃ (son : Store U32) (d : List (U32 × U32)),
      exec (.mfTreeWalk curMatch lenLimit emit) s = .next { s with
        mf := { m with son := son }, ret := .cells (d.map fun x => [x.1, x.2]).flatten } ∧
      d.length ≤ m.cutValue.toNat ∧ (emit = false → d = []) ∧
      (d.map fun x => x.1.toNat).Pairwise (· < ·) ∧ (∀ x ∈ d, 1 < x.1.toNat) ∧
      (curMatch ≤ minPos ∨ m.cutValue = 0#32 →
        d = [] ∧ son = Store.set 0#32 (Store.set 0#32 m.son (slot + 1#32).toNat 0#32) slot.toNat 0#32) ∧
      (minPos < curMatch → m.cutValue ≠ 0#32 → direct < lenLimit.toNat →
        (∀ i : Nat, direct ≤ i → i < lenLimit.toNat →
          s.inByte ((curMatch.toNat : Int) - 1 + i) = s.inByte (((m.pos - 1#32).toNat : Int) + i)) →
        d = (if emit = true ∧ 1 < lenLimit.toNat then [(lenLimit, delta - 1#32)] else []) ∧
        ∀ one, one = Store.set 0#32 m.son slot.toNat (Store.get 0#32 m.son cp.toNat) →
          son = Store.set 0#32 one (slot + 1#32).toNat (Store.get 0#32 one (cp + 1#32).toNat))

/-- 44_match_finder R190, R192, R194: near the end of the input GET_MATCHES and SKIP only move on; else
just the cells of the byte's hashes become `pos`. SKIP of `n + 1` bytes is SKIP of `n` and one more, and
one is GET_MATCHES without its answer. Only the tables and the two positions change. In a match finder
of an ENCODE session (`FinderInv`, which its start establishes and both operations keep) the answer is a
list of matches in IN, of rising lengths, inside the dictionary. The sum `pos + matchMaxLen` is exact
(log 18). -/
def Obligations.GetMatchesFindsMatches : Prop :=
  (∀ (s : State),
    let m := s.mf
    (m.streamPos.toNat < m.pos.toNat + m.matchMaxLen.toNat →
      m.streamPos - m.pos < (if s.encCfg.mfKind = .bt2 then 3#32 else 4#32) →
      ∃ t, exec .mfMovePos s = .next t ∧ exec .mfGetMatches s = .next { t with ret := .cells [] } ∧
        exec (.mfSkip 1#32) s = .next t) ∧
    ∃ (d : List U32) (t : State), exec .mfGetMatches s = .next { t with ret := .cells d } ∧
      exec (.mfSkip 1#32) s = .next { t with ret := .none } ∧
      t = { s with
        mf := { s.mf with
          son := t.mf.son, hash := t.mf.hash, pos := s.mf.pos + 1#32
          cyclicBufferPos := t.mf.cyclicBufferPos }
        ret := t.ret } ∧
      d.length % 2 = 0) ∧
  (∀ (n : U32) (s : State), 1 ≤ n.toNat → n.toNat < 2 ^ 32 - 1 →
    ∃ t, exec (.mfSkip n) s = .next t ∧ exec (.mfSkip (n + 1#32)) s = exec (.mfSkip 1#32) t) ∧
  (∀ s : State, Store.wf 0#32 s.mf.hash = true →
    s.mf.pos.toNat + s.mf.matchMaxLen.toNat ≤ s.mf.streamPos.toNat ∨
      s.encCfg.mfKind.minMatchCheck ≤ s.mf.streamPos - s.mf.pos →
    let cur := (s.mf.pos - 1#32).toNat
    let written : List Nat :=
      match s.encCfg.mfKind with
      | .bt4 => [hash2Of s cur, 1024 + hash3Of s cur, 66560 + bucketOf s cur]
      | .bt2 => [bucketOf s cur]
    ∃ t, exec .mfGetMatches s = .next t ∧
      ∀ i, hashGet t.mf i = if i ∈ written then s.mf.pos else hashGet s.mf i) ∧
  (∀ s : State, FinderInv s → s.mf.pos.toNat < s.mf.streamPos.toNat →
    ∃ (d : List (U32 × U32)) (t : State), exec .mfGetMatches s = .next t ∧
      exec (.mfSkip 1#32) s = .next { t with ret := .none } ∧
      t.ret = .cells (d.map fun x => [x.1, x.2]).flatten ∧ RealMatches s d ∧ FinderInv t ∧
      FinderInv { t with ret := .none }) ∧
  ∀ (row : LevelRow) (irqEn marker : Bool) (s : State), Inv s → s.busy = false →
    levelRow s.host.level = some row → s.host.inLen.toNat ≤ s.maxInLen → 13 ≤ s.outCap →
    ∃ t, exec (.encode irqEn marker) s = .next t ∧ FinderInv t

/-! ### Optimal parser -/

/-- 45_optimal_parser R212, R213: READ_MATCH_DISTANCES stores what GET_MATCHES answers, counts one
byte ahead, and returns the last length, lengthened by MATCH_LEN if it is `fastBytes`; MOVE_POS is SKIP
with the count, and of 0 bytes it does nothing. Cells past the list keep their values (log 22). -/
def Obligations.CandidatePipeline : Prop :=
  (∀ s : State, Store.wf 0#32 s.parser.matchDistances = true →
    ∃ (d : List U32) (u : State) (p : Parser) (lenRes : U32),
      exec .mfGetMatches s = .next u ∧ u.ret = .cells d ∧
      exec .optReadMatchDistances s =
        .next { s with mf := u.mf, parser := p, ret := .word lenRes } ∧
      p = { s.parser with
        matchDistances := p.matchDistances
        numDistancePairs := BitVec.ofNat 32 d.length
        additionalOffset := s.parser.additionalOffset + 1#32 } ∧
      (∀ k, distAt p k = (d[k]?).getD (distAt s.parser k)) ∧
      (d = [] → lenRes = 0#32) ∧
      ∀ ds len dist, d = ds ++ [len, dist] → d.length ≤ 548 →
        (len ≠ s.encCfg.fastBytes.setWidth 32 → lenRes = len) ∧
        (len = s.encCfg.fastBytes.setWidth 32 → len.toNat ≤ 273 →
          ∃ (w : State) (more : U32),
            exec (.mfMatchLen (len - 1#32) dist (273#32 - len)) u = .next w ∧ w.ret = .word more ∧
            lenRes = len + more)) ∧
  (∀ s : State, exec (.optMovePos 0#32) s = .next { s with ret := .none }) ∧
  ∀ (n : U32) (s : State), n ≠ 0#32 →
    ∃ u, exec (.mfSkip n) s = .next u ∧ exec (.optMovePos n) s = .next { u with
      parser := { u.parser with additionalOffset := s.parser.additionalOffset + n } }

/-- 45_optimal_parser R230, R231, R232, R233: the price helpers (a length's price at and past its table's
size: log 34). -/
def Obligations.PriceHelpers : Prop :=
  ∀ (st ps : Byte) (s : State), st.toNat ≤ 11 → ps.toNat ≤ 15 →
    let price (a : ProbArray) (i : Nat) (b : Bool) : U32 := priceBit (s.prob (cellOf a i)) b
    let x := st.toNat
    let cs := 16 * st.toNat + ps.toNat
    let pure (i : Byte) : U32 :=
      if i = 0#8 then price .isRepG0 x false + price .isRep0Long cs true
      else if i = 1#8 then price .isRepG0 x true + price .isRepG1 x false
      else price .isRepG0 x true + price .isRepG1 x true + price .isRepG2 x (decide (i = 3#8))
    exec (.optRepLen1Price st ps) s =
      .next { s with ret := .word (price .isRepG0 x false + price .isRep0Long cs false) } ∧
    (∀ i : Byte, i.toNat ≤ 3 →
      exec (.optPureRepPrice i st ps) s = .next { s with ret := .word (pure i) }) ∧
    (∀ (i : Byte) (len : U16), i.toNat ≤ 3 → lenWf len = true →
      exec (.optRepPrice i len st ps) s = .next { s with
        ret := .word (lenPriceAt s.prices.repLen ps.toNat (len.toNat - 2) + pure i) }) ∧
    ∀ (d : U32) (len : U16), lenWf len = true →
      let row := min (len.toNat - 2) 3
      exec (.optPosLenPrice d len ps) s = .next { s with
        ret := .word (
          (if d.toNat < 128 then Store.get 0#32 s.prices.distancesPrices (128 * row + d.toNat)
            else Store.get 0#32 s.prices.posSlotPrices (64 * row + (posSlot2Of d).toNat) +
              Store.get 0#32 s.prices.alignPrices (d.toNat % 16)) +
            lenPriceAt s.prices.matchLen ps.toNat (len.toNat - 2)) }

/-- 45_optimal_parser R240, R241: FILL_DIST and FILL_ALIGN recompute their tables from the cells and
clear their counts; entries of slots at and above `distTableSize` stay. -/
def Obligations.DistanceAndAlignTables : Prop :=
  (∀ s : State, Store.wf 0#32 s.prices.posSlotPrices = true →
    Store.wf 0#32 s.prices.distancesPrices = true → s.prices.distTableSize ≤ 64#32 →
    ∃ q : Prices, exec .optFillDist s = .next { s with prices := q, ret := .none } ∧
      q = { s.prices with
        posSlotPrices := q.posSlotPrices, distancesPrices := q.distancesPrices
        matchPriceCount := 0#32 } ∧
      (∀ l n, l < 4 → n < 64 → Store.get 0#32 q.posSlotPrices (64 * l + n) =
        if n < s.prices.distTableSize.toNat then
          pathPrice s (treePath (cellOf .posSlot (64 * l)) 6 n) +
            BitVec.ofNat 32 (if n < 14 then 0 else 64 * (n / 2 - 5))
        else Store.get 0#32 s.prices.posSlotPrices (64 * l + n)) ∧
      ∀ l i, l < 4 → i < 128 → Store.get 0#32 q.distancesPrices (128 * l + i) =
        Store.get 0#32 q.posSlotPrices (64 * l + slotOf i) +
          if i < 4 then 0#32
          else
            let slot := slotOf i
            let base := (2 + slot % 2) * 2 ^ (slot / 2 - 1)
            pathPrice s (reversePath ⟨.posModels, BitVec.ofInt 32 ((base : Int) - slot - 1)⟩
              (slot / 2 - 1) (i - base))) ∧
  ∀ s : State, Store.wf 0#32 s.prices.alignPrices = true →
    ∃ q : Prices, exec .optFillAlign s = .next { s with prices := q, ret := .none } ∧
      q = { s.prices with alignPrices := q.alignPrices, alignPriceCount := 0#32 } ∧
      ∀ i, i < 16 → Store.get 0#32 q.alignPrices i =
        pathPrice s (reversePath (cellOf .posAlign 0) 4 i)

/-- 45_optimal_parser R215..R226: GET_OPTIMUM replays a pending token; else it takes the candidates of
the next byte (or those kept), and answers without the lattice for the last byte, for a rep or a match
of at least `fastBytes`, and where only a literal or a short rep is possible (phases A to D); else it
seeds the lattice (E) and walks it (F1: `sweep`), ending at the lattice's end or where a match of at
least `fastBytes` begins, and at every other node making the offers of F2 to F6 (`visit`). That a sweep
ends within the model's bound is log 19; its indices into IN are exact (log 35). -/
def Obligations.GetOptimumFollowsItsPhases : Prop :=
  (∀ (position : U32) (s : State),
    let first := { s with
      parser := { s.parser with optimumCurrentIndex := 0#32, optimumEndIndex := 0#32 } }
    let n := node s.parser.optimum s.parser.optimumCurrentIndex.toNat
    let fast := s.encCfg.fastBytes.setWidth 32
    let with_ (u : State) (back : I32) (len : U32) : State :=
      { u with parser := { u.parser with backRes := back }, ret := .word len }
    (s.parser.optimumEndIndex ≠ s.parser.optimumCurrentIndex →
      exec (.optGetOptimum position) s = .next { s with
        parser := { s.parser with backRes := n.backPrev, optimumCurrentIndex := n.posPrev }
        ret := .word (n.posPrev - s.parser.optimumCurrentIndex) }) ∧
    ∀ (lenMain : U32) (u : State),
      s.parser.optimumEndIndex = s.parser.optimumCurrentIndex →
      (s.parser.longestMatchWasFound = true → lenMain = s.parser.longestMatchLength ∧
        u = { first with parser := { first.parser with longestMatchWasFound := false } }) →
      (s.parser.longestMatchWasFound = false →
        exec .optReadMatchDistances first = .next u ∧ u.ret = .word lenMain) →
      let repLen (i : Nat) : U32 :=
        BitVec.ofNat 32 (mfMatchLen u u.mf (-1) (Quad.get s.codec.reps i) 273)
      let measured := { u with parser := { u.parser with
        sweepReps := s.codec.reps, sweepRepLens := ⟨repLen 0, repLen 1, repLen 2, repLen 3⟩ } }
      (mfAvail u.mf = 0#32 →
        exec (.optGetOptimum position) s = .next (with_ u 0xFFFFFFFF#32 1#32)) ∧
      (mfAvail u.mf ≠ 0#32 → mfAvail u.mf ≠ 0xFFFFFFFF#32 →
        (∀ i, i < 4 → (∀ j, j < 4 → repLen j ≤ repLen i) → (∀ j, j < i → repLen j < repLen i) →
          fast ≤ repLen i →
          ∃ v, exec (.optMovePos (repLen i - 1#32)) measured = .next v ∧
            exec (.optGetOptimum position) s = .next (with_ v (BitVec.ofNat 32 i) (repLen i))) ∧
        ((∀ i, i < 4 → repLen i < fast) → fast ≤ lenMain →
          ∃ v, exec (.optMovePos (lenMain - 1#32)) measured = .next v ∧
            exec (.optGetOptimum position) s = .next (with_ v
              (distAt u.parser (u.parser.numDistancePairs - 1#32).toNat + 4#32) lenMain)) ∧
        ((∀ i, i < 4 → repLen i < fast ∧ repLen i < 2#32) → lenMain < fast → lenMain < 2#32 →
          mfIndexByte u u.mf (-1) ≠ mfIndexByte u u.mf (-s.codec.reps.r0 - 2#32).toInt →
          exec (.optGetOptimum position) s = .next (with_ measured 0xFFFFFFFF#32 1#32)) ∧
        let curByte := mfIndexByte u u.mf (-1)
        let matchByte := mfIndexByte u u.mf (-s.codec.reps.r0 - 2#32).toInt
        let on (o : Store Node) : State :=
          { measured with parser := { measured.parser with optimum := o } }
        Store.wf Node.blank u.parser.optimum = true → (∀ i, i < 4 → repLen i < fast) →
        lenMain < fast →
        ((∀ i, i < 4 → repLen i < 2#32) → lenMain < 2#32 → curByte = matchByte →
          ∃ o : Store Node,
            exec (.optGetOptimum position) s = .next (with_ (on o) (node o 1).backPrev 1#32) ∧
            node o 0 = { node u.parser.optimum 0 with state := s.codec.state } ∧
            node o 1 = firstNode s position matchByte curByte (node u.parser.optimum 1) ∧
            ∀ i, 2 ≤ i → node o i = node u.parser.optimum i) ∧
        ∀ (d : List (Nat × U32)) (lenEnd : Nat), CandidatesAre u.parser d lenMain →
          lenEnd = max lenMain.toNat
            (max (max (repLen 0).toNat (repLen 1).toNat) (max (repLen 2).toNat (repLen 3).toNat)) →
          2 ≤ lenEnd →
          ∃ o : Store Node,
            Seeded s position s.codec.reps matchByte curByte
              (seedOffers s position ((List.range 4).map fun i => (repLen i).toNat) d lenMain.toNat)
              lenEnd u.parser.optimum o ∧
            exec (.optGetOptimum position) s =
              match sweep s sweepBound 0 lenEnd position (on o).pm with
              | some (len, x) => .next { s with parser := x.p, mf := x.m, ret := .word len }
              | none => .fault .parserHang)) ∧
  (∀ (s : State) (fuel cur lenEnd : Nat) (position : U32) (x : PM),
    let fast := s.encCfg.fastBytes.setWidth 32
    let ends (i : Nat) (v : State) : Prop :=
      ∀ t len, exec (.optBackward (BitVec.ofNat 32 i)) v = .next t → t.ret = .word len →
        sweep s (fuel + 1) cur lenEnd position x = some (len, t.pm)
    (cur + 1 = lenEnd → ends lenEnd (s.setPm x)) ∧
    (cur + 1 ≠ lenEnd → ∀ w newLen,
      exec .optReadMatchDistances (s.setPm x) = .next w → w.ret = .word newLen →
      (fast ≤ newLen → ends (cur + 1) { w with parser := { w.parser with
        longestMatchLength := newLen, longestMatchWasFound := true } }) ∧
      (newLen < fast → ∀ y newEnd,
        visit s w.pm (cur + 1) lenEnd (position + 1#32) newLen = some (y, newEnd) →
        sweep s (fuel + 1) cur lenEnd position x =
          sweep s fuel (cur + 1) newEnd (position + 1#32) y))) ∧
  ∀ (s : State) (x : PM) (cur lenEnd : Nat) (position newLen : U32) (d : List (Nat × U32)),
    Store.wf Node.blank x.p.optimum = true → Store.wf 0#32 x.p.matchDistances = true →
    CandidatesAre x.p d newLen → 0 < cur → cur < lenEnd → lenEnd ≤ 4095 →
    RecordOk (node x.p.optimum cur) cur →
    ∃ (y : PM) (newEnd : Nat), visit s x cur lenEnd position newLen = some (y, newEnd) ∧
      Visited s x cur lenEnd position d newLen.toNat y newEnd

/-- 45_optimal_parser R227: BACKWARD links every token of the chain forward, those of its hops among
them: the node a token starts from gets the node it ends at and its code. Nothing else of the lattice
changes, but that nodes a hop passes through are no longer marked as hops. The chain must go down to 0
(R214); that it does is a premise. (`cur` above 4095: log 34.) -/
def Obligations.BackwardReversesTheChain : Prop :=
  ∀ (cur : U32) (s : State), 0 < cur.toNat → cur.toNat ≤ 4095 →
    Store.wf Node.blank s.parser.optimum = true → ChainDown s.parser.optimum cur.toNat →
    ∃ (o : Store Node), exec (.optBackward cur) s = .next { s with
        parser := { s.parser with
          optimum := o, optimumEndIndex := cur, optimumCurrentIndex := (node o 0).posPrev
          backRes := (node o 0).backPrev }
        ret := .word (node o 0).posPrev } ∧
      let tokens := chainTokens s.parser.optimum cur.toNat cur.toNat
      (∀ x ∈ tokens, (node o x.1).posPrev.toNat = x.2.1 ∧ (node o x.1).backPrev = x.2.2) ∧
      (∀ i, (∀ x ∈ tokens, x.1 ≠ i) → node o i = node s.parser.optimum i) ∧
      ∀ i, node o i = { node s.parser.optimum i with
          posPrev := (node o i).posPrev, backPrev := (node o i).backPrev
          prev1IsChar := (node o i).prev1IsChar } ∧
        ((node o i).prev1IsChar = true → (node s.parser.optimum i).prev1IsChar = true)

/-! ### Automaton, reps, slots -/

/-- 46_codec R250..R255, R258, R259: the transition table, every row; PUSH and PROMOTE. -/
def Obligations.AutomatonAndReps : Prop :=
  (∀ (v : Byte) (s : State), v.toNat ≤ 11 →
    ∃ a b c d, transitionTable[v.toNat]? = some (a, b, c, d) ∧
      exec (.stChar v) s = .next { s with ret := .word (BitVec.ofNat 32 a) } ∧
      exec (.stMatch v) s = .next { s with ret := .word (BitVec.ofNat 32 b) } ∧
      exec (.stRep v) s = .next { s with ret := .word (BitVec.ofNat 32 c) } ∧
      exec (.stShortrep v) s = .next { s with ret := .word (BitVec.ofNat 32 d) } ∧
      exec (.stIsChar v) s = .next { s with ret := .bool (decide (v.toNat < 7)) } ∧
      a ≤ 11 ∧ b ≤ 11 ∧ c ≤ 11 ∧ d ≤ 11) ∧
  ∀ s : State,
    let set_ (q : Quad) : State := { s with codec := { s.codec with reps := q }, ret := .none }
    let r := s.codec.reps
    (∀ d : U32, exec (.repsPush d) s = .next (set_ ⟨d, r.r0, r.r1, r.r2⟩)) ∧
    exec (.repsPromote 1#8) s = .next (set_ ⟨r.r1, r.r0, r.r2, r.r3⟩) ∧
    exec (.repsPromote 2#8) s = .next (set_ ⟨r.r2, r.r0, r.r1, r.r3⟩) ∧
    exec (.repsPromote 3#8) s = .next (set_ ⟨r.r3, r.r0, r.r1, r.r2⟩)

/-- 46_codec R255, R262..R265: LEN_TO_POS_STATE, the fast table as R262 fills it, POS_SLOT with the
fields of its slot, POS_SLOT2. -/
def Obligations.DistanceSlots : Prop :=
  (∀ (len : U32) (s : State), 2 ≤ len.toNat →
    exec (.lenToPosState len) s = .next { s with ret := .word (BitVec.ofNat 32 (min (len.toNat - 2) 3)) }) ∧
  fastPosTable.length = 2048 ∧
  (∀ i, i < 2048 → fastPosTable[i]? = some (fastPos i)) ∧
  (∀ (d : U32) (s : State), d.toNat < 2 ^ 31 →
    ∃ slot : Nat, exec (.posSlot d) s = .next { s with ret := .word (BitVec.ofNat 32 slot) } ∧
      slot < 62 ∧ (slot < 4 → d.toNat = slot) ∧
      (4 ≤ slot →
        (2 + slot % 2) * 2 ^ (slot / 2 - 1) ≤ d.toNat ∧
        d.toNat < (2 + slot % 2) * 2 ^ (slot / 2 - 1) + 2 ^ (slot / 2 - 1)) ∧
      (∀ k, 1 ≤ k → d.toNat < 2 ^ k → slot < 2 * k) ∧
      (128 ≤ d.toNat → exec (.posSlot2 d) s = exec (.posSlot d) s)) ∧
  ∀ (d : U32) (s : State), exec (.posSlot2 d) s = .next { s with ret := .word (BitVec.ofNat 32
    (if d.toNat < 2 ^ 17 then fastPos (d.toNat / 64) + 12
      else if d.toNat < 2 ^ 27 then fastPos (d.toNat / 65536) + 32
      else fastPos (d.toNat / 67108864) + 52)) }

/-! ### Codec: headers, packets of the encoder -/

/-- 46_codec R270: ENC_HEADER appends the 13 bytes and writes PROPS and SIZE; without room for them
all OUT is filled and the error is ResourceExhausted, SIZE not yet written (log 15). -/
def Obligations.EncHeaderWritesThirteenBytes : Prop :=
  ∀ s : State, Memory.wf s.outMem = true → s.host.outLen.toNat ≤ s.outCap →
    let bytes := headerBytes s.codec.dictSize s.host.inLen
    let free := s.outCap - s.host.outLen.toNat
    ∃ t, exec .codecEncHeader s = .next t ∧
      (∀ k, k < min 13 free →
        some (t.outMem.read (s.host.outLen.toNat + k)) = bytes[k]?) ∧
      (∀ a, a < s.host.outLen.toNat ∨ s.host.outLen.toNat + 13 ≤ a →
        t.outMem.read a = s.outMem.read a) ∧
      t.host.outLen.toNat = s.host.outLen.toNat + min 13 free ∧
      (13 ≤ free → t = { s with
        outMem := t.outMem
        host := { s.host with outLen := t.host.outLen, size := s.host.inLen.setWidth 64 }
        codec := { s.codec with propsByte := 0x5D#8, lc := 3#4, lp := 0#3, pb := 2#3 }
        ret := .none }) ∧
      (free < 13 → t.host.seq = .error ∧ t.host.errCode = 5#4 ∧ t.host.size = s.host.size)

/-- 46_codec R271 and 60_exceptions R312, R316: DEC_HEADER's checks in order, what each error leaves,
and the registers a good header gives (PROPS and the fields around an error: log 14). -/
def Obligations.DecHeaderChecksInOrder : Prop :=
  ∀ s : State,
    let n := s.host.inLen.toNat
    let v := s.inByte 0
    let byte (k : Nat) : Byte := s.inByte (k : Int)
    let dict := leNat byte 4 1
    let size := leNat byte 8 5
    let c := headerCodec s.codec v dict size
    let at_ (pos : U32) (u : State) : State := { u with host := { u.host with inPos := pos } }
    (n < 5 → exec .codecDecHeader s = .next (erred 1#4 (at_ 0#32 s))) ∧
    (5 ≤ n → 225 ≤ v.toNat → exec .codecDecHeader s =
      .next (erred 1#4 (at_ 1#32 { s with codec := { s.codec with propsByte := v } }))) ∧
    (5 ≤ n → v.toNat < 225 → s.params.maxDictSize.toNat < dict → exec .codecDecHeader s =
      .next (erred 2#4 (at_ 5#32 { s with codec := { s.codec with
        propsByte := v, lc := c.lc, lp := c.lp, pb := c.pb, dictSize := c.dictSize } }))) ∧
    (5 ≤ n → n < 13 → v.toNat < 225 → dict ≤ s.params.maxDictSize.toNat → exec .codecDecHeader s =
      .next (erred 3#4 (at_ s.host.inLen { s with codec := { s.codec with
        propsByte := v, lc := c.lc, lp := c.lp, pb := c.pb, dictSize := c.dictSize } }))) ∧
    (13 ≤ n → v.toNat < 225 → dict ≤ s.params.maxDictSize.toNat → exec .codecDecHeader s =
      .next { s with
        codec := c
        host := { s.host with size := BitVec.ofNat 64 size, inPos := 13#32 }
        ret := .none })

/-- 46_codec R272, R275, R276 and 30_encoding R85, R92, R94: ENC_LIT, ENC_EOS and ENC_DISTANCE code the
decisions of their packet or field and then change what their rules name. The bytes read are at exact
indices of IN (the model's choice outside a session, log 35). -/
def Obligations.EncoderLiteralEosAndDistance : Prop :=
  (∀ s : State,
    let b := mfIndexByte s s.mf (-s.parser.additionalOffset).toInt
    let m := mfIndexByte s s.mf (-s.codec.reps.r0 - 1#32 - s.parser.additionalOffset).toInt
    let c := (litSelect s s.codec.nowPos s.codec.prevByte).toNat
    CodesThen (litPacket s.codec.state.toNat s.posState.toNat c m b)
      (fun t => { t with codec := { t.codec with prevByte := b, state := stChar s.codec.state } })
      s (exec .codecEncLit s)) ∧
  (∀ s : State,
    CodesThen (matchPacket s.codec.state.toNat s.posState.toNat 2 0xFFFFFFFF)
      (fun t => { t with codec := { t.codec with state := stMatch s.codec.state } })
      s (exec .codecEncEos s)) ∧
  ∀ (d : U32) (len : U16) (s : State), (Instr.codecEncDistance d len).wf = true →
    CodesThen (distanceCode len.toNat d.toNat)
      (fun t => { t with prices := { t.prices with
        alignPriceCount := t.prices.alignPriceCount + if 14 ≤ slotOf d.toNat then 1#32 else 0#32 } })
      s (exec (.codecEncDistance d len) s)

/-- 46_codec R273, R274 and 30_encoding R86..R91: ENC_MATCH and ENC_REP code their packet's decisions,
count the length, and change `state`, the reps and the price counts as their rules say (a distance at
or above `dictSize`: log 34). -/
def Obligations.EncoderMatchesAndReps : Prop :=
  ∀ s : State, Store.wf probInit s.probs = true → tablesWf s = true → sizesBounded s = true →
    let st := s.codec.state
    let ps := s.posState.toNat
    (∀ (len : U16) (d : U32), (Instr.codecEncMatch len d).wf = true →
      let code := matchPacket st.toNat ps len.toNat d.toNat
      EncRoom s (codedBits code) →
      ∃ t v, encCoded code s = .ok () t ∧ NoError s t ∧ Counted .matchLen ps s.prices.matchLen t v ∧
        exec (.codecEncMatch len d) s = .next { t with
          codec := { s.codec with state := stMatch st, reps := repsPush s.codec.reps d }
          prices := { s.prices with
            matchLen := v
            matchPriceCount := s.prices.matchPriceCount + 1#32
            alignPriceCount :=
              s.prices.alignPriceCount + if 14 ≤ slotOf d.toNat then 1#32 else 0#32 }
          ret := .none }) ∧
    CodesThen (repPacket st.toNat ps 0 1)
      (fun t => { t with codec := { t.codec with state := stShortrep st } })
      s (exec (.codecEncRep 0#8 1#16) s) ∧
    (∀ (i : Byte) (len : U16), (Instr.codecEncRep i len).wf = true → 2 ≤ len.toNat →
      let code := repPacket st.toNat ps i.toNat len.toNat
      EncRoom s (codedBits code) →
      ∃ t v, encCoded code s = .ok () t ∧ NoError s t ∧ Counted .repLen ps s.prices.repLen t v ∧
        exec (.codecEncRep i len) s = .next { t with
          codec := { s.codec with state := stRep st, reps := repsPromote s.codec.reps i.toNat }
          prices := { s.prices with repLen := v }
          ret := .none })

/-- 46_codec R277, R285 and 45_optimal_parser R242: ENC_BLOCK codes the packet GET_OPTIMUM chose, then
advances the positions, and refreshes the tables if no token is pending (under a PRICE_REFRESH other
than SDK, where a free value says so: log 7); an error of the packet ends it there. With a token pending
and room for any packet it runs to its end: that it does so also for a token that only a lattice outside
a session gives, outside the operand ranges of R273 and R274, is the model's choice (log 34). The last
byte covered is read at its exact index (log 35). -/
def Obligations.EncBlockCodesTheChosenPacket : Prop :=
  ∀ s : State,
    let refreshed (t : State) : State :=
      let idle := decide (t.parser.additionalOffset = 0#32)
      let u := if refreshDue t 0 (idle && decide (128#32 ≤ t.prices.matchPriceCount)) then fillDist t
        else t
      let v := if refreshDue t 1 (idle && decide (16#32 ≤ t.prices.alignPriceCount)) then fillAlign u
        else u
      refreshLengths v
    let after (len : U32) (prev : Byte) (t : State) : State :=
      if t.host.seq = .error then t
      else refreshed { t with
        parser := { t.parser with additionalOffset := t.parser.additionalOffset - len }
        codec := { t.codec with prevByte := prev, nowPos := t.codec.nowPos + len.setWidth 64 }
        host := { t.host with inPos := (t.codec.nowPos + len.setWidth 64).setWidth 32 } }
    let last (len : U32) (t : State) : Byte :=
      mfIndexByte t t.mf (len - 1#32 - t.parser.additionalOffset).toInt
    (∀ (w : State) (len : U32), s.phase ≠ .error →
      exec (.optGetOptimum (s.codec.nowPos.setWidth 32)) s = .next w → w.ret = .word len →
      let u := { w with ret := s.ret }
      let back := w.parser.backRes
      (len = 1#32 → back = 0xFFFFFFFF#32 → ∃ t, exec .codecEncLit u = .next t ∧
        exec .codecEncBlock s = .next (after 1#32 t.codec.prevByte t)) ∧
      (∀ i : Byte, back = i.setWidth 32 → (Instr.codecEncRep i (len.setWidth 16)).wf = true →
        len.toNat ≤ 273 → ∃ t, exec (.codecEncRep i (len.setWidth 16)) u = .next t ∧
          exec .codecEncBlock s = .next (after len (last len t) t)) ∧
      (∀ d : U32, back = d + 4#32 → 2 ≤ len.toNat → len.toNat ≤ 273 → d.toNat < 2 ^ 31 - 4 →
        ∃ t, exec (.codecEncMatch (len.setWidth 16) d) u = .next t ∧
          exec .codecEncBlock s = .next (after len (last len t) t))) ∧
    (s.parser.optimumEndIndex ≠ s.parser.optimumCurrentIndex → EncRoom s 48 →
      ∃ t, exec .codecEncBlock s = .next t ∧ NoError s t)

/-! ### Codec: packets of the decoder -/

/-- 46_codec R278, R279: DEC_DISTANCE returns the distance whose field it has read, the end marker's
included, and with enough bytes of IN always finds one. -/
def Obligations.DecDistanceReturnsTheDistanceRead : Prop :=
  ∀ (len : U16) (s : State), (Instr.codecDecDistance len).wf = true →
    (∀ (d : U32) (u : State), Reads (distanceCode len.toNat d.toNat) s u →
      exec (.codecDecDistance len) s = .next { u with ret := .word d }) ∧
    (DecInput s 36 → ∃ (d : U32) (u : State), Reads (distanceCode len.toNat d.toNat) s u ∧
      NoError s u ∧ exec (.codecDecDistance len) s = .next { u with ret := .word d })

/-- 30_encoding R85..R96: the packet fetched is the one whose decisions are read, and every decision
sequence spells some well-formed packet (`fetchPacket` is DEC_PACKET's decoding half, see
`DecPacketIsFetchThenPerform`; a matched literal's byte at rep0 is OW.GET's, log 34). -/
def Obligations.FetchedPacketIsTheOneRead : Prop :=
  ∀ s : State,
    let st := s.codec.state.toNat
    let ps := s.posState.toNat
    let c := (decLitBlock s.codec).toNat
    let m := owGet s s.codec.reps.r0
    (∀ (b : Byte) (u : State), Reads (litPacket st ps c m b) s u → fetchPacket s = .ok (.lit b) u) ∧
    (∀ (len : U16) (d : U32) (u : State), (Instr.matchDist len d).wf = true →
      Reads (matchPacket st ps len.toNat d.toNat) s u → fetchPacket s = .ok (.matchDist len d) u) ∧
    (∀ u, Reads (matchPacket st ps 2 0xFFFFFFFF) s u → fetchPacket s = .ok .eos u) ∧
    (∀ u, Reads (repPacket st ps 0 1) s u → fetchPacket s = .ok .shortrep u) ∧
    (∀ (len : U16) (u : State), lenWf len = true →
      (Reads (repPacket st ps 0 len.toNat) s u → fetchPacket s = .ok (.longrep0 len) u) ∧
      (Reads (repPacket st ps 1 len.toNat) s u → fetchPacket s = .ok (.longrep1 len) u) ∧
      (Reads (repPacket st ps 2 len.toNat) s u → fetchPacket s = .ok (.longrep2 len) u) ∧
      (Reads (repPacket st ps 3 len.toNat) s u → fetchPacket s = .ok (.longrep3 len) u)) ∧
    (DecInput s 48 → ∃ i u, fetchPacket s = .ok i u ∧ i.wf = true ∧ NoError s u)

/-- 46_codec R292: in DEC_RUN, DEC_PACKET is the packet fetched and then performed; if the decisions
end early it is TruncatedInput, at that byte, with nothing put in the window or OUT. A literal with
room for it runs to its end. -/
def Obligations.DecPacketIsFetchThenPerform : Prop :=
  ∀ s : State, s.phase = .decRun →
    (∀ i u, fetchPacket s = .ok i u → exec .codecDecPacket s = exec i u) ∧
    (∀ e u, fetchPacket s = .error e u → e = .truncatedInput ∧
      ∃ t, exec .codecDecPacket s = .next t ∧ t.host = (erred 3#4 u).host ∧ t.probs = u.probs ∧
        t.dec = u.dec ∧ t.window = s.window ∧ t.outMem = s.outMem ∧
        t.codec.nowPos = s.codec.nowPos ∧ t.codec.prevByte = s.codec.prevByte) ∧
    (s.dec.code < (s.dec.range >>> 11) *
        (s.prob (cellOf .isMatch (16 * s.codec.state.toNat + s.posState.toNat))).setWidth 32 →
      DecInput s 9 → WinRoom s 1 →
      ∃ t, exec .codecDecPacket s = .next t ∧ NoError s t ∧
        t.codec.nowPos = s.codec.nowPos + 1#64 ∧ t.codec.state = stChar s.codec.state)

/-- 46_codec R293, R294, R295: CHECK_DIST and DEC_EARLY_END_CHECK; COPY copies `len` bytes, or, where
they would pass a known size, what is left of it (setting OUT_TRUNCATED) or nothing (CorruptStream), by
the policy. The cut is taken modulo 2^32 (log 31). -/
def Obligations.DistanceChecksAndCopy : Prop :=
  (∀ s : State,
    let d := s.codec.reps.r0.toNat
    (s.codec.nowPos.toNat ≤ d ∨ s.codec.dictSizeCheck.toNat ≤ d →
      exec .codecCheckDist s = .next (erred 4#4 s)) ∧
    (d < s.codec.nowPos.toNat → d < s.codec.dictSizeCheck.toNat →
      exec .codecCheckDist s = .next { s with ret := .none }) ∧
    (∀ size, s.codec.outSize = some size → s.codec.nowPos < size →
      exec .codecDecEarlyEndCheck s =
        .next { s with host := { s.host with earlyEnd := true }, ret := .none }) ∧
    (s.codec.outSize = none ∨ (∃ size, s.codec.outSize = some size ∧ size ≤ s.codec.nowPos) →
      exec .codecDecEarlyEndCheck s = .next { s with ret := .none })) ∧
  ∀ (len : U16) (s : State), (Instr.codecCopy len).wf = true →
    let past (size : U64) : Prop := size < s.codec.nowPos + len.setWidth 64
    let copied_ (n : U32) (s : State) : Prop :=
      (∀ u, owCopy s.codec.reps.r0 n.toNat s = .ok () u →
        exec (.codecCopy len) s = .next { u with
          codec := { u.codec with
            nowPos := s.codec.nowPos + n.setWidth 64, prevByte := owGet u 0#32 }
          ret := .none }) ∧
      ∀ e u, owCopy s.codec.reps.r0 n.toNat s = .error e u →
        exec (.codecCopy len) s = .next (erred e.code u)
    (s.codec.outSize = none ∨ (∃ size, s.codec.outSize = some size ∧ ¬ past size) →
      copied_ (len.setWidth 32) s ∧
      (WinRoom s len.toNat → ∃ t, exec (.codecCopy len) s = .next t ∧ NoError s t)) ∧
    ∀ size, s.codec.outSize = some size → past size →
      (s.params.overshoot = .corrupt → exec (.codecCopy len) s = .next (erred 4#4 s)) ∧
      (s.params.overshoot = .truncate →
        let n := (size - s.codec.nowPos).setWidth 32
        let s' := { s with host := { s.host with outTruncated := true } }
        (∀ u, owCopy s'.codec.reps.r0 n.toNat s' = .ok () u →
          exec (.codecCopy len) s = .next { u with
            codec := { u.codec with
              nowPos := s.codec.nowPos + n.setWidth 64, prevByte := owGet u 0#32 }
            ret := .none }) ∧
        (∀ e u, owCopy s'.codec.reps.r0 n.toNat s' = .error e u →
          exec (.codecCopy len) s = .next (erred e.code u)) ∧
        (WinRoom s n.toNat → ∃ t, exec (.codecCopy len) s = .next t ∧ NoError s t ∧
          t.host.outTruncated = true))

/-! ### Packets as instructions -/

/-- 30_encoding R85..R92, 46_codec R277: outside DEC_RUN a packet is coded by its decisions, and the
positions, `state` and reps move as ENC_BLOCK's packet moves them (log 6; a distance at or above
`dictSize`: log 34; the bytes read are at exact indices of IN: log 35). -/
def Obligations.PacketsAreCodedOutsideDecode : Prop :=
  ∀ s : State, s.phase ≠ .decRun → Store.wf probInit s.probs = true → tablesWf s = true →
    sizesBounded s = true →
    let st := s.codec.state
    let ps := s.posState.toNat
    let last (len : U32) (t : State) : Byte :=
      mfIndexByte t t.mf (len - 1#32 - t.parser.additionalOffset).toInt
    let moved (len : U32) (t : State) : State :=
      { t with
        parser := { t.parser with additionalOffset := t.parser.additionalOffset - len }
        codec := { t.codec with nowPos := t.codec.nowPos + len.setWidth 64 }
        host := { t.host with inPos := (t.codec.nowPos + len.setWidth 64).setWidth 32 } }
    (∀ b : Byte,
      let m := mfIndexByte s s.mf (-s.codec.reps.r0 - 1#32 - s.parser.additionalOffset).toInt
      CodesThen (litPacket st.toNat ps (litSelect s s.codec.nowPos s.codec.prevByte).toNat m b)
        (fun t => moved 1#32
          { t with codec := { t.codec with prevByte := b, state := stChar st } })
        s (exec (.lit b) s)) ∧
    CodesThen (repPacket st.toNat ps 0 1)
      (fun t => moved 1#32
        { t with codec := { t.codec with prevByte := last 1#32 t, state := stShortrep st } })
      s (exec .shortrep s) ∧
    CodesThen (matchPacket st.toNat ps 2 0xFFFFFFFF)
      (fun t => { t with codec := { t.codec with state := stMatch st } }) s (exec .eos s) ∧
    (∀ (len : U16) (d : U32), (Instr.matchDist len d).wf = true →
      let code := matchPacket st.toNat ps len.toNat d.toNat
      EncRoom s (codedBits code) →
      ∃ t v, encCoded code s = .ok () t ∧ NoError s t ∧ Counted .matchLen ps s.prices.matchLen t v ∧
        exec (.matchDist len d) s = .next { moved (len.setWidth 32) { t with
          codec := { s.codec with
            state := stMatch st, reps := repsPush s.codec.reps d
            prevByte := last (len.setWidth 32) t }
          prices := { s.prices with
            matchLen := v
            matchPriceCount := s.prices.matchPriceCount + 1#32
            alignPriceCount :=
              s.prices.alignPriceCount + if 14 ≤ slotOf d.toNat then 1#32 else 0#32 } } with
          ret := .none }) ∧
    ∀ (len : U16) (i : Nat) (instr : Instr), lenWf len = true →
      (i, instr) ∈ [(0, Instr.longrep0 len), (1, .longrep1 len), (2, .longrep2 len),
        (3, .longrep3 len)] →
      let code := repPacket st.toNat ps i len.toNat
      EncRoom s (codedBits code) →
      ∃ t v, encCoded code s = .ok () t ∧ NoError s t ∧ Counted .repLen ps s.prices.repLen t v ∧
        exec instr s = .next { moved (len.setWidth 32) { t with
          codec := { s.codec with
            state := stRep st, reps := repsPromote s.codec.reps i
            prevByte := last (len.setWidth 32) t }
          prices := { s.prices with repLen := v } } with
          ret := .none }

/-- 46_codec R292, 30_encoding R85..R92, R96: in DEC_RUN a packet is performed: a literal goes to the
window; the end marker ends the session; any other packet updates `state` and the reps, is checked
(CorruptStream), and copies. -/
def Obligations.PacketsArePerformedInDecode : Prop :=
  ∀ s : State, s.phase = .decRun →
    let st := s.codec.state
    let bad (d : U32) : Prop :=
      s.codec.nowPos ≤ d.setWidth 64 ∨ s.codec.dictSizeCheck ≤ d
    let copies (i : Instr) (len : U32) (u : State) : Prop :=
      (bad u.codec.reps.r0 → exec i s = .next (erred 4#4 u)) ∧
      (¬ bad u.codec.reps.r0 →
        (∀ t, copy len u = .ok () t → exec i s = .next { t with ret := .cont }) ∧
        (∀ e t, copy len u = .error e t → exec i s = .next (erred e.code t)) ∧
        (s.codec.outSize = none → WinRoom s len.toNat → ∃ t, exec i s = .next t ∧ NoError s t))
    let moved (st' : U4) (reps : Quad) : State :=
      { s with codec := { s.codec with state := st', reps := reps } }
    (∀ b : Byte,
      (∀ u, owPut b s = .ok () u → exec (.lit b) s = .next { u with
        codec := { s.codec with
          prevByte := b, nowPos := s.codec.nowPos + 1#64, state := stChar st }
        ret := .cont }) ∧
      (∀ e u, owPut b s = .error e u → exec (.lit b) s = .next (erred e.code u)) ∧
      (WinRoom s 1 → ∃ t, exec (.lit b) s = .next t ∧ NoError s t)) ∧
    (∀ (len : U16) (d : U32), (Instr.matchDist len d).wf = true → d ≠ 0xFFFFFFFF#32 →
      copies (.matchDist len d) (len.setWidth 32) (moved (stMatch st) (repsPush s.codec.reps d))) ∧
    copies .shortrep 1#32 (moved (stShortrep st) s.codec.reps) ∧
    (∀ len : U16, lenWf len = true →
      copies (.longrep0 len) (len.setWidth 32) (moved (stRep st) s.codec.reps) ∧
      copies (.longrep1 len) (len.setWidth 32) (moved (stRep st) (repsPromote s.codec.reps 1)) ∧
      copies (.longrep2 len) (len.setWidth 32) (moved (stRep st) (repsPromote s.codec.reps 2)) ∧
      copies (.longrep3 len) (len.setWidth 32) (moved (stRep st) (repsPromote s.codec.reps 3))) ∧
    (let ended := { moved (stMatch st) (repsPush s.codec.reps 0xFFFFFFFF#32) with
        host := { s.host with
          earlyEnd := s.host.earlyEnd || belowSize s }
        ret := .endOfStream }
     exec .eos s = .next ended ∧
     ∀ len : U16, lenWf len = true → len ≠ 2#16 → exec (.matchDist len 0xFFFFFFFF#32) s = .next ended)

/-! ### Output window -/

/-- 47_output_window R300..R303: INIT, PUT, GET, and COPY, which is byte by byte, each byte the one
`d + 1` back at that moment (the cell there also where fewer than `d + 1` bytes have been put: log 34). -/
def Obligations.WindowOperations : Prop :=
  (∀ s : State,
    (∀ n : U32, exec (.owInit n) s = .next { s with
      window := { s.window with
        windowSize := if n.toNat < 4096 then 4096#32 else n, winPos := 0#32, winFlushPos := 0#32 }
      ret := .none }) ∧
    (∀ b : Byte,
      let pushed := { s with
        window := { s.window with
          win := Store.set Memory.blank s.window.win s.window.winPos.toNat b
          winPos := s.window.winPos + 1#32 } }
      (s.window.winPos + 1#32 ≠ s.window.windowSize →
        exec (.owPut b) s = .next { pushed with ret := .none }) ∧
      (s.window.winPos + 1#32 = s.window.windowSize → exec (.owPut b) s = exec .owFlush pushed) ∧
      (WinRoom s 1 → ∃ t, exec (.owPut b) s = .next t ∧ NoError s t)) ∧
    ∀ d : U32,
      (∃ v : Byte, exec (.owGet d) s = .next { s with ret := .word (v.setWidth 32) }) ∧
      (s.window.winPos.toNat < s.window.windowSize.toNat → d.toNat < s.window.windowSize.toNat →
        let i := if d.toNat < s.window.winPos.toNat then s.window.winPos.toNat - d.toNat - 1
          else s.window.winPos.toNat + s.window.windowSize.toNat - d.toNat - 1
        exec (.owGet d) s = .next { s with
          ret := .word ((Store.get Memory.blank s.window.win i).setWidth 32) })) ∧
  ∀ (d n : U32) (s : State), n.toNat < 2 ^ 32 - 1 →
    (∀ u, owPut (owGet s d) s = .ok () u →
      (n = 0#32 → exec (.owCopy d 1#32) s = .next { u with ret := .none }) ∧
      (n ≠ 0#32 → exec (.owCopy d (n + 1#32)) s = exec (.owCopy d n) u)) ∧
    (∀ e u, owPut (owGet s d) s = .error e u →
      exec (.owCopy d (n + 1#32)) s = .next (erred e.code u)) ∧
    (WinRoom s n.toNat → ∃ t, exec (.owCopy d n) s = .next t ∧ NoError s t)

/-- 47_output_window R304, 20_memory R64, R76: FLUSH moves the unflushed bytes to OUT; without room it
fills OUT and leaves the window's indices. -/
def Obligations.FlushMovesTheUnflushedBytes : Prop :=
  ∀ s : State, Memory.wf s.outMem = true → s.host.outLen.toNat ≤ s.outCap →
    let n := s.window.winPos.toNat - s.window.winFlushPos.toNat
    let free := s.outCap - s.host.outLen.toNat
    let pos := if s.window.winPos = s.window.windowSize then 0#32 else s.window.winPos
    ∃ t, exec .owFlush s = .next t ∧
      t.host.outLen.toNat = s.host.outLen.toNat + min n free ∧
      (∀ j, j < min n free → t.outMem.read (s.host.outLen.toNat + j) =
        s.window.cell (s.window.winFlushPos.toNat + j)) ∧
      (∀ a, a < s.host.outLen.toNat ∨ s.host.outLen.toNat + n ≤ a →
        t.outMem.read a = s.outMem.read a) ∧
      (n ≤ free → t = { s with
        outMem := t.outMem, host := { s.host with outLen := t.host.outLen }
        window := { s.window with winPos := pos, winFlushPos := pos }, ret := .none }) ∧
      (free < n → t = { s with
        outMem := t.outMem
        host := { s.host with outLen := t.host.outLen, seq := .error, errCode := 5#4 }
        ret := .none })

/-- 47_output_window R305: OUT's session bytes and the unflushed bytes of the window spell all bytes
passed to PUT, and GET reads them back. -/
def Obligations.WindowIsALinearHistory : Prop :=
  ∀ (s : State) (H : List Byte),
    Memory.wf s.outMem = true → Store.wf Memory.blank s.window.win = true →
    (∀ n t, s.host.outLen = 0#64 → exec (.owInit n) s = .next t → WindowHolds [] t) ∧
    (∀ b, WindowHolds H s → WinRoom s 1 →
      ∃ t, exec (.owPut b) s = .next t ∧ NoError s t ∧ WindowHolds (H ++ [b]) t) ∧
    (∀ d n : U32, WindowHolds H s → WinRoom s n.toNat → d.toNat < H.length →
      d.toNat < s.window.windowSize.toNat →
      ∃ t, exec (.owCopy d n) s = .next t ∧ NoError s t ∧
        WindowHolds (copied d.toNat n.toNat H) t) ∧
    (WindowHolds H s → WinRoom s 0 →
      ∃ t, exec .owFlush s = .next t ∧ NoError s t ∧ WindowHolds H t ∧
        t.host.outLen.toNat = H.length ∧
        ∀ k, k < H.length → some (t.outMem.read k) = H[k]?)

/-! ### Frames -/

/-- 40_range_coder, 41_bit_tree, 42_literal_coder, 43_length_coder ('State written'), 20_memory R64,
60_exceptions R311: an operation of the range encoder changes its registers, the cells of its path
and the bytes of OUT it appends, and errs only with OUT full. -/
def Obligations.RangeEncoderFrames : Prop :=
  ∀ s t : State, Memory.wf s.outMem = true → Store.wf probInit s.probs = true →
    let frame (i : Instr) (cells : List CellRef) : Prop := exec i s = .next t →
      EncFrame (· ∈ cells) s t ∧ EndsOrOutFull s t
    (∀ c b, frame (.rcEncBit c b) [c]) ∧ (∀ v n, frame (.rcEncDirect v n) []) ∧
    frame .rcShiftLow [] ∧ frame .rcEncFlush [] ∧
    (∀ a n sym, (Instr.btEnc a n sym).wf = true →
      frame (.btEnc a n sym) ((treePath a n.toNat sym.toNat).map Prod.fst)) ∧
    (∀ a n sym, (Instr.btRenc a n sym).wf = true →
      frame (.btRenc a n sym) ((reversePath a n.toNat sym.toNat).map Prod.fst)) ∧
    (∀ c sym, frame (.litEnc c sym) ((literalPath c.toNat sym).map Prod.fst)) ∧
    (∀ c m sym, frame (.litEncMatched c m sym) ((matchedPath c.toNat m sym).map Prod.fst)) ∧
    ∀ c k ps, (Instr.lenEnc c k ps).wf = true →
      frame (.lenEnc c k ps) ((lengthPath c ps.toNat k.toNat).map Prod.fst)

/-- 40_range_coder, 41_bit_tree, 42_literal_coder, 43_length_coder, 46_codec R278 ('State written'),
20_memory R66: an operation of the range decoder changes its registers, IN_POS and cells of its tree,
stores nothing, and errs only with no byte of IN left. -/
def Obligations.RangeDecoderFrames : Prop :=
  ∀ s t : State, Store.wf probInit s.probs = true →
    let frame (i : Instr) (cells : CellRef → Prop) : Prop := exec i s = .next t →
      DecFrame cells s t ∧ EndsOrTruncated s t
    (∀ c, frame (.rcDecBit c) (· = c)) ∧ (∀ n, frame (.rcDecDirect n) fun _ => False) ∧
    frame .rcDecInit (fun _ => False) ∧
    (∀ a n, (Instr.btDec a n).wf = true →
      frame (.btDec a n) fun c => ∃ m, 1 ≤ m ∧ m < 2 ^ n.toNat ∧ c = treeCell a (BitVec.ofNat 32 m)) ∧
    (∀ a n, (Instr.btRdec a n).wf = true →
      frame (.btRdec a n) fun c => ∃ m, 1 ≤ m ∧ m < 2 ^ n.toNat ∧ c = treeCell a (BitVec.ofNat 32 m)) ∧
    (∀ c, frame (.litDec c) fun x => ∃ m, m < 256 ∧ x = cellOf .literal (768 * c.toNat + m)) ∧
    (∀ c b, frame (.litDecMatched c b) fun x =>
      ∃ m, m < 768 ∧ x = cellOf .literal (768 * c.toNat + m)) ∧
    (∀ c ps, frame (.lenDec c ps) fun x =>
      x.arr = .lenChoice c ∨ x.arr = .lenLow c ∨ x.arr = .lenMid c ∨ x.arr = .lenHigh c) ∧
    ∀ len, frame (.codecDecDistance len) fun x =>
      x.arr = .posSlot ∨ x.arr = .posModels ∨ x.arr = .posAlign

/-- 46_codec R272..R277 ('State written'), 47_output_window R306: a packet of the encoder leaves the
decoder's state and IN alone, and errs only with OUT full; but for ENC_BLOCK it leaves the match finder
and every parser register but `additionalOffset`. -/
def Obligations.EncoderPacketFrames : Prop :=
  ∀ s t : State, Memory.wf s.outMem = true → Store.wf probInit s.probs = true →
    let frame (i : Instr) : Prop := exec i s = .next t →
      EncoderSide s t ∧ EndsOrOutFull s t ∧ t.mf = s.mf ∧
        t.parser = { s.parser with additionalOffset := t.parser.additionalOffset }
    frame .codecEncLit ∧ (∀ len d, frame (.codecEncMatch len d)) ∧
    (∀ i len, frame (.codecEncRep i len)) ∧ frame .codecEncEos ∧
    (∀ d len, frame (.codecEncDistance d len)) ∧ (∀ c k ps, frame (.lenEncCounted c k ps)) ∧
    (exec .codecEncBlock s = .next t → EncoderSide s t ∧ EndsOrOutFull s t) ∧
    (s.phase ≠ .decRun →
      (∀ b, frame (.lit b)) ∧ (∀ len d, frame (.matchDist len d)) ∧ frame .shortrep ∧
      (∀ len, frame (.longrep0 len) ∧ frame (.longrep1 len) ∧ frame (.longrep2 len) ∧
        frame (.longrep3 len)) ∧ frame .eos)

/-- 46_codec R292, R295, 47_output_window R300..R304 ('State written'): a decoder's packet leaves the
encoder's state and IN alone; the window's operations change the window and OUT only. -/
def Obligations.DecoderPacketAndWindowFrames : Prop :=
  ∀ s t : State, Memory.wf s.outMem = true →
    (exec .codecDecPacket s = .next t → DecoderSide s t) ∧
    (∀ len, exec (.codecCopy len) s = .next t →
      DecoderSide s t ∧ t.probs = s.probs ∧ t.dec = s.dec ∧ t.host.inPos = s.host.inPos) ∧
    (s.phase = .decRun →
      ∀ i, (∃ b, i = .lit b) ∨ (∃ len d, i = .matchDist len d) ∨ i = .shortrep ∨
        (∃ len, i = .longrep0 len ∨ i = .longrep1 len ∨ i = .longrep2 len ∨ i = .longrep3 len) ∨
        i = .eos → exec i s = .next t →
      DecoderSide s t ∧ t.probs = s.probs ∧ t.dec = s.dec ∧ t.host.inPos = s.host.inPos) ∧
    (∀ b, exec (.owPut b) s = .next t → WinFrame s t ∧ EndsOrOutFull s t) ∧
    (∀ d n, exec (.owCopy d n) s = .next t → WinFrame s t ∧ EndsOrOutFull s t) ∧
    (exec .owFlush s = .next t → WinFrame s t ∧ EndsOrOutFull s t)

/-- 45_optimal_parser R210, R227 ('State written'): GET_OPTIMUM changes the parser and the match
finder's tables and positions only, and BACKWARD the lattice and its registers only. -/
def Obligations.ParserFrames : Prop :=
  ∀ s t : State,
    (∀ position, exec (.optGetOptimum position) s = .next t →
      t = { s with
        parser := t.parser
        mf := { s.mf with
          pos := t.mf.pos, cyclicBufferPos := t.mf.cyclicBufferPos, son := t.mf.son
          hash := t.mf.hash }
        ret := t.ret }) ∧
    (∀ cur, exec (.optBackward cur) s = .next t →
      t = { s with
        parser := { s.parser with
          optimum := t.parser.optimum, optimumEndIndex := cur
          optimumCurrentIndex := t.parser.optimumCurrentIndex, backRes := t.parser.backRes }
        ret := .word t.parser.optimumCurrentIndex })

end
end

