-- ==== Sys2Proof/Laws/State.lean ====
section
/-! SUPPORT. One lemma for each field of each named update of the state. -/

namespace Sys2Proof.Machine

/-! `setProb` -/

@[simp] theorem State.setProb_params (s : State) (c : CellRef) (v : U16) :
    (s.setProb c v).params = s.params := rfl
@[simp] theorem State.setProb_host (s : State) (c : CellRef) (v : U16) :
    (s.setProb c v).host = s.host := rfl
@[simp] theorem State.setProb_inMem (s : State) (c : CellRef) (v : U16) :
    (s.setProb c v).inMem = s.inMem := rfl
@[simp] theorem State.setProb_outMem (s : State) (c : CellRef) (v : U16) :
    (s.setProb c v).outMem = s.outMem := rfl
@[simp] theorem State.setProb_enc (s : State) (c : CellRef) (v : U16) :
    (s.setProb c v).enc = s.enc := rfl
@[simp] theorem State.setProb_dec (s : State) (c : CellRef) (v : U16) :
    (s.setProb c v).dec = s.dec := rfl
@[simp] theorem State.setProb_probs (s : State) (c : CellRef) (v : U16) :
    (s.setProb c v).probs = Store.set probInit s.probs (cellKey c) v := rfl
@[simp] theorem State.setProb_codec (s : State) (c : CellRef) (v : U16) :
    (s.setProb c v).codec = s.codec := rfl
@[simp] theorem State.setProb_encCfg (s : State) (c : CellRef) (v : U16) :
    (s.setProb c v).encCfg = s.encCfg := rfl
@[simp] theorem State.setProb_prices (s : State) (c : CellRef) (v : U16) :
    (s.setProb c v).prices = s.prices := rfl
@[simp] theorem State.setProb_parser (s : State) (c : CellRef) (v : U16) :
    (s.setProb c v).parser = s.parser := rfl
@[simp] theorem State.setProb_mf (s : State) (c : CellRef) (v : U16) :
    (s.setProb c v).mf = s.mf := rfl
@[simp] theorem State.setProb_window (s : State) (c : CellRef) (v : U16) :
    (s.setProb c v).window = s.window := rfl
@[simp] theorem State.setProb_ret (s : State) (c : CellRef) (v : U16) :
    (s.setProb c v).ret = s.ret := rfl
@[simp] theorem State.setProb_agenda (s : State) (c : CellRef) (v : U16) :
    (s.setProb c v).agenda = s.agenda := rfl
@[simp] theorem State.setProb_freeCount (s : State) (c : CellRef) (v : U16) :
    (s.setProb c v).freeCount = s.freeCount := rfl

/-! `appendOut` -/

@[simp] theorem State.appendOut_params (s : State) (b : Byte) :
    (s.appendOut b).params = s.params := rfl
@[simp] theorem State.appendOut_host_irqEn (s : State) (b : Byte) :
    (s.appendOut b).host.irqEn = s.host.irqEn := rfl
@[simp] theorem State.appendOut_host_writeEndMarker (s : State) (b : Byte) :
    (s.appendOut b).host.writeEndMarker = s.host.writeEndMarker := rfl
@[simp] theorem State.appendOut_host_seq (s : State) (b : Byte) :
    (s.appendOut b).host.seq = s.host.seq := rfl
@[simp] theorem State.appendOut_host_errCode (s : State) (b : Byte) :
    (s.appendOut b).host.errCode = s.host.errCode := rfl
@[simp] theorem State.appendOut_host_earlyEnd (s : State) (b : Byte) :
    (s.appendOut b).host.earlyEnd = s.host.earlyEnd := rfl
@[simp] theorem State.appendOut_host_cmdIgnored (s : State) (b : Byte) :
    (s.appendOut b).host.cmdIgnored = s.host.cmdIgnored := rfl
@[simp] theorem State.appendOut_host_outTruncated (s : State) (b : Byte) :
    (s.appendOut b).host.outTruncated = s.host.outTruncated := rfl
@[simp] theorem State.appendOut_host_level (s : State) (b : Byte) :
    (s.appendOut b).host.level = s.host.level := rfl
@[simp] theorem State.appendOut_host_inLen (s : State) (b : Byte) :
    (s.appendOut b).host.inLen = s.host.inLen := rfl
@[simp] theorem State.appendOut_host_inPos (s : State) (b : Byte) :
    (s.appendOut b).host.inPos = s.host.inPos := rfl
@[simp] theorem State.appendOut_host_outLen (s : State) (b : Byte) :
    (s.appendOut b).host.outLen = s.host.outLen + 1#64 := rfl
@[simp] theorem State.appendOut_host_size (s : State) (b : Byte) :
    (s.appendOut b).host.size = s.host.size := rfl
@[simp] theorem State.appendOut_inMem (s : State) (b : Byte) :
    (s.appendOut b).inMem = s.inMem := rfl
@[simp] theorem State.appendOut_outMem (s : State) (b : Byte) :
    (s.appendOut b).outMem = s.outMem.write s.host.outLen.toNat b := rfl
@[simp] theorem State.appendOut_enc (s : State) (b : Byte) : (s.appendOut b).enc = s.enc := rfl
@[simp] theorem State.appendOut_dec (s : State) (b : Byte) : (s.appendOut b).dec = s.dec := rfl
@[simp] theorem State.appendOut_probs (s : State) (b : Byte) :
    (s.appendOut b).probs = s.probs := rfl
@[simp] theorem State.appendOut_codec (s : State) (b : Byte) :
    (s.appendOut b).codec = s.codec := rfl
@[simp] theorem State.appendOut_encCfg (s : State) (b : Byte) :
    (s.appendOut b).encCfg = s.encCfg := rfl
@[simp] theorem State.appendOut_prices (s : State) (b : Byte) :
    (s.appendOut b).prices = s.prices := rfl
@[simp] theorem State.appendOut_parser (s : State) (b : Byte) :
    (s.appendOut b).parser = s.parser := rfl
@[simp] theorem State.appendOut_mf (s : State) (b : Byte) : (s.appendOut b).mf = s.mf := rfl
@[simp] theorem State.appendOut_window (s : State) (b : Byte) :
    (s.appendOut b).window = s.window := rfl
@[simp] theorem State.appendOut_ret (s : State) (b : Byte) : (s.appendOut b).ret = s.ret := rfl
@[simp] theorem State.appendOut_agenda (s : State) (b : Byte) :
    (s.appendOut b).agenda = s.agenda := rfl
@[simp] theorem State.appendOut_freeCount (s : State) (b : Byte) :
    (s.appendOut b).freeCount = s.freeCount := rfl

/-! `withInPos` -/

@[simp] theorem State.withInPos_params (s : State) (v : U32) :
    (s.withInPos v).params = s.params := rfl
@[simp] theorem State.withInPos_host_irqEn (s : State) (v : U32) :
    (s.withInPos v).host.irqEn = s.host.irqEn := rfl
@[simp] theorem State.withInPos_host_writeEndMarker (s : State) (v : U32) :
    (s.withInPos v).host.writeEndMarker = s.host.writeEndMarker := rfl
@[simp] theorem State.withInPos_host_seq (s : State) (v : U32) :
    (s.withInPos v).host.seq = s.host.seq := rfl
@[simp] theorem State.withInPos_host_errCode (s : State) (v : U32) :
    (s.withInPos v).host.errCode = s.host.errCode := rfl
@[simp] theorem State.withInPos_host_earlyEnd (s : State) (v : U32) :
    (s.withInPos v).host.earlyEnd = s.host.earlyEnd := rfl
@[simp] theorem State.withInPos_host_cmdIgnored (s : State) (v : U32) :
    (s.withInPos v).host.cmdIgnored = s.host.cmdIgnored := rfl
@[simp] theorem State.withInPos_host_outTruncated (s : State) (v : U32) :
    (s.withInPos v).host.outTruncated = s.host.outTruncated := rfl
@[simp] theorem State.withInPos_host_level (s : State) (v : U32) :
    (s.withInPos v).host.level = s.host.level := rfl
@[simp] theorem State.withInPos_host_inLen (s : State) (v : U32) :
    (s.withInPos v).host.inLen = s.host.inLen := rfl
@[simp] theorem State.withInPos_host_inPos (s : State) (v : U32) :
    (s.withInPos v).host.inPos = v := rfl
@[simp] theorem State.withInPos_host_outLen (s : State) (v : U32) :
    (s.withInPos v).host.outLen = s.host.outLen := rfl
@[simp] theorem State.withInPos_host_size (s : State) (v : U32) :
    (s.withInPos v).host.size = s.host.size := rfl
@[simp] theorem State.withInPos_inMem (s : State) (v : U32) : (s.withInPos v).inMem = s.inMem := rfl
@[simp] theorem State.withInPos_outMem (s : State) (v : U32) :
    (s.withInPos v).outMem = s.outMem := rfl
@[simp] theorem State.withInPos_enc (s : State) (v : U32) : (s.withInPos v).enc = s.enc := rfl
@[simp] theorem State.withInPos_dec (s : State) (v : U32) : (s.withInPos v).dec = s.dec := rfl
@[simp] theorem State.withInPos_probs (s : State) (v : U32) : (s.withInPos v).probs = s.probs := rfl
@[simp] theorem State.withInPos_codec (s : State) (v : U32) : (s.withInPos v).codec = s.codec := rfl
@[simp] theorem State.withInPos_encCfg (s : State) (v : U32) :
    (s.withInPos v).encCfg = s.encCfg := rfl
@[simp] theorem State.withInPos_prices (s : State) (v : U32) :
    (s.withInPos v).prices = s.prices := rfl
@[simp] theorem State.withInPos_parser (s : State) (v : U32) :
    (s.withInPos v).parser = s.parser := rfl
@[simp] theorem State.withInPos_mf (s : State) (v : U32) : (s.withInPos v).mf = s.mf := rfl
@[simp] theorem State.withInPos_window (s : State) (v : U32) :
    (s.withInPos v).window = s.window := rfl
@[simp] theorem State.withInPos_ret (s : State) (v : U32) : (s.withInPos v).ret = s.ret := rfl
@[simp] theorem State.withInPos_agenda (s : State) (v : U32) :
    (s.withInPos v).agenda = s.agenda := rfl
@[simp] theorem State.withInPos_freeCount (s : State) (v : U32) :
    (s.withInPos v).freeCount = s.freeCount := rfl

/-! `setReps` -/

@[simp] theorem State.setReps_params (s : State) (q : Quad) : (s.setReps q).params = s.params := rfl
@[simp] theorem State.setReps_host (s : State) (q : Quad) : (s.setReps q).host = s.host := rfl
@[simp] theorem State.setReps_inMem (s : State) (q : Quad) : (s.setReps q).inMem = s.inMem := rfl
@[simp] theorem State.setReps_outMem (s : State) (q : Quad) : (s.setReps q).outMem = s.outMem := rfl
@[simp] theorem State.setReps_enc (s : State) (q : Quad) : (s.setReps q).enc = s.enc := rfl
@[simp] theorem State.setReps_dec (s : State) (q : Quad) : (s.setReps q).dec = s.dec := rfl
@[simp] theorem State.setReps_probs (s : State) (q : Quad) : (s.setReps q).probs = s.probs := rfl
@[simp] theorem State.setReps_codec (s : State) (q : Quad) :
    (s.setReps q).codec = { s.codec with reps := q } := rfl
@[simp] theorem State.setReps_encCfg (s : State) (q : Quad) : (s.setReps q).encCfg = s.encCfg := rfl
@[simp] theorem State.setReps_prices (s : State) (q : Quad) : (s.setReps q).prices = s.prices := rfl
@[simp] theorem State.setReps_parser (s : State) (q : Quad) : (s.setReps q).parser = s.parser := rfl
@[simp] theorem State.setReps_mf (s : State) (q : Quad) : (s.setReps q).mf = s.mf := rfl
@[simp] theorem State.setReps_window (s : State) (q : Quad) : (s.setReps q).window = s.window := rfl
@[simp] theorem State.setReps_ret (s : State) (q : Quad) : (s.setReps q).ret = s.ret := rfl
@[simp] theorem State.setReps_agenda (s : State) (q : Quad) : (s.setReps q).agenda = s.agenda := rfl
@[simp] theorem State.setReps_freeCount (s : State) (q : Quad) :
    (s.setReps q).freeCount = s.freeCount := rfl

/-! `setPm` -/

@[simp] theorem State.setPm_params (s : State) (x : PM) : (s.setPm x).params = s.params := rfl
@[simp] theorem State.setPm_host (s : State) (x : PM) : (s.setPm x).host = s.host := rfl
@[simp] theorem State.setPm_inMem (s : State) (x : PM) : (s.setPm x).inMem = s.inMem := rfl
@[simp] theorem State.setPm_outMem (s : State) (x : PM) : (s.setPm x).outMem = s.outMem := rfl
@[simp] theorem State.setPm_enc (s : State) (x : PM) : (s.setPm x).enc = s.enc := rfl
@[simp] theorem State.setPm_dec (s : State) (x : PM) : (s.setPm x).dec = s.dec := rfl
@[simp] theorem State.setPm_probs (s : State) (x : PM) : (s.setPm x).probs = s.probs := rfl
@[simp] theorem State.setPm_codec (s : State) (x : PM) : (s.setPm x).codec = s.codec := rfl
@[simp] theorem State.setPm_encCfg (s : State) (x : PM) : (s.setPm x).encCfg = s.encCfg := rfl
@[simp] theorem State.setPm_prices (s : State) (x : PM) : (s.setPm x).prices = s.prices := rfl
@[simp] theorem State.setPm_parser (s : State) (x : PM) : (s.setPm x).parser = x.p := rfl
@[simp] theorem State.setPm_mf (s : State) (x : PM) : (s.setPm x).mf = x.m := rfl
@[simp] theorem State.setPm_window (s : State) (x : PM) : (s.setPm x).window = s.window := rfl
@[simp] theorem State.setPm_ret (s : State) (x : PM) : (s.setPm x).ret = s.ret := rfl
@[simp] theorem State.setPm_agenda (s : State) (x : PM) : (s.setPm x).agenda = s.agenda := rfl
@[simp] theorem State.setPm_freeCount (s : State) (x : PM) :
    (s.setPm x).freeCount = s.freeCount := rfl

/-! `goTo` -/

@[simp] theorem State.goTo_params (s : State) (q : Seq) : (s.goTo q).params = s.params := rfl
@[simp] theorem State.goTo_host_irqEn (s : State) (q : Seq) :
    (s.goTo q).host.irqEn = s.host.irqEn := rfl
@[simp] theorem State.goTo_host_writeEndMarker (s : State) (q : Seq) :
    (s.goTo q).host.writeEndMarker = s.host.writeEndMarker := rfl
@[simp] theorem State.goTo_host_seq (s : State) (q : Seq) : (s.goTo q).host.seq = q := rfl
@[simp] theorem State.goTo_host_errCode (s : State) (q : Seq) :
    (s.goTo q).host.errCode = s.host.errCode := rfl
@[simp] theorem State.goTo_host_earlyEnd (s : State) (q : Seq) :
    (s.goTo q).host.earlyEnd = s.host.earlyEnd := rfl
@[simp] theorem State.goTo_host_cmdIgnored (s : State) (q : Seq) :
    (s.goTo q).host.cmdIgnored = s.host.cmdIgnored := rfl
@[simp] theorem State.goTo_host_outTruncated (s : State) (q : Seq) :
    (s.goTo q).host.outTruncated = s.host.outTruncated := rfl
@[simp] theorem State.goTo_host_level (s : State) (q : Seq) :
    (s.goTo q).host.level = s.host.level := rfl
@[simp] theorem State.goTo_host_inLen (s : State) (q : Seq) :
    (s.goTo q).host.inLen = s.host.inLen := rfl
@[simp] theorem State.goTo_host_inPos (s : State) (q : Seq) :
    (s.goTo q).host.inPos = s.host.inPos := rfl
@[simp] theorem State.goTo_host_outLen (s : State) (q : Seq) :
    (s.goTo q).host.outLen = s.host.outLen := rfl
@[simp] theorem State.goTo_host_size (s : State) (q : Seq) :
    (s.goTo q).host.size = s.host.size := rfl
@[simp] theorem State.goTo_inMem (s : State) (q : Seq) : (s.goTo q).inMem = s.inMem := rfl
@[simp] theorem State.goTo_outMem (s : State) (q : Seq) : (s.goTo q).outMem = s.outMem := rfl
@[simp] theorem State.goTo_enc (s : State) (q : Seq) : (s.goTo q).enc = s.enc := rfl
@[simp] theorem State.goTo_dec (s : State) (q : Seq) : (s.goTo q).dec = s.dec := rfl
@[simp] theorem State.goTo_probs (s : State) (q : Seq) : (s.goTo q).probs = s.probs := rfl
@[simp] theorem State.goTo_codec (s : State) (q : Seq) : (s.goTo q).codec = s.codec := rfl
@[simp] theorem State.goTo_encCfg (s : State) (q : Seq) : (s.goTo q).encCfg = s.encCfg := rfl
@[simp] theorem State.goTo_prices (s : State) (q : Seq) : (s.goTo q).prices = s.prices := rfl
@[simp] theorem State.goTo_parser (s : State) (q : Seq) : (s.goTo q).parser = s.parser := rfl
@[simp] theorem State.goTo_mf (s : State) (q : Seq) : (s.goTo q).mf = s.mf := rfl
@[simp] theorem State.goTo_window (s : State) (q : Seq) : (s.goTo q).window = s.window := rfl
@[simp] theorem State.goTo_ret (s : State) (q : Seq) : (s.goTo q).ret = s.ret := rfl
@[simp] theorem State.goTo_agenda (s : State) (q : Seq) : (s.goTo q).agenda = s.agenda := rfl
@[simp] theorem State.goTo_freeCount (s : State) (q : Seq) :
    (s.goTo q).freeCount = s.freeCount := rfl

/-! `writeCtrlFields` -/

@[simp] theorem State.writeCtrlFields_params (s : State) (i m : Bool) :
    (s.writeCtrlFields i m).params = s.params := rfl
@[simp] theorem State.writeCtrlFields_host_irqEn (s : State) (i m : Bool) :
    (s.writeCtrlFields i m).host.irqEn = i := rfl
@[simp] theorem State.writeCtrlFields_host_writeEndMarker (s : State) (i m : Bool) :
    (s.writeCtrlFields i m).host.writeEndMarker = m := rfl
@[simp] theorem State.writeCtrlFields_host_seq (s : State) (i m : Bool) :
    (s.writeCtrlFields i m).host.seq = s.host.seq := rfl
@[simp] theorem State.writeCtrlFields_host_errCode (s : State) (i m : Bool) :
    (s.writeCtrlFields i m).host.errCode = s.host.errCode := rfl
@[simp] theorem State.writeCtrlFields_host_earlyEnd (s : State) (i m : Bool) :
    (s.writeCtrlFields i m).host.earlyEnd = s.host.earlyEnd := rfl
@[simp] theorem State.writeCtrlFields_host_cmdIgnored (s : State) (i m : Bool) :
    (s.writeCtrlFields i m).host.cmdIgnored = s.host.cmdIgnored := rfl
@[simp] theorem State.writeCtrlFields_host_outTruncated (s : State) (i m : Bool) :
    (s.writeCtrlFields i m).host.outTruncated = s.host.outTruncated := rfl
@[simp] theorem State.writeCtrlFields_host_level (s : State) (i m : Bool) :
    (s.writeCtrlFields i m).host.level = s.host.level := rfl
@[simp] theorem State.writeCtrlFields_host_inLen (s : State) (i m : Bool) :
    (s.writeCtrlFields i m).host.inLen = s.host.inLen := rfl
@[simp] theorem State.writeCtrlFields_host_inPos (s : State) (i m : Bool) :
    (s.writeCtrlFields i m).host.inPos = s.host.inPos := rfl
@[simp] theorem State.writeCtrlFields_host_outLen (s : State) (i m : Bool) :
    (s.writeCtrlFields i m).host.outLen = s.host.outLen := rfl
@[simp] theorem State.writeCtrlFields_host_size (s : State) (i m : Bool) :
    (s.writeCtrlFields i m).host.size = s.host.size := rfl
@[simp] theorem State.writeCtrlFields_inMem (s : State) (i m : Bool) :
    (s.writeCtrlFields i m).inMem = s.inMem := rfl
@[simp] theorem State.writeCtrlFields_outMem (s : State) (i m : Bool) :
    (s.writeCtrlFields i m).outMem = s.outMem := rfl
@[simp] theorem State.writeCtrlFields_enc (s : State) (i m : Bool) :
    (s.writeCtrlFields i m).enc = s.enc := rfl
@[simp] theorem State.writeCtrlFields_dec (s : State) (i m : Bool) :
    (s.writeCtrlFields i m).dec = s.dec := rfl
@[simp] theorem State.writeCtrlFields_probs (s : State) (i m : Bool) :
    (s.writeCtrlFields i m).probs = s.probs := rfl
@[simp] theorem State.writeCtrlFields_codec (s : State) (i m : Bool) :
    (s.writeCtrlFields i m).codec = s.codec := rfl
@[simp] theorem State.writeCtrlFields_encCfg (s : State) (i m : Bool) :
    (s.writeCtrlFields i m).encCfg = s.encCfg := rfl
@[simp] theorem State.writeCtrlFields_prices (s : State) (i m : Bool) :
    (s.writeCtrlFields i m).prices = s.prices := rfl
@[simp] theorem State.writeCtrlFields_parser (s : State) (i m : Bool) :
    (s.writeCtrlFields i m).parser = s.parser := rfl
@[simp] theorem State.writeCtrlFields_mf (s : State) (i m : Bool) :
    (s.writeCtrlFields i m).mf = s.mf := rfl
@[simp] theorem State.writeCtrlFields_window (s : State) (i m : Bool) :
    (s.writeCtrlFields i m).window = s.window := rfl
@[simp] theorem State.writeCtrlFields_ret (s : State) (i m : Bool) :
    (s.writeCtrlFields i m).ret = s.ret := rfl
@[simp] theorem State.writeCtrlFields_agenda (s : State) (i m : Bool) :
    (s.writeCtrlFields i m).agenda = s.agenda := rfl
@[simp] theorem State.writeCtrlFields_freeCount (s : State) (i m : Bool) :
    (s.writeCtrlFields i m).freeCount = s.freeCount := rfl

/-! `tick` -/

@[simp] theorem State.tick_params (s : State) : (s.tick).params = s.params := rfl
@[simp] theorem State.tick_host (s : State) : (s.tick).host = s.host := rfl
@[simp] theorem State.tick_inMem (s : State) : (s.tick).inMem = s.inMem := rfl
@[simp] theorem State.tick_outMem (s : State) : (s.tick).outMem = s.outMem := rfl
@[simp] theorem State.tick_enc (s : State) : (s.tick).enc = s.enc := rfl
@[simp] theorem State.tick_dec (s : State) : (s.tick).dec = s.dec := rfl
@[simp] theorem State.tick_probs (s : State) : (s.tick).probs = s.probs := rfl
@[simp] theorem State.tick_codec (s : State) : (s.tick).codec = s.codec := rfl
@[simp] theorem State.tick_encCfg (s : State) : (s.tick).encCfg = s.encCfg := rfl
@[simp] theorem State.tick_prices (s : State) : (s.tick).prices = s.prices := rfl
@[simp] theorem State.tick_parser (s : State) : (s.tick).parser = s.parser := rfl
@[simp] theorem State.tick_mf (s : State) : (s.tick).mf = s.mf := rfl
@[simp] theorem State.tick_window (s : State) : (s.tick).window = s.window := rfl
@[simp] theorem State.tick_ret (s : State) : (s.tick).ret = s.ret := rfl
@[simp] theorem State.tick_agenda (s : State) : (s.tick).agenda = s.agenda.tail := rfl
@[simp] theorem State.tick_freeCount (s : State) : (s.tick).freeCount = s.freeCount + 1 := rfl

/-! `errorEntry` -/

@[simp] theorem errorEntry_params (e : ErrKind) (s : State) :
    (errorEntry e s).params = s.params := rfl
@[simp] theorem errorEntry_host_irqEn (e : ErrKind) (s : State) :
    (errorEntry e s).host.irqEn = s.host.irqEn := rfl
@[simp] theorem errorEntry_host_writeEndMarker (e : ErrKind) (s : State) :
    (errorEntry e s).host.writeEndMarker = s.host.writeEndMarker := rfl
@[simp] theorem errorEntry_host_seq (e : ErrKind) (s : State) :
    (errorEntry e s).host.seq = .error := rfl
@[simp] theorem errorEntry_host_errCode (e : ErrKind) (s : State) :
    (errorEntry e s).host.errCode = e.code := rfl
@[simp] theorem errorEntry_host_earlyEnd (e : ErrKind) (s : State) :
    (errorEntry e s).host.earlyEnd = s.host.earlyEnd := rfl
@[simp] theorem errorEntry_host_cmdIgnored (e : ErrKind) (s : State) :
    (errorEntry e s).host.cmdIgnored = s.host.cmdIgnored := rfl
@[simp] theorem errorEntry_host_outTruncated (e : ErrKind) (s : State) :
    (errorEntry e s).host.outTruncated = s.host.outTruncated := rfl
@[simp] theorem errorEntry_host_level (e : ErrKind) (s : State) :
    (errorEntry e s).host.level = s.host.level := rfl
@[simp] theorem errorEntry_host_inLen (e : ErrKind) (s : State) :
    (errorEntry e s).host.inLen = s.host.inLen := rfl
@[simp] theorem errorEntry_host_inPos (e : ErrKind) (s : State) :
    (errorEntry e s).host.inPos = s.host.inPos := rfl
@[simp] theorem errorEntry_host_outLen (e : ErrKind) (s : State) :
    (errorEntry e s).host.outLen = s.host.outLen := rfl
@[simp] theorem errorEntry_host_size (e : ErrKind) (s : State) :
    (errorEntry e s).host.size = s.host.size := rfl
@[simp] theorem errorEntry_inMem (e : ErrKind) (s : State) : (errorEntry e s).inMem = s.inMem := rfl
@[simp] theorem errorEntry_outMem (e : ErrKind) (s : State) :
    (errorEntry e s).outMem = s.outMem := rfl
@[simp] theorem errorEntry_enc (e : ErrKind) (s : State) : (errorEntry e s).enc = s.enc := rfl
@[simp] theorem errorEntry_dec (e : ErrKind) (s : State) : (errorEntry e s).dec = s.dec := rfl
@[simp] theorem errorEntry_probs (e : ErrKind) (s : State) : (errorEntry e s).probs = s.probs := rfl
@[simp] theorem errorEntry_codec (e : ErrKind) (s : State) : (errorEntry e s).codec = s.codec := rfl
@[simp] theorem errorEntry_encCfg (e : ErrKind) (s : State) :
    (errorEntry e s).encCfg = s.encCfg := rfl
@[simp] theorem errorEntry_prices (e : ErrKind) (s : State) :
    (errorEntry e s).prices = s.prices := rfl
@[simp] theorem errorEntry_parser (e : ErrKind) (s : State) :
    (errorEntry e s).parser = s.parser := rfl
@[simp] theorem errorEntry_mf (e : ErrKind) (s : State) : (errorEntry e s).mf = s.mf := rfl
@[simp] theorem errorEntry_window (e : ErrKind) (s : State) :
    (errorEntry e s).window = s.window := rfl
@[simp] theorem errorEntry_ret (e : ErrKind) (s : State) : (errorEntry e s).ret = s.ret := rfl
@[simp] theorem errorEntry_agenda (e : ErrKind) (s : State) :
    (errorEntry e s).agenda = s.agenda := rfl
@[simp] theorem errorEntry_freeCount (e : ErrKind) (s : State) :
    (errorEntry e s).freeCount = s.freeCount := rfl

/-! `enterSession` -/

@[simp] theorem enterSession_params (q : Seq) (s : State) :
    (enterSession q s).params = s.params := rfl
@[simp] theorem enterSession_host_irqEn (q : Seq) (s : State) :
    (enterSession q s).host.irqEn = s.host.irqEn := rfl
@[simp] theorem enterSession_host_writeEndMarker (q : Seq) (s : State) :
    (enterSession q s).host.writeEndMarker = s.host.writeEndMarker := rfl
@[simp] theorem enterSession_host_seq (q : Seq) (s : State) : (enterSession q s).host.seq = q := rfl
@[simp] theorem enterSession_host_errCode (q : Seq) (s : State) :
    (enterSession q s).host.errCode = 0#4 := rfl
@[simp] theorem enterSession_host_earlyEnd (q : Seq) (s : State) :
    (enterSession q s).host.earlyEnd = false := rfl
@[simp] theorem enterSession_host_cmdIgnored (q : Seq) (s : State) :
    (enterSession q s).host.cmdIgnored = false := rfl
@[simp] theorem enterSession_host_outTruncated (q : Seq) (s : State) :
    (enterSession q s).host.outTruncated = false := rfl
@[simp] theorem enterSession_host_level (q : Seq) (s : State) :
    (enterSession q s).host.level = s.host.level := rfl
@[simp] theorem enterSession_host_inLen (q : Seq) (s : State) :
    (enterSession q s).host.inLen = s.host.inLen := rfl
@[simp] theorem enterSession_host_inPos (q : Seq) (s : State) :
    (enterSession q s).host.inPos = 0#32 := rfl
@[simp] theorem enterSession_host_outLen (q : Seq) (s : State) :
    (enterSession q s).host.outLen = 0#64 := rfl
@[simp] theorem enterSession_host_size (q : Seq) (s : State) :
    (enterSession q s).host.size = s.host.size := rfl
@[simp] theorem enterSession_inMem (q : Seq) (s : State) : (enterSession q s).inMem = s.inMem := rfl
@[simp] theorem enterSession_outMem (q : Seq) (s : State) :
    (enterSession q s).outMem = s.outMem := rfl
@[simp] theorem enterSession_enc (q : Seq) (s : State) : (enterSession q s).enc = s.enc := rfl
@[simp] theorem enterSession_dec (q : Seq) (s : State) : (enterSession q s).dec = s.dec := rfl
@[simp] theorem enterSession_probs (q : Seq) (s : State) : (enterSession q s).probs = s.probs := rfl
@[simp] theorem enterSession_codec (q : Seq) (s : State) : (enterSession q s).codec = s.codec := rfl
@[simp] theorem enterSession_encCfg (q : Seq) (s : State) :
    (enterSession q s).encCfg = s.encCfg := rfl
@[simp] theorem enterSession_prices (q : Seq) (s : State) :
    (enterSession q s).prices = s.prices := rfl
@[simp] theorem enterSession_parser (q : Seq) (s : State) :
    (enterSession q s).parser = s.parser := rfl
@[simp] theorem enterSession_mf (q : Seq) (s : State) : (enterSession q s).mf = s.mf := rfl
@[simp] theorem enterSession_window (q : Seq) (s : State) :
    (enterSession q s).window = s.window := rfl
@[simp] theorem enterSession_ret (q : Seq) (s : State) : (enterSession q s).ret = s.ret := rfl
@[simp] theorem enterSession_agenda (q : Seq) (s : State) :
    (enterSession q s).agenda = s.agenda := rfl
@[simp] theorem enterSession_freeCount (q : Seq) (s : State) :
    (enterSession q s).freeCount = s.freeCount := rfl

/-! `completeSession` -/

@[simp] theorem completeSession_params (s : State) : (completeSession s).params = s.params := rfl
@[simp] theorem completeSession_host_irqEn (s : State) :
    (completeSession s).host.irqEn = s.host.irqEn := rfl
@[simp] theorem completeSession_host_writeEndMarker (s : State) :
    (completeSession s).host.writeEndMarker = s.host.writeEndMarker := rfl
@[simp] theorem completeSession_host_seq (s : State) : (completeSession s).host.seq = .done := rfl
@[simp] theorem completeSession_host_errCode (s : State) :
    (completeSession s).host.errCode = 0#4 := rfl
@[simp] theorem completeSession_host_earlyEnd (s : State) :
    (completeSession s).host.earlyEnd = s.host.earlyEnd := rfl
@[simp] theorem completeSession_host_cmdIgnored (s : State) :
    (completeSession s).host.cmdIgnored = s.host.cmdIgnored := rfl
@[simp] theorem completeSession_host_outTruncated (s : State) :
    (completeSession s).host.outTruncated = s.host.outTruncated := rfl
@[simp] theorem completeSession_host_level (s : State) :
    (completeSession s).host.level = s.host.level := rfl
@[simp] theorem completeSession_host_inLen (s : State) :
    (completeSession s).host.inLen = s.host.inLen := rfl
@[simp] theorem completeSession_host_inPos (s : State) :
    (completeSession s).host.inPos = s.host.inPos := rfl
@[simp] theorem completeSession_host_outLen (s : State) :
    (completeSession s).host.outLen = s.host.outLen := rfl
@[simp] theorem completeSession_host_size (s : State) :
    (completeSession s).host.size = s.host.size := rfl
@[simp] theorem completeSession_inMem (s : State) : (completeSession s).inMem = s.inMem := rfl
@[simp] theorem completeSession_outMem (s : State) : (completeSession s).outMem = s.outMem := rfl
@[simp] theorem completeSession_enc (s : State) : (completeSession s).enc = s.enc := rfl
@[simp] theorem completeSession_dec (s : State) : (completeSession s).dec = s.dec := rfl
@[simp] theorem completeSession_probs (s : State) : (completeSession s).probs = s.probs := rfl
@[simp] theorem completeSession_codec (s : State) : (completeSession s).codec = s.codec := rfl
@[simp] theorem completeSession_encCfg (s : State) : (completeSession s).encCfg = s.encCfg := rfl
@[simp] theorem completeSession_prices (s : State) : (completeSession s).prices = s.prices := rfl
@[simp] theorem completeSession_parser (s : State) : (completeSession s).parser = s.parser := rfl
@[simp] theorem completeSession_mf (s : State) : (completeSession s).mf = s.mf := rfl
@[simp] theorem completeSession_window (s : State) : (completeSession s).window = s.window := rfl
@[simp] theorem completeSession_ret (s : State) : (completeSession s).ret = s.ret := rfl
@[simp] theorem completeSession_agenda (s : State) : (completeSession s).agenda = s.agenda := rfl
@[simp] theorem completeSession_freeCount (s : State) :
    (completeSession s).freeCount = s.freeCount := rfl

/-! `ignoreCommand` -/

@[simp] theorem ignoreCommand_params (s : State) : (ignoreCommand s).params = s.params := rfl
@[simp] theorem ignoreCommand_host_irqEn (s : State) :
    (ignoreCommand s).host.irqEn = s.host.irqEn := rfl
@[simp] theorem ignoreCommand_host_writeEndMarker (s : State) :
    (ignoreCommand s).host.writeEndMarker = s.host.writeEndMarker := rfl
@[simp] theorem ignoreCommand_host_seq (s : State) : (ignoreCommand s).host.seq = s.host.seq := rfl
@[simp] theorem ignoreCommand_host_errCode (s : State) :
    (ignoreCommand s).host.errCode = s.host.errCode := rfl
@[simp] theorem ignoreCommand_host_earlyEnd (s : State) :
    (ignoreCommand s).host.earlyEnd = s.host.earlyEnd := rfl
@[simp] theorem ignoreCommand_host_cmdIgnored (s : State) :
    (ignoreCommand s).host.cmdIgnored = true := rfl
@[simp] theorem ignoreCommand_host_outTruncated (s : State) :
    (ignoreCommand s).host.outTruncated = s.host.outTruncated := rfl
@[simp] theorem ignoreCommand_host_level (s : State) :
    (ignoreCommand s).host.level = s.host.level := rfl
@[simp] theorem ignoreCommand_host_inLen (s : State) :
    (ignoreCommand s).host.inLen = s.host.inLen := rfl
@[simp] theorem ignoreCommand_host_inPos (s : State) :
    (ignoreCommand s).host.inPos = s.host.inPos := rfl
@[simp] theorem ignoreCommand_host_outLen (s : State) :
    (ignoreCommand s).host.outLen = s.host.outLen := rfl
@[simp] theorem ignoreCommand_host_size (s : State) :
    (ignoreCommand s).host.size = s.host.size := rfl
@[simp] theorem ignoreCommand_inMem (s : State) : (ignoreCommand s).inMem = s.inMem := rfl
@[simp] theorem ignoreCommand_outMem (s : State) : (ignoreCommand s).outMem = s.outMem := rfl
@[simp] theorem ignoreCommand_enc (s : State) : (ignoreCommand s).enc = s.enc := rfl
@[simp] theorem ignoreCommand_dec (s : State) : (ignoreCommand s).dec = s.dec := rfl
@[simp] theorem ignoreCommand_probs (s : State) : (ignoreCommand s).probs = s.probs := rfl
@[simp] theorem ignoreCommand_codec (s : State) : (ignoreCommand s).codec = s.codec := rfl
@[simp] theorem ignoreCommand_encCfg (s : State) : (ignoreCommand s).encCfg = s.encCfg := rfl
@[simp] theorem ignoreCommand_prices (s : State) : (ignoreCommand s).prices = s.prices := rfl
@[simp] theorem ignoreCommand_parser (s : State) : (ignoreCommand s).parser = s.parser := rfl
@[simp] theorem ignoreCommand_mf (s : State) : (ignoreCommand s).mf = s.mf := rfl
@[simp] theorem ignoreCommand_window (s : State) : (ignoreCommand s).window = s.window := rfl
@[simp] theorem ignoreCommand_ret (s : State) : (ignoreCommand s).ret = s.ret := rfl
@[simp] theorem ignoreCommand_agenda (s : State) : (ignoreCommand s).agenda = s.agenda := rfl
@[simp] theorem ignoreCommand_freeCount (s : State) :
    (ignoreCommand s).freeCount = s.freeCount := rfl

end Sys2Proof.Machine
end

