-- ==== Sys2Proof/Laws/Store.lean ====
section
/-! SUPPORT. Reading after writing a store, and that every operation keeps the canonical form. -/

namespace Sys2Proof

variable {α : Type} [DecidableEq α] {d : α}

/-- Below the least index of a canonical store, every index reads as unlisted. -/
theorem Store.get_of_lt {lo i : Nat} {t : Store α} (h : Store.wfFrom d lo t = true) (hi : i < lo) :
    Store.get d t i = d := by
  cases t with
  | nil => rfl
  | cons e t =>
    obtain ⟨k, v⟩ := e
    simp only [Store.wfFrom, Bool.and_eq_true, decide_eq_true_eq] at h
    simp only [Store.get]
    rw [if_neg (by omega), if_pos (by omega)]

theorem Store.wfFrom_mono {lo lo' : Nat} {t : Store α} (h : Store.wfFrom d lo t = true)
    (hl : lo' ≤ lo) : Store.wfFrom d lo' t = true := by
  cases t with
  | nil => rfl
  | cons e t =>
    obtain ⟨k, v⟩ := e
    simp only [Store.wfFrom, Bool.and_eq_true, decide_eq_true_eq] at h ⊢
    exact ⟨⟨by omega, h.1.2⟩, h.2⟩

theorem Store.wfFrom_cons {lo i : Nat} {v : α} {t : Store α} (h : Store.wfFrom d (i + 1) t = true)
    (hl : lo ≤ i) : Store.wfFrom d lo (Store.cons d i v t) = true := by
  unfold Store.cons
  split
  · exact Store.wfFrom_mono h (by omega)
  · simp_all [Store.wfFrom]

theorem Store.get_cons {i j : Nat} {v : α} {t : Store α} (h : Store.wfFrom d (i + 1) t = true) :
    Store.get d (Store.cons d i v t) j = if j = i then v else if j < i then d else Store.get d t j := by
  unfold Store.cons
  split
  · rename_i hv
    split
    · subst_vars; exact Store.get_of_lt h (by omega)
    · split
      · exact Store.get_of_lt h (by omega)
      · rfl
  · rfl

theorem Store.wfFrom_set {lo i : Nat} {v : α} {t : Store α} (h : Store.wfFrom d lo t = true)
    (hl : lo ≤ i) : Store.wfFrom d lo (Store.set d t i v) = true := by
  induction t generalizing lo with
  | nil => exact Store.wfFrom_cons rfl hl
  | cons e t ih =>
    obtain ⟨k, u⟩ := e
    have h' := h
    simp only [Store.wfFrom, Bool.and_eq_true, decide_eq_true_eq] at h'
    obtain ⟨⟨hk, hu⟩, ht⟩ := h'
    simp only [Store.set]
    split
    · subst_vars; exact Store.wfFrom_cons ht hk
    · split
      · apply Store.wfFrom_cons _ hl
        simp only [Store.wfFrom, Bool.and_eq_true, decide_eq_true_eq]
        exact ⟨⟨by omega, hu⟩, ht⟩
      · simp only [Store.wfFrom, Bool.and_eq_true, decide_eq_true_eq]
        exact ⟨⟨hk, hu⟩, ih ht (by omega)⟩

/-- Writing keeps the canonical form. -/
theorem Store.wf_set {i : Nat} {v : α} {t : Store α} (h : Store.wf d t = true) :
    Store.wf d (Store.set d t i v) = true :=
  Store.wfFrom_set h (Nat.zero_le i)

theorem Store.get_set_from {lo i j : Nat} {v : α} {t : Store α} (h : Store.wfFrom d lo t = true) :
    Store.get d (Store.set d t i v) j = if j = i then v else Store.get d t j := by
  induction t generalizing lo with
  | nil =>
    rw [Store.set, Store.get_cons rfl]
    split <;> simp [Store.get]
  | cons e t ih =>
    obtain ⟨k, u⟩ := e
    have h' := h
    simp only [Store.wfFrom, Bool.and_eq_true, decide_eq_true_eq] at h'
    obtain ⟨⟨hk, hu⟩, ht⟩ := h'
    simp only [Store.set]
    split
    · subst_vars
      rw [Store.get_cons ht]
      simp only [Store.get]
      split <;> simp_all
    · split
      · rw [Store.get_cons]
        · split
          · rfl
          · split
            · simp only [Store.get]
              rw [if_neg (by omega), if_pos (by omega)]
            · rfl
        · simp only [Store.wfFrom, Bool.and_eq_true, decide_eq_true_eq]
          exact ⟨⟨by omega, hu⟩, ht⟩
      · simp only [Store.get, ih ht]
        split
        · subst_vars
          rw [if_neg (by omega)]
        · split
          · rw [if_neg (by omega)]
          · rfl

/-- What a store reads as after a write: the value at the index written, and no other change. -/
theorem Store.get_set {i j : Nat} {v : α} {t : Store α} (h : Store.wf d t = true) :
    Store.get d (Store.set d t i v) j = if j = i then v else Store.get d t j :=
  Store.get_set_from h

theorem Store.wfFrom_clear {lo i n : Nat} {t : Store α} (h : Store.wfFrom d lo t = true) :
    Store.wfFrom d lo (Store.clear t i n) = true := by
  induction t generalizing lo with
  | nil => rfl
  | cons e t ih =>
    obtain ⟨k, u⟩ := e
    simp only [Store.wfFrom, Bool.and_eq_true, decide_eq_true_eq] at h
    obtain ⟨⟨hk, hu⟩, ht⟩ := h
    unfold Store.clear
    rw [List.filter_cons]
    split
    · simp only [Store.wfFrom, Bool.and_eq_true, decide_eq_true_eq]
      exact ⟨⟨hk, hu⟩, ih ht⟩
    · exact Store.wfFrom_mono (ih ht) (by omega)

/-- Clearing keeps the canonical form. -/
theorem Store.wf_clear {i n : Nat} {t : Store α} (h : Store.wf d t = true) :
    Store.wf d (Store.clear t i n) = true :=
  Store.wfFrom_clear h

theorem Store.get_clear_from {lo i n j : Nat} {t : Store α} (h : Store.wfFrom d lo t = true) :
    Store.get d (Store.clear t i n) j = if i ≤ j ∧ j < i + n then d else Store.get d t j := by
  induction t generalizing lo with
  | nil => simp [Store.clear, Store.get]
  | cons e t ih =>
    obtain ⟨k, u⟩ := e
    simp only [Store.wfFrom, Bool.and_eq_true, decide_eq_true_eq] at h
    obtain ⟨⟨hk, hu⟩, ht⟩ := h
    have ih' := ih ht
    unfold Store.clear at ih' ⊢
    rw [List.filter_cons]
    by_cases hc : i ≤ k ∧ k < i + n
    · rw [if_neg (by simp; omega), ih']
      split
      · rfl
      · simp only [Store.get]
        rw [if_neg (by omega)]
        split
        · exact Store.get_of_lt ht (by omega)
        · rfl
    · rw [if_pos (by simp; omega)]
      simp only [Store.get, ih']
      split
      · subst_vars
        rw [if_neg hc]
      · split
        · split <;> rfl
        · rfl

/-- What a store reads as after a clear. -/
theorem Store.get_clear {i n j : Nat} {t : Store α} (h : Store.wf d t = true) :
    Store.get d (Store.clear t i n) j = if i ≤ j ∧ j < i + n then d else Store.get d t j :=
  Store.get_clear_from h

/-- Writing a byte keeps the canonical form. -/
theorem Memory.wf_write {m : Memory} {a : Nat} {b : Byte} (h : m.wf = true) :
    (m.write a b).wf = true :=
  Store.wf_set h

/-- What a memory reads as after a write. -/
theorem Memory.read_write {m : Memory} {a x : Nat} {b : Byte} (h : m.wf = true) :
    (m.write a b).read x = if x = a then b else m.read x :=
  Store.get_set h

end Sys2Proof
end

