-- ==== Sys2Proof/Laws/Engine.lean ====
section
/-! SUPPORT. Running the engine's operations: one equation for each way they are put together, what
`raise`, OutWrite and ReadByte do, and relations between the start and the end of an operation. -/

namespace Sys2Proof.Machine

variable {α β : Type}

/-! ### Equations -/

theorem bind_run (m : Eng α) (f : α → Eng β) (s : State) :
    (m >>= f) s = match m s with
      | .ok a s' => f a s'
      | .error e s' => .error e s' := by
  show EStateM.bind m f s = _
  unfold EStateM.bind
  cases m s <;> rfl

theorem bind_ok {m : Eng α} {f : α → Eng β} {s s' : State} {a : α} (h : m s = .ok a s') :
    (m >>= f) s = f a s' := by rw [bind_run, h]

theorem bind_error {m : Eng α} {f : α → Eng β} {s s' : State} {e : ErrKind}
    (h : m s = .error e s') : (m >>= f) s = .error e s' := by rw [bind_run, h]

@[simp] theorem pure_run (a : α) (s : State) : (pure a : Eng α) s = .ok a s := rfl

@[simp] theorem get_run (s : State) : (get : Eng State) s = .ok s s := rfl

@[simp] theorem set_run (t s : State) : (set t : Eng PUnit) s = .ok ⟨⟩ t := rfl

@[simp] theorem modify_run (f : State → State) (s : State) :
    (modify f : Eng PUnit) s = .ok ⟨⟩ (f s) := rfl

@[simp] theorem raise_run (e : ErrKind) (s : State) : (raise e : Eng α) s = .error e s := rfl

theorem get_bind_run (f : State → Eng β) (s : State) : (get >>= f) s = f s s := rfl

theorem modify_bind_run (f : State → State) (k : PUnit → Eng β) (s : State) :
    (modify f >>= k) s = k ⟨⟩ (f s) := rfl

theorem set_bind_run (t : State) (k : PUnit → Eng β) (s : State) :
    (set t >>= k) s = k ⟨⟩ t := rfl

theorem pure_bind_run (a : α) (f : α → Eng β) (s : State) : ((pure a : Eng α) >>= f) s = f a s := rfl

/-! ### Outcomes -/

theorem complete_ok {m : Eng Ret} {s t : State} {r : Ret} (h : m s = .ok r t) :
    complete m s = .next { t with ret := r } := by rw [complete, h]; rfl

theorem complete_error {m : Eng Ret} {s t : State} {e : ErrKind} (h : m s = .error e t) :
    complete m s = .next { errorEntry e t with ret := .none } := by rw [complete, h]; rfl

theorem completeUnit_ok {m : Eng Unit} {s t : State} (h : m s = .ok () t) :
    completeUnit m s = .next { t with ret := .none } := complete_ok (bind_ok h)

theorem completeUnit_error {m : Eng Unit} {s t : State} {e : ErrKind} (h : m s = .error e t) :
    completeUnit m s = .next { errorEntry e t with ret := .none } := complete_error (bind_error h)

theorem completeWord_ok {m : Eng U32} {s t : State} {v : U32} (h : m s = .ok v t) :
    completeWord m s = .next { t with ret := .word v } := complete_ok (bind_ok h)

theorem completeWord_error {m : Eng U32} {s t : State} {e : ErrKind} (h : m s = .error e t) :
    completeWord m s = .next { errorEntry e t with ret := .none } := complete_error (bind_error h)

/-- An operation always completes in a next state: an error is one (60_exceptions R320). -/
theorem complete_next (m : Eng Ret) (s : State) : ∃ t, complete m s = .next t := ⟨_, rfl⟩

theorem errKind_code_ne_zero (e : ErrKind) : e.code ≠ 0#4 := by cases e <;> decide

theorem errKind_code_le (e : ErrKind) : e.code ≤ 6#4 := by cases e <;> decide

/-! ### Relations between the start and the end of an operation -/

/-- The state an operation stops in, whether it returns or raises. -/
def endOf : EStateM.Result ErrKind State α → State
  | .ok _ s => s
  | .error _ s => s

/-- `R` holds between the state an operation starts in and the one it stops in. -/
def Keeps (R : State → State → Prop) (m : Eng α) : Prop := ∀ s, R s (endOf (m s))

/-- A relation that composes. -/
structure Composes (R : State → State → Prop) : Prop where
  refl : ∀ s, R s s
  trans : ∀ {s t u}, R s t → R t u → R s u

theorem Keeps.pure {R : State → State → Prop} (hR : Composes R) (a : α) :
    Keeps R (Pure.pure a : Eng α) := fun s => hR.refl s

theorem Keeps.get {R : State → State → Prop} (hR : Composes R) : Keeps R (MonadState.get : Eng State) :=
  fun s => hR.refl s

theorem Keeps.raise {R : State → State → Prop} (hR : Composes R) (e : ErrKind) :
    Keeps R (Machine.raise e : Eng α) := fun s => hR.refl s

theorem Keeps.modify {R : State → State → Prop} {f : State → State} (h : ∀ s, R s (f s)) :
    Keeps R (modify f : Eng PUnit) := h

theorem Keeps.bind {R : State → State → Prop} (hR : Composes R) {m : Eng α} {f : α → Eng β}
    (hm : Keeps R m) (hf : ∀ a, Keeps R (f a)) : Keeps R (m >>= f) := by
  intro s
  rw [bind_run]
  have h := hm s
  cases hs : m s with
  | ok a t => rw [hs] at h; exact hR.trans h (hf a t)
  | error e t => rw [hs] at h; exact h

/-- After reading the state, the rest may be looked at with that state at hand. -/
theorem Keeps.get_bind {R : State → State → Prop} {f : State → Eng β}
    (hf : ∀ s, R s (endOf (f s s))) : Keeps R (MonadState.get >>= f) := fun s => hf s

theorem Keeps.ite {R : State → State → Prop} {c : Prop} [Decidable c] {m n : Eng α}
    (hm : Keeps R m) (hn : Keeps R n) : Keeps R (if c then m else n) := by
  split
  · exact hm
  · exact hn

/-- What an operation keeps holds of the outcome of its instruction, if it also holds across the
return register and the error entry. -/
theorem Keeps.complete {R : State → State → Prop} (hR : Composes R) {m : Eng Ret}
    (hm : Keeps R m) (hret : ∀ s r, R s { s with ret := r }) (herr : ∀ s e, R s (errorEntry e s))
    {s t : State} (h : Machine.complete m s = .next t) : R s t := by
  have hk := hm s
  cases hs : m s with
  | ok a u =>
    rw [hs] at hk
    rw [complete_ok hs] at h
    cases h
    exact hR.trans hk (hret _ _)
  | error e u =>
    rw [hs] at hk
    rw [complete_error hs] at h
    cases h
    exact hR.trans hk (hR.trans (herr _ _) (hret _ _))

/-! ### OutWrite and ReadByte (20_memory R64, R66) -/

theorem outWrite_ok {s : State} (b : Byte) (h : s.host.outLen.toNat < s.outCap) :
    outWrite b s = .ok () (s.appendOut b) := by
  simp [outWrite, Nat.not_le.mpr h]

theorem outWrite_full {s : State} (b : Byte) (h : s.outCap ≤ s.host.outLen.toNat) :
    outWrite b s = .error .resourceExhausted s := by
  simp [outWrite, h]

theorem outCap_lt (s : State) : s.outCap < 4294967296 := by
  unfold State.outCap; omega

/-- An appended byte counts one, and OUT_LEN does not wrap. -/
theorem appendOut_outLen {s : State} (b : Byte) (h : s.host.outLen.toNat < s.outCap) :
    (s.appendOut b).host.outLen.toNat = s.host.outLen.toNat + 1 := by
  have := outCap_lt s
  simp only [State.appendOut_host_outLen, BitVec.toNat_add, BitVec.toNat_ofNat]
  omega

theorem readByte_ok {s : State} (h : s.host.inPos < s.host.inLen) :
    readByte s = .ok (s.inByte s.host.inPos.toNat)
      { s with host := { s.host with inPos := s.host.inPos + 1#32 } } := by
  simp [readByte, h]

theorem readByte_end {s : State} (h : ¬ s.host.inPos < s.host.inLen) :
    readByte s = .error .truncatedInput s := by
  simp [readByte, h]

end Sys2Proof.Machine
end

