-- ==== Sys2Proof/Laws/Parser.lean ====
section
/-! SUPPORT. What the lattice's operations do to its nodes, what the candidate buffer holds after a
list is written to it, what the price refreshes change, and that the match finder reads of a state
only IN and the configuration. -/

namespace Sys2Proof.Machine

/-! ### The lattice (45_optimal_parser R214) -/

theorem node_setNode {o : Store Node} (h : Store.wf Node.blank o = true) (i j : Nat) (n : Node) :
    node (setNode o i n) j = if j = i then n else node o j := Store.get_set h

theorem setNode_wf {o : Store Node} (h : Store.wf Node.blank o = true) (i : Nat) (n : Node) :
    Store.wf Node.blank (setNode o i n) = true := Store.wf_set h

theorem relax_wf {o : Store Node} (h : Store.wf Node.blank o = true) (i : Nat) (c : U32)
    (f : Node → Node) : Store.wf Node.blank (relax o i c f) = true := by
  unfold relax
  split
  · exact setNode_wf h ..
  · exact h

/-- A node takes an offer that is strictly cheaper than its price; no other node changes. -/
theorem node_relax {o : Store Node} (h : Store.wf Node.blank o = true) (i j : Nat) (c : U32)
    (f : Node → Node) :
    node (relax o i c f) j =
      if j = i ∧ c < (node o i).price then f { node o i with price := c } else node o j := by
  unfold relax
  split
  · next hc => rw [node_setNode h]; simp [hc]
  · next hc => simp [hc]

theorem openNodes_wf : ∀ (n i : Nat) {o : Store Node}, Store.wf Node.blank o = true →
    Store.wf Node.blank (openNodes n i o) = true
  | 0, _, _, h => h
  | n + 1, i, _, h => openNodes_wf n (i + 1) (setNode_wf h ..)

/-- The `n` nodes after `i` get an infinite price; nothing else of the lattice changes. -/
theorem node_openNodes : ∀ (n i j : Nat) {o : Store Node}, Store.wf Node.blank o = true →
    node (openNodes n i o) j =
      if i < j ∧ j ≤ i + n then { node o j with price := kInfinityPrice } else node o j
  | 0, i, j, o, _ => by rw [if_neg (by omega)]; rfl
  | n + 1, i, j, o, h => by
    unfold openNodes setNodePrice
    rw [node_openNodes n (i + 1) j (setNode_wf h ..), node_setNode h]
    by_cases e : j = i + 1
    · subst e
      rw [if_neg (by omega), if_pos rfl, if_pos (by omega)]
    · simp only [if_neg e]
      congr 1
      exact propext (by omega)

/-! ### Match candidates (R212) -/

theorem writeCells_wf : ∀ (ds : List U32) (i : Nat) {t : Store U32}, Store.wf 0#32 t = true →
    Store.wf 0#32 (writeCells ds i t) = true
  | [], _, _, h => h
  | _ :: ds, i, _, h => writeCells_wf ds (i + 1) (Store.wf_set h)

/-- The cells from `i` on hold `ds`; the others keep what they hold. -/
theorem get_writeCells : ∀ (ds : List U32) (i j : Nat) {t : Store U32}, Store.wf 0#32 t = true →
    Store.get 0#32 (writeCells ds i t) j =
      if i ≤ j then (ds[j - i]?).getD (Store.get 0#32 t j) else Store.get 0#32 t j
  | [], _, _, _, _ => by simp [writeCells]
  | d :: ds, i, j, t, h => by
    unfold writeCells
    rw [get_writeCells ds (i + 1) j (Store.wf_set h), Store.get_set h]
    rcases Nat.lt_trichotomy i j with hi | rfl | hi
    · obtain ⟨k, rfl⟩ := Nat.exists_eq_add_of_lt hi
      simp [show i + k + 1 - i = k + 1 by omega, show i + k + 1 - (i + 1) = k by omega,
        show i + k + 1 ≠ i by omega, show i ≤ i + k + 1 by omega]
    · simp
    · simp [Nat.not_le.mpr hi, show ¬ i + 1 ≤ j by omega, Nat.ne_of_lt hi]

/-! ### Price refreshes (43_length_coder R171, 46_codec R277) -/

@[simp] theorem refreshDue_sdk {s : State} (h : s.params.priceRefresh = .sdk) (point : Nat) (due : Bool) :
    refreshDue s point due = due := by simp [refreshDue, h]

@[simp] theorem refreshLengths_sdk {s : State} (h : s.params.priceRefresh = .sdk) :
    refreshLengths s = s := by simp [refreshLengths, h]

/-- `t` is `s` but for the price tables. -/
def OnlyPrices (s t : State) : Prop := t = { s with prices := t.prices }

theorem OnlyPrices.refl (s : State) : OnlyPrices s s := rfl

theorem OnlyPrices.trans {s t u : State} (h : OnlyPrices s t) (k : OnlyPrices t u) : OnlyPrices s u := by
  unfold OnlyPrices at *
  rw [k, h]

theorem OnlyPrices.ite {s t : State} (c : Prop) [Decidable c] (h : OnlyPrices s t) :
    OnlyPrices s (if c then t else s) := by
  split
  · exact h
  · exact .refl s

theorem OnlyPrices.foldl {α : Type} {f : State → α → State} (hf : ∀ s a, OnlyPrices s (f s a)) :
    ∀ (l : List α) (s : State), OnlyPrices s (l.foldl f s)
  | [], s => .refl s
  | a :: l, s => (hf s a).trans (OnlyPrices.foldl hf l (f s a))

theorem lenSetPrices_prices (c : LenSel) (ps : U32) (s : State) : OnlyPrices s (lenSetPrices c ps s) := rfl

theorem fillDist_prices (s : State) : OnlyPrices s (fillDist s) := rfl

theorem fillAlign_prices (s : State) : OnlyPrices s (fillAlign s) := rfl

theorem lenCount_prices (c : LenSel) (ps : U32) (s : State) : OnlyPrices s (lenCount c ps s) := by
  unfold lenCount
  exact OnlyPrices.trans (t := setLenCounter c ps _ s) rfl (.ite _ (lenSetPrices_prices ..))

theorem refreshLengths_prices (s : State) : OnlyPrices s (refreshLengths s) := by
  unfold refreshLengths
  split
  · exact .refl s
  · exact OnlyPrices.foldl (fun s c => OnlyPrices.foldl (fun s ps => .ite _ (lenSetPrices_prices ..)) _ s) _ s

/-- The refresh after a packet changes the price tables only, whatever its cadence. -/
theorem refreshPrices_prices (s : State) : OnlyPrices s (refreshPrices s) :=
  ((OnlyPrices.ite _ (fillDist_prices s)).trans (.ite _ (fillAlign_prices _))).trans
    (refreshLengths_prices _)

/-! ### What the match finder reads -/

/-- `e` and `f` have the same IN and the same configuration. -/
structure SameInput (e f : State) : Prop where
  bytes : ∀ i, e.inByte i = f.inByte i
  config : e.encCfg = f.encCfg

theorem SameInput.byte {e f : State} (h : SameInput e f) : e.inByte = f.inByte := funext h.bytes

theorem SameInput.setPm (s : State) (x : PM) : SameInput (s.setPm x) s := ⟨fun _ => rfl, rfl⟩

theorem runLength_same {e f : State} (h : SameInput e f) (back : Int) :
    ∀ (n : Nat) (p : Int), runLength e p back n = runLength f p back n
  | 0, _ => rfl
  | n + 1, p => by simp only [runLength, h.byte, runLength_same h back n]

theorem mfMatchLen_same {e f : State} (h : SameInput e f) (m : MatchFinder) (k : Int) (d : U32)
    (limit : Nat) : mfMatchLen e m k d limit = mfMatchLen f m k d limit := runLength_same h ..

theorem mfHash_same {e f : State} (h : SameInput e f) (m : MatchFinder) (cur : U32) :
    mfHash e m cur = mfHash f m cur := by simp only [mfHash, h.byte, h.config]

theorem extendMatch_same {e f : State} (h : SameInput e f) (pby1 cur : U32) :
    ∀ (n : Nat) (len : U32), extendMatch e pby1 cur n len = extendMatch f pby1 cur n len
  | 0, _ => rfl
  | n + 1, len => by simp only [extendMatch, h.byte, extendMatch_same h pby1 cur n]

theorem candidateLength_same {e f : State} (h : SameInput e f) (cur lenLimit : U32) (w : Walk) :
    candidateLength e cur lenLimit w = candidateLength f cur lenLimit w := by
  simp only [candidateLength, h.byte, extendMatch_same h]

theorem candidateExtends_same {e f : State} (h : SameInput e f) (cur : U32) (w : Walk) :
    candidateExtends e cur w = candidateExtends f cur w := by
  simp only [candidateExtends, h.byte]

theorem descend_same {e f : State} (h : SameInput e f) (cur cp len : U32) (w : Walk) :
    descend e cur cp len w = descend f cur cp len w := by
  simp only [descend, h.byte]

theorem walkLoop_same {e f : State} (h : SameInput e f) (m : MatchFinder) (cur lenLimit : U32)
    (emit : Bool) : ∀ (n : Nat) (w : Walk),
      walkLoop e m cur lenLimit emit n w = walkLoop f m cur lenLimit emit n w
  | 0, _ => rfl
  | n + 1, w => by
    simp only [walkLoop, candidateLength_same h, candidateExtends_same h, descend_same h,
      walkLoop_same h m cur lenLimit emit n]

theorem mfGetMatches_same {e f : State} (h : SameInput e f) (m : MatchFinder) :
    mfGetMatches e m = mfGetMatches f m := by
  simp only [mfGetMatches, mfLenLimit, mfTreeWalk, hashInsert, directCandidates, shortCandidates,
    mfHash_same h, walkLoop_same h, h.byte, h.config]

theorem mfSkipOne_same {e f : State} (h : SameInput e f) (m : MatchFinder) :
    mfSkipOne e m = mfSkipOne f m := by
  simp only [mfSkipOne, mfLenLimit, mfTreeWalk, hashInsert, mfHash_same h, walkLoop_same h, h.config]

theorem mfSkip_same {e f : State} (h : SameInput e f) : ∀ (n : Nat) (m : MatchFinder),
    mfSkip e n m = mfSkip f n m
  | 0, _ => rfl
  | n + 1, m => by simp only [mfSkip, mfSkipOne_same h, mfSkip_same h n]

theorem longestLength_same {e f : State} (h : SameInput e f) (x : PM) :
    longestLength e x = longestLength f x := by
  unfold longestLength State.fastBytes
  rw [h.config]
  simp only [mfMatchLen_same h]

theorem readMatchDistances_same {e f : State} (h : SameInput e f) (x : PM) :
    readMatchDistances e x = readMatchDistances f x := by
  unfold readMatchDistances
  rw [mfGetMatches_same h]
  exact Prod.ext (longestLength_same h _) rfl

end Sys2Proof.Machine
end

