-- ==== Sys2Proof/Laws/RangeCoder.lean ====
section
/-! SUPPORT. The range coder: cells, what SHIFT_LOW, ENC_BIT and DEC_BIT may change, and when they
run to their end. -/

namespace Sys2Proof

open Machine

/-! ### Cells -/

theorem arrayTag_inj {a b : ProbArray} (h : arrayTag a = arrayTag b) : a = b := by
  rcases a with _ | _ | _ | _ | _ | _ | _ | _ | _ | _ | ⟨_ | _⟩ | ⟨_ | _⟩ | ⟨_ | _⟩ | ⟨_ | _⟩ <;>
    rcases b with _ | _ | _ | _ | _ | _ | _ | _ | _ | _ | ⟨_ | _⟩ | ⟨_ | _⟩ | ⟨_ | _⟩ | ⟨_ | _⟩ <;>
      first | rfl | simp [arrayTag] at h

/-- No two cells share a place. -/
theorem cellKey_inj {p q : CellRef} (h : cellKey p = cellKey q) : p = q := by
  obtain ⟨a, i⟩ := p
  obtain ⟨b, j⟩ := q
  have hi := i.isLt
  have hj := j.isLt
  simp only [cellKey] at h
  have ht : arrayTag a = arrayTag b := by omega
  have hn : i.toNat = j.toNat := by omega
  rw [arrayTag_inj ht, BitVec.eq_of_toNat_eq hn]

/-- What the cells read as after one is written. -/
theorem prob_setProb {s : State} {c c' : CellRef} {v : U16} (h : Store.wf probInit s.probs = true) :
    (s.setProb c v).prob c' = if c' = c then v else s.prob c' := by
  simp only [State.prob, State.setProb_probs, Store.get_set h]
  by_cases hc : c' = c
  · simp [hc]
  · rw [if_neg hc, if_neg fun hk => hc (cellKey_inj hk)]

/-- A cell's value stays in 31..2017 (40_range_coder R114). -/
theorem adapt_bounds (p : U16) (b : Bool) (h1 : 31 ≤ p.toNat) (h2 : p.toNat ≤ 2017) :
    31 ≤ (adapt p b).toNat ∧ (adapt p b).toNat ≤ 2017 := by
  have hs : (2048#16 - p).toNat = 2048 - p.toNat := by
    rw [BitVec.toNat_sub]
    simp only [BitVec.toNat_ofNat]
    omega
  cases b
  · simp only [adapt, Bool.false_eq_true, if_false, BitVec.toNat_add, BitVec.toNat_ushiftRight,
      Nat.shiftRight_eq_div_pow, Nat.reducePow, hs]
    rw [Nat.mod_eq_of_lt (by omega)]
    omega
  · simp only [adapt, if_true, BitVec.toNat_sub, BitVec.toNat_ushiftRight,
      Nat.shiftRight_eq_div_pow, Nat.reducePow]
    have he : 65536 - p.toNat / 32 + p.toNat = 65536 + (p.toNat - p.toNat / 32) := by omega
    rw [he, Nat.add_mod_left, Nat.mod_eq_of_lt (by omega)]
    omega

/-! ### What the encoder's operations may change -/

theorem NoError.refl (s : State) : NoError s s := ⟨rfl, rfl⟩

theorem SeqSameOrError.trans {s t u : State} (h : SeqSameOrError s t) (k : SeqSameOrError t u) :
    SeqSameOrError s u := by
  rcases k with ⟨k1, k2⟩ | k
  · rcases h with ⟨h1, h2⟩ | ⟨h1, h2⟩
    · exact .inl ⟨k1.trans h1, k2.trans h2⟩
    · exact .inr ⟨k1.trans h1, k2 ▸ h2⟩
  · exact .inr k

theorem CoreFrame.refl (s : State) : CoreFrame s s := ⟨rfl, rfl, rfl, rfl, rfl, .inl (.refl s)⟩

theorem CoreFrame.trans {s t u : State} (h : CoreFrame s t) (k : CoreFrame t u) : CoreFrame s u where
  params := k.params.trans h.params
  inMem := k.inMem.trans h.inMem
  agenda := k.agenda.trans h.agenda
  freeCount := k.freeCount.trans h.freeCount
  host := by
    have hh := h.host
    have hk := k.host
    simp only [HostSame] at *
    rw [hk, hh]
  seq := h.seq.trans k.seq

theorem OutAppended.refl (s : State) : OutAppended s s := ⟨Nat.le_refl _, fun _ _ => rfl⟩

theorem OutAppended.trans {s t u : State} (h : OutAppended s t) (k : OutAppended t u) :
    OutAppended s u :=
  ⟨h.1.trans k.1, fun a ha =>
    (k.2 a (ha.elim (fun x => .inl (x.trans_le h.1)) .inr)).trans
      (h.2 a (ha.elim .inl fun x => .inr (k.1.trans x)))⟩

/-- The frame of an encoder operation that may write the cells of `P`, with the canonical form of
OUT and of the cells, which it needs and keeps. -/
def EncKeep (P : CellRef → Prop) (s t : State) : Prop :=
  Memory.wf s.outMem = true → Store.wf probInit s.probs = true →
    Memory.wf t.outMem = true ∧ Store.wf probInit t.probs = true ∧ EncFrame P s t

theorem EncFrame.refl (P : CellRef → Prop) (s : State) : EncFrame P s s :=
  ⟨.refl s, .refl s, rfl, ⟨rfl, rfl, rfl⟩, fun _ _ => rfl, rfl, rfl, rfl, rfl, rfl, rfl, rfl⟩

theorem EncFrame.trans {P : CellRef → Prop} {s t u : State} (h : EncFrame P s t)
    (k : EncFrame P t u) : EncFrame P s u where
  core := h.core.trans k.core
  out := h.out.trans k.out
  inPos := k.inPos.trans h.inPos
  flags := ⟨k.flags.1.trans h.flags.1, k.flags.2.1.trans h.flags.2.1, k.flags.2.2.trans h.flags.2.2⟩
  cells := fun c hc => (k.cells c hc).trans (h.cells c hc)
  dec := k.dec.trans h.dec
  codec := k.codec.trans h.codec
  encCfg := k.encCfg.trans h.encCfg
  prices := k.prices.trans h.prices
  parser := k.parser.trans h.parser
  mf := k.mf.trans h.mf
  window := k.window.trans h.window

theorem EncKeep.composes (P : CellRef → Prop) : Composes (EncKeep P) where
  refl s := fun hm hp => ⟨hm, hp, .refl P s⟩
  trans h k := fun hm hp =>
    have h' := h hm hp
    have k' := k h'.1 h'.2.1
    ⟨k'.1, k'.2.1, h'.2.2.trans k'.2.2⟩

theorem EncKeep.mono {P Q : CellRef → Prop} (hPQ : ∀ c, P c → Q c) {s t : State}
    (h : EncKeep P s t) : EncKeep Q s t := fun hm hp =>
  have h' := h hm hp
  ⟨h'.1, h'.2.1, { h'.2.2 with cells := fun c hc => h'.2.2.cells c fun x => hc (hPQ c x) }⟩

theorem EncKeep.of_enc {P : CellRef → Prop} (s : State) (e : RangeEnc) :
    EncKeep P s { s with enc := e } := fun hm hp =>
  ⟨hm, hp, ⟨rfl, rfl, rfl, rfl, rfl, .inl ⟨rfl, rfl⟩⟩, .refl s, rfl, ⟨rfl, rfl, rfl⟩, fun _ _ => rfl, rfl, rfl, rfl, rfl, rfl, rfl, rfl⟩

theorem EncKeep.of_ret {P : CellRef → Prop} (s : State) (r : Ret) :
    EncKeep P s { s with ret := r } := fun hm hp =>
  ⟨hm, hp, ⟨rfl, rfl, rfl, rfl, rfl, .inl ⟨rfl, rfl⟩⟩, .refl s, rfl, ⟨rfl, rfl, rfl⟩, fun _ _ => rfl, rfl, rfl, rfl, rfl, rfl, rfl, rfl⟩

theorem EncKeep.of_error {P : CellRef → Prop} (s : State) (e : ErrKind) :
    EncKeep P s (errorEntry e s) := fun hm hp =>
  ⟨hm, hp,
    ⟨rfl, rfl, rfl, rfl, rfl, .inr ⟨rfl, errKind_code_ne_zero e⟩⟩,
    .refl s, rfl, ⟨rfl, rfl, rfl⟩, fun _ _ => rfl, rfl, rfl, rfl, rfl, rfl, rfl, rfl⟩

theorem EncKeep.appendOut {P : CellRef → Prop} {s : State} (b : Byte)
    (h : s.host.outLen.toNat < s.outCap) : EncKeep P s (s.appendOut b) := by
  intro hm hp
  refine ⟨Memory.wf_write hm, hp, ?_⟩
  refine ⟨⟨rfl, rfl, rfl, rfl, rfl, .inl ⟨rfl, rfl⟩⟩, ⟨?_, ?_⟩, rfl, ⟨rfl, rfl, rfl⟩, fun _ _ => rfl,
    rfl, rfl, rfl, rfl, rfl, rfl, rfl⟩
  · rw [appendOut_outLen b h]; omega
  · intro a ha
    rw [appendOut_outLen b h] at ha
    rw [State.appendOut_outMem, Memory.read_write hm, if_neg (by omega)]

theorem keeps_outWrite {P : CellRef → Prop} (b : Byte) : Keeps (EncKeep P) (outWrite b) := by
  intro s
  by_cases h : s.host.outLen.toNat < s.outCap
  · rw [outWrite_ok b h]; exact .appendOut b h
  · rw [outWrite_full b (by omega)]; exact (EncKeep.composes P).refl s

theorem keeps_emitPending {P : CellRef → Prop} (carry : Byte) (n : Nat) (temp : Byte) :
    Keeps (EncKeep P) (emitPending carry n temp) := by
  induction n generalizing temp with
  | zero => exact Keeps.pure (EncKeep.composes P) ()
  | succ n ih =>
    exact Keeps.bind (EncKeep.composes P) (keeps_outWrite _) fun _ =>
      Keeps.bind (EncKeep.composes P) (Keeps.modify fun s => .of_enc s _) fun _ => ih _

theorem keeps_emitSettled {P : CellRef → Prop} : Keeps (EncKeep P) emitSettled :=
  Keeps.get_bind fun s => Keeps.bind (EncKeep.composes P) (keeps_emitPending _ _ _)
    (fun _ => Keeps.modify fun s => .of_enc s _) s

theorem keeps_shiftLow {P : CellRef → Prop} : Keeps (EncKeep P) shiftLow :=
  Keeps.bind (EncKeep.composes P)
    (Keeps.get_bind fun s =>
      Keeps.ite keeps_emitSettled (Keeps.pure (EncKeep.composes P) ()) s)
    fun _ => Keeps.modify fun s => .of_enc s _

theorem keeps_encNormalise {P : CellRef → Prop} : Keeps (EncKeep P) encNormalise := by
  refine Keeps.get_bind fun s => ?_
  refine Keeps.ite ?_ (Keeps.pure (EncKeep.composes P) _) s
  exact Keeps.bind (EncKeep.composes P) (Keeps.modify fun s => .of_enc s _) fun _ => keeps_shiftLow

/-- ENC_BIT may write its cell, the range encoder and OUT (40_range_coder R111). -/
theorem keeps_encBit (c : CellRef) (b : Bool) : Keeps (EncKeep (· = c)) (encBit c b) := by
  refine Keeps.bind (EncKeep.composes _) (Keeps.modify fun s => ?_) fun _ => keeps_encNormalise
  intro hm hp
  refine ⟨hm, Store.wf_set hp, ⟨rfl, rfl, rfl, rfl, rfl, .inl ⟨rfl, rfl⟩⟩, .refl s, rfl, ⟨rfl, rfl, rfl⟩,
    fun c' hc => ?_, rfl, rfl, rfl, rfl, rfl, rfl, rfl⟩
  have := prob_setProb (c := c) (c' := c') (v := adapt (s.prob c) b) hp
  rw [if_neg hc] at this
  exact this

/-- A decision sequence writes its own cells only. -/
theorem keeps_encBits (ds : List (CellRef × Bool)) :
    Keeps (EncKeep fun c => c ∈ ds.map Prod.fst) (encBits ds) := by
  induction ds with
  | nil => exact Keeps.pure (EncKeep.composes _) ()
  | cons d ds ih =>
    refine Keeps.bind (EncKeep.composes _) (fun s => ?_) fun _ s => ?_
    · exact (keeps_encBit d.1 d.2 s).mono fun c hc => by simp [hc]
    · exact (ih s).mono fun c hc => List.mem_cons_of_mem _ hc

/-! ### When the encoder's operations run to their end -/

theorem emitPending_runs (carry : Byte) {n : Nat} {temp : Byte} {s : State}
    (h : s.host.outLen.toNat + n ≤ s.outCap) :
    ∃ t, emitPending carry n temp s = .ok () t ∧
      t.host = { s.host with outLen := s.host.outLen + BitVec.ofNat 64 n } ∧
      t.enc =
        { s.enc with
          outPosition := s.enc.outPosition + BitVec.ofNat 64 n
          cacheSize := s.enc.cacheSize - BitVec.ofNat 64 n } ∧
      t.params = s.params := by
  induction n generalizing temp s with
  | zero => exact ⟨s, rfl, by simp, by simp, rfl⟩
  | succ n ih =>
    have hcap := outCap_lt s
    have hlt : s.host.outLen.toNat < s.outCap := by omega
    have hlen := appendOut_outLen (temp + carry) hlt
    obtain ⟨t, ht, hh, he, hp⟩ :=
      @ih 0xFF#8
        { s.appendOut (temp + carry) with
          enc :=
            { s.enc with
              outPosition := s.enc.outPosition + 1#64
              cacheSize := s.enc.cacheSize - 1#64 } }
        (by
          show (s.appendOut (temp + carry)).host.outLen.toNat + n ≤ s.outCap
          omega)
    refine ⟨t, ?_, ?_, ?_, hp⟩
    · show (outWrite (temp + carry) >>= fun _ => countEmitted >>= fun _ => emitPending carry n 0xFF#8) s = _
      rw [bind_ok (outWrite_ok _ hlt)]
      exact ht
    · rw [hh]
      simp only [State.appendOut, HostRegs.mk.injEq, true_and, and_true]
      apply BitVec.eq_of_toNat_eq
      simp only [BitVec.toNat_add, BitVec.toNat_ofNat]
      omega
    · rw [he]
      simp only [RangeEnc.mk.injEq, true_and]
      constructor
      · apply BitVec.eq_of_toNat_eq
        simp only [BitVec.toNat_sub, BitVec.toNat_ofNat]
        omega
      · apply BitVec.eq_of_toNat_eq
        simp only [BitVec.toNat_add, BitVec.toNat_ofNat]
        omega

/-- SHIFT_LOW runs to its end when OUT can take what is pending; one SHIFT_LOW adds one to the bytes
written plus `cacheSize` (40_range_coder R118). -/
theorem shiftLow_runs {s : State} {k : Nat} (h : EncRoom s (k + 1)) :
    ∃ t, shiftLow s = .ok () t ∧ EncRoom t k ∧ NoError s t ∧
      t.enc.range = s.enc.range ∧ t.enc.low = (s.enc.low &&& 0x00FFFFFF#64) <<< 8 ∧
      t.host.outLen.toNat + t.enc.cacheSize.toNat =
        s.host.outLen.toNat + s.enc.cacheSize.toNat + 1 := by
  obtain ⟨h1, h2⟩ := h
  have hcap := outCap_lt s
  by_cases hc : s.enc.low < 0xFF000000#64 ∨ 0x100000000#64 ≤ s.enc.low
  · have hn : pendingCount s.enc.cacheSize = s.enc.cacheSize.toNat := by
      unfold pendingCount
      rw [if_neg]
      intro h0
      rw [h0] at h1
      exact absurd h1 (by decide)
    obtain ⟨t, ht, hh, he, hp⟩ := @emitPending_runs ((s.enc.low >>> 32).setWidth 8)
      s.enc.cacheSize.toNat s.enc.cache s (by omega)
    have hem : emitSettled s =
        .ok () { t with enc := { t.enc with cache := (t.enc.low >>> 24).setWidth 8 } } := by
      show (emitPending ((s.enc.low >>> 32).setWidth 8) (pendingCount s.enc.cacheSize) s.enc.cache >>=
        fun _ => modify fun s =>
          { s with enc := { s.enc with cache := (s.enc.low >>> 24).setWidth 8 } }) s = _
      rw [hn, bind_ok ht]
      rfl
    have hif : emitIfSettled s = emitSettled s := by
      show (if s.enc.low < 0xFF000000#64 ∨ 0x100000000#64 ≤ s.enc.low then emitSettled else pure ()) s = _
      rw [if_pos hc]
    refine ⟨_, bind_ok (hif.trans hem), ?_⟩
    have hz : t.enc.cacheSize = 0#64 := by rw [he]; simp
    have hr : t.enc.range = s.enc.range := by rw [he]
    have hl : t.enc.low = s.enc.low := by rw [he]
    have ho : t.host.outLen.toNat = s.host.outLen.toNat + s.enc.cacheSize.toNat := by
      rw [hh]
      simp only [BitVec.toNat_add, BitVec.toNat_ofNat]
      omega
    have hoc : t.outCap = s.outCap := by simp [State.outCap, hp]
    refine ⟨⟨?_, ?_⟩, ⟨?_, ?_⟩, ?_, ?_, ?_⟩
    · simp [hz]
    · show t.host.outLen.toNat + (t.enc.cacheSize + 1#64).toNat + k ≤ t.outCap + 1
      rw [hz, ho, hoc]
      simp
      omega
    · show t.host.seq = s.host.seq
      rw [hh]
    · show t.host.errCode = s.host.errCode
      rw [hh]
    · exact hr
    · simp [hl]
    · show t.host.outLen.toNat + (t.enc.cacheSize + 1#64).toNat = _
      rw [hz, ho]
      simp
  · have hadd : (s.enc.cacheSize + 1#64).toNat = s.enc.cacheSize.toNat + 1 := by
      simp only [BitVec.toNat_add, BitVec.toNat_ofNat]
      omega
    have hif : emitIfSettled s = .ok () s := by
      show (if s.enc.low < 0xFF000000#64 ∨ 0x100000000#64 ≤ s.enc.low then emitSettled else pure ()) s = _
      rw [if_neg hc]
      rfl
    refine ⟨_, bind_ok hif, ⟨?_, ?_⟩, ⟨rfl, rfl⟩, rfl, rfl, ?_⟩
    · show 1 ≤ (s.enc.cacheSize + 1#64).toNat
      omega
    · show s.host.outLen.toNat + (s.enc.cacheSize + 1#64).toNat + k ≤ s.outCap + 1
      omega
    · show s.host.outLen.toNat + (s.enc.cacheSize + 1#64).toNat = _
      omega

theorem EncRoom.mono {s : State} {k l : Nat} (h : EncRoom s k) (hl : l ≤ k) : EncRoom s l :=
  ⟨h.1, by have := h.2; omega⟩

theorem NoError.trans {s t u : State} (h : NoError s t) (k : NoError t u) : NoError s u :=
  ⟨k.1.trans h.1, k.2.trans h.2⟩

theorem encNormalise_runs {s : State} {k : Nat} (h : EncRoom s (k + 1)) :
    ∃ t, encNormalise s = .ok () t ∧ EncRoom t k ∧ NoError s t := by
  by_cases hr : s.enc.range < kTopValue
  · obtain ⟨t, ht, hroom, hne, -⟩ :=
      @shiftLow_runs { s with enc := { s.enc with range := s.enc.range <<< 8 } } k h
    refine ⟨t, ?_, hroom, hne⟩
    show ((if s.enc.range < kTopValue then
      (modify fun s => { s with enc := { s.enc with range := s.enc.range <<< 8 } }) >>= fun _ => shiftLow
      else pure ()) : Eng Unit) s = _
    rw [if_pos hr]
    exact ht
  · refine ⟨s, ?_, h.mono (by omega), .refl s⟩
    show ((if s.enc.range < kTopValue then
      (modify fun s => { s with enc := { s.enc with range := s.enc.range <<< 8 } }) >>= fun _ => shiftLow
      else pure ()) : Eng Unit) s = _
    rw [if_neg hr]
    rfl

/-- ENC_BIT runs to its end with room for one SHIFT_LOW. -/
theorem encBit_runs (c : CellRef) (b : Bool) {s : State} {k : Nat} (h : EncRoom s (k + 1)) :
    ∃ t, encBit c b s = .ok () t ∧ EncRoom t k ∧ NoError s t := by
  obtain ⟨t, ht, hroom, hne⟩ :=
    @encNormalise_runs
      { s.setProb c (adapt (s.prob c) b) with
        enc := narrow s.enc (bitBound s.enc.range (s.prob c)) b } k
      (by
        obtain ⟨h1, h2⟩ := h
        constructor
        · cases b <;> exact h1
        · cases b <;> exact h2)
  exact ⟨t, ht, hroom, hne⟩

/-- A decision sequence runs to its end with room for one SHIFT_LOW each. -/
theorem encBits_runs (ds : List (CellRef × Bool)) {s : State} {k : Nat}
    (h : EncRoom s (k + ds.length)) : ∃ t, encBits ds s = .ok () t ∧ EncRoom t k ∧ NoError s t := by
  induction ds generalizing s with
  | nil => exact ⟨s, rfl, h, .refl s⟩
  | cons d ds ih =>
    obtain ⟨u, hu, hroom, hne⟩ := encBit_runs d.1 d.2 (k := k + ds.length) h
    obtain ⟨t, ht, hroom', hne'⟩ := ih hroom
    exact ⟨t, (bind_ok hu).trans ht, hroom', hne.trans hne'⟩

/-! ### The decoder -/

/-- The frame of a decoder operation, with the canonical form of the cells. -/
def DecKeep (P : CellRef → Prop) (s t : State) : Prop :=
  Store.wf probInit s.probs = true → Store.wf probInit t.probs = true ∧ DecFrame P s t

theorem DecFrame.refl (P : CellRef → Prop) (s : State) : DecFrame P s s :=
  ⟨.refl s, rfl, rfl, ⟨rfl, rfl, rfl⟩, fun _ _ => rfl, rfl, rfl, rfl, rfl, rfl, rfl, rfl⟩

theorem DecFrame.trans {P : CellRef → Prop} {s t u : State} (h : DecFrame P s t)
    (k : DecFrame P t u) : DecFrame P s u where
  core := h.core.trans k.core
  outMem := k.outMem.trans h.outMem
  outLen := k.outLen.trans h.outLen
  flags := ⟨k.flags.1.trans h.flags.1, k.flags.2.1.trans h.flags.2.1, k.flags.2.2.trans h.flags.2.2⟩
  cells := fun c hc => (k.cells c hc).trans (h.cells c hc)
  enc := k.enc.trans h.enc
  codec := k.codec.trans h.codec
  encCfg := k.encCfg.trans h.encCfg
  prices := k.prices.trans h.prices
  parser := k.parser.trans h.parser
  mf := k.mf.trans h.mf
  window := k.window.trans h.window

theorem DecKeep.composes (P : CellRef → Prop) : Composes (DecKeep P) where
  refl s := fun hp => ⟨hp, .refl P s⟩
  trans h k := fun hp =>
    have h' := h hp
    have k' := k h'.1
    ⟨k'.1, h'.2.trans k'.2⟩

theorem DecKeep.mono {P Q : CellRef → Prop} (hPQ : ∀ c, P c → Q c) {s t : State}
    (h : DecKeep P s t) : DecKeep Q s t := fun hp =>
  have h' := h hp
  ⟨h'.1, { h'.2 with cells := fun c hc => h'.2.cells c fun x => hc (hPQ c x) }⟩

theorem DecKeep.of_dec {P : CellRef → Prop} (s : State) (d : RangeDec) :
    DecKeep P s { s with dec := d } := fun hp =>
  ⟨hp, ⟨rfl, rfl, rfl, rfl, rfl, .inl ⟨rfl, rfl⟩⟩, rfl, rfl, ⟨rfl, rfl, rfl⟩, fun _ _ => rfl, rfl, rfl, rfl, rfl, rfl, rfl, rfl⟩

theorem keeps_readByte {P : CellRef → Prop} : Keeps (DecKeep P) readByte := by
  intro s
  by_cases h : s.host.inPos < s.host.inLen
  · rw [readByte_ok h]
    exact fun hp => ⟨hp, ⟨rfl, rfl, rfl, rfl, rfl, .inl ⟨rfl, rfl⟩⟩, rfl, rfl, ⟨rfl, rfl, rfl⟩,
      fun _ _ => rfl, rfl, rfl, rfl, rfl, rfl, rfl, rfl⟩
  · rw [readByte_end h]
    exact (DecKeep.composes P).refl s

theorem keeps_decShiftIn {P : CellRef → Prop} : Keeps (DecKeep P) decShiftIn :=
  Keeps.bind (DecKeep.composes P) keeps_readByte fun _ => Keeps.modify fun s => .of_dec s _

theorem keeps_decNormalise {P : CellRef → Prop} : Keeps (DecKeep P) decNormalise := by
  refine Keeps.get_bind fun s => ?_
  refine Keeps.ite ?_ (Keeps.pure (DecKeep.composes P) _) s
  exact Keeps.bind (DecKeep.composes P) keeps_decShiftIn fun _ => Keeps.modify fun s => .of_dec s _

/-- The state of DEC_BIT before it normalises (40_range_coder R121). -/
def afterDecision (c : CellRef) (s : State) : State :=
  { s.setProb c (adapt (s.prob c) (!decide (s.dec.code < bitBound s.dec.range (s.prob c)))) with
    dec := decNarrow s.dec (bitBound s.dec.range (s.prob c)) }

theorem decBit_run (c : CellRef) (s : State) :
    decBit c s = (decNormalise >>= fun _ =>
      pure (!decide (s.dec.code < bitBound s.dec.range (s.prob c)))) (afterDecision c s) := rfl

/-- DEC_BIT may write its cell, the range decoder and IN_POS (40_range_coder R121). -/
theorem keeps_decBit (c : CellRef) : Keeps (DecKeep (· = c)) (decBit c) := by
  intro s
  rw [decBit_run]
  refine (DecKeep.composes (· = c)).trans (t := afterDecision c s) ?_
    (Keeps.bind (DecKeep.composes _) keeps_decNormalise
      (fun _ => Keeps.pure (DecKeep.composes _) _) _)
  intro hp
  refine ⟨Store.wf_set hp, ⟨rfl, rfl, rfl, rfl, rfl, .inl ⟨rfl, rfl⟩⟩, rfl, rfl, ⟨rfl, rfl, rfl⟩,
    fun c' hc => ?_, rfl, rfl, rfl, rfl, rfl, rfl, rfl⟩
  exact (prob_setProb hp).trans (if_neg hc)

/-! ### When the decoder's operations run to their end -/

theorem DecInput.mono {s : State} {k l : Nat} (h : DecInput s k) (hl : l ≤ k) : DecInput s l := by
  unfold DecInput at *; omega

theorem decShiftIn_runs {s : State} {k : Nat} (h : DecInput s (k + 1)) :
    ∃ t, decShiftIn s = .ok () t ∧ DecInput t k ∧ NoError s t := by
  unfold DecInput at h
  have hlt : s.host.inPos < s.host.inLen := by rw [BitVec.lt_def]; omega
  have hin := s.host.inLen.isLt
  refine ⟨_, bind_ok (readByte_ok hlt), ?_, ⟨rfl, rfl⟩⟩
  show (s.host.inPos + 1#32).toNat + k ≤ s.host.inLen.toNat
  simp only [BitVec.toNat_add, BitVec.toNat_ofNat]
  omega

theorem decNormalise_runs {s : State} {k : Nat} (h : DecInput s (k + 1)) :
    ∃ t, decNormalise s = .ok () t ∧ DecInput t k ∧ NoError s t := by
  have hn : decNormalise s = (if s.dec.range < kTopValue then decShiftIn >>= fun _ =>
      modify fun s => { s with dec := { s.dec with range := s.dec.range <<< 8 } }
    else pure () : Eng Unit) s := rfl
  by_cases hr : s.dec.range < kTopValue
  · obtain ⟨t, ht, hi, hne⟩ := decShiftIn_runs h
    exact ⟨{ t with dec := { t.dec with range := t.dec.range <<< 8 } },
      by rw [hn, if_pos hr, bind_ok ht]; rfl, hi, hne⟩
  · exact ⟨s, by rw [hn, if_neg hr]; rfl, h.mono (by omega), .refl s⟩

/-- DEC_BIT runs to its end with one byte of IN left. -/
theorem decBit_runs (c : CellRef) {s : State} {k : Nat} (h : DecInput s (k + 1)) :
    ∃ t, decBit c s = .ok (!decide (s.dec.code < bitBound s.dec.range (s.prob c))) t ∧
      DecInput t k ∧ NoError s t := by
  obtain ⟨t, ht, hi, hne⟩ := @decNormalise_runs (afterDecision c s) k h
  exact ⟨t, by rw [decBit_run, bind_ok ht]; rfl, hi, hne⟩

end Sys2Proof
end

