-- ==== Sys2Proof/Laws/Tables.lean ====
section
/-! SUPPORT. The closed forms of the constant tables are the tables the rules build. -/

namespace Sys2Proof

open Machine

/-- `probPrice` lists the table of 41_bit_tree R141. -/
theorem probPrice_list :
    (List.range 512).map probPrice = probPriceTable.map (BitVec.ofNat 32) := by
  decide +kernel

/-- `fastPos` lists the table of 46_codec R262. -/
theorem fastPos_list : (List.range 2048).map fastPos = fastPosTable := by
  decide +kernel

theorem probPrice_table {j : Nat} (h : j < 512) :
    probPrice j = BitVec.ofNat 32 (probPriceTable.getD j 0) := by
  have hj := congrArg (fun l => l.getD j 0#32) probPrice_list
  simpa [List.getD_eq_getElem?_getD, h] using hj

theorem fastPos_table {i : Nat} (h : i < 2048) : fastPos i = fastPosTable.getD i 0 := by
  have hi := congrArg (fun l => l.getD i 0) fastPos_list
  simpa [List.getD_eq_getElem?_getD, h] using hi

end Sys2Proof
end

