-- ==== Sys2Proof/Laws/PerInstr.lean ====
section
/-! SUPPORT. For every instruction: its code carries the opcode bits of its row of
spec/opcode_table.json (30_encoding R85..R92, R100, R103). -/

namespace Sys2Proof.Laws.OpcodeId

/-- A row's fixed bits: a mask and the value under it, or the first decisions of a packet. -/
inductive Row
  | word (mask value : Nat)
  | decisions (first : List Bool)

/-- The fixed bits of spec/opcode_table.json. -/
def row : Instr → Row
  | .rcEncInit => .word 0xFF 0x10
  | .rcEncBit _ _ => .word 0xFF 0x11
  | .rcShiftLow => .word 0xFF 0x13
  | .rcEncDirect _ _ => .word 0xFF 0x12
  | .rcEncFlush => .word 0xFF 0x14
  | .rcDecInit => .word 0xFF 0x18
  | .rcDecBit _ => .word 0xFF 0x19
  | .rcDecDirect _ => .word 0xFF 0x1A
  | .rcPriceBit _ _ => .word 0xFF 0x1C
  | .btEnc _ _ _ => .word 0xFF 0x20
  | .btDec _ _ => .word 0xFF 0x21
  | .btPrice _ _ _ => .word 0xFF 0x22
  | .btRenc _ _ _ => .word 0xFF 0x23
  | .btRdec _ _ => .word 0xFF 0x24
  | .btRprice _ _ _ => .word 0xFF 0x25
  | .btInit _ _ => .word 0xFF 0x26
  | .litSelect _ _ => .word 0xFF 0x35
  | .litEnc _ _ => .word 0xFF 0x30
  | .litEncMatched _ _ _ => .word 0xFF 0x31
  | .litDec _ => .word 0xFF 0x32
  | .litDecMatched _ _ => .word 0xFF 0x33
  | .litPrice _ _ _ _ => .word 0xFF 0x34
  | .lenEnc _ _ _ => .word 0xFF 0x40
  | .lenDec _ _ => .word 0xFF 0x41
  | .lenSetPrices _ _ => .word 0xFF 0x42
  | .lenPrice _ _ _ => .word 0xFF 0x43
  | .lenEncCounted _ _ _ => .word 0xFF 0x44
  | .mfInit => .word 0xFF 0x50
  | .mfHash _ => .word 0xFF 0x57
  | .mfAvail => .word 0xFF 0x55
  | .mfIndexByte _ => .word 0xFF 0x54
  | .mfMovePos => .word 0xFF 0x56
  | .mfMatchLen _ _ _ => .word 0xFF 0x53
  | .mfGetMatches => .word 0xFF 0x51
  | .mfTreeWalk _ _ _ => .word 0xFF 0x58
  | .mfSkip _ => .word 0xFF 0x52
  | .optGetOptimum _ => .word 0xFF 0x60
  | .optReadMatchDistances => .word 0xFF 0x62
  | .optMovePos _ => .word 0xFF 0x63
  | .optBackward _ => .word 0xFF 0x61
  | .optRepLen1Price _ _ => .word 0xFF 0x64
  | .optPureRepPrice _ _ _ => .word 0xFF 0x65
  | .optRepPrice _ _ _ _ => .word 0xFF 0x66
  | .optPosLenPrice _ _ _ => .word 0xFF 0x67
  | .optFillDist => .word 0xFF 0x68
  | .optFillAlign => .word 0xFF 0x69
  | .stChar _ => .word 0xFF 0x70
  | .stMatch _ => .word 0xFF 0x71
  | .stRep _ => .word 0xFF 0x72
  | .stShortrep _ => .word 0xFF 0x73
  | .stIsChar _ => .word 0xFF 0x74
  | .lenToPosState _ => .word 0xFF 0x77
  | .repsPush _ => .word 0xFF 0x75
  | .repsPromote _ => .word 0xFF 0x76
  | .posSlot _ => .word 0xFF 0x78
  | .posSlot2 _ => .word 0xFF 0x79
  | .codecEncHeader => .word 0xFF 0x80
  | .codecDecHeader => .word 0xFF 0x88
  | .codecEncLit => .word 0xFF 0x81
  | .codecEncMatch _ _ => .word 0xFF 0x82
  | .codecEncRep _ _ => .word 0xFF 0x83
  | .codecEncEos => .word 0xFF 0x84
  | .codecEncDistance _ _ => .word 0xFF 0x86
  | .codecEncBlock => .word 0xFF 0x85
  | .codecDecDistance _ => .word 0xFF 0x8A
  | .codecDecPacket => .word 0xFF 0x89
  | .codecCheckDist => .word 0xFF 0x8C
  | .codecDecEarlyEndCheck => .word 0xFF 0x8D
  | .codecCopy _ => .word 0xFF 0x8E
  | .owInit _ => .word 0xFF 0x90
  | .owPut _ => .word 0xFF 0x91
  | .owCopy _ _ => .word 0xFF 0x92
  | .owGet _ => .word 0xFF 0x93
  | .owFlush => .word 0xFF 0x94
  | .nop _ _ => .word 0xF 0x0
  | .reset _ _ => .word 0xF 0x1
  | .encode _ _ => .word 0xF 0x2
  | .decode _ _ => .word 0xF 0x3
  | .ctrlReserved4 _ _ _ => .word 0xC 0x4
  | .ctrlReserved8 _ _ _ => .word 0x8 0x8
  | .lit _ => .decisions [false]
  | .matchDist _ _ => .decisions [true, false]
  | .shortrep => .decisions [true, true, false, false]
  | .longrep0 _ => .decisions [true, true, false, true]
  | .longrep1 _ => .decisions [true, true, true, false]
  | .longrep2 _ => .decisions [true, true, true, true, false]
  | .longrep3 _ => .decisions [true, true, true, true, true]
  | .eos => .decisions [true, false]

/-- The first word of a code as a number. -/
def firstWord : Code → Nat
  | .ctrl w => w.toNat
  | .micro bs => (bs.headD 0#8).toNat
  | .packet _ => 0

/-- The code of `i` carries its row's fixed bits. -/
def Statement (i : Instr) : Prop :=
  match row i with
  | .word mask value => firstWord (encode i) &&& mask = value
  | .decisions first => ∃ rest, encode i = .packet (first ++ rest)

theorem micro {i : Instr} {id : Byte} {bs : List Byte} (h : Sys2Proof.encode i = .micro (id :: bs))
    (hr : row i = .word 0xFF id.toNat) : Statement i := by
  have hb := id.isLt
  simp only [Statement, hr, h, firstWord, List.headD_cons]
  rw [show (0xFF : Nat) = 2 ^ 8 - 1 from rfl, Nat.and_two_pow_sub_one_eq_mod]
  exact Nat.mod_eq_of_lt hb

theorem packet {i : Instr} {first rest : List Bool}
    (h : Sys2Proof.encode i = .packet (first ++ rest)) (hr : row i = .decisions first) :
    Statement i := by
  simp only [Statement, hr]
  exact ⟨rest, h⟩

theorem ctrl {i : Instr} {op mask value : Nat} {irqEn marker : Bool}
    (h : Sys2Proof.encode i = .ctrl (ctrlWord op irqEn marker)) (hr : row i = .word mask value)
    (hv : (ctrlWord op irqEn marker).toNat &&& mask = value) : Statement i := by
  simp only [Statement, hr, h, firstWord]
  exact hv

theorem rcEncInit : Statement (.rcEncInit) := micro (id := 0x10#8) rfl rfl

theorem rcEncBit (p : CellRef) (bit : Bool) : Statement (.rcEncBit p bit) :=
  micro (id := 0x11#8) rfl rfl

theorem rcShiftLow : Statement (.rcShiftLow) := micro (id := 0x13#8) rfl rfl

theorem rcEncDirect (value : U32) (n : Byte) : Statement (.rcEncDirect value n) :=
  micro (id := 0x12#8) rfl rfl

theorem rcEncFlush : Statement (.rcEncFlush) := micro (id := 0x14#8) rfl rfl

theorem rcDecInit : Statement (.rcDecInit) := micro (id := 0x18#8) rfl rfl

theorem rcDecBit (p : CellRef) : Statement (.rcDecBit p) := micro (id := 0x19#8) rfl rfl

theorem rcDecDirect (n : Byte) : Statement (.rcDecDirect n) := micro (id := 0x1A#8) rfl rfl

theorem rcPriceBit (p : U16) (bit : Bool) : Statement (.rcPriceBit p bit) :=
  micro (id := 0x1C#8) rfl rfl

theorem btEnc (t : CellRef) (n : Byte) (sym : Byte) : Statement (.btEnc t n sym) :=
  micro (id := 0x20#8) rfl rfl

theorem btDec (t : CellRef) (n : Byte) : Statement (.btDec t n) := micro (id := 0x21#8) rfl rfl

theorem btPrice (t : CellRef) (n : Byte) (sym : Byte) : Statement (.btPrice t n sym) :=
  micro (id := 0x22#8) rfl rfl

theorem btRenc (t : CellRef) (n : Byte) (sym : Byte) : Statement (.btRenc t n sym) :=
  micro (id := 0x23#8) rfl rfl

theorem btRdec (t : CellRef) (n : Byte) : Statement (.btRdec t n) := micro (id := 0x24#8) rfl rfl

theorem btRprice (t : CellRef) (n : Byte) (sym : Byte) : Statement (.btRprice t n sym) :=
  micro (id := 0x25#8) rfl rfl

theorem btInit (a : CellRef) (k : U32) : Statement (.btInit a k) := micro (id := 0x26#8) rfl rfl

theorem litSelect (pos : U64) (prevByte : Byte) : Statement (.litSelect pos prevByte) :=
  micro (id := 0x35#8) rfl rfl

theorem litEnc (c : U16) (sym : Byte) : Statement (.litEnc c sym) := micro (id := 0x30#8) rfl rfl

theorem litEncMatched (c : U16) (matchByte : Byte) (sym : Byte) :
    Statement (.litEncMatched c matchByte sym) := micro (id := 0x31#8) rfl rfl

theorem litDec (c : U16) : Statement (.litDec c) := micro (id := 0x32#8) rfl rfl

theorem litDecMatched (c : U16) (matchByte : Byte) : Statement (.litDecMatched c matchByte) :=
  micro (id := 0x33#8) rfl rfl

theorem litPrice (c : U16) (matchMode : Bool) (matchByte : Byte) (sym : Byte) :
    Statement (.litPrice c matchMode matchByte sym) := micro (id := 0x34#8) rfl rfl

theorem lenEnc (c : LenSel) (k : U16) (ps : Byte) : Statement (.lenEnc c k ps) :=
  micro (id := 0x40#8) rfl rfl

theorem lenDec (c : LenSel) (ps : Byte) : Statement (.lenDec c ps) := micro (id := 0x41#8) rfl rfl

theorem lenSetPrices (c : LenSel) (ps : Byte) : Statement (.lenSetPrices c ps) :=
  micro (id := 0x42#8) rfl rfl

theorem lenPrice (c : LenSel) (k : U16) (ps : Byte) : Statement (.lenPrice c k ps) :=
  micro (id := 0x43#8) rfl rfl

theorem lenEncCounted (c : LenSel) (k : U16) (ps : Byte) : Statement (.lenEncCounted c k ps) :=
  micro (id := 0x44#8) rfl rfl

theorem mfInit : Statement (.mfInit) := micro (id := 0x50#8) rfl rfl

theorem mfHash (cur : U32) : Statement (.mfHash cur) := micro (id := 0x57#8) rfl rfl

theorem mfAvail : Statement (.mfAvail) := micro (id := 0x55#8) rfl rfl

theorem mfIndexByte (k : I32) : Statement (.mfIndexByte k) := micro (id := 0x54#8) rfl rfl

theorem mfMovePos : Statement (.mfMovePos) := micro (id := 0x56#8) rfl rfl

theorem mfMatchLen (k : I32) (d : U32) (limit : U32) : Statement (.mfMatchLen k d limit) :=
  micro (id := 0x53#8) rfl rfl

theorem mfGetMatches : Statement (.mfGetMatches) := micro (id := 0x51#8) rfl rfl

theorem mfTreeWalk (curMatch : U32) (lenLimit : U32) (emit : Bool) :
    Statement (.mfTreeWalk curMatch lenLimit emit) := micro (id := 0x58#8) rfl rfl

theorem mfSkip (n : U32) : Statement (.mfSkip n) := micro (id := 0x52#8) rfl rfl

theorem optGetOptimum (position : U32) : Statement (.optGetOptimum position) :=
  micro (id := 0x60#8) rfl rfl

theorem optReadMatchDistances : Statement (.optReadMatchDistances) := micro (id := 0x62#8) rfl rfl

theorem optMovePos (n : U32) : Statement (.optMovePos n) := micro (id := 0x63#8) rfl rfl

theorem optBackward (cur : U32) : Statement (.optBackward cur) := micro (id := 0x61#8) rfl rfl

theorem optRepLen1Price (st : Byte) (ps : Byte) : Statement (.optRepLen1Price st ps) :=
  micro (id := 0x64#8) rfl rfl

theorem optPureRepPrice (i : Byte) (st : Byte) (ps : Byte) :
    Statement (.optPureRepPrice i st ps) := micro (id := 0x65#8) rfl rfl

theorem optRepPrice (i : Byte) (len : U16) (st : Byte) (ps : Byte) :
    Statement (.optRepPrice i len st ps) := micro (id := 0x66#8) rfl rfl

theorem optPosLenPrice (d : U32) (len : U16) (ps : Byte) : Statement (.optPosLenPrice d len ps) :=
  micro (id := 0x67#8) rfl rfl

theorem optFillDist : Statement (.optFillDist) := micro (id := 0x68#8) rfl rfl

theorem optFillAlign : Statement (.optFillAlign) := micro (id := 0x69#8) rfl rfl

theorem stChar (s : Byte) : Statement (.stChar s) := micro (id := 0x70#8) rfl rfl

theorem stMatch (s : Byte) : Statement (.stMatch s) := micro (id := 0x71#8) rfl rfl

theorem stRep (s : Byte) : Statement (.stRep s) := micro (id := 0x72#8) rfl rfl

theorem stShortrep (s : Byte) : Statement (.stShortrep s) := micro (id := 0x73#8) rfl rfl

theorem stIsChar (s : Byte) : Statement (.stIsChar s) := micro (id := 0x74#8) rfl rfl

theorem lenToPosState (len : U32) : Statement (.lenToPosState len) := micro (id := 0x77#8) rfl rfl

theorem repsPush (d : U32) : Statement (.repsPush d) := micro (id := 0x75#8) rfl rfl

theorem repsPromote (i : Byte) : Statement (.repsPromote i) := micro (id := 0x76#8) rfl rfl

theorem posSlot (d : U32) : Statement (.posSlot d) := micro (id := 0x78#8) rfl rfl

theorem posSlot2 (d : U32) : Statement (.posSlot2 d) := micro (id := 0x79#8) rfl rfl

theorem codecEncHeader : Statement (.codecEncHeader) := micro (id := 0x80#8) rfl rfl

theorem codecDecHeader : Statement (.codecDecHeader) := micro (id := 0x88#8) rfl rfl

theorem codecEncLit : Statement (.codecEncLit) := micro (id := 0x81#8) rfl rfl

theorem codecEncMatch (len : U16) (d : U32) : Statement (.codecEncMatch len d) :=
  micro (id := 0x82#8) rfl rfl

theorem codecEncRep (i : Byte) (len : U16) : Statement (.codecEncRep i len) :=
  micro (id := 0x83#8) rfl rfl

theorem codecEncEos : Statement (.codecEncEos) := micro (id := 0x84#8) rfl rfl

theorem codecEncDistance (d : U32) (len : U16) : Statement (.codecEncDistance d len) :=
  micro (id := 0x86#8) rfl rfl

theorem codecEncBlock : Statement (.codecEncBlock) := micro (id := 0x85#8) rfl rfl

theorem codecDecDistance (len : U16) : Statement (.codecDecDistance len) :=
  micro (id := 0x8A#8) rfl rfl

theorem codecDecPacket : Statement (.codecDecPacket) := micro (id := 0x89#8) rfl rfl

theorem codecCheckDist : Statement (.codecCheckDist) := micro (id := 0x8C#8) rfl rfl

theorem codecDecEarlyEndCheck : Statement (.codecDecEarlyEndCheck) := micro (id := 0x8D#8) rfl rfl

theorem codecCopy (len : U16) : Statement (.codecCopy len) := micro (id := 0x8E#8) rfl rfl

theorem owInit (n : U32) : Statement (.owInit n) := micro (id := 0x90#8) rfl rfl

theorem owPut (b : Byte) : Statement (.owPut b) := micro (id := 0x91#8) rfl rfl

theorem owCopy (d : U32) (n : U32) : Statement (.owCopy d n) := micro (id := 0x92#8) rfl rfl

theorem owGet (d : U32) : Statement (.owGet d) := micro (id := 0x93#8) rfl rfl

theorem owFlush : Statement (.owFlush) := micro (id := 0x94#8) rfl rfl

theorem nop (irqEn : Bool) (writeEndMarker : Bool) : Statement (.nop irqEn writeEndMarker) :=
  ctrl rfl rfl (by revert irqEn writeEndMarker; decide)

theorem reset (irqEn : Bool) (writeEndMarker : Bool) : Statement (.reset irqEn writeEndMarker) :=
  ctrl rfl rfl (by revert irqEn writeEndMarker; decide)

theorem encode (irqEn : Bool) (writeEndMarker : Bool) :
    Statement (.encode irqEn writeEndMarker) := ctrl rfl rfl (by revert irqEn writeEndMarker; decide)

theorem decode (irqEn : Bool) (writeEndMarker : Bool) :
    Statement (.decode irqEn writeEndMarker) := ctrl rfl rfl (by revert irqEn writeEndMarker; decide)

theorem ctrlReserved4 (op : BitVec 2) (irqEn : Bool) (writeEndMarker : Bool) :
    Statement (.ctrlReserved4 op irqEn writeEndMarker) := ctrl rfl rfl (by revert op irqEn writeEndMarker; decide)

theorem ctrlReserved8 (op : BitVec 3) (irqEn : Bool) (writeEndMarker : Bool) :
    Statement (.ctrlReserved8 op irqEn writeEndMarker) := ctrl rfl rfl (by revert op irqEn writeEndMarker; decide)

theorem lit (b : Byte) : Statement (.lit b) := packet (first := [false]) rfl rfl

theorem matchDist (len : U16) (d : U32) : Statement (.matchDist len d) :=
  packet (first := [true, false]) rfl rfl

theorem shortrep : Statement (.shortrep) := packet (first := [true, true, false, false]) rfl rfl

theorem longrep0 (len : U16) : Statement (.longrep0 len) :=
  packet (first := [true, true, false, true]) rfl rfl

theorem longrep1 (len : U16) : Statement (.longrep1 len) :=
  packet (first := [true, true, true, false]) rfl rfl

theorem longrep2 (len : U16) : Statement (.longrep2 len) :=
  packet (first := [true, true, true, true, false]) rfl rfl

theorem longrep3 (len : U16) : Statement (.longrep3 len) :=
  packet (first := [true, true, true, true, true]) rfl rfl

theorem eos : Statement (.eos) := packet (first := [true, false]) rfl rfl

end Sys2Proof.Laws.OpcodeId
end

