-- ==== Sys2Proof/Tests/Slice0.lean ====
section
/-! SUPPORT. Tests, each about one step on a small state, with values from the spec's examples and
vectors; and for every obligation with hypotheses a state and operands that meet them. -/

namespace Sys2Proof.Tests

open Sys2Proof Sys2Proof.Machine

set_option maxRecDepth 4096
set_option Elab.async false

/-! ### Helpers -/

/-- `exec i s` answers a next state of which `f` holds. -/
def runs (i : Instr) (s : State) (f : State → Bool) : Bool :=
  match exec i s with
  | .next t => f t
  | .fault _ => false
  | .refused _ => false

def isNext (o : Host.Outcome State Fault Refusal) : Bool :=
  match o with
  | .next _ => true
  | .fault _ => false
  | .refused _ => false

theorem exists_of_isNext {o : Host.Outcome State Fault Refusal} (h : isNext o = true) :
    ∃ t, o = .next t := by
  cases o with
  | next t => exact ⟨t, rfl⟩
  | fault f => cases h
  | refused r => cases h

/-- The state after reset with `bytes` in IN and IN_LEN set to their number. -/
def withInput (bytes : List Byte) : State :=
  { State.reset with
    inMem := (bytes.zipIdx.map fun e => (e.2, e.1)).filter fun e => e.2 != 0#8
    host := { State.reset.host with inLen := BitVec.ofNat 32 bytes.length } }

/-- A decoder state as DEC_INIT leaves it: `code`, `range` all ones, and `bytes` still to come. -/
def decoder (code : U32) (bytes : List Byte) : State :=
  { withInput bytes with dec := ⟨code, 0xFFFFFFFF#32⟩ }

/-- ASCII. -/
def text (s : String) : List Byte := s.toList.map fun c => BitVec.ofNat 8 c.toNat

/-- `n` bytes of OUT from address 0. -/
def outBytes (s : State) (n : Nat) : List Byte := (List.range n).map s.outMem.read

/-- A state in the loop of ENC_RUN, or of DEC_RUN. -/
def inSeq (q : Seq) (s : State) : State := { s with host := { s.host with seq := q } }

/-- An OUT memory of `n` bytes. -/
def withOutCap (n : Nat) (s : State) : State := { s with params := { s.params with outMemBytes := n } }

def cellAt (s : State) (a : ProbArray) (i : Nat) : Nat := (s.prob (cellOf a i)).toNat

/-! ### WellFormed: each check refuses something -/

theorem test_wf_cell_index : (Instr.rcEncBit (cellOf .isMatch 192) false).wf = false ∧
    (Instr.rcDecBit (cellOf .posAlign 16)).wf = false := by decide

theorem test_wf_direct_width : (Instr.rcEncDirect 0#32 33#8).wf = false ∧
    (Instr.rcDecDirect 33#8).wf = false := by decide

theorem test_wf_probability : (Instr.rcPriceBit 30#16 true).wf = false ∧
    (Instr.rcPriceBit 2018#16 true).wf = false := by decide

theorem test_wf_tree : (Instr.btEnc (cellOf .posAlign 0) 0#8 0#8).wf = false ∧
    (Instr.btPrice (cellOf .posSlot 0) 9#8 0#8).wf = false ∧
    (Instr.btRenc (cellOf .posAlign 0) 4#8 16#8).wf = false ∧
    (Instr.btRprice (cellOf .posAlign 0) 4#8 16#8).wf = false ∧
    (Instr.btDec (cellOf .posAlign 1) 4#8).wf = false ∧
    (Instr.btRdec (cellOf .posModels 110) 5#8).wf = false := by decide

theorem test_wf_init : (Instr.btInit (cellOf .posAlign 1) 16#32).wf = false := by decide

theorem test_wf_literal_block : (Instr.litEnc 4096#16 0#8).wf = false ∧
    (Instr.litEncMatched 4096#16 0#8 0#8).wf = false ∧ (Instr.litDec 4096#16).wf = false ∧
    (Instr.litDecMatched 4096#16 0#8).wf = false ∧
    (Instr.litPrice 4096#16 false 0#8 0#8).wf = false := by decide

theorem test_wf_length_symbol : (Instr.lenEnc .matchLen 272#16 0#8).wf = false ∧
    (Instr.lenEnc .matchLen 0#16 16#8).wf = false ∧ (Instr.lenDec .repLen 16#8).wf = false ∧
    (Instr.lenSetPrices .repLen 16#8).wf = false ∧ (Instr.lenPrice .repLen 272#16 0#8).wf = false ∧
    (Instr.lenEncCounted .repLen 272#16 0#8).wf = false := by decide

theorem test_wf_counts : (Instr.mfSkip 0#32).wf = false ∧ (Instr.owInit 0#32).wf = false ∧
    (Instr.owCopy 0#32 0#32).wf = false ∧ (Instr.codecCopy 0#16).wf = false ∧
    (Instr.codecCopy 274#16).wf = false := by decide

theorem test_wf_state : (Instr.stChar 12#8).wf = false ∧ (Instr.stMatch 12#8).wf = false ∧
    (Instr.stRep 12#8).wf = false ∧ (Instr.stShortrep 12#8).wf = false ∧
    (Instr.stIsChar 12#8).wf = false ∧ (Instr.optRepLen1Price 12#8 0#8).wf = false := by decide

theorem test_wf_price_operands : (Instr.optPureRepPrice 4#8 0#8 0#8).wf = false ∧
    (Instr.optRepPrice 0#8 1#16 0#8 0#8).wf = false ∧
    (Instr.optPosLenPrice 0#32 274#16 0#8).wf = false ∧
    (Instr.optPosLenPrice 0#32 2#16 16#8).wf = false := by decide

theorem test_wf_distances : (Instr.lenToPosState 1#32).wf = false ∧
    (Instr.posSlot 0x80000000#32).wf = false ∧ (Instr.repsPromote 0#8).wf = false ∧
    (Instr.repsPromote 4#8).wf = false := by decide

theorem test_wf_packet_operands : (Instr.codecEncMatch 1#16 0#32).wf = false ∧
    (Instr.codecEncMatch 2#16 0x80000000#32).wf = false ∧ (Instr.codecEncRep 1#8 1#16).wf = false ∧
    (Instr.codecEncRep 4#8 2#16).wf = false ∧ (Instr.codecEncDistance 0#32 274#16).wf = false ∧
    (Instr.codecDecDistance 1#16).wf = false := by decide

/-- MATCH 2, 0xFFFFFFFF is the end marker (30_encoding R92), a term of its own. -/
theorem test_wf_packets : (Instr.matchDist 2#16 0xFFFFFFFF#32).wf = false ∧
    (Instr.matchDist 274#16 0#32).wf = false ∧ (Instr.longrep0 1#16).wf = false ∧
    (Instr.longrep1 274#16).wf = false ∧ (Instr.longrep2 1#16).wf = false ∧
    (Instr.longrep3 274#16).wf = false := by decide

/-! ### Decoding: words written out from 30_encoding -/

/-- R103's ids without operands, one in each sub-block. -/
theorem test_decode_ids : decodeTableWord 8 0x10 = some .rcEncInit ∧
    decodeTableWord 8 0x14 = some .rcEncFlush ∧ decodeTableWord 8 0x18 = some .rcDecInit ∧
    decodeTableWord 8 0x51 = some .mfGetMatches ∧ decodeTableWord 8 0x55 = some .mfAvail ∧
    decodeTableWord 8 0x56 = some .mfMovePos ∧ decodeTableWord 8 0x62 = some .optReadMatchDistances ∧
    decodeTableWord 8 0x68 = some .optFillDist ∧ decodeTableWord 8 0x69 = some .optFillAlign ∧
    decodeTableWord 8 0x80 = some .codecEncHeader ∧ decodeTableWord 8 0x81 = some .codecEncLit ∧
    decodeTableWord 8 0x84 = some .codecEncEos ∧ decodeTableWord 8 0x85 = some .codecEncBlock ∧
    decodeTableWord 8 0x88 = some .codecDecHeader ∧ decodeTableWord 8 0x8C = some .codecCheckDist ∧
    decodeTableWord 8 0x8D = some .codecDecEarlyEndCheck := by decide +kernel

/-- R103's ids with operands; the operand bytes are log 3's. -/
theorem test_decode_coder_operands :
    decode (.micro [0x11#8, 1#8, 7#8, 0#8, 0#8, 0#8, 1#8]) = .ok (.rcEncBit (cellOf .isRep 7) true) ∧
    decode (.micro [0x12#8, 5#8, 0#8, 0#8, 0#8, 3#8]) = .ok (.rcEncDirect 5#32 3#8) ∧
    decode (.micro [0x19#8, 0#8, 0x12#8, 0#8, 0#8, 0#8]) = .ok (.rcDecBit (cellOf .isMatch 18)) ∧
    decode (.micro [0x1A#8, 6#8]) = .ok (.rcDecDirect 6#8) ∧
    decode (.micro [0x1C#8, 0xE1#8, 3#8, 0#8]) = .ok (.rcPriceBit 1024#16 false) ∧
    decode (.micro [0x20#8, 8#8, 1#8, 0#8, 0#8, 0#8, 3#8, 9#8]) =
      .ok (.btEnc (cellOf .posAlign 0) 4#8 9#8) ∧
    decode (.micro [0x21#8, 6#8, 0x41#8, 0#8, 0#8, 0#8, 5#8]) =
      .ok (.btDec (cellOf .posSlot 64) 6#8) ∧
    decode (.micro [0x26#8, 8#8, 0#8, 0#8, 0#8, 0#8, 0x10#8, 0#8, 0#8, 0#8]) =
      .ok (.btInit (cellOf .posAlign 0) 16#32) := by decide +kernel

theorem test_decode_tree_kinds :
    decode (.micro [0x22#8, 8#8, 1#8, 0#8, 0#8, 0#8, 3#8, 9#8]) =
      .ok (.btPrice (cellOf .posAlign 0) 4#8 9#8) ∧
    decode (.micro [0x23#8, 8#8, 1#8, 0#8, 0#8, 0#8, 3#8, 9#8]) =
      .ok (.btRenc (cellOf .posAlign 0) 4#8 9#8) ∧
    decode (.micro [0x24#8, 8#8, 1#8, 0#8, 0#8, 0#8, 3#8]) = .ok (.btRdec (cellOf .posAlign 0) 4#8) ∧
    decode (.micro [0x25#8, 8#8, 1#8, 0#8, 0#8, 0#8, 3#8, 9#8]) =
      .ok (.btRprice (cellOf .posAlign 0) 4#8 9#8) ∧
    decode (.micro [0x23#8, 7#8, 0#8, 0#8, 0#8, 0#8, 0#8, 1#8]) =
      .ok (.btRenc ⟨.posModels, 0xFFFFFFFF#32⟩ 1#8 1#8) := by decide +kernel

theorem test_decode_literal_and_length :
    decode (.micro [0x30#8, 2#8, 1#8, 0x41#8]) = .ok (.litEnc 258#16 0x41#8) ∧
    decode (.micro [0x31#8, 2#8, 0#8, 0x42#8, 0x41#8]) = .ok (.litEncMatched 2#16 0x42#8 0x41#8) ∧
    decode (.micro [0x32#8, 2#8, 0#8]) = .ok (.litDec 2#16) ∧
    decode (.micro [0x33#8, 2#8, 0#8, 0x42#8]) = .ok (.litDecMatched 2#16 0x42#8) ∧
    decode (.micro [0x34#8, 2#8, 0#8, 1#8, 0x42#8, 0x41#8]) =
      .ok (.litPrice 2#16 true 0x42#8 0x41#8) ∧
    decode (.micro [0x35#8, 5#8, 0#8, 0#8, 0#8, 0#8, 0#8, 0#8, 0#8, 0x41#8]) =
      .ok (.litSelect 5#64 0x41#8) ∧
    decode (.micro [0x40#8, 1#8, 0x0F#8, 1#8, 3#8]) = .ok (.lenEnc .repLen 271#16 3#8) ∧
    decode (.micro [0x41#8, 0#8, 2#8]) = .ok (.lenDec .matchLen 2#8) ∧
    decode (.micro [0x42#8, 0#8, 2#8]) = .ok (.lenSetPrices .matchLen 2#8) ∧
    decode (.micro [0x43#8, 1#8, 8#8, 0#8, 2#8]) = .ok (.lenPrice .repLen 8#16 2#8) ∧
    decode (.micro [0x44#8, 0#8, 8#8, 0#8, 2#8]) = .ok (.lenEncCounted .matchLen 8#16 2#8) := by
  decide +kernel

theorem test_decode_parser_operands :
    decode (.micro [0x52#8, 2#8, 0#8, 0#8, 0#8]) = .ok (.mfSkip 3#32) ∧
    decode (.micro [0x53#8, 0xFF#8, 0xFF#8, 0xFF#8, 0xFF#8, 2#8, 0#8, 0#8, 0#8, 0x11#8, 1#8, 0#8, 0#8]) =
      .ok (.mfMatchLen 0xFFFFFFFF#32 2#32 273#32) ∧
    decode (.micro [0x54#8, 0xFF#8, 0xFF#8, 0xFF#8, 0xFF#8]) = .ok (.mfIndexByte 0xFFFFFFFF#32) ∧
    decode (.micro [0x57#8, 4#8, 0#8, 0#8, 0#8]) = .ok (.mfHash 4#32) ∧
    decode (.micro [0x58#8, 1#8, 0#8, 0#8, 0#8, 4#8, 0#8, 0#8, 0#8, 1#8]) =
      .ok (.mfTreeWalk 1#32 4#32 true) ∧
    decode (.micro [0x60#8, 6#8, 0#8, 0#8, 0#8]) = .ok (.optGetOptimum 6#32) ∧
    decode (.micro [0x61#8, 6#8, 0#8, 0#8, 0#8]) = .ok (.optBackward 6#32) ∧
    decode (.micro [0x63#8, 6#8, 0#8, 0#8, 0#8]) = .ok (.optMovePos 6#32) ∧
    decode (.micro [0x64#8, 7#8, 2#8]) = .ok (.optRepLen1Price 7#8 2#8) ∧
    decode (.micro [0x65#8, 3#8, 7#8, 2#8]) = .ok (.optPureRepPrice 3#8 7#8 2#8) ∧
    decode (.micro [0x66#8, 3#8, 0#8, 0#8, 7#8, 2#8]) = .ok (.optRepPrice 3#8 2#16 7#8 2#8) ∧
    decode (.micro [0x67#8, 0xC8#8, 0#8, 0#8, 0#8, 0#8, 0#8, 1#8]) =
      .ok (.optPosLenPrice 200#32 2#16 1#8) := by decide +kernel

theorem test_decode_automaton_operands :
    decode (.micro [0x70#8, 9#8]) = .ok (.stChar 9#8) ∧ decode (.micro [0x71#8, 8#8]) = .ok (.stMatch 8#8) ∧
    decode (.micro [0x72#8, 7#8]) = .ok (.stRep 7#8) ∧
    decode (.micro [0x73#8, 6#8]) = .ok (.stShortrep 6#8) ∧
    decode (.micro [0x74#8, 6#8]) = .ok (.stIsChar 6#8) ∧
    decode (.micro [0x75#8, 1#8, 0#8, 0#8, 0#8]) = .ok (.repsPush 1#32) ∧
    decode (.micro [0x76#8, 0#8]) = .ok (.repsPromote 1#8) ∧
    decode (.micro [0x77#8, 3#8, 0#8, 0#8, 0#8]) = .ok (.lenToPosState 5#32) ∧
    decode (.micro [0x78#8, 0x7F#8, 0#8, 0#8, 0#8]) = .ok (.posSlot 127#32) ∧
    decode (.micro [0x79#8, 0xC8#8, 0#8, 0#8, 0#8]) = .ok (.posSlot2 200#32) := by decide +kernel

theorem test_decode_codec_and_window_operands :
    decode (.micro [0x82#8, 0#8, 0#8, 1#8, 0#8, 0#8, 0#8]) = .ok (.codecEncMatch 2#16 1#32) ∧
    decode (.micro [0x83#8, 0#8, 0#8, 0#8]) = .ok (.codecEncRep 0#8 1#16) ∧
    decode (.micro [0x86#8, 5#8, 0#8, 0#8, 0#8, 1#8, 0#8]) = .ok (.codecEncDistance 5#32 3#16) ∧
    decode (.micro [0x8A#8, 1#8, 0#8]) = .ok (.codecDecDistance 3#16) ∧
    decode (.micro [0x8E#8, 4#8, 0#8]) = .ok (.codecCopy 5#16) ∧
    decode (.micro [0x90#8, 0#8, 0#8, 0#8, 0#8]) = .ok (.owInit 1#32) ∧
    decode (.micro [0x91#8, 0x41#8]) = .ok (.owPut 0x41#8) ∧
    decode (.micro [0x92#8, 1#8, 0#8, 0#8, 0#8, 5#8, 0#8, 0#8, 0#8]) = .ok (.owCopy 1#32 6#32) ∧
    decode (.micro [0x93#8, 4#8, 0#8, 0#8, 0#8]) = .ok (.owGet 4#32) := by decide +kernel

/-- R100 and 10_state R21: OP in bits 3:0, IRQ_EN bit 4, WRITE_END_MARKER bit 5, the rest ignored. -/
theorem test_decode_ctrl : decodeCtrl 0x20#32 = .nop false true ∧ decodeCtrl 0x11#32 = .reset true false ∧
    decodeCtrl 0xFFFFFFC2#32 = .encode false false ∧ decodeCtrl 0x33#32 = .decode true true ∧
    decodeCtrl 0x4#32 = .ctrlReserved4 0#2 false false ∧ decodeCtrl 0x7#32 = .ctrlReserved4 3#2 false false ∧
    decodeCtrl 0x1F#32 = .ctrlReserved8 7#3 true false := by decide

/-- R85..R94: MATCH 6, 1 is `1 0`, k = 4 as `0 100`, slot 1 as `000001`; LONGREP1 9 is `1 1 1 0` and
k = 7 as `0 111`; LONGREP2 10 has k = 8 as `1 0 000`; LONGREP3 18 has k = 16 as `1 1` and eight zeros. -/
theorem test_decode_packets :
    decode (.packet [true, false, false, true, false, false, false, false, false, false, false, true]) =
      .ok (.matchDist 6#16 1#32) ∧
    decode (.packet [true, true, false, true, false, false, false, true]) = .ok (.longrep0 3#16) ∧
    decode (.packet [true, true, true, false, false, true, true, true]) = .ok (.longrep1 9#16) ∧
    decode (.packet [true, true, true, true, false, true, false, false, false, false]) =
      .ok (.longrep2 10#16) ∧
    decode (.packet ([true, true, true, true, true, true, true] ++ List.replicate 8 false)) =
      .ok (.longrep3 18#16) ∧
    decode (.packet ([true, false, false, false, false, false] ++ List.replicate 36 true)) = .ok .eos := by
  decide +kernel

/-- R94: slot 4 (`000100`) and footer bit 1 is distance 5; slot 14, direct bits `01`, low bits 4 as
`0010` (lowest first) is distance 128 + 16 + 4. -/
theorem test_decode_distances :
    decode (.packet [true, false, false, false, false, false, false, false, false, true, false, false,
      true]) = .ok (.matchDist 2#16 5#32) ∧
    decode (.packet [true, false, false, false, false, false, false, false, true, true, true, false,
      false, true, false, false, true, false]) = .ok (.matchDist 2#16 148#32) := by decide +kernel

theorem test_decode_rejects : decode (.micro [0x8F#8]) = .error .unassignedMicroOp ∧
    decode (.micro []) = .error .truncatedCode ∧ decode (.micro [0x70#8, 12#8]) = .error .operandOutOfRange ∧
    decode (.packet [true, true, true]) = .error .truncatedCode := by decide +kernel

/-! ### Range coder: examples of 40_range_coder, vectors of 95_test_vectors 2.1 -/

theorem test_enc_init : runs .rcEncInit { State.reset with enc := ⟨5#64, 1#32, 9#8, 7#64, 3#64⟩ } (fun t =>
    t.enc == ⟨0#64, 0xFFFFFFFF#32, 0#8, 1#64, 0#64⟩) = true := by decide +kernel

theorem test_enc_bit_zero : runs (.rcEncBit (cellOf .isMatch 0) false) State.reset (fun t =>
    t.enc.range == 0x7FFFFC00#32 && t.enc.low == 0#64 && cellAt t .isMatch 0 == 1056) = true := by
  decide +kernel

theorem test_enc_bit_one : runs (.rcEncBit (cellOf .isMatch 0) true) State.reset (fun t =>
    t.enc.low == 0x7FFFFC00#64 && t.enc.range == 0x800003FF#32 && cellAt t .isMatch 0 == 992) = true := by
  decide +kernel

theorem test_shift_low_holds : runs .rcShiftLow
    { State.reset with enc := { State.reset.enc with low := 0xFF123456#64, cache := 0x12#8 } } (fun t =>
    t.host.outLen == 0#64 && t.enc.cacheSize == 2#64 && t.enc.low == 0x12345600#64) = true := by
  decide +kernel

theorem test_shift_low_carries : runs .rcShiftLow
    { State.reset with enc := { State.reset.enc with low := 0x100ABCDEF#64, cache := 0x12#8, cacheSize := 2#64 } }
    (fun t => outBytes t 2 == [0x13#8, 0x00#8] && t.enc.cache == 0#8 && t.enc.cacheSize == 1#64 &&
      t.enc.low == 0xABCDEF00#64 && t.host.outLen == 2#64) = true := by decide +kernel

theorem test_enc_direct : runs (.rcEncDirect 5#32 3#8) State.reset (fun t =>
    t.enc.range == 0x1FFFFFFF#32 && t.enc.low == 0x9FFFFFFE#64 && t.host.outLen == 0#64) = true := by
  decide +kernel

theorem test_enc_flush : runs .rcEncFlush
    { State.reset with enc := { State.reset.enc with low := 0x7FFFFC00#64, range := 0x800003FF#32 } } (fun t =>
    outBytes t 5 == [0#8, 0x7F#8, 0xFF#8, 0xFC#8, 0#8] && t.host.outLen == 5#64) = true := by
  decide +kernel

theorem test_dec_init : runs .rcDecInit (withInput [0#8, 0x7F#8, 0xFF#8, 0xFC#8, 0#8]) (fun t =>
    t.dec == ⟨0x7FFFFC00#32, 0xFFFFFFFF#32⟩ && t.host.inPos == 5#32) = true := by decide +kernel

theorem test_dec_init_short : runs .rcDecInit (withInput [0#8, 0x7F#8, 0xFF#8, 0xFC#8]) (fun t =>
    t.host.errCode == 3#4 && t.host.seq == .error && t.host.inPos == 4#32) = true := by decide +kernel

theorem test_dec_bit : runs (.rcDecBit (cellOf .isMatch 0)) (decoder 0x7FFFFC00#32 []) (fun t =>
    t.ret == .word 1#32 && t.dec == ⟨0#32, 0x800003FF#32⟩ && cellAt t .isMatch 0 == 992 &&
      t.host.inPos == 0#32) = true := by decide +kernel

/-- ENC_DIRECT 0x2A, 6 writes `00 A7 FF FF FD` (R122). -/
theorem test_dec_direct : runs (.rcDecDirect 6#8) (decoder 0xA7FFFFFD#32 []) (fun t =>
    t.ret == .word 0x2A#32) = true := by decide +kernel

theorem test_price_bit : runs (.rcPriceBit 512#16 false) State.reset (fun t => t.ret == .word 128#32) = true ∧
    runs (.rcPriceBit 31#16 false) State.reset (fun t => t.ret == .word 400#32) = true := by decide +kernel

/-- R141 and 95_test_vectors 2.1 give 2; R126's example says 1 (log 29). -/
theorem test_price_bit_one : runs (.rcPriceBit 31#16 true) State.reset (fun t => t.ret == .word 2#32) = true ∧
    runs (.rcPriceBit 2016#16 true) State.reset (fun t => t.ret == .word 384#32) = true := by decide +kernel

/-! ### Bit trees: examples of 41_bit_tree, vectors 2.2 -/

theorem test_bt_enc : runs (.btEnc (cellOf (.lenLow .matchLen) 0) 3#8 5#8) State.reset (fun t =>
    (List.range 8).map (cellAt t (.lenLow .matchLen)) == [1024, 992, 1024, 1056, 1024, 1024, 992, 1024] &&
      t.enc.low == 0x9FFFFC00#64 && t.enc.range == 0x20000000#32) = true := by decide +kernel

theorem test_bt_dec : runs (.btDec (cellOf (.lenLow .matchLen) 0) 3#8) (decoder 0x9FFFFC00#32 []) (fun t =>
    t.ret == .word 5#32 && cellAt t (.lenLow .matchLen) 1 == 992 && cellAt t (.lenLow .matchLen) 3 == 1056 &&
      cellAt t (.lenLow .matchLen) 6 == 992) = true := by decide +kernel

/-- The cells after BT.ENC 3, 5 (95_test_vectors 2.2). -/
def coded5 : State :=
  ((State.reset.setProb (cellOf (.lenLow .matchLen) 1) 992#16).setProb
    (cellOf (.lenLow .matchLen) 3) 1056#16).setProb (cellOf (.lenLow .matchLen) 6) 992#16

theorem test_bt_price : runs (.btPrice (cellOf (.lenLow .matchLen) 0) 3#8 5#8) coded5 (fun t =>
    t.ret == .word 186#32) = true ∧
    runs (.btPrice (cellOf (.lenLow .matchLen) 0) 3#8 2#8) coded5 (fun t => t.ret == .word 196#32) = true := by
  decide +kernel

theorem test_bt_renc : runs (.btRenc (cellOf .posAlign 0) 4#8 6#8) State.reset (fun t =>
    [1, 2, 5, 11].map (cellAt t .posAlign) == [1056, 992, 992, 1056] && t.enc.low == 0x5FFFFC00#64) = true := by
  decide +kernel

theorem test_bt_rdec : runs (.btRdec (cellOf .posAlign 0) 4#8) (decoder 0x5FFFFC00#32 []) (fun t =>
    t.ret == .word 6#32 && [1, 2, 5, 11].map (cellAt t .posAlign) == [1056, 992, 992, 1056]) = true := by
  decide +kernel

theorem test_bt_rprice :
    runs (.btRprice (cellOf .posAlign 0) 4#8 1#8) (State.reset.setProb (cellOf .posAlign 1) 31#16)
      (fun t => t.ret == .word 194#32) = true ∧
    runs (.btRprice (cellOf .posAlign 0) 4#8 0#8) (State.reset.setProb (cellOf .posAlign 1) 31#16)
      (fun t => t.ret == .word 592#32) = true := by decide +kernel

theorem test_bt_init : runs (.btInit (cellOf .posAlign 1) 2#32)
    ((((State.reset.setProb (cellOf .posAlign 0) 31#16).setProb (cellOf .posAlign 1) 31#16).setProb
      (cellOf .posAlign 2) 31#16).setProb (cellOf .posAlign 3) 31#16) (fun t =>
    (List.range 4).map (cellAt t .posAlign) == [31, 1024, 1024, 31]) = true := by decide +kernel

/-! ### Literals: examples of 42_literal_coder, vectors 2.3 -/

def literalParams (lc : U4) (lp : BitVec 3) : State :=
  { State.reset with codec := { State.reset.codec with lc := lc, lp := lp } }

theorem test_lit_select : runs (.litSelect 5#64 0x41#8) (literalParams 3#4 0#3) (fun t => t.ret == .word 2#32) = true ∧
    runs (.litSelect 0#64 0xE0#8) (literalParams 3#4 0#3) (fun t => t.ret == .word 7#32) = true ∧
    runs (.litSelect 7#64 0xFF#8) (literalParams 0#4 2#3) (fun t => t.ret == .word 3#32) = true := by
  decide +kernel

theorem test_lit_select_wide : runs (.litSelect 3#64 0x7F#8) (literalParams 2#4 1#3) (fun t => t.ret == .word 5#32) = true ∧
    runs (.litSelect 0x13#64 0xAB#8) (literalParams 8#4 4#3) (fun t => t.ret == .word 939#32) = true := by
  decide +kernel

theorem test_lit_enc : runs (.litEnc 1#16 0x41#8) State.reset (fun t =>
    [1, 2, 5, 10, 20, 40, 80, 160].map (fun m => cellAt t .literal (768 + m)) ==
      [1056, 992, 1056, 1056, 1056, 1056, 1056, 992] &&
    t.enc.low == 0x40FFFC00#64 && t.enc.range == 0x01000000#32) = true := by decide +kernel

theorem test_lit_enc_matched : runs (.litEncMatched 0#16 0x42#8 0x41#8) State.reset (fun t =>
    [0x101, 0x202, 0x105, 0x10A, 0x114, 0x128, 0x250, 0xA0].map (cellAt t .literal) ==
      [1056, 992, 1056, 1056, 1056, 1056, 1056, 992] && t.enc.low == 0x40FFFC00#64) = true := by
  decide +kernel

theorem test_lit_dec : runs (.litDec 0#16) (decoder 0x40FFFC00#32 []) (fun t =>
    t.ret == .word 0x41#32 && cellAt t .literal 2 == 992) = true := by decide +kernel

theorem test_lit_dec_matched : runs (.litDecMatched 0#16 0x42#8) (decoder 0x40FFFC00#32 []) (fun t =>
    t.ret == .word 0x41#32 && [0x202, 0x250, 0xA0].map (cellAt t .literal) == [992, 1056, 992]) = true := by
  decide +kernel

theorem test_lit_price : runs (.litPrice 0#16 false 0#8 0x41#8) State.reset (fun t => t.ret == .word 512#32) = true ∧
    runs (.litPrice 0#16 true 0x42#8 0x41#8) (State.reset.setProb (cellOf .literal 0x202) 31#16) (fun t =>
      t.ret == .word 450#32) = true := by decide +kernel

/-! ### Lengths: examples of 43_length_coder, vectors 2.4 -/

theorem test_len_enc : runs (.lenEnc .matchLen 7#16 1#8) State.reset (fun t => t.enc.low == 0x6FFFFC00#64) = true ∧
    runs (.lenEnc .repLen 15#16 3#8) State.reset (fun t =>
      t.enc.low == 0xB7FFFC00#64 && cellAt t (.lenMid .repLen) (8 * 3 + 1) == 992) = true := by decide +kernel

/-- k = 16 is `00 BF FF FC 00 00`: one byte out, then `BF` cached. -/
theorem test_len_enc_high : runs (.lenEnc .matchLen 16#16 2#8) State.reset (fun t =>
    t.host.outLen == 1#64 && t.enc.cache == 0xBF#8 && t.enc.low == 0xFFFC0000#64) = true := by decide +kernel

theorem test_len_dec : runs (.lenDec .matchLen 1#8) (decoder 0x6FFFFC00#32 []) (fun t => t.ret == .word 7#32) = true ∧
    runs (.lenDec .repLen 3#8) (decoder 0xB7FFFC00#32 []) (fun t => t.ret == .word 15#32) = true := by
  decide +kernel

theorem test_len_dec_high : runs (.lenDec .matchLen 2#8) (decoder 0xBFFFFC00#32 [0#8]) (fun t =>
    t.ret == .word 16#32) = true := by decide +kernel

/-- A table of 18 symbols, fresh cells. -/
def lengthTable : State :=
  { State.reset with prices := State.reset.prices.setLen .repLen ⟨[], 18#32, []⟩ }

theorem test_len_set_prices : runs (.lenSetPrices .repLen 2#8) lengthTable (fun t =>
    [0, 7, 8, 15, 16, 17, 18].map (lenPriceAt t.prices.repLen 2) ==
      [256#32, 256#32, 320#32, 320#32, 640#32, 640#32, 0#32] &&
    lenCounterAt t.prices.repLen 2 == 18#32 && lenPriceAt t.prices.repLen 1 0 == 0#32) = true := by
  decide +kernel

theorem test_len_price : runs (.lenPrice .matchLen 8#16 1#8)
    { State.reset with prices := State.reset.prices.setLen .matchLen ⟨[(280, 320#32)], 9#32, []⟩ } (fun t =>
    t.ret == .word 320#32) = true := by decide +kernel

theorem test_len_enc_counted : runs (.lenEncCounted .matchLen 0#16 0#8)
    { State.reset with prices := State.reset.prices.setLen .matchLen ⟨[(0, 256#32)], 3#32, [(0, 3#32)]⟩ } (fun t =>
    lenCounterAt t.prices.matchLen 0 == 2#32 && lenPriceAt t.prices.matchLen 0 0 == 256#32) = true := by
  decide +kernel

/-- R169's third call: the cells as two codings of 0 leave them (1024, 1056, 1087). -/
theorem test_len_enc_counted_refresh : runs (.lenEncCounted .matchLen 0#16 0#8)
    { (((State.reset.setProb (cellOf (.lenChoice .matchLen) 0) 1087#16).setProb
        (cellOf (.lenLow .matchLen) 1) 1087#16).setProb (cellOf (.lenLow .matchLen) 2) 1087#16).setProb
        (cellOf (.lenLow .matchLen) 4) 1087#16 with
      prices := State.reset.prices.setLen .matchLen ⟨[(0, 256#32)], 3#32, [(0, 1#32)]⟩ } (fun t =>
    lenCounterAt t.prices.matchLen 0 == 3#32 && lenPriceAt t.prices.matchLen 0 0 == 232#32 &&
      lenPriceAt t.prices.matchLen 0 1 == 250#32) = true := by decide +kernel

/-! ### Match finder: examples of 44_match_finder, vectors 2.5 -/

def kindAt (kind : MfKind) (fast : BitVec 9) (s : State) : State :=
  { s with encCfg := { s.encCfg with mfKind := kind, fastBytes := fast } }

/-- The match finder after the first `n` bytes of `s`'s input, with the given tables. -/
def finderAt (n : Nat) (hash son : Store U32) (s : State) : State :=
  { s with
    mf :=
      { pos := BitVec.ofNat 32 (n + 1)
        streamPos := s.host.inLen + 1#32
        cyclicBufferSize := 0x200001#32
        cyclicBufferPos := BitVec.ofNat 32 n
        son := son
        hash := hash
        hashMask := 0xFFFFF#32
        cutValue := 80#32
        matchMaxLen := s.encCfg.fastBytes.setWidth 32 } }

/-- "abcdxabcdyabcd" with the bytes 0..4 inserted: only "abcd" at tag 1 is in a bucket looked up. -/
def abcd5 : State :=
  finderAt 5 [(428, 1#32), (13996, 1#32), (171660, 1#32)] []
    (kindAt .bt4 128#9 (withInput (text "abcdxabcdyabcd")))

/-- "ABABABAB" with bytes 0 and 1 inserted, BT2: bucket 0x4241 holds tag 1. -/
def abab2 (fast : BitVec 9) : State :=
  finderAt 2 [(0x4142, 2#32), (0x4241, 1#32)] [] (kindAt .bt2 fast (withInput (text "ABABABAB")))

theorem test_mf_init : runs .mfInit
    { kindAt .bt4 128#9 (withInput (text "0123456789")) with
      codec := { State.reset.codec with dictSize := 0x200000#32 }, mf := abcd5.mf } (fun t =>
    t.mf.pos == 1#32 && t.mf.streamPos == 11#32 && t.mf.cyclicBufferSize == 0x200001#32 &&
      t.mf.cyclicBufferPos == 0#32 && t.mf.hashMask == 0xFFFFF#32 && t.mf.cutValue == 80#32 &&
      t.mf.matchMaxLen == 128#32 && hashGet t.mf 428 == 0#32) = true := by decide +kernel

theorem test_mf_hash : runs (.mfHash 0#32) abcd5 (fun t =>
    t.ret == .hash (some 428#32) (some 0x32AC#32) 105100#32) = true := by decide +kernel

theorem test_mf_hash_bt2 : runs (.mfHash 0#32) (kindAt .bt2 64#9 abcd5) (fun t =>
    t.ret == .hash none none 0x6261#32) = true := by decide +kernel

theorem test_mf_avail : runs .mfAvail (finderAt 0 [] [] (withInput (text "0123456789"))) (fun t =>
    t.ret == .word 10#32) = true := by decide +kernel

theorem test_mf_index_byte : runs (.mfIndexByte 0xFFFFFFFF#32) (finderAt 2 [] [] (withInput (text "abc"))) (fun t =>
    t.ret == .word 0x62#32) = true := by decide +kernel

theorem test_mf_move_pos : runs .mfMovePos
    { State.reset with mf := { abcd5.mf with cyclicBufferSize := 3#32, cyclicBufferPos := 2#32, pos := 7#32 } }
    (fun t => t.mf.cyclicBufferPos == 0#32 && t.mf.pos == 8#32) = true := by decide +kernel

theorem test_mf_match_len : runs (.mfMatchLen 0xFFFFFFFF#32 2#32 273#32)
    (finderAt 4 [] [] (withInput (text "abcabcab"))) (fun t => t.ret == .word 5#32) = true := by decide +kernel

theorem test_mf_get_matches : runs .mfGetMatches abcd5 (fun t =>
    t.ret == .cells [4#32, 4#32] && t.mf.pos == 7#32 && hashGet t.mf 428 == 6#32 &&
      hashGet t.mf 13996 == 6#32 && hashGet t.mf 171660 == 6#32) = true := by decide +kernel

theorem test_mf_get_matches_bt2 : runs .mfGetMatches (abab2 64#9) (fun t =>
    t.ret == .cells [6#32, 1#32] && t.mf.pos == 4#32) = true := by decide +kernel

/-- R191's example at index 10 of "abcdxabcdyabcd": tag 6 is spliced, its children 1 and 0 move up. -/
theorem test_mf_tree_walk : runs (.mfTreeWalk 6#32 4#32 true)
    (finderAt 10 [] [(10, 1#32)] (kindAt .bt4 128#9 (withInput (text "abcdxabcdyabcd")))) (fun t =>
    t.ret == .cells [4#32, 4#32] && sonGet t.mf.son 20#32 == 1#32 && sonGet t.mf.son 21#32 == 0#32) = true := by
  decide +kernel

/-- A candidate ("b") above the root ("a"): it becomes the root's greater child, son[ptr0]. -/
theorem test_mf_tree_walk_descends : runs (.mfTreeWalk 1#32 4#32 true)
    (finderAt 4 [] [] (kindAt .bt4 128#9 (withInput (text "bxyzaxyz")))) (fun t =>
    t.ret == .cells [] && sonGet t.mf.son 9#32 == 1#32 && sonGet t.mf.son 8#32 == 0#32) = true := by
  decide +kernel

theorem test_mf_skip : runs (.mfSkip 3#32)
    (finderAt 0 [] [] (kindAt .bt4 128#9 (withInput (text "aaaaaaaa")))) (fun t =>
    t.mf.pos == 4#32 && t.mf.cyclicBufferPos == 3#32 && t.ret == .none) = true := by decide +kernel

/-! ### Optimal parser: examples of 45_optimal_parser -/

theorem test_read_match_distances : runs .optReadMatchDistances abcd5 (fun t =>
    t.ret == .word 4#32 && t.parser.numDistancePairs == 2#32 && distAt t.parser 0 == 4#32 &&
      distAt t.parser 1 == 4#32 && t.parser.additionalOffset == 1#32) = true := by decide +kernel

/-- fastBytes 5: the pair (5, 1) is extended to the 6 bytes left. -/
theorem test_read_match_distances_extends : runs .optReadMatchDistances (abab2 5#9) (fun t =>
    t.ret == .word 6#32 && distAt t.parser 0 == 5#32 && distAt t.parser 1 == 1#32) = true := by
  decide +kernel

theorem test_opt_move_pos : runs (.optMovePos 0#32) abcd5 (fun t => t.mf == abcd5.mf &&
    t.parser.additionalOffset == 0#32) = true ∧
    runs (.optMovePos 2#32) abcd5 (fun t => t.mf.pos == 8#32 && t.parser.additionalOffset == 2#32) = true := by
  decide +kernel

/-- A lattice of tokens as (node, posPrev, backPrev). -/
def lattice (l : List (Nat × U32 × I32)) : State :=
  { State.reset with
    parser :=
      { State.reset.parser with
        optimum := l.map fun e => (e.1, { Node.blank with posPrev := e.2.1, backPrev := e.2.2 }) } }

theorem test_get_optimum_replays : runs (.optGetOptimum 0#32)
    { lattice [(2, 5#32, 7#32)] with
      parser := { (lattice [(2, 5#32, 7#32)]).parser with optimumEndIndex := 9#32, optimumCurrentIndex := 2#32 } }
    (fun t => t.ret == .word 3#32 && t.parser.backRes == 7#32 && t.parser.optimumCurrentIndex == 5#32) = true := by
  decide +kernel

/-- R216 with fastBytes 5 on "aaaaaaa" at position 1: rep 0 of the 6 bytes left. -/
theorem test_get_optimum_takes_long_rep : runs (.optGetOptimum 1#32)
    (finderAt 1 [(0x6161, 1#32)] [] (kindAt .bt2 5#9 (withInput (text "aaaaaaa")))) (fun t =>
    t.ret == .word 6#32 && t.parser.backRes == 0#32 && t.parser.additionalOffset == 6#32 &&
      t.mf.pos == 8#32) = true := by decide +kernel

/-- 3 <- 1 <- 0 becomes 0 -> 1 -> 3. -/
theorem test_backward : runs (.optBackward 3#32) (lattice [(1, 0#32, 0xFFFFFFFF#32), (3, 1#32, 5#32)]) (fun t =>
    t.ret == .word 1#32 && t.parser.backRes == 0xFFFFFFFF#32 && t.parser.optimumEndIndex == 3#32 &&
      (node t.parser.optimum 1).posPrev == 3#32 && (node t.parser.optimum 1).backPrev == 5#32) = true := by
  decide +kernel

/-- R227's hop: a MATCH of 2 bytes at distance 2, a literal and rep 0 of 2 bytes, in one node. -/
theorem test_backward_expands_hop : runs (.optBackward 5#32)
    { State.reset with parser := { State.reset.parser with optimum :=
        [(5, { Node.blank with posPrev := 3#32, prev1IsChar := true, prev2 := true, backPrev2 := 6#32 })] } } (fun t =>
    t.ret == .word 2#32 && t.parser.backRes == 6#32 && (node t.parser.optimum 2).posPrev == 3#32 &&
      (node t.parser.optimum 2).backPrev == 0xFFFFFFFF#32 && (node t.parser.optimum 3).posPrev == 5#32 &&
      (node t.parser.optimum 3).backPrev == 0#32) = true := by decide +kernel

theorem test_rep_len1_price : runs (.optRepLen1Price 7#8 2#8) State.reset (fun t => t.ret == .word 128#32) = true ∧
    runs (.optRepLen1Price 7#8 2#8) (State.reset.setProb (cellOf .isRep0Long 114) 31#16) (fun t =>
      t.ret == .word 464#32) = true := by decide +kernel

theorem test_pure_rep_price : [0#8, 1#8, 2#8, 3#8].map (fun i => runs (.optPureRepPrice i 0#8 0#8) State.reset
    (fun t => t.ret == .word (if i = 2#8 ∨ i = 3#8 then 192#32 else 128#32))) = [true, true, true, true] := by
  decide +kernel

theorem test_rep_price : runs (.optRepPrice 0#8 2#16 0#8 0#8)
    { State.reset with prices := State.reset.prices.setLen .repLen ⟨[(0, 256#32)], 9#32, []⟩ } (fun t =>
    t.ret == .word 384#32) = true := by decide +kernel

/-- R233's `(200, 2, 0)` and `(5, 10, 1)` at ENCODE start: slot 15 of row 0, distance 5 of row 3. -/
theorem test_pos_len_price :
    runs (.optPosLenPrice 200#32 2#16 0#8)
      { State.reset with
        prices :=
          { State.reset.prices.setLen .matchLen ⟨[(0, 256#32)], 9#32, []⟩ with
            posSlotPrices := [(15, 512#32)], alignPrices := [(8, 256#32)] } } (fun t =>
      t.ret == .word 1024#32) = true ∧
    runs (.optPosLenPrice 5#32 10#16 1#8)
      { State.reset with
        prices :=
          { State.reset.prices.setLen .matchLen ⟨[(280, 320#32)], 9#32, []⟩ with
            distancesPrices := [(389, 448#32)] } } (fun t => t.ret == .word 768#32) = true := by
  decide +kernel

theorem test_fill_dist : runs .optFillDist
    { State.reset with prices := { State.reset.prices with distTableSize := 42#32, matchPriceCount := 130#32 } }
    (fun t =>
      [0, 5, 14, 41].map (fun i => Store.get 0#32 t.prices.posSlotPrices i) == [384#32, 384#32, 512#32, 1344#32] &&
      t.prices.matchPriceCount == 0#32) = true := by decide +kernel

/-- R240's `distancesPrices[4], [5] = 448`, from slot 4's 384 and one footer bit. -/
theorem test_fill_dist_entries :
    [3, 4, 5].map (fun i => distancePriceOf State.reset [(3, 384#32), (4, 384#32)] 0 i) =
      [384#32, 448#32, 448#32] := by decide +kernel

theorem test_fill_align : runs .optFillAlign
    { State.reset with prices := { State.reset.prices with alignPriceCount := 16#32 } } (fun t =>
    t.prices.alignPrices == (List.range 16).map (fun i => (i, 256#32)) && t.prices.alignPriceCount == 0#32) = true := by
  decide +kernel

/-! ### Automaton, reps, slots: 46_codec R254, R258..R265, vectors 2.7 -/

def words (l : List Nat) : List Ret := l.map fun v => .word (BitVec.ofNat 32 v)

def retOf (i : Instr) : Ret :=
  match exec i State.reset with
  | .next t => t.ret
  | .fault _ => .none
  | .refused _ => .none

def states : List Byte := (List.range 12).map (BitVec.ofNat 8)

theorem test_st_char : states.map (fun v => retOf (.stChar v)) = words [0, 0, 0, 0, 1, 2, 3, 4, 5, 6, 4, 5] := by
  decide +kernel

theorem test_st_match : states.map (fun v => retOf (.stMatch v)) = words [7, 7, 7, 7, 7, 7, 7, 10, 10, 10, 10, 10] := by
  decide +kernel

theorem test_st_rep : states.map (fun v => retOf (.stRep v)) = words [8, 8, 8, 8, 8, 8, 8, 11, 11, 11, 11, 11] := by
  decide +kernel

theorem test_st_shortrep : states.map (fun v => retOf (.stShortrep v)) =
    words [9, 9, 9, 9, 9, 9, 9, 11, 11, 11, 11, 11] := by decide +kernel

theorem test_st_is_char : retOf (.stIsChar 6#8) = .bool true ∧ retOf (.stIsChar 7#8) = .bool false := by
  decide +kernel

theorem test_len_to_pos_state : [2#32, 5#32, 273#32].map (fun v => retOf (.lenToPosState v)) = words [0, 3, 3] := by
  decide +kernel

def reps5678 : State := { State.reset with codec := { State.reset.codec with reps := ⟨5#32, 6#32, 7#32, 8#32⟩ } }

theorem test_reps_push : runs (.repsPush 1#32) reps5678 (fun t => t.codec.reps == ⟨1#32, 5#32, 6#32, 7#32⟩) = true := by
  decide +kernel

theorem test_reps_promote :
    runs (.repsPromote 1#8) reps5678 (fun t => t.codec.reps == ⟨6#32, 5#32, 7#32, 8#32⟩) = true ∧
    runs (.repsPromote 2#8) reps5678 (fun t => t.codec.reps == ⟨7#32, 5#32, 6#32, 8#32⟩) = true ∧
    runs (.repsPromote 3#8) reps5678 (fun t => t.codec.reps == ⟨8#32, 5#32, 6#32, 7#32⟩) = true := by
  decide +kernel

theorem test_pos_slot : [4#32, 11#32, 127#32, 128#32, 2047#32, 2048#32, 0x200000#32, 0x1FFFFFFF#32].map
    (fun d => retOf (.posSlot d)) = words [4, 6, 13, 14, 21, 22, 42, 57] := by decide +kernel

theorem test_pos_slot2 : [200#32, 2047#32, 4095#32, 2097151#32].map (fun d => retOf (.posSlot2 d)) =
    words [15, 21, 23, 41] := by decide +kernel

/-! ### Codec: examples of 46_codec -/

theorem test_enc_header : runs .codecEncHeader
    { withInput (text "ABABABAB") with codec := { State.reset.codec with dictSize := 0x200000#32 } } (fun t =>
    outBytes t 13 == [0x5D#8, 0#8, 0#8, 0x20#8, 0#8, 8#8, 0#8, 0#8, 0#8, 0#8, 0#8, 0#8, 0#8] &&
      t.host.outLen == 13#64 && t.host.size == 8#64 && t.codec.lc == 3#4 && t.codec.lp == 0#3 &&
      t.codec.pb == 2#3) = true := by decide +kernel

/-- A level 5 header of 8 bytes and the 5 range coder bytes of an empty body. -/
def header18 : List Byte :=
  [0x5D#8, 0#8, 0#8, 0x20#8, 0#8, 8#8] ++ List.replicate 12 0#8

theorem test_dec_header : runs .codecDecHeader (withInput header18) (fun t =>
    t.codec.lc == 3#4 && t.codec.lp == 0#3 && t.codec.pb == 2#3 && t.codec.dictSize == 0x200000#32 &&
      t.codec.dictSizeCheck == 0x200000#32 && t.codec.outSize == some 8#64 && t.codec.posStateMask == 3#32 &&
      t.codec.literalPosMask == 0#32 && t.host.inPos == 13#32) = true := by decide +kernel

/-- R271's corner: 7 bytes with 0xFF first are InvalidHeader, 7 valid bytes TruncatedInput. -/
theorem test_dec_header_order : runs .codecDecHeader (withInput (List.replicate 7 0xFF#8)) (fun t =>
    t.host.errCode == 1#4 && t.host.inPos == 1#32) = true ∧
    runs .codecDecHeader (withInput (header18.take 7)) (fun t =>
      t.host.errCode == 3#4 && t.host.inPos == 7#32) = true := by decide +kernel

/-- The first packet of "A": body `00 20 7F FC 00 00`, so one byte is out and `20` is cached. -/
theorem test_enc_lit : runs .codecEncLit
    { finderAt 1 [] [] (literalParams 3#4 0#3) with
      inMem := [(0, 0x41#8)]
      host := { State.reset.host with inLen := 1#32 }
      parser := { State.reset.parser with additionalOffset := 1#32 } } (fun t =>
    outBytes t 1 == [0#8] && t.host.outLen == 1#64 && t.enc.cache == 0x20#8 && t.enc.low == 0x7FFC0000#64 &&
      t.codec.prevByte == 0x41#8 && t.codec.state == 0#4 && cellAt t .isMatch 0 == 1056) = true := by
  decide +kernel

/-- The encoder of "ABABABAB" before MATCH 6, 1: nowPos 2, posState 2, state 0. -/
def atPos2 : State :=
  { abab2 64#9 with
    codec := { State.reset.codec with nowPos := 2#64, posStateMask := 3#32, reps := ⟨5#32, 6#32, 7#32, 8#32⟩ }
    prices := (State.reset.prices.setLen .matchLen ⟨[], 63#32, [(2, 63#32)]⟩).setLen .repLen
      ⟨[], 63#32, [(2, 63#32)]⟩ }

theorem test_enc_match : runs (.codecEncMatch 6#16 1#32) atPos2 (fun t =>
    cellAt t .isMatch 2 == 992 && cellAt t .isRep 0 == 1056 && cellAt t (.lenChoice .matchLen) 0 == 1056 &&
      cellAt t (.lenLow .matchLen) (8 * 2 + 1) == 992 && cellAt t .posSlot (64 * 3 + 32) == 992 &&
      t.codec.state == 7#4 && t.codec.reps == ⟨1#32, 5#32, 6#32, 7#32⟩ && t.prices.matchPriceCount == 1#32 &&
      t.prices.alignPriceCount == 0#32 && lenCounterAt t.prices.matchLen 2 == 62#32) = true := by decide +kernel

theorem test_enc_rep : runs (.codecEncRep 2#8 9#16) atPos2 (fun t =>
    cellAt t .isMatch 2 == 992 && cellAt t .isRep 0 == 992 && cellAt t .isRepG0 0 == 992 &&
      cellAt t .isRepG1 0 == 992 && cellAt t .isRepG2 0 == 1056 && t.codec.state == 8#4 &&
      t.codec.reps == ⟨7#32, 5#32, 6#32, 8#32⟩ && lenCounterAt t.prices.repLen 2 == 62#32) = true := by
  decide +kernel

theorem test_enc_rep_short : runs (.codecEncRep 0#8 1#16) atPos2 (fun t =>
    cellAt t .isRepG0 0 == 1056 && cellAt t .isRep0Long 2 == 1056 && t.codec.state == 9#4 &&
      t.codec.reps == ⟨5#32, 6#32, 7#32, 8#32⟩ && lenCounterAt t.prices.repLen 2 == 63#32) = true := by
  decide +kernel

/-- `00 83 FF FB FF FF C0 00 00 00` after ENC_FLUSH: five normalisations are done. -/
theorem test_enc_eos : runs .codecEncEos State.reset (fun t =>
    outBytes t 1 == [0#8] && t.host.outLen.toNat + t.enc.cacheSize.toNat == 6 && t.enc.low == 0xC0000000#64 &&
      t.codec.state == 7#4 && t.codec.reps == Quad.zero && t.prices.matchPriceCount == 0#32 &&
      t.prices.alignPriceCount == 0#32) = true := by decide +kernel

theorem test_enc_distance : runs (.codecEncDistance 5#32 3#16) State.reset (fun t =>
    t.enc.low == 0x11FFFC00#64 && t.prices.alignPriceCount == 0#32) = true := by decide +kernel

/-- `00 3C 0F FC 00 00`: one byte is out, the carry into the cached one still to come. -/
theorem test_enc_distance_align : runs (.codecEncDistance 200#32 2#16) State.reset (fun t =>
    t.host.outLen == 1#64 && t.enc.cache.toNat * 2 ^ 32 + t.enc.low.toNat == 0x3C0FFC0000 &&
      t.prices.alignPriceCount == 1#32) = true := by decide +kernel

/-- A state of the loop of ENC_RUN, byte 0 of "AB" inserted and one token pending in the lattice. -/
def pending (back : I32) (len : Nat) (inserted : Nat) : State :=
  { inSeq .encLoop (finderAt inserted [] [] (withInput (text "ABABABAB"))) with
    parser :=
      { State.reset.parser with
        additionalOffset := BitVec.ofNat 32 inserted
        optimumEndIndex := 9#32
        optimum := [(0, { Node.blank with posPrev := BitVec.ofNat 32 len, backPrev := back })] }
    prices := { State.reset.prices with matchPriceCount := 127#32 } }

theorem test_enc_block_literal : runs .codecEncBlock (pending 0xFFFFFFFF#32 1 1) (fun t =>
    t.codec.nowPos == 1#64 && t.codec.prevByte == 0x41#8 && t.host.inPos == 1#32 &&
      t.parser.additionalOffset == 0#32 && t.prices.matchPriceCount == 127#32) = true := by decide +kernel

/-- MATCH 3, 1 coded with 4 bytes inserted: prevByte is the third byte's, one byte stays pending. -/
theorem test_enc_block_match : runs .codecEncBlock (pending 5#32 3 4) (fun t =>
    t.codec.nowPos == 3#64 && t.codec.prevByte == 0x41#8 && t.codec.state == 7#4 &&
      t.codec.reps == ⟨1#32, 0#32, 0#32, 0#32⟩ && t.parser.additionalOffset == 1#32 &&
      t.prices.matchPriceCount == 128#32) = true := by decide +kernel

theorem test_dec_distance : runs (.codecDecDistance 3#16) (decoder 0x11FFFC00#32 []) (fun t =>
    t.ret == .word 5#32) = true ∧
    runs (.codecDecDistance 2#16) (decoder 0x3C0FFC00#32 [0#8]) (fun t => t.ret == .word 200#32) = true := by
  decide +kernel

/-- A session of DEC_RUN with `lc` = 3, a window of 4096 bytes and a dictionary of 0x10000. -/
def decoding (s : State) : State :=
  { inSeq .decLoop s with
    codec := { State.reset.codec with lc := 3#4, posStateMask := 3#32, dictSizeCheck := 0x10000#32 } }

theorem test_dec_packet : runs .codecDecPacket (decoding (decoder 0x207FFC00#32 [0#8])) (fun t =>
    t.ret == .cont && t.codec.nowPos == 1#64 && t.codec.prevByte == 0x41#8 && t.window.winPos == 1#32 &&
      t.window.cell 0 == 0x41#8 && t.host.inPos == 1#32) = true := by decide +kernel

/-- The end marker of R275's body `00 83 FF FB FF FF C0 00 00 00`, below a known size of 9. -/
theorem test_dec_packet_eos : runs .codecDecPacket
    { decoding (decoder 0x83FFFBFF#32 [0xFF#8, 0xC0#8, 0#8, 0#8, 0#8]) with
      codec := { (decoding State.reset).codec with outSize := some 9#64 } } (fun t =>
    t.ret == .endOfStream && t.host.earlyEnd && t.host.inPos == 5#32 && t.codec.state == 7#4) = true := by
  decide +kernel

def distanceAt (nowPos : U64) (d : U32) : State :=
  { State.reset with codec :=
      { State.reset.codec with nowPos := nowPos, dictSizeCheck := 0x10000#32, reps := ⟨d, 0#32, 0#32, 0#32⟩ } }

theorem test_check_dist : runs .codecCheckDist (distanceAt 5#64 4#32) (fun t => t.host.errCode == 0#4) = true ∧
    runs .codecCheckDist (distanceAt 5#64 5#32) (fun t => t.host.errCode == 4#4 && t.host.seq == .error) = true := by
  decide +kernel

theorem test_check_dist_dictionary :
    runs .codecCheckDist (distanceAt 70000#64 0xFFFF#32) (fun t => t.host.errCode == 0#4) = true ∧
    runs .codecCheckDist (distanceAt 70000#64 0x10000#32) (fun t => t.host.errCode == 4#4) = true := by
  decide +kernel

def sized (size nowPos : U64) (s : State) : State :=
  { s with codec := { s.codec with outSize := some size, nowPos := nowPos } }

theorem test_early_end_check : runs .codecDecEarlyEndCheck (sized 9#64 8#64 State.reset) (fun t => t.host.earlyEnd) = true ∧
    runs .codecDecEarlyEndCheck (sized 8#64 8#64 State.reset) (fun t => !t.host.earlyEnd) = true := by
  decide +kernel

/-- A window that holds `bytes`, none of them flushed. -/
def windowOf (bytes : List Byte) (s : State) : State :=
  { s with window := { State.reset.window with
      win := (bytes.zipIdx.map fun e => (e.2, e.1)).filter fun e => e.2 != 0#8
      winPos := BitVec.ofNat 32 bytes.length } }

/-- R295's example: outSize 10, nowPos 8, 5 bytes at distance 0. -/
theorem test_copy_truncates : runs (.codecCopy 5#16) (sized 10#64 8#64 (windowOf (text "ABCDEFGH") State.reset))
    (fun t => t.codec.nowPos == 10#64 && t.host.outTruncated && t.window.winPos == 10#32 &&
      t.window.cell 8 == 0x48#8 && t.window.cell 9 == 0x48#8 && t.codec.prevByte == 0x48#8) = true := by
  decide +kernel

theorem test_copy_corrupt_policy : runs (.codecCopy 5#16)
    { sized 10#64 8#64 (windowOf (text "ABCDEFGH") State.reset) with
      params := { Params.default with overshoot := .corrupt } } (fun t =>
    t.host.errCode == 4#4 && t.codec.nowPos == 8#64) = true := by decide +kernel

/-! ### Output window: examples of 47_output_window -/

theorem test_ow_init : runs (.owInit 1#32) State.reset (fun t => t.window.windowSize == 4096#32) = true ∧
    runs (.owInit 0x200000#32) State.reset (fun t => t.window.windowSize == 0x200000#32) = true := by
  decide +kernel

theorem test_ow_put_wraps : runs (.owPut 0x41#8)
    { State.reset with window := { State.reset.window with winPos := 4095#32, winFlushPos := 4094#32 } } (fun t =>
    t.window.cell 4095 == 0x41#8 && t.window.winPos == 0#32 && t.window.winFlushPos == 0#32 &&
      t.host.outLen == 2#64 && outBytes t 2 == [0#8, 0x41#8]) = true := by decide +kernel

theorem test_ow_copy : runs (.owCopy 1#32 6#32) (windowOf (text "AB") State.reset) (fun t =>
    t.window.winPos == 8#32 && (List.range 8).map t.window.cell == text "ABABABAB") = true := by decide +kernel

theorem test_ow_get : runs (.owGet 0#32) (windowOf (text "hello") State.reset) (fun t => t.ret == .word 0x6F#32) = true ∧
    runs (.owGet 4#32) (windowOf (text "hello") State.reset) (fun t => t.ret == .word 0x68#32) = true := by
  decide +kernel

theorem test_ow_flush : runs .owFlush (windowOf (text "ABABABAB") State.reset) (fun t =>
    outBytes t 8 == text "ABABABAB" && t.host.outLen == 8#64 && t.window.winFlushPos == 8#32) = true := by
  decide +kernel

theorem test_ow_flush_full : runs .owFlush (withOutCap 3 (windowOf (text "ABABABAB") State.reset)) (fun t =>
    outBytes t 4 == [0x41#8, 0x42#8, 0x41#8, 0#8] && t.host.outLen == 3#64 && t.host.errCode == 5#4 &&
      t.window.winFlushPos == 0#32) = true := by decide +kernel

/-! ### Host commands: 46_codec R296..R299 -/

theorem test_nop : runs (.nop true false) State.reset (fun t => t.host.irqEn && !t.host.writeEndMarker &&
    !t.host.cmdIgnored) = true ∧
    runs (.nop true false) (inSeq .encLoop State.reset) (fun t => !t.host.irqEn && t.host.writeEndMarker &&
      t.host.cmdIgnored) = true := by decide +kernel

theorem test_reset : runs (.reset true false)
    { withInput (text "AB") with codec := reps5678.codec, outMem := [(0, 1#8)] } (fun t =>
    t.phase == .idle && t.host.irqEn && t.host.inLen == 0#32 && t.codec.reps == Quad.zero &&
      t.inMem == [(0, 0x41#8), (1, 0x42#8)] && t.outMem == [(0, 1#8)] && t.readReg 1 == 0#32) = true := by
  decide +kernel

theorem test_encode : runs (.encode false true) (withInput (text "ABABABAB")) (fun t =>
    t.phase == .encRun && outBytes t 6 == [0x5D#8, 0#8, 0#8, 0x20#8, 0#8, 8#8] && t.host.outLen == 13#64 &&
      t.encCfg == ⟨128#9, .bt4, true⟩ && t.prices.distTableSize == 42#32 && t.mf.pos == 1#32 &&
      t.mf.streamPos == 9#32) = true := by decide +kernel

/-- 60_exceptions R312: a refused ENCODE leaves PROPS, DICT_SIZE and SIZE 0. -/
theorem test_encode_level : runs (.encode false true)
    { withInput header18 with
      host := { State.reset.host with level := 10#4, size := 8#64 }
      codec := { State.reset.codec with propsByte := 0x5D#8, lc := 3#4, dictSize := 0x200000#32 } } (fun t =>
    t.host.seq == .error && t.host.errCode == 6#4 && t.host.outLen == 0#64 &&
      [8, 9, 10, 11].all fun n => t.readReg n == 0#32) = true := by decide +kernel

theorem test_decode : runs (.decode true true) (withInput header18) (fun t =>
    t.phase == .decRun && t.host.inPos == 18#32 && t.window.windowSize == 0x200000#32 &&
      t.codec.outSize == some 8#64 && t.dec == ⟨0#32, 0xFFFFFFFF#32⟩ && t.host.irqEn) = true := by
  decide +kernel

theorem test_decode_short : runs (.decode true true) (withInput (header18.take 17)) (fun t =>
    t.host.errCode == 3#4 && t.host.inPos == 17#32 && t.irq) = true := by decide +kernel

theorem test_reserved_ops : runs (.ctrlReserved4 0#2 true true) State.reset (fun t =>
    t.host.cmdIgnored && !t.host.irqEn) = true ∧
    runs (.ctrlReserved8 7#3 true true) State.reset (fun t => t.host.cmdIgnored && !t.host.irqEn) = true := by
  decide +kernel

/-! ### Packets: 30_encoding R85..R92 -/

/-- A DEC_RUN session after "AB" with reps 1, 0, 0, 0. -/
def afterAB : State :=
  { windowOf (text "AB") (decoding State.reset) with codec :=
      { (decoding State.reset).codec with nowPos := 2#64, prevByte := 0x42#8, reps := ⟨1#32, 0#32, 0#32, 0#32⟩ } }

theorem test_lit : runs (.lit 0x43#8) afterAB (fun t => t.ret == .cont && t.window.cell 2 == 0x43#8 &&
    t.codec.nowPos == 3#64 && t.codec.prevByte == 0x43#8) = true := by decide +kernel

theorem test_lit_coded : runs (.lit 0x41#8) (literalParams 3#4 0#3) (fun t =>
    t.enc.cache == 0x20#8 && t.enc.low == 0x7FFC0000#64 && t.codec.nowPos == 1#64 && t.host.inPos == 1#32) = true := by
  decide +kernel

theorem test_match : runs (.matchDist 6#16 1#32) afterAB (fun t =>
    (List.range 8).map t.window.cell == text "ABABABAB" && t.codec.nowPos == 8#64 && t.codec.state == 7#4 &&
      t.codec.reps == ⟨1#32, 1#32, 0#32, 0#32⟩) = true := by decide +kernel

theorem test_match_corrupt : runs (.matchDist 6#16 2#32) afterAB (fun t =>
    t.host.errCode == 4#4 && t.codec.nowPos == 2#64) = true := by decide +kernel

theorem test_shortrep : runs .shortrep afterAB (fun t => t.window.cell 2 == 0x41#8 && t.codec.nowPos == 3#64 &&
    t.codec.state == 9#4) = true ∧
    runs .shortrep (inSeq .encLoop atPos2) (fun t => t.codec.nowPos == 3#64 && t.codec.state == 9#4) = true := by
  decide +kernel

def longrepAB : State := { afterAB with codec := { afterAB.codec with reps := ⟨0#32, 1#32, 0#32, 1#32⟩ } }

theorem test_longrep0 : runs (.longrep0 2#16) longrepAB (fun t => (List.range 4).map t.window.cell == text "ABBB" &&
    t.codec.state == 8#4 && t.codec.reps == ⟨0#32, 1#32, 0#32, 1#32⟩) = true := by decide +kernel

theorem test_longrep1 : runs (.longrep1 2#16) longrepAB (fun t => (List.range 4).map t.window.cell == text "ABAB" &&
    t.codec.reps == ⟨1#32, 0#32, 0#32, 1#32⟩) = true := by decide +kernel

theorem test_longrep2 : runs (.longrep2 2#16) longrepAB (fun t => (List.range 4).map t.window.cell == text "ABBB" &&
    t.codec.reps == ⟨0#32, 0#32, 1#32, 1#32⟩) = true := by decide +kernel

theorem test_longrep3 : runs (.longrep3 2#16) longrepAB (fun t => (List.range 4).map t.window.cell == text "ABAB" &&
    t.codec.reps == ⟨1#32, 0#32, 1#32, 0#32⟩) = true := by decide +kernel

theorem test_eos : runs .eos afterAB (fun t => t.ret == .endOfStream && !t.host.earlyEnd &&
    t.codec.state == 7#4) = true ∧
    runs .eos State.reset (fun t => t.enc.low == 0xC0000000#64 && t.codec.reps == Quad.zero) = true := by
  decide +kernel

/-! ### Steps and host writes -/

/-- 10_state R22 and 95_test_vectors: STATUS words of DONE, DONE with OUT_TRUNCATED, CorruptStream. -/
theorem test_status_words : (inSeq .done State.reset).readReg 1 = 0x002#32 ∧
    ({ inSeq .done State.reset with host := { (inSeq .done State.reset).host with outTruncated := true } } :
      State).readReg 1 = 0x402#32 ∧ (erred 4#4 State.reset).readReg 1 = 0x044#32 := by decide +kernel

/-- 60_exceptions R320, R325: the error entry, and irq with IRQ_EN. -/
theorem test_error_entry : (errorEntry .truncatedInput (State.reset.writeCtrlFields true true)).irq = true ∧
    (errorEntry .truncatedInput State.reset).host.errCode = 3#4 := by decide +kernel

theorem test_step_runs_a_ctrl_write : (match step { State.reset with agenda := [.regWrite 2#8 0x37#32] } with
    | .next t => t.host.level == 7#4 && t.agenda == [] && t.freeCount == 1
    | _ => false) = true := by decide +kernel

theorem test_step_turns_the_engine : (match step (inSeq .encFlush State.reset) with
    | .next t => t.host.seq == .done && t.host.outLen == 5#64
    | _ => false) = true := by decide +kernel

/-- 70_reset_and_hazards R345: a write of IN while BUSY is ignored. -/
theorem test_in_write_while_busy : (match hostWriteIn 0 0x41#8 (inSeq .decLoop (withInput (text "B"))) with
    | .next t => decide (t = inSeq .decLoop (withInput (text "B")))
    | _ => false) = true ∧
    (match hostWriteIn 0 0x41#8 (withInput (text "B")) with
    | .next t => t.inMem == [(0, 0x41#8)]
    | _ => false) = true := by decide +kernel

/-- 70_reset_and_hazards R346: after a write of OUT while BUSY the session goes on. -/
theorem test_out_write_while_busy :
    (match hostWriteOut 0 0x41#8 (inSeq .encFlush { State.reset with outMem := [(7, 1#8)] }) with
    | .next t => t.host.seq == .encFlush && t.outMem.read 7 == 1#8
    | _ => false) = true := by
  have h (x : Byte) : (Memory.write [(7, 1#8)] 0 x).read 7 = 1#8 := by
    by_cases e : x = Memory.blank <;> simp [Memory.write, Memory.read, Store.set, Store.cons, Store.get, e]
  simp only [hostWriteOut]
  rw [if_neg (by decide +kernel), if_pos (by decide +kernel)]
  simp [inSeq, h]

/-- 43_length_coder R171: under PRICE_REFRESH = SDK a table is refreshed where the cadence says. -/
theorem test_refresh_cadence : refreshDue State.reset 0 true = true ∧ refreshDue State.reset 0 false = false ∧
    refreshLengths State.reset = State.reset := by decide +kernel

/-! ### Witnesses: for each obligation with hypotheses, states and operands that meet them -/

/-- An operation that ends without an error. -/
def ends {α : Type} (m : Eng α) (s : State) : Bool :=
  match m s with
  | .ok _ _ => true
  | .error _ _ => false

/-- The decoder reads `ds` in `s`. -/
def reads (ds : List Coded) (s : State) : Bool :=
  match decCoded ds s with
  | .ok vs _ => decide (vs = ds.map Coded.value)
  | .error _ _ => false

theorem exists_of_reads {ds : List Coded} {s : State} (h : reads ds s = true) : ∃ u, Reads ds s u := by
  unfold reads at h
  unfold Reads
  split at h
  · next vs u e => exact ⟨u, by rw [e, of_decide_eq_true h]⟩
  · cases h

/-- `exec i s` answers a next state in ERROR. -/
def errs (i : Instr) (s : State) : Bool := runs i s fun t => t.host.seq == .error

/-- A decoder that reads zeros only: code 0, and `n` bytes of IN to come. -/
def zeros (n : Nat) : State := decoder 0#32 (List.replicate n 0#8)

/-- A decoder whose decisions are all 1, with `n` bytes of IN to come. -/
def ones (n : Nat) : State := decoder 0xFFFFFFFF#32 (List.replicate n 0xFF#8)

theorem witness_ResetGivesTheStatedValues :
    ({ State.reset with agenda := [.powerOn, .engine] } : State).agenda = .powerOn :: [.engine] ∧
    State.reset.busy = false ∧ (inSeq .error State.reset).busy = false := by decide +kernel

theorem witness_StepRunsTheDecodedInstruction :
    decode (.micro [0x13#8]) = .ok .rcShiftLow ∧ decode (.micro [0x15#8]) = .error .unassignedMicroOp ∧
    ({ State.reset with agenda := [.code (.micro [0x13#8])] } : State).agenda = [.code (.micro [0x13#8])] ∧
    ({ State.reset with agenda := [.regWrite 0#8 2#32] } : State).agenda = [.regWrite 0#8 2#32] ∧
    decodeTableWord 8 0x13 = some .rcShiftLow := by decide +kernel

theorem witness_IdleEngineWaitsForACommand :
    State.reset.phase = .idle ∧ (inSeq .done State.reset).phase = .done ∧
    (inSeq .error State.reset).phase = .error ∧ (withInput header18).busy = false ∧
    (match takeInput (.regWrite 0#8 3#32) (withInput header18) with
    | .next t => t.busy
    | .fault _ => false
    | .refused _ => false) = true := by decide +kernel

theorem witness_CommandsAreAcceptedOrIgnored :
    [0x30#32, 0x31#32, 0x32#32, 0x33#32, 4#32, 7#32, 8#32, 15#32].map (fun w : U32 => w.toNat % 16) =
      [0, 1, 2, 3, 4, 7, 8, 15] ∧
    (inSeq .encLoop State.reset).busy = true ∧ (inSeq .decFlush State.reset).busy = true ∧
    State.reset.busy = false := by decide +kernel

theorem witness_HostWritesReachOnlyTheirTarget :
    let s : State := { State.reset with params := { Params.default with inMemBytes := 8, outMemBytes := 8 } }
    s.params.inMemBytes ≤ 8 ∧ 7 < s.params.inMemBytes ∧ s.params.outMemBytes ≤ 8 ∧ 7 < s.params.outMemBytes ∧
    (inSeq .encLoop s).busy = true ∧ s.busy = false ∧ Memory.wf s.inMem = true ∧ Memory.wf s.outMem = true ∧
    (0#8 : Byte) ≠ 1#8 := by decide +kernel

theorem witness_EncodeChecksThenStartsTheSession :
    let at_ (l : U4) : State := { State.reset with host := { State.reset.host with level := l } }
    let tiny : State :=
      { withInput (text "AB") with params := { Params.default with inMemBytes := 1 } }
    State.reset.busy = false ∧ Memory.wf State.reset.outMem = true ∧ levelRow (at_ 0#4).host.level = none ∧
    levelRow (at_ 10#4).host.level = none ∧ tiny.maxInLen < tiny.host.inLen.toNat ∧
    levelRow (at_ 1#4).host.level = some ⟨16, 64#9, false⟩ ∧
    levelRow (at_ 9#4).host.level = some ⟨25, 255#9, true⟩ ∧
    (at_ 9#4).host.inLen.toNat ≤ (at_ 9#4).maxInLen ∧ 13 ≤ (withOutCap 13 (at_ 9#4)).outCap ∧
    (withOutCap 12 (at_ 9#4)).outCap < 13 := by decide +kernel

/-- The first byte without room for its `isMatch` (a range about to be shifted) and for its literal, the
end marker and the flush without room. -/
theorem witness_EncodeRunLoop_errors :
    let first := inSeq .encFirst (finderAt 0 [] [] (kindAt .bt4 128#9 (withInput (text "AB"))))
    let first3 : State := withOutCap 0 { first with codec := { first.codec with lc := 3#4 } }
    let shifted : State := { first3 with enc := { first3.enc with range := 0x01000000#32 } }
    let isMatch := Instr.rcEncBit (cellOf .isMatch 0) false
    runs .optReadMatchDistances shifted (fun u => errs isMatch u) = true ∧
    runs .optReadMatchDistances first3 (fun u => runs isMatch u fun w => w.host.seq != .error &&
      errs (.litEnc 0#16 0x41#8) { w with codec := { w.codec with state := stChar first3.codec.state } }) = true ∧
    errs .codecEncEos (withOutCap 0 (inSeq .encFinish State.reset)) = true ∧
    errs .rcEncFlush (withOutCap 0 (inSeq .encFlush State.reset)) = true := by decide +kernel

theorem witness_EncodeRunLoop :
    let first := inSeq .encFirst (finderAt 0 [] [] (kindAt .bt4 128#9 (withInput (text "AB"))))
    let first3 : State := { first with codec := { first.codec with lc := 3#4 } }
    let stop : State := inSeq .encFinish { State.reset with encCfg := ⟨128#9, .bt4, true⟩ }
    mfAvail (inSeq .encFirst State.reset).mf = 0#32 ∧ first3.host.seq = .encFirst ∧
    mfAvail first3.mf ≠ 0#32 ∧ first3.codec.lc = 3#4 ∧ first3.codec.lp = 0#3 ∧ first3.codec.nowPos = 0#64 ∧
    isNext (exec .optReadMatchDistances first3) = true ∧ EncRoom (withOutCap 9 first3) 9 ∧
    (let s := inSeq .encLoop State.reset; s.parser.additionalOffset = 0#32 ∧ mfAvail s.mf = 0#32) ∧
    ¬ (let s := pending 5#32 3 4; s.parser.additionalOffset = 0#32 ∧ mfAvail s.mf = 0#32) ∧
    (inSeq .encFinish State.reset).encCfg.writeEndMarker = false ∧ stop.encCfg.writeEndMarker = true ∧
    EncRoom (withOutCap 48 stop) 48 ∧ (inSeq .encFlush State.reset).host.seq = .encFlush ∧
    EncRoom (withOutCap 5 (inSeq .encFlush State.reset)) 5 := by
  unfold EncRoom; decide +kernel

theorem witness_DecodeChecksThenStartsTheSession :
    let n (k : Nat) : Nat := (withInput (header18.take k)).host.inLen.toNat
    let bad := withInput (List.replicate 5 225#8)
    let dict := withInput ([0#8, 1#8, 0xE1#8, 0xF5#8, 5#8] ++ List.replicate 13 0#8)
    let good := withInput header18
    good.busy = false ∧
    ({ withInput (text "AB") with params := { Params.default with inMemBytes := 1 } } : State).params.inMemBytes <
      (withInput (text "AB")).host.inLen.toNat ∧
    good.host.inLen.toNat ≤ good.params.inMemBytes ∧ n 4 < 5 ∧ 5 ≤ n 5 ∧ 225 ≤ (bad.inMem.read 0).toNat ∧
    5 ≤ bad.host.inLen.toNat ∧ (good.inMem.read 0).toNat < 225 ∧ 5 ≤ dict.host.inLen.toNat ∧
    (dict.inMem.read 0).toNat < 225 ∧ dict.params.maxDictSize.toNat < leNat dict.inMem.read 4 1 ∧
    leNat good.inMem.read 4 1 ≤ good.params.maxDictSize.toNat ∧ n 17 < 18 ∧ 18 ≤ n 18 := by decide +kernel

theorem witness_DecodeRunLoop :
    let at_ := sized 8#64 8#64 (inSeq .decLoop State.reset)
    let below := sized 9#64 8#64 (inSeq .decLoop State.reset)
    let flush := inSeq .decFlush (windowOf (text "AB") State.reset)
    at_.host.seq = .decLoop ∧ at_.codec.outSize = some at_.codec.nowPos ∧
    below.codec.outSize ≠ some below.codec.nowPos ∧ flush.host.seq = .decFlush ∧
    WinRoom (withOutCap 2 flush) 0 ∧ errs .owFlush (withOutCap 1 flush) = true := by
  unfold WinRoom; decide +kernel

theorem witness_ResetMeetsTheInvariant :
    Params.wf { Params.default with inMemBytes := 13, priceRefresh := .other } = true := by decide

/-- A state with the invariant, in the loop of ENC_RUN. -/
theorem witness_EveryStepKeepsTheInvariant :
    Inv (pending 0xFFFFFFFF#32 1 1) ∧ isNext (step (pending 0xFFFFFFFF#32 1 1)) = true := by
  refine ⟨⟨?_, ?_, ?_, ?_, ?_, ?_, ?_, ?_, ?_, ?_, ?_, ?_, ?_, ?_, ?_⟩, ?_⟩ <;> decide +kernel

/-- And one in DEC_RUN. -/
theorem witness_EveryStepKeepsTheInvariant_decode :
    Inv (decoding (decoder 0x207FFC00#32 [0#8])) ∧
      isNext (step (decoding (decoder 0x207FFC00#32 [0#8]))) = true := by
  refine ⟨⟨?_, ?_, ?_, ?_, ?_, ?_, ?_, ?_, ?_, ?_, ?_, ?_, ?_, ?_, ?_⟩, ?_⟩ <;> decide +kernel

theorem witness_OperationsKeepToTheirSide :
    isNext (exec .owFlush State.reset) = true ∧ Memory.wf State.reset.outMem = true ∧
    isNext (engineTurn (inSeq .encFlush State.reset)) = true ∧ (inSeq .encFlush State.reset).phase = .encRun ∧
    isNext (engineTurn (inSeq .decFlush State.reset)) = true ∧ (inSeq .decFlush State.reset).phase = .decRun := by
  decide +kernel

theorem witness_DecodeOfEncodeIsTheInstruction :
    (Instr.btRenc ⟨.posModels, 0xFFFFFFFF#32⟩ 1#8 1#8).wf = true ∧ (Instr.lenEnc .repLen 271#16 15#8).wf = true ∧
    (Instr.owCopy 0xFFFFFFFF#32 0xFFFFFFFF#32).wf = true ∧ (Instr.matchDist 273#16 0xFFFFFFFF#32).wf = true ∧
    (Instr.ctrlReserved8 7#3 true true).wf = true := by decide

theorem witness_PacketsAreSelfDelimiting :
    (Instr.lit 0xFF#8).wf = true ∧ encode (.lit 0xFF#8) = .packet (false :: List.replicate 8 true) ∧
    Instr.shortrep.wf = true ∧ encode .shortrep = .packet [true, true, false, false] ∧
    [true, true, false, false] <+: [true, true, false, false] := by decide +kernel

theorem witness_EncoderInitAndFlush : EncRoom (withOutCap 5 State.reset) 5 ∧
    ({ State.reset with enc := { State.reset.enc with low := 0x1FFFFFFFF#64 } } : State).enc.low.toNat < 2 ^ 33 ∧
    EncRoom { withOutCap 5 State.reset with enc := { State.reset.enc with low := 0x1FFFFFFFF#64 } } 5 := by
  unfold EncRoom; decide +kernel

theorem witness_EncBitCodesOneDecision : EncRoom (withOutCap 1 State.reset) 1 ∧
    (0x00FFFFFF#32 : U32) < 0x01000000#32 := by
  unfold EncRoom; decide +kernel

theorem witness_AdaptationLaw :
    let low := State.reset.setProb (cellOf .isRep 0) 31#16
    let high := State.reset.setProb (cellOf .isRep 0) 2017#16
    Store.wf probInit low.probs = true ∧ 31 ≤ (low.prob (cellOf .isRep 0)).toNat ∧
    (high.prob (cellOf .isRep 0)).toNat ≤ 2017 ∧ isNext (exec (.rcEncBit (cellOf .isRep 0) true) low) = true ∧
    isNext (exec (.rcEncBit (cellOf .isRep 0) false) high) = true ∧
    isNext (exec (.rcDecBit (cellOf .isRep 0)) { high with dec := ⟨0#32, 0xFFFFFFFF#32⟩ }) = true ∧
    isNext (exec (.rcDecBit (cellOf .isRep 0)) { low with dec := ⟨0xFFFFFFFF#32, 0xFFFFFFFF#32⟩ }) = true := by
  decide +kernel

/-- `low` at both edges of the held range, and OUT with just enough and just too little room. -/
theorem witness_ShiftLowHoldsOrEmits :
    let s := withOutCap 1 State.reset
    Memory.wf s.outMem = true ∧ s.host.outLen.toNat ≤ s.outCap ∧
    ¬ (0xFF000000 < 0xFF000000 ∨ 2 ^ 32 ≤ 0xFF000000) ∧ (0xFEFFFFFF < 0xFF000000 ∨ 2 ^ 32 ≤ 0xFEFFFFFF) ∧
    (2 ^ 32 < 0xFF000000 ∨ 2 ^ 32 ≤ 2 ^ 32) ∧ s.enc.cacheSize.toNat ≤ s.outCap - s.host.outLen.toNat ∧
    (withOutCap 0 s).outCap - (withOutCap 0 s).host.outLen.toNat < s.enc.cacheSize.toNat := by decide +kernel

theorem witness_EncDirectCodesBitByBit :
    let s : State := { State.reset with enc := { State.reset.enc with range := 0x01FFFFFF#32 } }
    (31#8 : Byte).toNat < 32 ∧ (0x01000000#32 : U32) ≤ State.reset.enc.range >>> 1 ∧
    s.enc.range >>> 1 < 0x01000000#32 ∧
    ends shiftLow { s with enc := { s.enc with range := (s.enc.range >>> 1) <<< 8 } } = true ∧
    ends shiftLow { withOutCap 0 s with enc := { s.enc with range := (s.enc.range >>> 1) <<< 8 } } = false ∧
    EncRoom (withOutCap 32 State.reset) (32#8 : Byte).toNat := by
  unfold EncRoom; decide +kernel

theorem witness_DecInitAndDecBit :
    let narrow : State := { zeros 1 with dec := ⟨0#32, 0x01000000#32⟩ }
    DecInput (zeros 5) 5 ∧ ¬ DecInput (zeros 4) 5 ∧ (zeros 4).host.inPos ≤ (zeros 4).host.inLen ∧
    (0x01000000#32 : U32) ≤ ((zeros 0).dec.range >>> 11) * 1024#32 ∧
    (narrow.dec.range >>> 11) * 1024#32 < 0x01000000#32 ∧ narrow.host.inPos < narrow.host.inLen ∧
    (zeros 0).host.inLen ≤ (zeros 0).host.inPos ∧ DecInput (zeros 1) 1 := by
  unfold DecInput; decide +kernel

theorem witness_DecDirectDecodesBitByBit :
    let narrow (n : Nat) : State := { zeros n with dec := ⟨0#32, 0x01000000#32⟩ }
    (zeros 0).dec.code.toNat < 2 * ((zeros 0).dec.range >>> 1).toNat ∧
    (0x01000000#32 : U32) ≤ (zeros 0).dec.range >>> 1 ∧ (narrow 1).dec.range >>> 1 < 0x01000000#32 ∧
    (narrow 1).host.inPos < (narrow 1).host.inLen ∧ (narrow 0).host.inLen ≤ (narrow 0).host.inPos ∧
    ends (decDirect 1 0#32) (narrow 1) = true ∧ ends (decDirect 1 0#32) (narrow 0) = false ∧
    DecInput (zeros 32) (32#8 : Byte).toNat := by
  unfold DecInput; decide +kernel

/-- A cell and 32 direct bits; the bytes the encoder writes stand in the decoder's IN. -/
def mirrored : List Coded := [.bit (cellOf .isRep 0) true, .direct 0x12345678#32 32]

theorem witness_MirrorLaw :
    (∀ x ∈ mirrored, ∀ v n, x = Coded.direct v n → n ≤ 32) ∧ Memory.wf State.reset.outMem = true ∧
    Store.wf probInit State.reset.probs = true ∧ cellsBounded State.reset.probs = true ∧
    (withOutCap 38 State.reset).host.outLen.toNat + codedBits mirrored + 5 ≤ (withOutCap 38 State.reset).outCap ∧
    (match runInstrs (.rcEncInit :: mirrored.map Coded.encInstr ++ [.rcEncFlush]) (withOutCap 38 State.reset) with
    | some (_, t) =>
      let d := withInput (outBytes t t.host.outLen.toNat)
      d.probs == State.reset.probs && decide (d.host.inPos.toNat + t.host.outLen.toNat ≤ d.host.inLen.toNat) &&
        (List.range t.host.outLen.toNat).all fun k => d.inByte (k : Int) == t.outMem.read k
    | none => false) = true := by
  refine ⟨?_, by decide +kernel⟩
  intro x hx v n e
  simp only [mirrored, List.mem_cons, List.not_mem_nil, or_false] at hx
  rcases hx with rfl | rfl <;> cases e
  exact le_refl 32

theorem witness_PricesAreThoseOfTheDecisions :
    31 ≤ (31#16 : U16).toNat ∧ (2017#16 : U16).toNat ≤ 2017 ∧
    (Instr.btPrice (cellOf .posSlot 192) 6#8 63#8).wf = true ∧
    (Instr.btRprice ⟨.posModels, 0xFFFFFFFF#32⟩ 1#8 1#8).wf = true := by decide +kernel

theorem witness_TreeEncodersCodeTheirPaths :
    (Instr.btEnc (cellOf (.lenHigh .repLen) 0) 8#8 255#8).wf = true ∧
    (Instr.btRenc (cellOf .posAlign 0) 4#8 15#8).wf = true ∧ (Instr.lenEnc .matchLen 271#16 15#8).wf = true ∧
    EncRoom (withOutCap 8 State.reset) (treePath (cellOf (.lenHigh .repLen) 0) 8 255).length ∧
    EncRoom (withOutCap 10 State.reset) (lengthPath .matchLen 15 271).length := by
  unfold EncRoom; decide +kernel

theorem witness_TreeDecodersReturnTheSymbolRead :
    (Instr.btDec (cellOf .posSlot 192) 6#8).wf = true ∧ (Instr.btRdec (cellOf .posAlign 0) 4#8).wf = true ∧
    (Instr.lenDec .repLen 15#8).wf = true ∧ reads (bitsOf (treePath (cellOf .posSlot 192) 6 0)) (zeros 6) = true ∧
    reads (bitsOf (treePath (cellOf .posSlot 192) 6 63)) (ones 6) = true ∧
    reads (bitsOf (reversePath (cellOf .posAlign 0) 4 15)) (ones 4) = true ∧
    reads (bitsOf (literalPath 0 0xFF#8)) (ones 8) = true ∧
    reads (bitsOf (matchedPath 0 0x42#8 0xFF#8)) (ones 8) = true ∧
    reads (bitsOf (lengthPath .repLen 15 271)) (ones 10) = true ∧ DecInput (zeros 10) 10 := by
  unfold DecInput; decide +kernel

theorem witness_BtInitAndLitSelect :
    (Instr.btInit (cellOf .posAlign 0) 16#32).wf = true ∧ (Instr.btInit (cellOf .posAlign 16) 0#32).wf = true ∧
    Store.wf probInit coded5.probs = true ∧ (literalParams 8#4 4#3).codec.lc.toNat ≤ 8 ∧
    (literalParams 8#4 4#3).codec.lp.toNat ≤ 4 := by decide +kernel

theorem witness_LengthPrices :
    (Instr.lenSetPrices .repLen 15#8).wf = true ∧ (Instr.lenEncCounted .matchLen 271#16 15#8).wf = true ∧
    Store.wf 0#32 (lengthTable.prices.len .repLen).prices = true ∧
    Store.wf 0#32 (lengthTable.prices.len .repLen).counters = true ∧
    (lengthTable.prices.len .repLen).tableSize ≤ 272#32 ∧
    ends (encBits (lengthPath .matchLen 15 271)) State.reset = true ∧
    ends (encBits (lengthPath .matchLen 15 16)) (withOutCap 0 State.reset) = false ∧
    EncRoom (withOutCap 10 State.reset) (lengthPath .matchLen 15 271).length := by
  unfold EncRoom; decide +kernel

theorem witness_MatchFinderInitAndAccessors :
    let at_ (d : U32) : State := kindAt .bt4 128#9 { State.reset with codec := { State.reset.codec with dictSize := d } }
    State.reset.encCfg.mfKind = .bt2 ∧ (at_ 0x10000#32).codec.dictSize.toNat = 2 ^ 16 ∧
    (at_ 0x2000000#32).codec.dictSize.toNat = 2 ^ 25 ∧ (at_ 0x10000#32).encCfg.mfKind = .bt4 ∧
    (16 : Nat) ≤ 25 := by decide +kernel

theorem witness_HashesTellTheirBytes :
    State.reset.encCfg.mfKind = .bt2 ∧ abcd5.encCfg.mfKind = .bt4 ∧
    abcd5.inByte (0#32 : U32).toNat = abcd5.inByte (5#32 : U32).toNat ∧
    (mfHash abcd5 abcd5.mf 0#32).h2 = (mfHash abcd5 abcd5.mf 5#32).h2 ∧
    (mfHash abcd5 abcd5.mf 0#32).h3 = (mfHash abcd5 abcd5.mf 5#32).h3 ∧
    [hash2Of abcd5 0, 1024 + hash3Of abcd5 0, 66560 + hash4Of abcd5 0] = abcd5.mf.hash.map Prod.fst := by
  decide +kernel

/-- A match that ends before its cap (4 of "abcd|y") and one that fills it (limit 3). -/
theorem witness_MatchLenIsTheLongestAgreement :
    mfMatchLen (finderAt 6 [] [] abcd5) (finderAt 6 [] [] abcd5).mf (-1) 4#32 273 = 4 ∧
    mfMatchLen (finderAt 6 [] [] abcd5) (finderAt 6 [] [] abcd5).mf (-1) 4#32 3 = 3 := by decide +kernel

theorem witness_TreeWalkInsertsTheRoot :
    let s := finderAt 10 [] [(10, 1#32)] (kindAt .bt4 128#9 (withInput (text "abcdxabcdyabcd")))
    (0#32 : U32) ≤ matchMinPos s.mf ∧ matchMinPos s.mf < 6#32 ∧ s.mf.cutValue ≠ 0#32 ∧ 0 < (4#32 : U32).toNat ∧
    (∀ i : Nat, i < 4 → s.inByte (((6#32 : U32).toNat : Int) - 1 + i) =
      s.inByte (((s.mf.pos - 1#32).toNat : Int) + i)) ∧
    ({ s with mf := { s.mf with cutValue := 0#32 } } : State).mf.cutValue = 0#32 := by decide +kernel

theorem witness_GetMatchesFindsMatches :
    let near := finderAt 11 [] [] (kindAt .bt4 128#9 (withInput (text "abcdxabcdyabcd")))
    near.mf.streamPos.toNat < near.mf.pos.toNat + near.mf.matchMaxLen.toNat ∧
    near.mf.streamPos - near.mf.pos < 4#32 ∧ 1 ≤ (1#32 : U32).toNat ∧
    (0xFFFFFFFE#32 : U32).toNat < 2 ^ 32 - 1 ∧ Store.wf 0#32 abcd5.mf.hash = true ∧
    abcd5.encCfg.mfKind.minMatchCheck ≤ abcd5.mf.streamPos - abcd5.mf.pos := by decide +kernel

/-- `abcd5` as it stands in an ENCODE session: a match finder with one live tag, that of "abcd". -/
theorem witness_GetMatchesFindsMatches_finder :
    FinderInv { abcd5 with codec := { abcd5.codec with dictSize := 0x200000#32 } } ∧
      abcd5.mf.pos.toNat < abcd5.mf.streamPos.toNat := by
  have cell (i : Nat) : hashGet abcd5.mf i = if i = 428 ∨ i = 13996 ∨ i = 171660 then 1#32 else 0#32 := by
    simp only [hashGet, abcd5, finderAt, Store.get]
    split_ifs <;> first | rfl | omega
  have dead {t : Nat} (h : ¬ Live abcd5.mf t) (u : Nat) : ¬ Under abcd5.mf t u := by
    intro k
    cases k <;> contradiction
  have none : ¬ Live abcd5.mf 0 := by unfold Live; decide +kernel
  have one {u : Nat} (h : Under abcd5.mf 1 u) : u = 1 := by
    cases h with
    | root => rfl
    | child side hs _ k =>
      obtain rfl | rfl : side = 0 ∨ side = 1 := by omega
      · exact absurd k (dead none u)
      · exact absurd k (dead none u)
  have tree (h t : Nat) (k : Under abcd5.mf (hashGet abcd5.mf (66560 + h)).toNat t) : h = 105100 ∧ t = 1 := by
    rw [cell] at k
    split_ifs at k with c
    · exact ⟨by omega, one k⟩
    · exact absurd k (dead none t)
  refine ⟨⟨by decide +kernel, by decide +kernel, by decide +kernel, by decide +kernel, by decide +kernel,
    ?_, ?_, ?_, ?_⟩, by decide +kernel⟩
  · intro i
    show (hashGet abcd5.mf i).toNat < 6
    rw [cell]
    split_ifs <;> decide
  · intro _ i
    show (i < 1024 → Live abcd5.mf (hashGet abcd5.mf i).toNat → hash2Of abcd5 ((hashGet abcd5.mf i).toNat - 1) = i) ∧
      (i < 65536 → Live abcd5.mf (hashGet abcd5.mf (1024 + i)).toNat →
        hash3Of abcd5 ((hashGet abcd5.mf (1024 + i)).toNat - 1) = i)
    rw [cell, cell]
    refine ⟨fun hi l => ?_, fun hi l => ?_⟩
    · split_ifs at l ⊢ with c
      · obtain rfl : i = 428 := by omega
        decide +kernel
      · exact absurd l none
    · split_ifs at l ⊢ with c
      · obtain rfl : i = 12972 := by omega
        decide +kernel
      · exact absurd l none
  · intro h t k
    obtain ⟨rfl, rfl⟩ := tree h t k
    decide +kernel
  · intro h t k
    obtain ⟨rfl, rfl⟩ := tree h t k
    exact ⟨by decide +kernel, by decide +kernel, fun u hu => absurd hu (dead none u),
      fun u hu => absurd hu (dead none u)⟩

theorem witness_GetMatchesFindsMatches_session :
    let s := withOutCap 13 (withInput (text "AB"))
    Inv s ∧ s.busy = false ∧ levelRow s.host.level = some ⟨21, 128#9, true⟩ ∧ s.host.inLen.toNat ≤ s.maxInLen ∧
      13 ≤ s.outCap := by
  refine ⟨⟨?_, ?_, ?_, ?_, ?_, ?_, ?_, ?_, ?_, ?_, ?_, ?_, ?_, ?_, ?_⟩, ?_⟩ <;> decide +kernel

theorem witness_CandidatePipeline :
    Store.wf 0#32 abcd5.parser.matchDistances = true ∧
    runs .mfGetMatches abcd5 (fun t => t.ret == .cells ([] ++ [4#32, 4#32])) = true ∧
    (4#32 : U32) ≠ abcd5.encCfg.fastBytes.setWidth 32 ∧
    runs .mfGetMatches (abab2 5#9) (fun t => t.ret == .cells ([] ++ [5#32, 1#32])) = true ∧
    (5#32 : U32) = (abab2 5#9).encCfg.fastBytes.setWidth 32 ∧ (2#32 : U32) ≠ 0#32 := by decide +kernel

theorem witness_PriceHelpers : (11#8 : Byte).toNat ≤ 11 ∧ (15#8 : Byte).toNat ≤ 15 ∧ (3#8 : Byte).toNat ≤ 3 ∧
    lenWf 2#16 = true ∧ lenWf 273#16 = true := by decide

theorem witness_DistanceAndAlignTables :
    let s : State := { State.reset with prices := { State.reset.prices with distTableSize := 64#32 } }
    Store.wf 0#32 s.prices.posSlotPrices = true ∧ Store.wf 0#32 s.prices.distancesPrices = true ∧
    s.prices.distTableSize ≤ 64#32 ∧ Store.wf 0#32 s.prices.alignPrices = true ∧
    (3 : Nat) < 4 ∧ (63 : Nat) < 64 ∧ (127 : Nat) < 128 ∧ (15 : Nat) < 16 := by decide +kernel

/-- A pending token; kept candidates; the last byte; a rep of 6 with fastBytes 5; a match of 8 with
fastBytes 5 where no rep matches; and a byte with neither. -/
theorem witness_GetOptimumFollowsItsPhases :
    let kept (lenMain : U32) (s : State) : State :=
      { s with parser := { s.parser with longestMatchWasFound := true, longestMatchLength := lenMain } }
    let rep := finderAt 2 [] [] (kindAt .bt2 5#9 (withInput (text "aaaaaaaa")))
    let mat := finderAt 4 [] [] (kindAt .bt2 5#9 (withInput (text "abcabcabcabc")))
    let lone := finderAt 2 [] [] (kindAt .bt2 5#9 (withInput (text "abcde")))
    let len (s : State) (i : Nat) : Nat := mfMatchLen s s.mf (-1) (Quad.get s.codec.reps i) 273
    (pending 5#32 3 4).parser.optimumEndIndex ≠ (pending 5#32 3 4).parser.optimumCurrentIndex ∧
    State.reset.parser.optimumEndIndex = State.reset.parser.optimumCurrentIndex ∧
    (kept 8#32 mat).parser.longestMatchWasFound = true ∧ State.reset.parser.longestMatchWasFound = false ∧
    runs .optReadMatchDistances abcd5 (fun t => t.ret == .word 4#32) = true ∧
    mfAvail (finderAt 2 [] [] (withInput (text "ab"))).mf = 0#32 ∧ mfAvail rep.mf ≠ 0#32 ∧
    mfAvail rep.mf ≠ 0xFFFFFFFF#32 ∧ (List.range 4).map (len rep) = [7, 7, 7, 7] ∧
    (List.range 4).map (len mat) = [0, 0, 0, 0] ∧ (5#32 : U32) ≤ (kept 8#32 mat).parser.longestMatchLength ∧
    (List.range 4).map (len lone) = [0, 0, 0, 0] ∧ (kept 0#32 lone).parser.longestMatchLength < 2#32 ∧
    mfIndexByte lone lone.mf (-1) ≠ mfIndexByte lone lone.mf (-lone.codec.reps.r0 - 2#32).toInt := by
  decide +kernel

/-- A byte equal to the one before it with no match of two bytes; and one candidate of 2 bytes. -/
theorem witness_GetOptimumFollowsItsPhases_lattice :
    let kept (lenMain : U32) (s : State) : State :=
      { s with parser := { s.parser with longestMatchWasFound := true, longestMatchLength := lenMain } }
    let same := kept 0#32 (finderAt 3 [] [] (kindAt .bt2 5#9 (withInput (text "xaabcde"))))
    let two := kept 2#32 (finderAt 4 [] [] (kindAt .bt2 5#9 (withInput (text "abxabyab"))))
    let u : State := { two with parser := { two.parser with matchDistances := [(0, 2#32), (1, 2#32)], numDistancePairs := 2#32 } }
    let len (s : State) (i : Nat) : Nat := mfMatchLen s s.mf (-1) (Quad.get s.codec.reps i) 273
    (List.range 4).map (len same) = [1, 1, 1, 1] ∧
    mfIndexByte same same.mf (-1) = mfIndexByte same same.mf (-same.codec.reps.r0 - 2#32).toInt ∧
    Store.wf Node.blank u.parser.optimum = true ∧ (List.range 4).map (len u) = [0, 0, 0, 0] ∧
    CandidatesAre u.parser [(2, 2#32)] 2#32 ∧ (2#32 : U32) < 5#32 := by
  refine ⟨by decide +kernel, by decide +kernel, by decide +kernel, by decide +kernel,
    ⟨by decide +kernel, ?_, by decide, by decide, by decide +kernel, by decide +kernel⟩, by decide⟩
  intro k hk
  obtain rfl : k = 0 := by simpa using hk
  exact ⟨rfl, rfl⟩

/-- A sweep at its end; one where a match of `fastBytes` begins; and one that goes on, over a node with
a good record. -/
theorem witness_GetOptimumFollowsItsPhases_sweep :
    let at_ := lattice [(2, 0#32, 6#32)]
    let long := finderAt 2 [(0x4241, 1#32)] [] (kindAt .bt2 5#9 (withInput (text "ABABABAB")))
    let x : PM := ⟨(lattice [(1, 0#32, 0xFFFFFFFF#32), (2, 0#32, 6#32)]).parser, abcd5.mf⟩
    runs (.optBackward 2#32) (at_.setPm at_.pm) (fun t => t.ret == .word 2#32) = true ∧
    runs .optReadMatchDistances (long.setPm long.pm) (fun w => w.ret == .word 6#32 &&
      isNext (exec (.optBackward 1#32) w)) = true ∧
    runs .optReadMatchDistances (abcd5.setPm abcd5.pm) (fun w => w.ret == .word 4#32 &&
      (visit abcd5 w.pm 1 3 1#32 4#32).isSome) = true ∧
    Store.wf Node.blank x.p.optimum = true ∧ Store.wf 0#32 x.p.matchDistances = true ∧
    CandidatesAre x.p [] 0#32 ∧ RecordOk (node x.p.optimum 1) 1 := by
  refine ⟨by decide +kernel, by decide +kernel, by decide +kernel, by decide +kernel, by decide +kernel,
    ⟨by decide +kernel, fun k hk => absurd hk (Nat.not_lt_zero k), by decide, by decide, by decide, by decide⟩,
    ?_⟩
  unfold RecordOk
  decide +kernel

/-- A MATCH of 2 bytes at distance 2, a literal and rep 0 of 2 bytes, reached in one step (R227's
example), and a literal after them. -/
theorem witness_BackwardReversesTheChain :
    let hop : Node := { Node.blank with posPrev := 3#32, prev1IsChar := true, prev2 := true, backPrev2 := 6#32 }
    let o : Store Node := [(5, hop), (6, { Node.blank with posPrev := 5#32, backPrev := 0xFFFFFFFF#32 })]
    0 < (6#32 : U32).toNat ∧ (4095#32 : U32).toNat ≤ 4095 ∧ Store.wf Node.blank o = true ∧ ChainDown o 6 ∧
    chainTokens o 6 6 = [(5, 6, 0xFFFFFFFF#32), (3, 5, 0#32), (2, 3, 0xFFFFFFFF#32), (0, 2, 6#32)] := by
  refine ⟨by decide +kernel, by decide +kernel, by decide +kernel, ?_, by decide +kernel⟩
  intro i h0 hi
  obtain rfl | rfl | rfl | rfl | rfl | rfl : i = 1 ∨ i = 2 ∨ i = 3 ∨ i = 4 ∨ i = 5 ∨ i = 6 := by omega
  all_goals decide +kernel

theorem witness_AutomatonAndReps : (0#8 : Byte).toNat ≤ 11 ∧ (11#8 : Byte).toNat ≤ 11 := by decide

/-- The edges: slots 3, 4 and 61, and the first and last distance below 2^k. -/
theorem witness_DistanceSlots :
    2 ≤ (2#32 : U32).toNat ∧ (0x7FFFFFFF#32 : U32).toNat < 2 ^ 31 ∧ (0x7FFFFFFF#32 : U32).toNat < 2 ^ 31 ∧
    (posSlotOf 3#32).toNat < 4 ∧ 4 ≤ (posSlotOf 4#32).toNat ∧ posSlotOf 0x7FFFFFFF#32 = 61#32 ∧
    1 ≤ 25 ∧ (0x1FFFFFF#32 : U32).toNat < 2 ^ 25 ∧ 128 ≤ (128#32 : U32).toNat ∧ (2047 : Nat) < 2048 := by
  decide +kernel

theorem witness_EncHeaderWritesThirteenBytes :
    Memory.wf State.reset.outMem = true ∧ State.reset.host.outLen.toNat ≤ State.reset.outCap ∧
    13 ≤ (withOutCap 13 State.reset).outCap - State.reset.host.outLen.toNat ∧
    (withOutCap 12 State.reset).outCap - State.reset.host.outLen.toNat < 13 := by decide +kernel

theorem witness_DecHeaderChecksInOrder :
    let n (k : Nat) : Nat := (withInput (header18.take k)).host.inLen.toNat
    let bad := withInput (List.replicate 5 225#8)
    let dict := withInput [224#8, 1#8, 0xE1#8, 0xF5#8, 5#8]
    let byte (s : State) (k : Nat) : Byte := s.inByte (k : Int)
    n 4 < 5 ∧ 5 ≤ n 5 ∧ 5 ≤ bad.host.inLen.toNat ∧ 225 ≤ (bad.inByte 0).toNat ∧ (dict.inByte 0).toNat < 225 ∧
    dict.params.maxDictSize.toNat < leNat (byte dict) 4 1 ∧ n 12 < 13 ∧ 13 ≤ n 13 ∧
    ((withInput header18).inByte 0).toNat < 225 ∧
    leNat (byte (withInput header18)) 4 1 ≤ (withInput header18).params.maxDictSize.toNat := by decide +kernel

theorem witness_EncoderLiteralEosAndDistance :
    (Instr.codecEncDistance 0x7FFFFFFF#32 273#16).wf = true ∧
    EncRoom (withOutCap 9 State.reset) (codedBits (litPacket 0 0 0 0#8 0x41#8)) ∧
    EncRoom (withOutCap 9 State.reset) (codedBits (litPacket 11 0 0 0x42#8 0x41#8)) ∧
    EncRoom (withOutCap 42 State.reset) (codedBits (matchPacket 0 0 2 0xFFFFFFFF)) ∧
    EncRoom (withOutCap 36 State.reset) (codedBits (distanceCode 273 0x7FFFFFFF)) := by
  unfold EncRoom; decide +kernel

theorem witness_EncoderMatchesAndReps :
    Store.wf probInit State.reset.probs = true ∧ tablesWf State.reset = true ∧ sizesBounded State.reset = true ∧
    (Instr.codecEncMatch 273#16 0x7FFFFFFF#32).wf = true ∧ (Instr.codecEncRep 3#8 273#16).wf = true ∧
    2 ≤ (273#16 : U16).toNat ∧ EncRoom (withOutCap 48 State.reset) (codedBits (matchPacket 0 0 273 0x7FFFFFFF)) ∧
    EncRoom (withOutCap 4 State.reset) (codedBits (repPacket 0 0 0 1)) ∧
    EncRoom (withOutCap 15 State.reset) (codedBits (repPacket 11 15 3 273)) := by
  unfold EncRoom; decide +kernel

theorem witness_EncBlockCodesTheChosenPacket :
    (pending 5#32 3 4).phase ≠ .error ∧
    runs (.optGetOptimum 0#32) (pending 0xFFFFFFFF#32 1 1) (fun w =>
      w.ret == .word 1#32 && w.parser.backRes == 0xFFFFFFFF#32) = true ∧
    runs (.optGetOptimum 0#32) (pending 3#32 3 4) (fun w =>
      w.ret == .word 3#32 && w.parser.backRes == (3#8 : Byte).setWidth 32) = true ∧
    (Instr.codecEncRep 3#8 ((3#32 : U32).setWidth 16)).wf = true ∧
    runs (.optGetOptimum 0#32) (pending 5#32 3 4) (fun w =>
      w.ret == .word 3#32 && w.parser.backRes == 1#32 + 4#32) = true ∧
    (1#32 : U32).toNat < 2 ^ 31 - 4 ∧
    (pending 5#32 3 4).parser.optimumEndIndex ≠ (pending 5#32 3 4).parser.optimumCurrentIndex ∧
    EncRoom (withOutCap 48 (pending 5#32 3 4)) 48 := by
  unfold EncRoom; decide +kernel

theorem witness_DecDistanceReturnsTheDistanceRead :
    (Instr.codecDecDistance 2#16).wf = true ∧ (Instr.codecDecDistance 273#16).wf = true ∧
    reads (distanceCode 2 (0#32 : U32).toNat) (zeros 36) = true ∧
    reads (distanceCode 273 (0xFFFFFFFF#32 : U32).toNat) (ones 36) = true ∧ DecInput (zeros 36) 36 := by
  unfold DecInput; decide +kernel

/-- A decoder that has `ds` before it: they are coded on fresh cells, and the bytes stand in IN. -/
def decoderOf (ds : List Coded) : State :=
  match runInstrs (.rcEncInit :: ds.map Coded.encInstr ++ [.rcEncFlush]) State.reset with
  | some (_, t) =>
    match exec .rcDecInit (withInput (outBytes t t.host.outLen.toNat)) with
    | .next u => u
    | .fault _ => State.reset
    | .refused _ => State.reset
  | none => State.reset

theorem witness_FetchedPacketIsTheOneRead :
    reads (litPacket 0 0 0 0#8 0#8) (zeros 9) = true ∧ (Instr.matchDist 273#16 0x7FFFFFFF#32).wf = true ∧
    reads (matchPacket 0 0 273 0x7FFFFFFF) (decoderOf (matchPacket 0 0 273 0x7FFFFFFF)) = true ∧
    reads (matchPacket 0 0 2 0xFFFFFFFF) (decoderOf (matchPacket 0 0 2 0xFFFFFFFF)) = true ∧
    reads (repPacket 0 0 0 1) (decoderOf (repPacket 0 0 0 1)) = true ∧ lenWf 2#16 = true ∧ lenWf 273#16 = true ∧
    reads (repPacket 0 0 0 2) (decoderOf (repPacket 0 0 0 2)) = true ∧
    reads (repPacket 0 0 1 273) (decoderOf (repPacket 0 0 1 273)) = true ∧
    reads (repPacket 0 0 2 9) (decoderOf (repPacket 0 0 2 9)) = true ∧
    reads (repPacket 0 0 3 18) (ones 15) = false ∧ reads (repPacket 0 0 3 273) (ones 15) = true ∧
    DecInput (zeros 48) 48 := by
  unfold DecInput; decide +kernel

theorem witness_DecPacketIsFetchThenPerform :
    let s := decoding (zeros 9)
    s.phase = .decRun ∧ ends fetchPacket s = true ∧
    ends fetchPacket { decoding (zeros 0) with dec := ⟨0#32, 0x01000000#32⟩ } = false ∧
    s.dec.code < (s.dec.range >>> 11) *
      (s.prob (cellOf .isMatch (16 * s.codec.state.toNat + s.posState.toNat))).setWidth 32 ∧
    DecInput s 9 ∧ WinRoom (withOutCap 1 s) 1 := by
  unfold DecInput WinRoom; decide +kernel

theorem witness_DistanceChecksAndCopy :
    let room := windowOf (text "ABCDEFGH") State.reset
    (distanceAt 5#64 5#32).codec.nowPos.toNat ≤ (distanceAt 5#64 5#32).codec.reps.r0.toNat ∧
    (distanceAt 5#64 4#32).codec.reps.r0.toNat < (distanceAt 5#64 4#32).codec.nowPos.toNat ∧
    (distanceAt 5#64 4#32).codec.reps.r0.toNat < (distanceAt 5#64 4#32).codec.dictSizeCheck.toNat ∧
    (sized 9#64 8#64 room).codec.nowPos < 9#64 ∧ (8#64 : U64) ≤ (sized 8#64 8#64 room).codec.nowPos ∧
    State.reset.codec.outSize = none ∧ (Instr.codecCopy 1#16).wf = true ∧ (Instr.codecCopy 273#16).wf = true ∧
    ¬ 10#64 < (sized 10#64 8#64 room).codec.nowPos + (2#16 : U16).setWidth 64 ∧
    10#64 < (sized 10#64 8#64 room).codec.nowPos + (3#16 : U16).setWidth 64 ∧
    State.reset.params.overshoot = .truncate ∧ ends (owCopy 0#32 2) room = true ∧
    ends (owCopy 0#32 1) (withOutCap 0 { State.reset with window := { room.window with winPos := 4095#32 } }) = false ∧
    WinRoom (withOutCap 10 room) 2 ∧ WinRoom (withOutCap 281 room) (273#16 : U16).toNat := by
  unfold WinRoom; decide +kernel

theorem witness_PacketsAreCodedOutsideDecode :
    State.reset.phase ≠ .decRun ∧ Store.wf probInit State.reset.probs = true ∧ tablesWf State.reset = true ∧
    sizesBounded State.reset = true ∧ (Instr.matchDist 2#16 0xFFFFFFFE#32).wf = true ∧
    (Instr.matchDist 273#16 0xFFFFFFFF#32).wf = true ∧ lenWf 2#16 = true ∧ lenWf 273#16 = true ∧
    EncRoom (withOutCap 9 State.reset) (codedBits (litPacket 0 0 0 0#8 0x41#8)) ∧
    EncRoom (withOutCap 50 State.reset) (codedBits (matchPacket 0 0 273 0xFFFFFFFF)) ∧
    EncRoom (withOutCap 4 State.reset) (codedBits (repPacket 0 0 0 1)) ∧
    (3, Instr.longrep3 273#16) ∈ [(0, Instr.longrep0 273#16), (1, .longrep1 273#16), (2, .longrep2 273#16),
      (3, .longrep3 273#16)] := by
  unfold EncRoom; decide +kernel

/-- `afterAB` holds "AB" with nowPos 2: distance 1 is good, 2 is not. -/
theorem witness_PacketsArePerformedInDecode :
    afterAB.phase = .decRun ∧ ends (owPut 0x43#8) afterAB = true ∧
    ends (owPut 0x43#8) (withOutCap 0 { afterAB with window := { afterAB.window with winPos := 4095#32 } }) = false ∧
    WinRoom (withOutCap 3 afterAB) 1 ∧ (Instr.matchDist 2#16 1#32).wf = true ∧ (1#32 : U32) ≠ 0xFFFFFFFF#32 ∧
    ¬ (afterAB.codec.nowPos ≤ (1#32 : U32).setWidth 64 ∨ afterAB.codec.dictSizeCheck ≤ 1#32) ∧
    (afterAB.codec.nowPos ≤ (2#32 : U32).setWidth 64 ∨ afterAB.codec.dictSizeCheck ≤ 2#32) ∧
    ends (copy 2#32) afterAB = true ∧
    ends (copy 2#32) (withOutCap 0 { afterAB with window := { afterAB.window with winPos := 4095#32 } }) = false ∧
    afterAB.codec.outSize = none ∧ WinRoom (withOutCap 275 afterAB) (273#32 : U32).toNat ∧
    lenWf 2#16 = true ∧ lenWf 273#16 = true ∧ (3#16 : U16) ≠ 2#16 := by
  unfold WinRoom; decide +kernel

theorem witness_WindowOperations :
    let room := windowOf (text "AB") State.reset
    let last : State := { room with window := { room.window with winPos := 4095#32 } }
    room.window.winPos + 1#32 ≠ room.window.windowSize ∧ last.window.winPos + 1#32 = last.window.windowSize ∧
    WinRoom (withOutCap 3 room) 1 ∧ room.window.winPos.toNat < room.window.windowSize.toNat ∧
    (1#32 : U32).toNat < room.window.winPos.toNat ∧ (4095#32 : U32).toNat < room.window.windowSize.toNat ∧
    (0xFFFFFFFE#32 : U32).toNat < 2 ^ 32 - 1 ∧ ends (owPut (owGet room 0#32)) room = true ∧
    ends (owPut (owGet last 0#32)) (withOutCap 0 last) = false ∧ WinRoom (withOutCap 4 room) (2#32 : U32).toNat := by
  unfold WinRoom; decide +kernel

theorem witness_FlushMovesTheUnflushedBytes :
    let s := windowOf (text "AB") State.reset
    Memory.wf s.outMem = true ∧ s.host.outLen.toNat ≤ s.outCap ∧
    s.window.winPos.toNat - s.window.winFlushPos.toNat ≤ (withOutCap 2 s).outCap - s.host.outLen.toNat ∧
    (withOutCap 1 s).outCap - s.host.outLen.toNat < s.window.winPos.toNat - s.window.winFlushPos.toNat := by
  decide +kernel

theorem witness_WindowIsALinearHistory :
    let s := windowOf (text "AB") State.reset
    Memory.wf s.outMem = true ∧ Store.wf Memory.blank s.window.win = true ∧ s.host.outLen = 0#64 ∧
    isNext (exec (.owInit 1#32) s) = true ∧ WindowHolds (text "AB") s ∧ WinRoom (withOutCap 3 s) 1 ∧
    WinRoom (withOutCap 5 s) (3#32 : U32).toNat ∧ (1#32 : U32).toNat < (text "AB").length ∧
    (1#32 : U32).toNat < s.window.windowSize.toNat ∧ WinRoom (withOutCap 2 s) 0 := by
  refine ⟨by decide +kernel, by decide +kernel, by decide +kernel, by decide +kernel,
    ⟨by decide +kernel, ?_⟩, ?_⟩
  · intro d h _
    have h2 : d.toNat < 2 := h
    obtain h0 | h1 : d = 0#32 ∨ d = 1#32 := by
      rcases Nat.lt_succ_iff_lt_or_eq.mp h2 with h | h
      · exact .inl (BitVec.eq_of_toNat_eq (by simpa using h))
      · exact .inr (BitVec.eq_of_toNat_eq h)
    · subst h0; decide +kernel
    · subst h1; decide +kernel
  · unfold WinRoom; decide +kernel

theorem witness_RangeEncoderFrames :
    Memory.wf State.reset.outMem = true ∧ Store.wf probInit State.reset.probs = true ∧
    ([.rcEncBit (cellOf .isRep 0) true, .rcEncDirect 5#32 32#8, .rcShiftLow, .rcEncFlush,
      .btEnc (cellOf .posSlot 0) 6#8 63#8, .btRenc (cellOf .posAlign 0) 4#8 15#8, .litEnc 0#16 0x41#8,
      .litEncMatched 0#16 0x42#8 0x41#8, .lenEnc .repLen 271#16 15#8] : List Instr).all (fun i =>
        i.wf && isNext (exec i State.reset) && isNext (exec i (withOutCap 0 State.reset))) = true := by
  decide +kernel

theorem witness_RangeDecoderFrames :
    Store.wf probInit (zeros 40).probs = true ∧
    ([.rcDecBit (cellOf .isRep 0), .rcDecDirect 32#8, .rcDecInit, .btDec (cellOf .posSlot 0) 6#8,
      .btRdec (cellOf .posAlign 0) 4#8, .litDec 0#16, .litDecMatched 0#16 0x42#8, .lenDec .repLen 15#8,
      .codecDecDistance 2#16] : List Instr).all (fun i =>
        i.wf && isNext (exec i (zeros 40)) && isNext (exec i (zeros 0))) = true := by decide +kernel

theorem witness_EncoderPacketFrames :
    Memory.wf (pending 5#32 3 4).outMem = true ∧ Store.wf probInit (pending 5#32 3 4).probs = true ∧
    (pending 5#32 3 4).phase ≠ .decRun ∧
    ([.codecEncLit, .codecEncMatch 3#16 1#32, .codecEncRep 0#8 1#16, .codecEncEos, .codecEncDistance 5#32 3#16,
      .lenEncCounted .repLen 0#16 0#8, .codecEncBlock, .lit 0x41#8, .matchDist 3#16 1#32, .shortrep,
      .longrep0 2#16, .longrep1 2#16, .longrep2 2#16, .longrep3 2#16, .eos] : List Instr).all (fun i =>
        isNext (exec i (pending 5#32 3 4))) = true := by decide +kernel

theorem witness_DecoderPacketAndWindowFrames :
    Memory.wf afterAB.outMem = true ∧ afterAB.phase = .decRun ∧
    ([.codecDecPacket, .codecCopy 2#16, .lit 0x43#8, .matchDist 2#16 1#32, .shortrep, .longrep0 2#16,
      .longrep1 2#16, .longrep2 2#16, .longrep3 2#16, .eos, .owPut 0x43#8, .owCopy 1#32 2#32, .owFlush] :
      List Instr).all (fun i => isNext (exec i afterAB)) = true := by decide +kernel

theorem witness_ParserFrames :
    isNext (exec (.optGetOptimum 1#32) (pending 5#32 3 4)) = true ∧
    isNext (exec (.optBackward 3#32) (lattice [(1, 0#32, 0xFFFFFFFF#32), (3, 1#32, 5#32)])) = true := by
  decide +kernel

end Sys2Proof.Tests
end

section
/-! The invariant taken apart: one predicate for each component of the state, and the state of a running
operation (`InStage`), whose duties to ENC_RUN and DEC_RUN are named apart from the components. -/

namespace Sys2Proof

open Machine

/-! ### Components -/

/-- The cells are canonical and hold values of 31..2017 (10_state R35). -/
structure CellsOk (t : Store U16) : Prop where
  canonical : Store.wf probInit t = true
  bounded : cellsBounded t = true

/-- The codec's state and properties are in range (10_state R38, 30_encoding R81). -/
structure CodecOk (c : Codec) : Prop where
  state : c.state ≤ 11#4
  lc : c.lc ≤ 8#4
  lp : c.lp ≤ 4#3
  pb : c.pb ≤ 4#3

/-- A length coder's price table is canonical, its size inside the array (10_state R42). -/
structure LenPricesOk (p : LenPrices) : Prop where
  prices : Store.wf 0#32 p.prices = true
  counters : Store.wf 0#32 p.counters = true
  size : p.tableSize ≤ 272#32

/-- The price tables are canonical, their sizes inside their arrays (10_state R42). -/
structure PricesOk (p : Prices) : Prop where
  slots : Store.wf 0#32 p.posSlotPrices = true
  distances : Store.wf 0#32 p.distancesPrices = true
  align : Store.wf 0#32 p.alignPrices = true
  slotCount : p.distTableSize ≤ 64#32
  matchLen : LenPricesOk p.matchLen
  repLen : LenPricesOk p.repLen

/-- The candidate buffer and the lattice are canonical. -/
structure ParserOk (p : Parser) : Prop where
  candidates : Store.wf 0#32 p.matchDistances = true
  lattice : Store.wf Node.blank p.optimum = true

/-- The match finder's tables are canonical. -/
structure FinderOk (m : MatchFinder) : Prop where
  son : Store.wf 0#32 m.son = true
  hash : Store.wf 0#32 m.hash = true

/-- The window's indices are in order (10_state R46). -/
structure WindowOk (w : Window) : Prop where
  size : 4096 ≤ w.windowSize.toNat
  flushed : w.winFlushPos.toNat ≤ w.winPos.toNat
  inside : w.winPos.toNat < w.windowSize.toNat

/-- What the invariant says of every component, whatever PHASE is. It is what an operation that
raises an error leaves behind. -/
structure Base (s : State) : Prop where
  params : s.params.wf = true
  inMem : Memory.wf s.inMem = true
  outMem : Memory.wf s.outMem = true
  outLen : s.host.outLen.toNat ≤ s.outCap
  cells : CellsOk s.probs
  codec : CodecOk s.codec
  fastBytes : s.encCfg.fastBytes ≤ 255#9
  encRange : kTopValue ≤ s.enc.range
  prices : PricesOk s.prices
  parser : ParserOk s.parser
  finder : FinderOk s.mf
  win : Store.wf Memory.blank s.window.win = true

/-! ### Stages -/

/-- Where a running operation stands: the place in the run loop and ERR_CODE, which it leaves alone, and
which of the duties of ENC_RUN and DEC_RUN it has to keep. -/
structure Stage where
  seq : Seq
  code : U4
  /-- keep `low + range` below 2^33 (40_range_coder R116) -/
  low : Prop
  /-- keep the decoder's range at least 2^24 (40_range_coder R115) -/
  range : Prop
  /-- keep the window's indices in order (10_state R46) -/
  window : Prop

/-- `s` is a state of an operation running in stage `g`. -/
structure InStage (g : Stage) (s : State) : Prop where
  base : Base s
  seq : s.host.seq = g.seq
  code : s.host.errCode = g.code
  low : g.low → s.enc.low.toNat + s.enc.range.toNat < 2 ^ 33
  range : g.range → kTopValue ≤ s.dec.range
  window : g.window → WindowOk s.window

/-- The stage a state with the invariant is in. -/
def stageOf (s : State) : Stage where
  seq := s.host.seq
  code := s.host.errCode
  low := s.phase = .encRun
  range := s.phase = .decRun
  window := s.phase = .decRun

/-- The duties of `g` are all that its place in the run loop asks for. -/
structure Stage.Complete (g : Stage) : Prop where
  code : g.code ≤ 6#4 ∧ (g.code ≠ 0#4 ↔ g.seq = .error)
  low : g.seq.phase = .encRun → g.low
  range : g.seq.phase = .decRun → g.range
  window : g.seq.phase = .decRun → g.window

theorem tablesWf_iff (s : State) : tablesWf s = true ↔
    (Store.wf Memory.blank s.window.win = true ∧ FinderOk s.mf ∧ ParserOk s.parser ∧
      (Store.wf 0#32 s.prices.posSlotPrices = true ∧ Store.wf 0#32 s.prices.distancesPrices = true ∧
        Store.wf 0#32 s.prices.alignPrices = true) ∧
      (Store.wf 0#32 s.prices.matchLen.prices = true ∧ Store.wf 0#32 s.prices.matchLen.counters = true) ∧
      (Store.wf 0#32 s.prices.repLen.prices = true ∧ Store.wf 0#32 s.prices.repLen.counters = true)) := by
  have hm : FinderOk s.mf ↔ Store.wf 0#32 s.mf.son = true ∧ Store.wf 0#32 s.mf.hash = true :=
    ⟨fun h => ⟨h.son, h.hash⟩, fun h => ⟨h.1, h.2⟩⟩
  have hp : ParserOk s.parser ↔
      Store.wf 0#32 s.parser.matchDistances = true ∧ Store.wf Node.blank s.parser.optimum = true :=
    ⟨fun h => ⟨h.candidates, h.lattice⟩, fun h => ⟨h.1, h.2⟩⟩
  simp only [tablesWf, Bool.and_eq_true, hm, hp, and_assoc]

theorem sizesBounded_iff (s : State) : sizesBounded s = true ↔
    s.prices.distTableSize ≤ 64#32 ∧ s.prices.matchLen.tableSize ≤ 272#32 ∧
      s.prices.repLen.tableSize ≤ 272#32 ∧ s.encCfg.fastBytes ≤ 255#9 := by
  simp only [sizesBounded, Bool.and_eq_true, decide_eq_true_eq, and_assoc]

theorem Inv.toBase {s : State} (h : Inv s) : Base s := by
  obtain ⟨hwin, hmf, hparser, ⟨hslots, hdist, halign⟩, ⟨hmp, hmc⟩, hrp, hrc⟩ :=
    (tablesWf_iff s).1 h.tablesCanonical
  obtain ⟨hsize, hms, hrs, hfast⟩ := (sizesBounded_iff s).1 h.sizes
  obtain ⟨hlc, hlp, hpb⟩ := h.props
  exact
    { params := h.params, inMem := h.inCanonical, outMem := h.outCanonical, outLen := h.outBounded
      cells := ⟨h.cellsCanonical, h.cells⟩, codec := ⟨h.state, hlc, hlp, hpb⟩, fastBytes := hfast
      encRange := h.encRange
      prices := ⟨hslots, hdist, halign, hsize, ⟨hmp, hmc, hms⟩, ⟨hrp, hrc, hrs⟩⟩
      parser := hparser, finder := hmf, win := hwin }

theorem Inv.inStage {s : State} (h : Inv s) : InStage (stageOf s) s where
  base := h.toBase
  seq := rfl
  code := rfl
  low := h.encLow
  range := h.decRange
  window hd := ⟨(h.window hd).1, (h.window hd).2.1, (h.window hd).2.2⟩

theorem Inv.complete {s : State} (h : Inv s) : (stageOf s).Complete where
  code := h.errorCode
  low := id
  range := id
  window := id

/-- An operation that ends in a complete stage ends with the invariant. -/
theorem InStage.inv {g : Stage} {s : State} (h : InStage g s) (hg : g.Complete) : Inv s := by
  have hphase : s.phase = g.seq.phase := congrArg Seq.phase h.seq
  have b := h.base
  exact
    { params := b.params, inCanonical := b.inMem, outCanonical := b.outMem, outBounded := b.outLen
      cellsCanonical := b.cells.canonical, cells := b.cells.bounded
      tablesCanonical := (tablesWf_iff s).2
        ⟨b.win, b.finder, b.parser, ⟨b.prices.slots, b.prices.distances, b.prices.align⟩,
          ⟨b.prices.matchLen.prices, b.prices.matchLen.counters⟩,
          b.prices.repLen.prices, b.prices.repLen.counters⟩
      state := b.codec.state, props := ⟨b.codec.lc, b.codec.lp, b.codec.pb⟩
      sizes := (sizesBounded_iff s).2
        ⟨b.prices.slotCount, b.prices.matchLen.size, b.prices.repLen.size, b.fastBytes⟩
      errorCode := by rw [h.seq, h.code]; exact hg.code
      encRange := b.encRange
      encLow := fun he => h.low (hg.low (hphase ▸ he))
      decRange := fun hd => h.range (hg.range (hphase ▸ hd))
      window := fun hd =>
        have hw := h.window (hg.window (hphase ▸ hd))
        ⟨hw.size, hw.flushed, hw.inside⟩ }

/-- The error entry (60_exceptions R320) restores the invariant: ERROR has no duties. -/
theorem Base.inv_errorEntry {s : State} (h : Base s) (e : ErrKind) : Inv (errorEntry e s) :=
  InStage.inv (g := ⟨.error, e.code, False, False, False⟩)
    { base := { h with }, seq := rfl, code := rfl, low := False.elim, range := False.elim
      window := False.elim }
    { code := ⟨errKind_code_le e, iff_of_true (errKind_code_ne_zero e) rfl⟩
      low := nofun, range := nofun, window := nofun }

theorem InStage.withRet {g : Stage} {s : State} (h : InStage g s) (r : Ret) :
    InStage g { s with ret := r } := { h with base := { h.base with } }

theorem Inv.withRet {s : State} (h : Inv s) (r : Ret) : Inv { s with ret := r } :=
  (h.inStage.withRet r).inv h.complete

/-! ### Operations -/

/-- Where an operation ends: in `Q` when it returns, with the components in order when it raises. -/
def Ends {α : Type} (Q : State → Prop) : EStateM.Result ErrKind State α → Prop
  | .ok _ t => Q t
  | .error _ t => Base t

/-- From every state of `P` the operation ends in `Q` or with an error. -/
def Leads {α : Type} (P Q : State → Prop) (m : Eng α) : Prop := ∀ s, P s → Ends Q (m s)

/-- The operation keeps every stage. -/
def Stays {α : Type} (m : Eng α) : Prop := ∀ g, Leads (InStage g) (InStage g) m

section

variable {α β : Type} {P Q R : State → Prop}

theorem Leads.bind {m : Eng α} {f : α → Eng β} (hm : Leads P Q m) (hf : ∀ a, Leads Q R (f a)) :
    Leads P R (m >>= f) := by
  intro s hs
  have h := hm s hs
  rw [bind_run]
  cases hr : m s with
  | ok a t => rw [hr] at h; exact hf a t h
  | error e t => rw [hr] at h; exact h

theorem Leads.pure (h : ∀ s, P s → Q s) (a : α) : Leads P Q (Pure.pure a : Eng α) := h

theorem Leads.modify {f : State → State} (h : ∀ s, P s → Q (f s)) :
    Leads P Q (modify f : Eng PUnit) := h

/-- After reading the state, the rest may be looked at with that state at hand. -/
theorem Leads.get_bind {f : State → Eng β} (hf : ∀ s, P s → Ends Q (f s s)) :
    Leads P Q (MonadState.get >>= f) := hf

theorem Leads.error (h : ∀ s, P s → Base s) (e : ErrKind) : Leads P Q (raise e : Eng α) := h

theorem Stays.pure (a : α) : Stays (Pure.pure a : Eng α) := fun _ _ h => h

theorem Stays.error (e : ErrKind) : Stays (raise e : Eng α) := fun _ _ h => h.base

theorem Stays.bind {m : Eng α} {f : α → Eng β} (hm : Stays m) (hf : ∀ a, Stays (f a)) :
    Stays (m >>= f) := fun g => (hm g).bind fun a => hf a g

theorem Stays.then {m : Eng α} {n : Eng β} (hm : Stays m) (hn : Stays n) :
    Stays (m >>= fun _ => n) := hm.bind fun _ => hn

theorem Stays.modify {f : State → State} (h : ∀ g s, InStage g s → InStage g (f s)) :
    Stays (modify f : Eng PUnit) := h

theorem Stays.get_bind {f : State → Eng β} (hf : ∀ s, Stays (f s)) : Stays (MonadState.get >>= f) :=
  fun g s h => hf s g s h

theorem Stays.ite {c : Prop} [Decidable c] {m n : Eng α} (hm : Stays m) (hn : Stays n) :
    Stays (if c then m else n) := by
  split
  · exact hm
  · exact hn

end

/-- An operation that leads to the invariant, or raises an error, leaves it once it is finished. -/
theorem Leads.inv_finish {P : State → Prop} {m : Eng Ret} (hm : Leads P Inv m) {s : State} (hs : P s) :
    Inv (finish (m s)) := by
  have he := hm s hs
  cases hr : m s with
  | ok r u => rw [hr] at he; exact he.withRet r
  | error e u => rw [hr] at he; exact (he.inv_errorEntry e).withRet .none

theorem Leads.inv_complete {P : State → Prop} {m : Eng Ret} (hm : Leads P Inv m) {s t : State}
    (hs : P s) (h : complete m s = .next t) : Inv t := by
  cases h
  exact hm.inv_finish hs

theorem Stays.leads_inv {α : Type} {m : Eng α} (hm : Stays m) : Leads Inv Inv m := fun s hs => by
  have h := hm (stageOf s) s hs.inStage
  cases hr : m s with
  | ok a t => rw [hr] at h; exact h.inv hs.complete
  | error e t => rw [hr] at h; exact h

theorem Stays.inv_complete {m : Eng Ret} (hm : Stays m) {s t : State} (hs : Inv s)
    (h : complete m s = .next t) : Inv t := hm.leads_inv.inv_complete hs h

theorem Stays.inv_completeUnit {m : Eng Unit} (hm : Stays m) {s t : State} (hs : Inv s)
    (h : completeUnit m s = .next t) : Inv t := (hm.then (.pure _)).inv_complete hs h

theorem Stays.inv_completeWord {m : Eng U32} (hm : Stays m) {s t : State} (hs : Inv s)
    (h : completeWord m s = .next t) : Inv t := (hm.bind fun _ => .pure _).inv_complete hs h

/-- An instruction that only writes `u` and the return register. -/
theorem inv_answer {r : Ret} {u t : State} (hu : Inv u) (h : answer r u = .next t) : Inv t := by
  cases h
  exact hu.withRet r

/-- A change of the state that keeps every stage keeps the invariant. -/
theorem Inv.map {f : State → State} (hf : ∀ g s, InStage g s → InStage g (f s)) {s : State}
    (h : Inv s) : Inv (f s) := (hf _ _ h.inStage).inv h.complete

end Sys2Proof
end

section
/-! The range coder, the trees, the literal and the length coder keep every stage. -/

namespace Sys2Proof

open Machine

variable {g : Stage} {s : State}

/-! ### Stages with fewer duties -/

/-- The stage without the duty of R116, in which SHIFT_LOW may start. -/
def Stage.freeLow (g : Stage) : Stage := { g with low := False }

/-- The stage without the decoder's duty of R115, in which its renormalisation starts. -/
def Stage.freeRange (g : Stage) : Stage := { g with range := False }

/-- The stage without the window's duty. -/
def Stage.freeWindow (g : Stage) : Stage := { g with window := False }

theorem InStage.freeLow (h : InStage g s) : InStage g.freeLow s := { h with low := False.elim }

theorem InStage.freeRange (h : InStage g s) : InStage g.freeRange s := { h with range := False.elim }

theorem InStage.freeWindow (h : InStage g s) : InStage g.freeWindow s := { h with window := False.elim }

/-! ### Changes of one component -/

theorem InStage.withEnc (h : InStage g s) (e : RangeEnc) (hr : kTopValue ≤ e.range)
    (hl : g.low → e.low.toNat + e.range.toNat < 2 ^ 33) : InStage g { s with enc := e } :=
  { h with base := { h.base with encRange := hr }, low := hl }

theorem InStage.withDec (h : InStage g s) (d : RangeDec) (hr : g.range → kTopValue ≤ d.range) :
    InStage g { s with dec := d } :=
  { h with base := { h.base with }, range := hr }

theorem InStage.withProbs (h : InStage g s) {t : Store U16} (ht : CellsOk t) :
    InStage g { s with probs := t } :=
  { h with base := { h.base with cells := ht } }

theorem InStage.withCodec (h : InStage g s) {c : Codec} (hc : CodecOk c) :
    InStage g { s with codec := c } :=
  { h with base := { h.base with codec := hc } }

theorem InStage.withPrices (h : InStage g s) {p : Prices} (hp : PricesOk p) :
    InStage g { s with prices := p } :=
  { h with base := { h.base with prices := hp } }

theorem InStage.withWindow (h : InStage g s) {w : Window} (hwin : Store.wf Memory.blank w.win = true)
    (hw : g.window → WindowOk w) : InStage g { s with window := w } :=
  { h with base := { h.base with win := hwin }, window := hw }

/-- The host registers that no stage is about. -/
theorem InStage.withHost (h : InStage g s) {r : HostRegs} (hs : r.seq = s.host.seq)
    (hc : r.errCode = s.host.errCode) (hl : r.outLen.toNat ≤ s.outCap) :
    InStage g { s with host := r } :=
  { h with base := { h.base with outLen := hl }, seq := hs.trans h.seq, code := hc.trans h.code }

theorem InStage.withInPos (h : InStage g s) (v : U32) : InStage g (s.withInPos v) :=
  h.withHost rfl rfl h.base.outLen

/-! ### Cells -/

theorem cellsBounded_mem {t : Store U16} (h : cellsBounded t = true) {e : Nat × U16} (he : e ∈ t) :
    31 ≤ e.2.toNat ∧ e.2.toNat ≤ 2017 := by
  have h' := List.all_eq_true.1 h e he
  simp only [Bool.and_eq_true, decide_eq_true_eq, BitVec.le_def] at h'
  exact h'

theorem Store.get_eq_or_mem {α : Type} (d : α) (t : Store α) (i : Nat) :
    Store.get d t i = d ∨ ∃ e ∈ t, e.2 = Store.get d t i := by
  induction t with
  | nil => exact .inl rfl
  | cons e t ih =>
    obtain ⟨k, v⟩ := e
    simp only [Store.get]
    split
    · exact .inr ⟨(k, v), List.mem_cons_self, rfl⟩
    · split
      · exact .inl rfl
      · exact ih.imp id fun ⟨e, he, hv⟩ => ⟨e, List.mem_cons_of_mem _ he, hv⟩

/-- Every cell reads as a value of 31..2017. -/
theorem CellsOk.get {t : Store U16} (h : CellsOk t) (i : Nat) :
    31 ≤ (Store.get probInit t i).toNat ∧ (Store.get probInit t i).toNat ≤ 2017 := by
  rcases Store.get_eq_or_mem probInit t i with hd | ⟨e, he, hv⟩
  · rw [hd]; decide
  · rw [← hv]; exact cellsBounded_mem h.bounded he

theorem Base.prob (h : Base s) (c : CellRef) : 31 ≤ (s.prob c).toNat ∧ (s.prob c).toNat ≤ 2017 :=
  h.cells.get _

/-- A store gains at most the entry written. -/
theorem Store.mem_set {α : Type} [DecidableEq α] {d v : α} {i : Nat} :
    ∀ {t : Store α} {e : Nat × α}, e ∈ Store.set d t i v → e = (i, v) ∨ e ∈ t
  | [], e, h => by
    simp only [Store.set, Store.cons] at h
    split at h
    · exact .inr h
    · exact .inl (List.mem_singleton.1 h)
  | (k, u) :: t, e, h => by
    simp only [Store.set] at h
    split at h
    · simp only [Store.cons] at h
      split at h
      · exact .inr (List.mem_cons_of_mem _ h)
      · exact (List.mem_cons.1 h).imp id (List.mem_cons_of_mem _)
    · split at h
      · simp only [Store.cons] at h
        split at h
        · exact .inr h
        · exact List.mem_cons.1 h
      · rcases List.mem_cons.1 h with rfl | h
        · exact .inr List.mem_cons_self
        · exact (Store.mem_set h).imp id (List.mem_cons_of_mem _)

theorem CellsOk.set {t : Store U16} (h : CellsOk t) (i : Nat) {v : U16} (h1 : 31 ≤ v.toNat)
    (h2 : v.toNat ≤ 2017) : CellsOk (Store.set probInit t i v) where
  canonical := Store.wf_set h.canonical
  bounded := List.all_eq_true.2 fun e he => by
    simp only [Bool.and_eq_true, decide_eq_true_eq, BitVec.le_def]
    rcases Store.mem_set he with rfl | he
    · exact ⟨h1, h2⟩
    · exact cellsBounded_mem h.bounded he

theorem CellsOk.clear {t : Store U16} (h : CellsOk t) (i n : Nat) : CellsOk (Store.clear t i n) where
  canonical := Store.wf_clear h.canonical
  bounded := List.all_eq_true.2 fun e he => List.all_eq_true.1 h.bounded e (List.mem_of_mem_filter he)

theorem CellsOk.nil : CellsOk [] := ⟨rfl, rfl⟩

/-- Adapting a cell keeps the stage (40_range_coder R114). -/
theorem InStage.adapted (h : InStage g s) (c : CellRef) (b : Bool) :
    InStage g (s.setProb c (adapt (s.prob c) b)) := by
  obtain ⟨h1, h2⟩ := h.base.prob c
  obtain ⟨h3, h4⟩ := adapt_bounds (s.prob c) b h1 h2
  exact h.withProbs (h.base.cells.set _ h3 h4)

/-! ### OUT (20_memory R64) -/

theorem InStage.appendOut (h : InStage g s) (b : Byte) (hl : s.host.outLen.toNat < s.outCap) :
    InStage g (s.appendOut b) := by
  have hlen := appendOut_outLen b hl
  exact
    { h with
      base :=
        { h.base with
          outMem := Memory.wf_write h.base.outMem
          outLen := by rw [hlen]; exact hl } }

theorem stays_outWrite (b : Byte) : Stays (outWrite b) := by
  intro g s h
  rcases Nat.lt_or_ge s.host.outLen.toNat s.outCap with hl | hl
  · rw [outWrite_ok b hl]; exact h.appendOut b hl
  · rw [outWrite_full b hl]; exact h.base

theorem stays_outWriteAll : ∀ bs, Stays (outWriteAll bs)
  | [] => .pure _
  | b :: bs => (stays_outWrite b).then (stays_outWriteAll bs)

/-! ### Range encoder -/

theorem stays_countEmitted : Stays countEmitted :=
  .modify fun _ _ h => h.withEnc _ h.base.encRange h.low

theorem stays_emitPending (carry : Byte) : ∀ n temp, Stays (emitPending carry n temp)
  | 0, _ => .pure _
  | n + 1, _ => (stays_outWrite _).then (stays_countEmitted.then (stays_emitPending carry n _))

theorem stays_emitSettled : Stays emitSettled :=
  .get_bind fun _ => (stays_emitPending _ _ _).then
    (.modify fun _ _ h => h.withEnc _ h.base.encRange h.low)

theorem stays_emitIfSettled : Stays emitIfSettled :=
  .get_bind fun _ => .ite stays_emitSettled (.pure _)

/-- SHIFT_LOW leaves `low` below 2^32 (40_range_coder R112), so it meets R116 whatever it starts from. -/
theorem shiftedLow_lt (low : U64) (range : U32) :
    ((low &&& 0x00FFFFFF#64) <<< 8).toNat + range.toNat < 2 ^ 33 := by
  have hm : (low &&& 0x00FFFFFF#64).toNat < 2 ^ 24 := by
    rw [BitVec.toNat_and]
    exact Nat.and_lt_two_pow _ (by decide)
  have hr := range.isLt
  rw [BitVec.toNat_shiftLeft, Nat.shiftLeft_eq]
  omega

theorem leads_shiftLow : Leads (InStage g.freeLow) (InStage g) shiftLow :=
  (stays_emitIfSettled g.freeLow).bind fun _ => .modify fun s h =>
    { h with base := { h.base with }, low := fun _ => shiftedLow_lt s.enc.low s.enc.range }

theorem stays_shiftLow : Stays shiftLow := fun _ _ h => leads_shiftLow _ h.freeLow

/-- One renormalisation is enough: a range of at least 2^16 comes back to at least 2^24. -/
theorem renormalised_ge {r : U32} (h : 65536 ≤ r.toNat) (ht : r < kTopValue) : kTopValue ≤ r <<< 8 := by
  have ht' : r.toNat < 16777216 := ht
  show 16777216 ≤ (r <<< 8).toNat
  rw [BitVec.toNat_shiftLeft, Nat.shiftLeft_eq]
  omega

theorem ends_encNormalise (h : InStage g s) {e : RangeEnc} (hr : 65536 ≤ e.range.toNat)
    (hl : g.low → e.low.toNat + e.range.toNat < 2 ^ 33) :
    Ends (InStage g) (encNormalise { s with enc := e }) := by
  unfold encNormalise
  rw [get_bind_run]
  dsimp only
  split
  · next ht => exact leads_shiftLow _ (h.freeLow.withEnc _ (renormalised_ge hr ht) False.elim)
  · next ht => exact h.withEnc e (by bv_omega) hl

theorem bitBound_toNat {r : U32} {p : U16} (hp : p.toNat ≤ 2017) :
    (bitBound r p).toNat = r.toNat / 2048 * p.toNat := by
  have hr := r.isLt
  have hm : r.toNat / 2048 * p.toNat ≤ 2097151 * 2017 := Nat.mul_le_mul (by omega) hp
  rw [bitBound, BitVec.toNat_mul, BitVec.toNat_ushiftRight, Nat.shiftRight_eq_div_pow,
    show 2 ^ 11 = 2048 from rfl, BitVec.toNat_setWidth, Nat.mod_eq_of_lt (a := p.toNat) (by omega),
    Nat.mod_eq_of_lt (by omega)]

/-- Both parts of the interval have at least 2^16 (40_range_coder R115). -/
theorem bitBound_parts {r : U32} {p : U16} (hr : kTopValue ≤ r) (h1 : 31 ≤ p.toNat)
    (h2 : p.toNat ≤ 2017) :
    65536 ≤ (bitBound r p).toNat ∧ (bitBound r p).toNat + 65536 ≤ r.toNat := by
  have hr' : 16777216 ≤ r.toNat := hr
  have hlo : r.toNat / 2048 * 31 ≤ r.toNat / 2048 * p.toNat := Nat.mul_le_mul_left _ h1
  have hhi : r.toNat / 2048 * p.toNat ≤ r.toNat / 2048 * 2017 := Nat.mul_le_mul_left _ h2
  rw [bitBound_toNat h2]
  omega

/-- The part of the interval that a decision takes: it stays inside the old one. -/
theorem narrow_bounds {e : RangeEnc} {bound : U32} (b : Bool) (h1 : 65536 ≤ bound.toNat)
    (h2 : bound.toNat + 65536 ≤ e.range.toNat) :
    65536 ≤ (narrow e bound b).range.toNat ∧
      (e.low.toNat + e.range.toNat < 2 ^ 33 →
        (narrow e bound b).low.toNat + (narrow e bound b).range.toNat < 2 ^ 33) := by
  cases b
  · simp only [narrow, Bool.false_eq_true, if_false]
    omega
  · have hw : (bound.setWidth 64).toNat = bound.toNat := by
      rw [BitVec.toNat_setWidth]
      have := bound.isLt
      omega
    have hlow := BitVec.toNat_add e.low (bound.setWidth 64)
    have hrange := BitVec.toNat_sub_of_le (x := e.range) (y := bound) (by bv_omega)
    simp only [narrow, if_true]
    omega

theorem stays_encBit (c : CellRef) (b : Bool) : Stays (encBit c b) := by
  intro g s h
  obtain ⟨p1, p2⟩ := h.base.prob c
  obtain ⟨b1, b2⟩ := bitBound_parts h.base.encRange p1 p2
  obtain ⟨hr, hl⟩ := narrow_bounds b b1 b2
  exact ends_encNormalise (h.adapted c b) hr fun hg => hl (h.low hg)

theorem halve_bounds {e : RangeEnc} (b : Bool) (hr : kTopValue ≤ e.range) :
    65536 ≤ (halve e b).range.toNat ∧
      (e.low.toNat + e.range.toNat < 2 ^ 33 →
        (halve e b).low.toNat + (halve e b).range.toNat < 2 ^ 33) := by
  have hr' : 16777216 ≤ e.range.toNat := hr
  have hh : (e.range >>> 1).toNat = e.range.toNat / 2 := by
    rw [BitVec.toNat_ushiftRight, Nat.shiftRight_eq_div_pow, pow_one]
  have hw : ((e.range >>> 1).setWidth 64).toNat = e.range.toNat / 2 := by
    rw [BitVec.toNat_setWidth, hh]
    have := e.range.isLt
    omega
  have hlow := BitVec.toNat_add e.low ((e.range >>> 1).setWidth 64)
  cases b
  · simp only [halve, Bool.false_eq_true, if_false]
    omega
  · simp only [halve, if_true]
    omega

theorem stays_encDirectBit (b : Bool) : Stays (encDirectBit b) := by
  intro g s h
  obtain ⟨hr, hl⟩ := halve_bounds (e := s.enc) b h.base.encRange
  exact ends_encNormalise h hr fun hg => hl (h.low hg)

theorem stays_encDirect (v : U32) : ∀ n, Stays (encDirect v n)
  | 0 => .pure _
  | n + 1 => (stays_encDirectBit _).then (stays_encDirect v n)

theorem stays_shiftLowTimes : ∀ n, Stays (shiftLowTimes n)
  | 0 => .pure _
  | n + 1 => stays_shiftLow.then (stays_shiftLowTimes n)

theorem stays_encFlush : Stays encFlush := stays_shiftLowTimes 5

/-- RC.ENC_INIT takes up the duty of R116. -/
theorem leads_encInit : Leads (InStage g.freeLow) (InStage g) encInit := by
  have hr : kTopValue ≤ encInitRegs.range := by decide
  have hl : encInitRegs.low.toNat + encInitRegs.range.toNat < 2 ^ 33 := by decide
  exact .modify fun _ h => { h with base := { h.base with encRange := hr }, low := fun _ => hl }

theorem stays_encInit : Stays encInit := fun _ _ h => leads_encInit _ h.freeLow

/-! ### Range decoder -/

/-- A byte moves into `code`; the range, and with it its duty, does not move. -/
theorem ends_decShiftIn {Q : State → Prop} (h : InStage g s)
    (hq : ∀ v c, InStage g (s.withInPos v) → Q { s.withInPos v with dec := { s.dec with code := c } }) :
    Ends Q (decShiftIn s) := by
  unfold decShiftIn
  by_cases hp : s.host.inPos < s.host.inLen
  · rw [bind_ok (readByte_ok hp)]; exact hq _ _ (h.withInPos _)
  · rw [bind_error (readByte_end hp)]; exact h.base

theorem stays_decShiftIn : Stays decShiftIn := fun _ _ h =>
  ends_decShiftIn h fun _ _ h' => h'.withDec _ h.range

theorem stays_decShiftInTimes : ∀ n, Stays (decShiftInTimes n)
  | 0 => .pure _
  | n + 1 => stays_decShiftIn.then (stays_decShiftInTimes n)

/-- RC.DEC_INIT takes up the duty of R115. -/
theorem leads_decInit : Leads (InStage g.freeRange) (InStage g) decInit := by
  have hr : kTopValue ≤ 0xFFFFFFFF#32 := by decide
  exact Leads.bind (Q := InStage g)
    (.modify fun _ h => { h with base := { h.base with }, range := fun _ => hr })
    fun _ => stays_decShiftInTimes 5 g

theorem stays_decInit : Stays decInit := fun _ _ h => leads_decInit _ h.freeRange

theorem ends_decNormalise (h : InStage g.freeRange s) (hr : g.range → 65536 ≤ s.dec.range.toNat) :
    Ends (InStage g) (decNormalise s) := by
  unfold decNormalise
  rw [get_bind_run]
  dsimp only
  split
  · next ht =>
    have hs : Leads (· = s) (fun u => InStage g.freeRange u ∧ u.dec.range = s.dec.range) decShiftIn := by
      rintro _ rfl
      exact ends_decShiftIn h fun _ _ h' => ⟨h'.withDec _ False.elim, rfl⟩
    refine (hs.bind fun _ => .modify fun u hu => ?_) s rfl
    exact { hu.1 with base := { hu.1.base with }
                      range := fun hg => hu.2 ▸ renormalised_ge (hr hg) ht }
  · next ht => exact { h with range := fun _ => by bv_omega }

theorem decNarrow_range {d : RangeDec} {bound : U32} (h1 : 65536 ≤ bound.toNat)
    (h2 : bound.toNat + 65536 ≤ d.range.toNat) : 65536 ≤ (decNarrow d bound).range.toNat := by
  unfold decNarrow
  split
  · exact h1
  · rw [BitVec.toNat_sub_of_le (by bv_omega)]
    omega

theorem stays_decBit (c : CellRef) : Stays (decBit c) := by
  intro g s h
  obtain ⟨p1, p2⟩ := h.base.prob c
  have hn : Ends (InStage g) (decNormalise (afterDecision c s)) := by
    refine ends_decNormalise ((h.adapted c _).freeRange.withDec _ False.elim) fun hg => ?_
    obtain ⟨b1, b2⟩ := bitBound_parts (h.range hg) p1 p2
    exact decNarrow_range b1 b2
  exact Leads.bind (P := (· = afterDecision c s)) (by rintro _ rfl; exact hn)
    (fun _ => .pure (fun _ => id) _) _ rfl

theorem stays_decDirectBit : Stays decDirectBit := by
  intro g s h
  refine Leads.bind (P := fun u => InStage g.freeRange u ∧ (g.range → 65536 ≤ u.dec.range.toNat))
    (fun u hu => ends_decNormalise hu.1 hu.2) (fun _ => .pure (fun _ => id) _) _
    ⟨h.freeRange.withDec _ False.elim, fun hg => ?_⟩
  have hr : 16777216 ≤ s.dec.range.toNat := h.range hg
  show 65536 ≤ (s.dec.range >>> 1).toNat
  rw [BitVec.toNat_ushiftRight, Nat.shiftRight_eq_div_pow]
  omega

theorem stays_decDirect : ∀ n r, Stays (decDirect n r)
  | 0, _ => .pure _
  | n + 1, _ => stays_decDirectBit.bind fun _ => stays_decDirect n _

/-! ### Trees -/

theorem stays_btEncFrom (t : CellRef) (sym : U32) : ∀ n m, Stays (btEncFrom t sym n m)
  | 0, _ => .pure _
  | n + 1, _ => (stays_encBit _ _).then (stays_btEncFrom t sym n _)

theorem stays_btEnc (t : CellRef) (n : Nat) (sym : U32) : Stays (btEnc t n sym) :=
  stays_btEncFrom t sym n _

theorem stays_btDecFrom (t : CellRef) : ∀ n m, Stays (btDecFrom t n m)
  | 0, _ => .pure _
  | n + 1, _ => (stays_decBit _).bind fun _ => stays_btDecFrom t n _

theorem stays_btDec (t : CellRef) (n : Nat) : Stays (btDec t n) :=
  (stays_btDecFrom t n _).bind fun _ => .pure _

theorem stays_btRencFrom (t : CellRef) : ∀ n sym m, Stays (btRencFrom t n sym m)
  | 0, _, _ => .pure _
  | n + 1, _, _ => (stays_encBit _ _).then (stays_btRencFrom t n _ _)

theorem stays_btRenc (t : CellRef) (n : Nat) (sym : U32) : Stays (btRenc t n sym) :=
  stays_btRencFrom t n sym _

theorem stays_btRdecFrom (t : CellRef) : ∀ n i m sym, Stays (btRdecFrom t n i m sym)
  | 0, _, _, _ => .pure _
  | n + 1, _, _, _ => (stays_decBit _).bind fun _ => stays_btRdecFrom t n _ _ _

theorem stays_btRdec (t : CellRef) (n : Nat) : Stays (btRdec t n) := stays_btRdecFrom t n _ _ _

theorem InStage.btInit (h : InStage g s) (a : CellRef) (k : U32) : InStage g (btInit a k s) :=
  h.withProbs (h.base.cells.clear _ _)

/-! ### Literals -/

theorem stays_litEncFrom (c : U32) (sym : Byte) : ∀ n ctx, Stays (litEncFrom c sym n ctx)
  | 0, _ => .pure _
  | n + 1, _ => (stays_encBit _ _).then (stays_litEncFrom c sym n _)

theorem stays_litEnc (c : U32) (sym : Byte) : Stays (litEnc c sym) := stays_litEncFrom c sym 8 _

theorem stays_litEncMatchedFrom (c : U32) (mb sym : Byte) :
    ∀ n ctx, Stays (litEncMatchedFrom c mb sym n ctx)
  | 0, _ => .pure _
  | n + 1, _ => (stays_encBit _ _).then
    (.ite (stays_litEncMatchedFrom c mb sym n _) (stays_litEncFrom c sym n _))

theorem stays_litEncMatched (c : U32) (mb sym : Byte) : Stays (litEncMatched c mb sym) :=
  stays_litEncMatchedFrom c mb sym 8 _

theorem stays_litDecFrom (c : U32) : ∀ n m, Stays (litDecFrom c n m)
  | 0, _ => .pure _
  | n + 1, _ => (stays_decBit _).bind fun _ => stays_litDecFrom c n _

theorem stays_litDec (c : U32) : Stays (litDec c) := (stays_litDecFrom c 8 _).bind fun _ => .pure _

theorem stays_litDecMatchedFrom (c : U32) (mb : Byte) : ∀ n m, Stays (litDecMatchedFrom c mb n m)
  | 0, _ => .pure _
  | n + 1, _ => (stays_decBit _).bind fun _ =>
    .ite (stays_litDecMatchedFrom c mb n _) (stays_litDecFrom c n _)

theorem stays_litDecMatched (c : U32) (mb : Byte) : Stays (litDecMatched c mb) :=
  (stays_litDecMatchedFrom c mb 8 _).bind fun _ => .pure _

/-! ### Lengths -/

theorem stays_lenEnc (c : LenSel) (k ps : U32) : Stays (lenEnc c k ps) :=
  .ite ((stays_encBit _ _).then (stays_btEnc _ _ _))
    (.ite ((stays_encBit _ _).then ((stays_encBit _ _).then (stays_btEnc _ _ _)))
      ((stays_encBit _ _).then ((stays_encBit _ _).then (stays_btEnc _ _ _))))

theorem stays_lenDec (c : LenSel) (ps : U32) : Stays (lenDec c ps) :=
  (stays_decBit _).bind fun _ =>
    .ite
      ((stays_decBit _).bind fun _ =>
        .ite ((stays_btDec _ _).bind fun _ => .pure _) ((stays_btDec _ _).bind fun _ => .pure _))
      (stays_btDec _ _)

theorem PricesOk.len {p : Prices} (h : PricesOk p) : ∀ c, LenPricesOk (p.len c)
  | .matchLen => h.matchLen
  | .repLen => h.repLen

theorem PricesOk.setLen {p : Prices} (h : PricesOk p) {v : LenPrices} (hv : LenPricesOk v) :
    ∀ c, PricesOk (p.setLen c v)
  | .matchLen => { h with matchLen := hv }
  | .repLen => { h with repLen := hv }

theorem LenPricesOk.withTables {p : LenPrices} (h : LenPricesOk p) {t u : Store U32}
    (ht : Store.wf 0#32 t = true) (hu : Store.wf 0#32 u = true) :
    LenPricesOk { p with prices := t, counters := u } := ⟨ht, hu, h.size⟩

theorem fillLenPrices_wf (e : State) (c : LenSel) (ps : U32) {t : Store U32}
    (h : Store.wf 0#32 t = true) : ∀ n, Store.wf 0#32 (fillLenPrices e c ps n t) = true
  | 0 => h
  | n + 1 => Store.wf_set (fillLenPrices_wf e c ps h n)

theorem InStage.lenSetPrices (h : InStage g s) (c : LenSel) (ps : U32) :
    InStage g (lenSetPrices c ps s) := by
  have hl := h.base.prices.len c
  exact h.withPrices (h.base.prices.setLen
    (hl.withTables (fillLenPrices_wf s c ps hl.prices _) (Store.wf_set hl.counters)) c)

theorem InStage.setLenCounter (h : InStage g s) (c : LenSel) (ps v : U32) :
    InStage g (setLenCounter c ps v s) := by
  have hl := h.base.prices.len c
  exact h.withPrices (h.base.prices.setLen (hl.withTables hl.prices (Store.wf_set hl.counters)) c)

theorem InStage.ite {c : Prop} [Decidable c] {t : State} (ht : InStage g t) (hs : InStage g s) :
    InStage g (if c then t else s) := by
  split
  · exact ht
  · exact hs

theorem InStage.lenCount (h : InStage g s) (c : LenSel) (ps : U32) : InStage g (lenCount c ps s) :=
  have hc := h.setLenCounter c ps _
  .ite (hc.lenSetPrices c ps) hc

theorem stays_lenEncCounted (c : LenSel) (k ps : U32) : Stays (lenEncCounted c k ps) :=
  (stays_lenEnc c k ps).then (.modify fun _ _ h => h.lenCount c ps)

end Sys2Proof
end

section
/-! The match finder and the parser keep their tables canonical. -/

namespace Sys2Proof

open Machine

/-! ### Match finder (44_match_finder) -/

theorem FinderOk.hashSet {m : MatchFinder} (h : FinderOk m) (i : Nat) (v : U32) :
    FinderOk (hashSet m i v) := ⟨h.son, Store.wf_set h.hash⟩

theorem FinderOk.mfMovePos {m : MatchFinder} (h : FinderOk m) : FinderOk (mfMovePos m) := ⟨h.son, h.hash⟩

theorem FinderOk.mfInit {m : MatchFinder} (h : FinderOk m) (e : State) : FinderOk (mfInit e m) :=
  ⟨h.son, rfl⟩

theorem FinderOk.hashInsert {m : MatchFinder} (h : FinderOk m) (e : State) (k : Hashes) :
    FinderOk (hashInsert e m k) := by
  unfold Machine.hashInsert
  split
  · exact ((h.hashSet _ _).hashSet _ _).hashSet _ _
  · exact h.hashSet _ _

theorem descend_son_wf (e : State) (cur cp len : U32) {w : Walk} (h : Store.wf 0#32 w.son = true) :
    Store.wf 0#32 (descend e cur cp len w).son = true := by
  unfold descend
  split <;> exact Store.wf_set h

theorem emitPair_son (emit : Bool) (w : Walk) (len delta : U32) :
    (emitPair emit w len delta).son = w.son := by
  unfold emitPair
  split <;> rfl

theorem closeWalk_son_wf {w : Walk} (h : Store.wf 0#32 w.son = true) :
    Store.wf 0#32 (closeWalk w).son = true := Store.wf_set (Store.wf_set h)

theorem splice_son_wf (cp : U32) {w : Walk} (h : Store.wf 0#32 w.son = true) :
    Store.wf 0#32 (splice cp w).son = true := Store.wf_set (Store.wf_set h)

theorem walkLoop_son_wf (e : State) (m : MatchFinder) (cur lenLimit : U32) (emit : Bool) :
    ∀ (n : Nat) {w : Walk}, Store.wf 0#32 w.son = true →
      Store.wf 0#32 (walkLoop e m cur lenLimit emit n w).son = true
  | 0, _, h => closeWalk_son_wf h
  | n + 1, w, h => by
    have hp : ∀ len delta, Store.wf 0#32 (emitPair emit w len delta).son = true :=
      fun _ _ => by rw [emitPair_son]; exact h
    unfold walkLoop
    dsimp only
    split
    · exact closeWalk_son_wf h
    · split
      · split
        · exact splice_son_wf _ (hp _ _)
        · exact walkLoop_son_wf e m cur lenLimit emit n (descend_son_wf e _ _ _ (hp _ _))
      · exact walkLoop_son_wf e m cur lenLimit emit n (descend_son_wf e _ _ _ h)

theorem FinderOk.mfTreeWalk {m : MatchFinder} (h : FinderOk m) (e : State) (curMatch lenLimit : U32)
    (emit : Bool) (d : List U32) (maxLen : U32) :
    FinderOk (mfTreeWalk e m curMatch lenLimit emit d maxLen).1 :=
  ⟨walkLoop_son_wf e m _ _ _ _ h.son, h.hash⟩

theorem FinderOk.mfGetMatches {m : MatchFinder} (h : FinderOk m) (e : State) :
    FinderOk (mfGetMatches e m).1 := by
  unfold Machine.mfGetMatches
  split
  · exact h.mfMovePos
  · exact ((h.hashInsert e _).mfTreeWalk e _ _ _ _ _).mfMovePos

theorem FinderOk.mfSkipOne {m : MatchFinder} (h : FinderOk m) (e : State) : FinderOk (mfSkipOne e m) := by
  unfold Machine.mfSkipOne
  split
  · exact h.mfMovePos
  · exact ((h.hashInsert e _).mfTreeWalk e _ _ _ _ _).mfMovePos

theorem FinderOk.mfSkip (e : State) : ∀ (n : Nat) {m : MatchFinder}, FinderOk m → FinderOk (mfSkip e n m)
  | 0, _, h => h
  | n + 1, _, h => FinderOk.mfSkip e n (h.mfSkipOne e)

/-! ### Candidates (45_optimal_parser R211..R213) -/

/-- The part of the state the parser works on is canonical. -/
structure PmOk (x : PM) : Prop where
  parser : ParserOk x.p
  finder : FinderOk x.m

/-- Of the parser only the candidate buffer and the lattice matter. -/
theorem PmOk.withParser {x : PM} (h : PmOk x) {p : Parser} (hd : p.matchDistances = x.p.matchDistances)
    (ho : p.optimum = x.p.optimum) : PmOk { x with p := p } :=
  ⟨⟨hd ▸ h.parser.candidates, ho ▸ h.parser.lattice⟩, h.finder⟩

theorem PmOk.readMatchDistances {x : PM} (h : PmOk x) (e : State) : PmOk (readMatchDistances e x).2 where
  parser := ⟨writeCells_wf _ 0 h.parser.candidates, h.parser.lattice⟩
  finder := h.finder.mfGetMatches e

theorem PmOk.movePos {x : PM} (h : PmOk x) (e : State) (n : U32) : PmOk (movePos e n x) where
  parser := ⟨h.parser.candidates, h.parser.lattice⟩
  finder := h.finder.mfSkip e _

theorem PmOk.setOptimum {x : PM} (h : PmOk x) {o : Store Node} (ho : Store.wf Node.blank o = true) :
    PmOk (x.setOptimum o) := ⟨⟨h.parser.candidates, ho⟩, h.finder⟩

/-! ### BACKWARD (R227) -/

theorem expandHop_wf {o : Store Node} (h : Store.wf Node.blank o = true) (cur posMem : U32) :
    Store.wf Node.blank (expandHop o cur posMem) = true := by
  unfold expandHop
  dsimp only
  split
  · split
    · exact setNode_wf (setNode_wf h ..) ..
    · exact setNode_wf h ..
  · exact h

theorem backwardLoop_wf : ∀ (n : Nat) (cur posMem backMem : U32) {o o' : Store Node},
    Store.wf Node.blank o = true → backwardLoop n cur posMem backMem o = some o' →
      Store.wf Node.blank o' = true
  | 0, _, _, _, _, _, _, h => nomatch h
  | n + 1, cur, posMem, backMem, o, o', ho, h => by
    unfold backwardLoop at h
    dsimp only at h
    split at h
    · exact backwardLoop_wf n _ _ _ (setNode_wf (expandHop_wf ho ..) ..) h
    · cases h
      exact setNode_wf (expandHop_wf ho ..) ..

theorem ParserOk.backward {p : Parser} (h : ParserOk p) {cur : U32} {r : U32 × Parser}
    (hr : backward cur p = some r) : ParserOk r.2 := by
  unfold Machine.backward at hr
  dsimp only at hr
  split at hr
  · exact nomatch hr
  · next o ho =>
    cases hr
    exact ⟨h.candidates, backwardLoop_wf _ _ _ _ h.lattice ho⟩

theorem PmOk.finishSweep {x : PM} (h : PmOk x) {cur : Nat} {r : U32 × PM}
    (hr : finishSweep cur x = some r) : PmOk r.2 := by
  unfold Machine.finishSweep at hr
  split at hr
  · exact nomatch hr
  · next len p hb =>
    cases hr
    exact ⟨h.parser.backward hb, h.finder⟩

/-! ### One node of the walk (R221..R225) -/

/-- The lattice that a visit extends is canonical. -/
def LatOk (l : Machine.Lat) : Prop := Store.wf Node.blank l.o = true

theorem LatOk.extend {l : Machine.Lat} (h : LatOk l) (target : Nat) : LatOk (l.extend target) := by
  unfold Lat.extend
  split
  · exact openNodes_wf _ _ h
  · exact h

theorem LatOk.relax {l : Machine.Lat} (h : LatOk l) (i : Nat) (c : U32) (f : Node → Node) :
    LatOk (l.relax i c f) := relax_wf h ..

theorem LatOk.tryOneByte {l : Machine.Lat} (h : LatOk l) (e : State) (v : Visit) :
    LatOk (tryOneByte e v l).1 := by
  unfold Machine.tryOneByte
  dsimp only
  split
  · exact setNode_wf (h.relax _ _ _) ..
  · exact h.relax _ _ _

theorem LatOk.tryCharRep0 {l : Machine.Lat} (h : LatOk l) (e : State) (x : PM) (v : Visit) (b : Bool) :
    LatOk (tryCharRep0 e x v b l) := by
  unfold Machine.tryCharRep0
  dsimp only
  split
  · split
    · exact (h.extend _).relax _ _ _
    · exact h
  · exact h

theorem LatOk.tryHop {l : Machine.Lat} (h : LatOk l) (e : State) (x : PM) (v : Visit) (len : Nat)
    (dist back price : U32) (st : U4) : LatOk (tryHop e x v len dist back price st l) := by
  unfold Machine.tryHop
  dsimp only
  split
  · split
    · exact (h.extend _).relax _ _ _
    · exact h
  · exact h

theorem relaxReps_wf (e : State) (i : Nat) (price ps : U32) (cur : Nat) : ∀ (n : Nat) {o : Store Node},
    Store.wf Node.blank o = true → Store.wf Node.blank (relaxReps e i price ps cur n o) = true
  | 0, _, h => h
  | n + 1, _, h => by
    unfold relaxReps
    split
    · exact h
    · exact relaxReps_wf e i price ps cur n (relax_wf h ..)

theorem LatOk.tryRep {l : Machine.Lat × Nat} (h : LatOk l.1) (e : State) (x : PM) (v : Visit) (i : Nat) :
    LatOk (tryRep e x v i l).1 := by
  have hr : ∀ price n target, LatOk
      { l.1.extend target with o := relaxReps e i price v.ps v.cur n (l.1.extend target).o } :=
    fun price n _ => relaxReps_wf e i price v.ps v.cur n (h.extend _)
  unfold Machine.tryRep
  dsimp only
  split
  · exact h
  · exact LatOk.tryHop (hr _ _ _) ..

theorem LatOk.tryReps {l : Machine.Lat} (h : LatOk l) (e : State) (x : PM) (v : Visit) :
    LatOk (tryReps e x v l).1 :=
  LatOk.tryRep (LatOk.tryRep (LatOk.tryRep (LatOk.tryRep h e x v 0) e x v 1) e x v 2) e x v 3

theorem matchLoop_ok (e : State) (x : PM) (v : Visit) (price : U32) (numPairs : Nat) :
    ∀ (fuel len offs : Nat) {l l' : Machine.Lat}, LatOk l →
      matchLoop e x v price numPairs fuel len offs l = some l' → LatOk l'
  | 0, _, _, _, _, _, h => nomatch h
  | fuel + 1, len, offs, l, l', hl, h => by
    unfold matchLoop at h
    dsimp only at h
    split at h
    · split at h
      · cases h
        exact (hl.relax _ _ _).tryHop ..
      · exact matchLoop_ok e x v price numPairs fuel _ _ ((hl.relax _ _ _).tryHop ..) h
    · exact matchLoop_ok e x v price numPairs fuel _ _ (hl.relax _ _ _) h

theorem PmOk.cutPairs {x : PM} (h : PmOk x) {v : Visit} {newLen : U32} {r : PM × U32 × Nat}
    (hr : cutPairs v newLen x = some r) : PmOk r.1 := by
  unfold Machine.cutPairs at hr
  dsimp only at hr
  split at hr
  · split at hr
    · exact nomatch hr
    · cases hr
      exact ⟨⟨Store.wf_set h.parser.candidates, h.parser.lattice⟩, h.finder⟩
  · cases hr
    exact h

theorem tryMatches_ok {e : State} {x : PM} {v : Visit} {newLen : U32} {startLen : Nat}
    {l : Machine.Lat} (hx : PmOk x) (hl : LatOk l) {r : PM × Machine.Lat}
    (hr : tryMatches e x v newLen startLen l = some r) :
    PmOk r.1 ∧ LatOk r.2 := by
  unfold tryMatches at hr
  split at hr
  · exact nomatch hr
  · next y newLen' numPairs hc =>
    have hy : PmOk y := hx.cutPairs hc
    split at hr
    · cases hr
      exact ⟨hy, hl⟩
    · split at hr
      · exact nomatch hr
      · split at hr
        · exact nomatch hr
        · next l' hm =>
          cases hr
          exact ⟨hy, matchLoop_ok e y v _ _ _ _ _ (hl.extend _) hm⟩

theorem PmOk.placeNode {x : PM} (h : PmOk x) (cur : Nat) : PmOk (placeNode x cur).1 :=
  ⟨⟨h.parser.candidates, setNode_wf h.parser.lattice ..⟩, h.finder⟩

theorem PmOk.visit {e : State} {x : PM} {cur lenEnd : Nat} {position newLen : U32} (h : PmOk x)
    {r : PM × Nat} (hr : visit e x cur lenEnd position newLen = some r) : PmOk r.1 := by
  have hp : PmOk (Machine.placeNode x cur).1 := h.placeNode cur
  have hl : LatOk { o := (Machine.placeNode x cur).1.p.optimum, lenEnd := lenEnd } := hp.parser.lattice
  unfold Machine.visit at hr
  dsimp only at hr
  split at hr
  · cases hr
    exact hp.setOptimum (hl.tryOneByte ..)
  · split at hr
    · exact nomatch hr
    · next y l hm =>
      cases hr
      obtain ⟨hy, hl'⟩ := tryMatches_ok hp (((hl.tryOneByte ..).tryCharRep0 ..).tryReps ..) hm
      exact hy.setOptimum hl'

theorem PmOk.sweep (e : State) : ∀ (fuel cur lenEnd : Nat) (position : U32) {x : PM}, PmOk x →
    ∀ {r : U32 × PM}, sweep e fuel cur lenEnd position x = some r → PmOk r.2
  | 0, _, _, _, _, _, _, h => nomatch h
  | fuel + 1, cur, lenEnd, position, x, hx, r, h => by
    have hy : PmOk (Machine.readMatchDistances e x).2 := hx.readMatchDistances e
    unfold Machine.sweep at h
    dsimp only at h
    split at h
    · exact hx.finishSweep h
    · split at h
      · refine PmOk.finishSweep ?_ h
        exact hy.withParser rfl rfl
      · split at h
        · exact nomatch h
        · next z lenEnd' hv => exact PmOk.sweep e fuel _ _ _ (hy.visit hv) h

/-! ### GET_OPTIMUM (R210, R215..R219) -/

theorem seedLoop_wf (e : State) (p : Parser) (price ps : U32) (numPairs : Nat) :
    ∀ (fuel len offs : Nat) {o o' : Store Node}, Store.wf Node.blank o = true →
      seedLoop e p price ps numPairs fuel len offs o = some o' → Store.wf Node.blank o' = true
  | 0, _, _, _, _, _, h => nomatch h
  | fuel + 1, len, offs, o, o', ho, h => by
    unfold seedLoop at h
    dsimp only at h
    split at h
    · split at h
      · cases h
        exact relax_wf ho ..
      · exact seedLoop_wf e p price ps numPairs fuel _ _ (relax_wf ho ..) h
    · exact seedLoop_wf e p price ps numPairs fuel _ _ (relax_wf ho ..) h

theorem seedRep_wf (e : State) (price : U32) (st : U4) (ps : U32) (repLens : Quad) (i : Nat)
    {o : Store Node} (h : Store.wf Node.blank o = true) :
    Store.wf Node.blank (seedRep e price st ps repLens i o) = true := relaxReps_wf _ _ _ _ _ _ h

theorem seedMatches_wf {e : State} {p : Parser} {price ps lenMain repLen0 : U32} {o o' : Store Node}
    (ho : Store.wf Node.blank o = true) (h : seedMatches e p price ps lenMain repLen0 o = some o') :
    Store.wf Node.blank o' = true := by
  unfold seedMatches at h
  generalize (if 2#32 ≤ repLen0 then repLen0 + 1#32 else 2#32) = start at h
  dsimp only at h
  split at h
  · cases h
    exact ho
  · split at h
    · exact nomatch h
    · exact seedLoop_wf e p _ _ _ _ _ _ ho h

theorem PmOk.decided {x : PM} (h : PmOk x) {len : U32} {back : I32} {r : U32 × PM}
    (hr : decided len back x = some r) : PmOk r.2 := by
  cases hr
  exact h.withParser rfl rfl

theorem PmOk.seedAndSweep {e : State} {position lenMain : U32} {repMax : Nat} {curByte matchByte : Byte}
    {x : PM} (h : PmOk x) {r : U32 × PM}
    (hr : seedAndSweep e position lenMain repMax curByte matchByte x = some r) : PmOk r.2 := by
  have hset : ∀ {o : Store Node}, Store.wf Node.blank o = true → ∀ i n,
      Store.wf Node.blank (setNode o i n) = true := fun ho _ _ => setNode_wf ho ..
  have hshort : ∀ {o : Store Node}, Store.wf Node.blank o = true → ∀ i c,
      Store.wf Node.blank
        (if matchByte = curByte then Machine.relax o i c makeAsShortRep else o) = true := by
    intro o ho i c
    split
    · exact relax_wf ho ..
    · exact ho
  unfold Machine.seedAndSweep at hr
  dsimp only at hr
  split at hr
  · exact (h.setOptimum (hshort (hset (hset h.parser.lattice _ _) _ _) _ _)).decided hr
  · split at hr
    · exact nomatch hr
    · next o ho =>
      refine PmOk.sweep e _ _ _ _ (h.setOptimum (seedMatches_wf ?_ ho)) hr
      exact seedRep_wf _ _ _ _ _ 3 (seedRep_wf _ _ _ _ _ 2 (seedRep_wf _ _ _ _ _ 1
        (seedRep_wf _ _ _ _ _ 0 (openNodes_wf _ _ (hset (hset
          (hshort (hset (hset h.parser.lattice _ _) _ _) _ _) _ _) _ _)))))

theorem PmOk.chooseToken {e : State} {position lenMain : U32} {x : PM} (h : PmOk x) {r : U32 × PM}
    (hr : chooseToken e position lenMain x = some r) : PmOk r.2 := by
  have hx : ∀ q l, PmOk { x with p := { x.p with sweepReps := q, sweepRepLens := l } } :=
    fun _ _ => h.withParser rfl rfl
  unfold Machine.chooseToken at hr
  dsimp only at hr
  split at hr
  · exact ((hx _ _).movePos e _).decided hr
  · split at hr
    · exact ((hx _ _).movePos e _).decided hr
    · split at hr
      · exact (hx _ _).decided hr
      · exact (hx _ _).seedAndSweep hr

theorem PmOk.mainLength {x : PM} (h : PmOk x) (e : State) : PmOk (mainLength e x).2 := by
  have hx : PmOk { x with p := { x.p with optimumCurrentIndex := 0#32, optimumEndIndex := 0#32 } } :=
    h.withParser rfl rfl
  unfold Machine.mainLength
  dsimp only
  split
  · exact hx.withParser rfl rfl
  · exact hx.readMatchDistances e

/-- GET_OPTIMUM keeps the candidate buffer, the lattice and the match finder canonical. -/
theorem PmOk.getOptimum {e : State} {position : U32} {x : PM} (h : PmOk x) {r : U32 × PM}
    (hr : getOptimum e position x = some r) : PmOk r.2 := by
  unfold Machine.getOptimum at hr
  dsimp only at hr
  split at hr
  · cases hr
    exact h.withParser rfl rfl
  · split at hr
    · exact (h.mainLength e).decided hr
    · exact (h.mainLength e).chooseToken hr

end Sys2Proof
end

section
/-! The window, the codec and the starts of the two sessions. -/

namespace Sys2Proof

open Machine

variable {g : Stage} {s : State}

/-! ### Output window (47_output_window) -/

theorem afterFlush_ok {w : Window} (hs : 4096 ≤ w.windowSize.toNat)
    (hp : w.winPos.toNat ≤ w.windowSize.toNat) : WindowOk (afterFlush w) := by
  by_cases he : w.winPos = w.windowSize
  · simp only [afterFlush, if_pos he]
    exact ⟨hs, Nat.le_refl _, by show 0 < w.windowSize.toNat; omega⟩
  · simp only [afterFlush, if_neg he]
    exact ⟨hs, Nat.le_refl _, by bv_omega⟩

theorem flushBytes_window : ∀ n i, Keeps (fun s t => t.window = s.window) (flushBytes n i)
  | 0, _ => fun _ => rfl
  | n + 1, i => .get_bind fun s => by
    refine Keeps.bind (R := fun s t => t.window = s.window) ⟨fun _ => rfl, fun h k => k.trans h⟩
      (fun u => ?_) (fun _ => flushBytes_window n (i + 1)) s
    unfold outWrite
    split <;> rfl

theorem stays_flushBytes : ∀ n i, Stays (flushBytes n i)
  | 0, _ => .pure _
  | n + 1, i => .get_bind fun _ => (stays_outWrite _).then (stays_flushBytes n (i + 1))

/-- OW.FLUSH brings the indices in order, also from a window that has just filled up (R304). -/
theorem ends_owFlush (h : InStage g.freeWindow s)
    (hw : g.window → 4096 ≤ s.window.windowSize.toNat ∧
      s.window.winPos.toNat ≤ s.window.windowSize.toNat) :
    Ends (InStage g) (owFlush s) := by
  unfold owFlush
  rw [get_bind_run, bind_run]
  have hk := flushBytes_window (s.window.winPos.toNat - s.window.winFlushPos.toNat)
    s.window.winFlushPos.toNat s
  have he := stays_flushBytes (s.window.winPos.toNat - s.window.winFlushPos.toNat)
    s.window.winFlushPos.toNat g.freeWindow s h
  split
  · next u hr =>
    rw [hr] at hk he
    have hwin : u.window = s.window := hk
    have hu : InStage g.freeWindow u := he
    exact
      { hu with
        base := { hu.base with }
        window := fun hg => by
          obtain ⟨hsize, hpos⟩ := hw hg
          rw [← hwin] at hsize hpos
          exact afterFlush_ok hsize hpos }
  · next hr => rw [hr] at he; exact he

theorem stays_owFlush : Stays owFlush := fun _ _ h =>
  ends_owFlush h.freeWindow fun hg => ⟨(h.window hg).size, (h.window hg).inside.le⟩

theorem push_winPos {w : Window} (h : WindowOk w) (b : Byte) :
    (w.push b).winPos.toNat = w.winPos.toNat + 1 := by
  have hi := h.inside
  show (w.winPos + 1#32).toNat = _
  bv_omega

theorem stays_owPut (b : Byte) : Stays (owPut b) := by
  intro g s h
  have hf : InStage g.freeWindow { s with window := s.window.push b } :=
    h.freeWindow.withWindow (Store.wf_set h.base.win) False.elim
  unfold owPut
  rw [modify_bind_run, get_bind_run]
  dsimp only
  split
  · next he => exact ends_owFlush hf fun hg => ⟨(h.window hg).size, (congrArg BitVec.toNat he).le⟩
  · next he =>
    refine { hf with window := fun hg => ?_ }
    have hw := h.window hg
    have hp := push_winPos hw b
    have hn : (s.window.push b).winPos.toNat ≠ s.window.windowSize.toNat :=
      fun hc => he (BitVec.eq_of_toNat_eq hc)
    have hi := hw.inside
    exact ⟨hw.size, by rw [hp]; exact Nat.le_succ_of_le hw.flushed,
      by show (s.window.push b).winPos.toNat < s.window.windowSize.toNat; omega⟩

theorem stays_owCopy (d : U32) : ∀ n, Stays (owCopy d n)
  | 0 => .pure _
  | n + 1 => .get_bind fun _ => (stays_owPut _).then (stays_owCopy d n)

theorem windowFor_ok (n : U32) (w : Window) : WindowOk (windowFor n w) := by
  have hs : 4096 ≤ (windowFor n w).windowSize.toNat := by
    unfold windowFor
    dsimp only
    split
    · decide
    · bv_omega
  exact ⟨hs, Nat.le_refl _, Nat.lt_of_lt_of_le (show 0 < 4096 by decide) hs⟩

/-- OW.INIT takes up the window's duty. -/
theorem leads_owInit (n : U32) : Leads (InStage g.freeWindow) (InStage g) (owInit n) :=
  .modify fun s h => { h with base := { h.base with }, window := fun _ => windowFor_ok n s.window }

theorem stays_owInit (n : U32) : Stays (owInit n) := fun _ _ h => leads_owInit n _ h.freeWindow

/-! ### Automaton and codec registers (46_codec) -/

theorem stChar_le (st : U4) : stChar st ≤ 11#4 := by revert st; decide
theorem stMatch_le (st : U4) : stMatch st ≤ 11#4 := by revert st; decide
theorem stRep_le (st : U4) : stRep st ≤ 11#4 := by revert st; decide
theorem stShortrep_le (st : U4) : stShortrep st ≤ 11#4 := by revert st; decide

/-- A change of the codec registers; by default one that leaves `state` and PROPS alone. -/
theorem stays_modifyCodec {f : Codec → Codec}
    (hf : ∀ c, CodecOk c → CodecOk (f c) := by exact fun _ hc => { hc with }) :
    Stays (modifyCodec f) :=
  .modify fun _ _ h => h.withCodec (hf _ h.base.codec)

/-- A change of the codec registers that sets `state` and leaves PROPS alone. -/
theorem stays_modifyCodec_state {f : Codec → Codec} (hs : ∀ c, (f c).state ≤ 11#4)
    (hp : ∀ c, (f c).lc = c.lc ∧ (f c).lp = c.lp ∧ (f c).pb = c.pb := by exact fun _ => ⟨rfl, rfl, rfl⟩) :
    Stays (modifyCodec f) :=
  stays_modifyCodec fun c hc =>
    have ⟨h1, h2, h3⟩ := hp c
    ⟨hs c, h1 ▸ hc.lc, h2 ▸ hc.lp, h3 ▸ hc.pb⟩

theorem stays_setState {st : U4} (h : st ≤ 11#4) : Stays (setState st) :=
  stays_modifyCodec_state fun _ => h

theorem stays_setRepRegs (q : Quad) : Stays (setRepRegs q) := stays_modifyCodec

/-! ### Header (R270, R271) -/

/-- The fields of a properties byte below 225 are in range (30_encoding R81). -/
theorem CodecOk.withProps {c : Codec} (h : CodecOk c) {v : Byte} (hv : v.toNat < 225) :
    CodecOk (c.withProps v) where
  state := h.state
  lc := by show _ % 16 ≤ 8; omega
  lp := by show _ % 8 ≤ 4; omega
  pb := by show _ % 8 ≤ 4; omega

theorem stays_encHeader : Stays encHeader :=
  (stays_outWrite _).then <|
    (stays_modifyCodec fun _ hc => hc.withProps (by decide)).then <| .get_bind fun _ =>
      (stays_outWriteAll _).then <| (stays_outWriteAll _).then <|
        .modify fun _ _ h => h.withHost rfl rfl h.base.outLen

theorem stays_decHeaderRest : Stays decHeaderRest := by
  intro g s h
  have hd : InStage g { s with codec := { s.codec with dictSize := BitVec.ofNat 32 (inLE s 4 1) } } :=
    h.withCodec { h.base.codec with }
  unfold decHeaderRest
  dsimp only
  split
  · exact (hd.withInPos 5#32).base
  · split
    · exact (hd.withInPos s.host.inLen).base
    · exact { hd with base := { hd.base with codec := { hd.base.codec with } } }

theorem stays_decHeader : Stays decHeader := by
  intro g s h
  have hv : InStage g { s with codec := { s.codec with propsByte := s.inByte 0 } } :=
    h.withCodec { h.base.codec with }
  unfold decHeader
  dsimp only
  split
  · exact (h.withInPos 0#32).base
  · split
    · exact (hv.withInPos 1#32).base
    · next hv =>
      exact stays_decHeaderRest g _ (h.withCodec (h.base.codec.withProps (by bv_omega)))

/-! ### Encoder packets (R272..R277) -/

theorem stays_encLitDecisions (u : State) (b : Byte) : Stays (encLitDecisions u b) :=
  .ite (stays_litEnc _ _) (stays_litEncMatched _ _ _)

theorem stays_encLitByte (b : Byte) : Stays (encLitByte b) :=
  .get_bind fun u => (stays_encBit _ _).then <| (stays_encLitDecisions u b).then <|
    stays_modifyCodec_state fun _ => stChar_le _

theorem stays_encLit : Stays encLit := .get_bind fun _ => stays_encLitByte _

theorem stays_countMatch : Stays countMatch :=
  .modify fun _ _ h => h.withPrices { h.base.prices with }

theorem stays_countAlign : Stays countAlign :=
  .modify fun _ _ h => h.withPrices { h.base.prices with }

theorem stays_encFooter (slot d : U32) : Stays (encFooter slot d) :=
  .ite (stays_btRenc _ _ _)
    ((stays_encDirect _ _).then ((stays_btRenc _ _ _).then stays_countAlign))

theorem stays_encDistance (d len : U32) : Stays (encDistance d len) :=
  (stays_btEnc _ _ _).then (.ite (stays_encFooter _ _) (.pure _))

theorem stays_encMatch (len d : U32) : Stays (encMatch len d) :=
  .get_bind fun _ => (stays_encBit _ _).then <| (stays_encBit _ _).then <|
    (stays_setState (stMatch_le _)).then <| (stays_lenEncCounted _ _ _).then <|
      (stays_encDistance _ _).then <| (stays_setRepRegs _).then stays_countMatch

theorem stays_encRepChoice (i : Nat) (short : Bool) (st : U4) (ps : U32) :
    Stays (encRepChoice i short st ps) :=
  .ite ((stays_encBit _ _).then (stays_encBit _ _))
    (.ite ((stays_encBit _ _).then (stays_encBit _ _))
      ((stays_encBit _ _).then ((stays_encBit _ _).then (stays_encBit _ _))))

theorem stays_encRepLength (len : U32) (st : U4) (ps : U32) : Stays (encRepLength len st ps) :=
  .ite (stays_setState (stShortrep_le _))
    ((stays_lenEncCounted _ _ _).then (stays_setState (stRep_le _)))

theorem stays_encRep (i : Nat) (len : U32) : Stays (encRep i len) :=
  .get_bind fun _ => (stays_encBit _ _).then <| (stays_encBit _ _).then <|
    (stays_encRepChoice _ _ _ _).then <| (stays_encRepLength _ _ _).then (stays_setRepRegs _)

theorem stays_encEos : Stays encEos :=
  .get_bind fun _ => (stays_encBit _ _).then <| (stays_encBit _ _).then <|
    (stays_setState (stMatch_le _)).then <| (stays_lenEnc _ _ _).then <|
      (stays_btEnc _ _ _).then <| (stays_encDirect _ _).then (stays_btRenc _ _ _)

theorem stays_encAdvance (len : U32) : Stays (encAdvance len) :=
  .modify fun _ _ h =>
    { h with base := { h.base with codec := { h.base.codec with }, parser := { h.base.parser with } } }

theorem stays_encLastByte (len : U32) : Stays (encLastByte len) :=
  .modify fun _ _ h => h.withCodec { h.base.codec with }

theorem stays_encTokenPacket (len : U32) (back : I32) : Stays (encTokenPacket len back) :=
  .ite stays_encLit
    (.ite ((stays_encRep _ _).then (stays_encLastByte _))
      ((stays_encMatch _ _).then (stays_encLastByte _)))

theorem stays_encToken (len : U32) (back : I32) : Stays (encToken len back) :=
  (stays_encTokenPacket _ _).then (stays_encAdvance _)

/-! ### Price tables (45_optimal_parser R240..R242) -/

theorem fillTable_wf (f : Nat → U32) (base : Nat) {t : Store U32} (h : Store.wf 0#32 t = true) :
    ∀ n, Store.wf 0#32 (fillTable f base n t) = true
  | 0 => h
  | n + 1 => Store.wf_set (fillTable_wf f base h n)

theorem fillSlotRows_wf (e : State) (size : Nat) {t : Store U32} (h : Store.wf 0#32 t = true) :
    ∀ n, Store.wf 0#32 (fillSlotRows e size n t) = true
  | 0 => h
  | n + 1 => fillTable_wf _ _ (fillSlotRows_wf e size h n) _

theorem fillDistanceRows_wf (e : State) (slots : Store U32) {t : Store U32} (h : Store.wf 0#32 t = true) :
    ∀ n, Store.wf 0#32 (fillDistanceRows e slots n t) = true
  | 0 => h
  | n + 1 => fillTable_wf _ _ (fillDistanceRows_wf e slots h n) _

theorem PricesOk.withDistances {p : Prices} (h : PricesOk p) {t u : Store U32} {n : U32}
    (ht : Store.wf 0#32 t = true) (hu : Store.wf 0#32 u = true) :
    PricesOk { p with posSlotPrices := t, distancesPrices := u, matchPriceCount := n } :=
  { h with slots := ht, distances := hu }

theorem PricesOk.withAlign {p : Prices} (h : PricesOk p) {t : Store U32} {n : U32}
    (ht : Store.wf 0#32 t = true) : PricesOk { p with alignPrices := t, alignPriceCount := n } :=
  { h with align := ht }

theorem InStage.fillDist (h : InStage g s) : InStage g (fillDist s) :=
  h.withPrices (h.base.prices.withDistances (fillSlotRows_wf s _ h.base.prices.slots 4)
    (fillDistanceRows_wf s _ h.base.prices.distances 4))

theorem InStage.fillAlign (h : InStage g s) : InStage g (fillAlign s) :=
  h.withPrices (h.base.prices.withAlign (fillTable_wf _ 0 h.base.prices.align 16))

theorem InStage.foldl {α : Type} {f : State → α → State}
    (hf : ∀ s a, InStage g s → InStage g (f s a)) :
    ∀ (l : List α) {s : State}, InStage g s → InStage g (l.foldl f s)
  | [], _, h => h
  | a :: l, s, h => InStage.foldl hf l (hf s a h)

theorem InStage.refreshLengths (h : InStage g s) : InStage g (refreshLengths s) := by
  unfold Machine.refreshLengths
  split
  · exact h
  · exact InStage.foldl
      (fun _ c hu => InStage.foldl (fun _ _ hv => .ite (hv.lenSetPrices c _) hv) _ hu) _ h

theorem InStage.refreshPrices (h : InStage g s) : InStage g (refreshPrices s) :=
  have hd : InStage g _ := .ite h.fillDist h
  have ha : InStage g _ := .ite hd.fillAlign hd
  ha.refreshLengths

theorem stays_encBlockWith (len : U32) : Stays (encBlockWith len) :=
  .get_bind fun _ => (stays_encToken _ _).then (.modify fun _ _ h => h.refreshPrices)

/-! ### The parser on the state -/

theorem Base.pm (h : Base s) : PmOk s.pm := ⟨h.parser, h.finder⟩

theorem InStage.setPm (h : InStage g s) {x : PM} (hx : PmOk x) : InStage g (s.setPm x) :=
  { h with base := { h.base with parser := hx.parser, finder := hx.finder } }

theorem InStage.withFinder (h : InStage g s) {m : MatchFinder} (hm : FinderOk m) :
    InStage g { s with mf := m } :=
  { h with base := { h.base with finder := hm } }

theorem stays_encFirstByte : Stays encFirstByte :=
  Stays.then (.modify fun _ _ h => h.setPm (h.base.pm.readMatchDistances _)) <|
    .get_bind fun _ => (stays_encBit _ _).then <| (stays_setState (stChar_le _)).then <|
      (stays_litEnc _ _).then <| Stays.then stays_modifyCodec (stays_encAdvance _)

/-! ### The ENCODE session's start (R280..R282) -/

/-- A property that the nine rows of the level table (00_scope R7) have, each row has. -/
theorem levelRow_of_all {p : LevelRow → Bool} (hp : ∀ l : U4, (levelRow l).all p = true) {l : U4}
    {row : LevelRow} (h : levelRow l = some row) : p row = true := by
  have hl := hp l
  rwa [h] at hl

/-- The bounds of the level table's columns. -/
theorem levelRow_bounds {l : U4} {row : LevelRow} (h : levelRow l = some row) :
    (16 ≤ row.searchDepth ∧ row.searchDepth ≤ 25) ∧ 64#9 ≤ row.fastBytes ∧ row.fastBytes ≤ 255#9 :=
  of_decide_eq_true <| levelRow_of_all (p := fun row => decide
    ((16 ≤ row.searchDepth ∧ row.searchDepth ≤ 25) ∧ 64#9 ≤ row.fastBytes ∧ row.fastBytes ≤ 255#9))
    (by decide) h

theorem InStage.encStartRegs (h : InStage g s) {row : LevelRow} (hd : row.searchDepth ≤ 25)
    (hf : row.fastBytes ≤ 255#9) : InStage g (encStartRegs row s) :=
  { h with
    base :=
      { h.base with
        outLen := Nat.zero_le _
        cells := .nil
        codec :=
          { h.base.codec.withProps (v := encProps) (by decide) with
            state := show 0#4 ≤ 11#4 by decide }
        fastBytes := hf
        prices := { h.base.prices with
          slotCount := by
            show 2 * row.searchDepth % 2 ^ 32 ≤ 64
            omega }
        parser := ⟨rfl, h.base.parser.lattice⟩
        finder := h.base.finder.mfInit _ } }

theorem InStage.fillLenTables (h : InStage g s) (c : LenSel) (hf : 64#9 ≤ s.encCfg.fastBytes) :
    InStage g (fillLenTables c s) := by
  have hl := h.base.prices.len c
  have hb := h.base.fastBytes
  have ht : LenPricesOk { s.prices.len c with tableSize := s.encCfg.fastBytes.setWidth 32 - 1#32 } :=
    { hl with size := by bv_omega }
  exact ((((h.withPrices (h.base.prices.setLen ht c)).lenSetPrices c _).lenSetPrices c _).lenSetPrices
    c _).lenSetPrices c _

theorem InStage.encStartPrices (h : InStage g s) (hf : 64#9 ≤ s.encCfg.fastBytes) :
    InStage g (encStartPrices s) :=
  (h.fillDist.fillAlign.fillLenTables .matchLen hf).fillLenTables .repLen hf

theorem InStage.clearHeaderRegs (h : InStage g s) : InStage g (clearHeaderRegs s) :=
  { h with
    base :=
      { h.base with
        codec :=
          { h.base.codec with
            lc := show 0#4 ≤ 8#4 by decide, lp := show 0#3 ≤ 4#3 by decide
            pb := show 0#3 ≤ 4#3 by decide } } }

theorem leads_raiseConfigError {Q : State → Prop} : Leads (InStage g) Q raiseConfigError :=
  Leads.bind (Q := InStage g) (.modify fun _ h => h.clearHeaderRegs) fun _ => .error (fun _ h => h.base) _

/-- The start of an ENCODE session takes up the duty of R116 with RC.ENC_INIT. -/
theorem leads_encSessionStart : Leads (InStage g.freeLow) (InStage g) encSessionStart :=
  .get_bind fun s h => by
    cases hrow : levelRow s.host.level with
    | none => exact leads_raiseConfigError s h
    | some row =>
      obtain ⟨⟨-, hd⟩, h64, hf⟩ := levelRow_bounds hrow
      dsimp only
      split
      · exact leads_raiseConfigError s h
      · exact (stays_encHeader g.freeLow).bind (fun _ => leads_encInit) _
          ((h.encStartRegs hd hf).encStartPrices h64)

/-! ### Decoder packets (R292..R295) -/

theorem stays_decFooter (slot : U32) : Stays (decFooter slot) :=
  .ite ((stays_btRdec _ _).bind fun _ => .pure _)
    ((stays_decDirect _ _).bind fun _ => (stays_btRdec _ _).bind fun _ => .pure _)

theorem stays_decDistance (len : U32) : Stays (decDistance len) :=
  (stays_btDec _ _).bind fun _ => .ite (.pure _) (stays_decFooter _)

theorem stays_checkDist : Stays checkDist := by
  intro g s h
  unfold checkDist
  split
  · exact h.base
  · exact h

theorem InStage.earlyEndCheck (h : InStage g s) : InStage g (earlyEndCheck s) :=
  .ite (h.withHost rfl rfl h.base.outLen) h

theorem stays_copyBytes (n : U32) : Stays (copyBytes n) :=
  .get_bind fun _ => (stays_owCopy _ _).then (.modify fun _ _ h => h.withCodec { h.base.codec with })

theorem stays_copy (len : U32) : Stays (copy len) :=
  .get_bind fun s => by
    split
    · exact stays_copyBytes _
    · split
      · split
        · exact .error _
        · exact Stays.then (.modify fun _ _ h => h.withHost rfl rfl h.base.outLen) (stays_copyBytes _)
      · exact stays_copyBytes _

theorem stays_decLitByte : Stays decLitByte :=
  .get_bind fun _ => .ite (stays_litDec _) (stays_litDecMatched _ _)

theorem stays_putLiteral (b : Byte) : Stays (putLiteral b) :=
  (stays_owPut b).then (stays_modifyCodec_state fun _ => stChar_le _)

theorem stays_decRepChoice (st : U4) (ps : U32) : Stays (decRepChoice st ps) :=
  (stays_decBit _).bind fun _ =>
    .ite
      ((stays_decBit _).bind fun _ =>
        .ite ((stays_decBit _).bind fun _ => .pure _) (.pure _))
      ((stays_decBit _).bind fun _ => .pure _)

theorem stays_decRep (st : U4) (ps : U32) : Stays (decRep st ps) :=
  (stays_decRepChoice _ _).bind fun _ =>
    .ite ((stays_setState (stShortrep_le _)).then (.pure _))
      (Stays.then stays_modifyCodec <| (stays_lenDec _ _).bind fun _ =>
        (stays_setState (stRep_le _)).then (.pure _))

theorem stays_decMatch (st : U4) (ps : U32) : Stays (decMatch st ps) :=
  (stays_lenDec _ _).bind fun _ => (stays_setState (stMatch_le _)).then <|
    (stays_decDistance _).bind fun _ => Stays.then stays_modifyCodec (.pure _)

theorem stays_checkedCopy (len : U32) : Stays (checkedCopy len) :=
  stays_checkDist.then ((stays_copy len).then (.pure _))

theorem stays_afterMatch (len : U32) : Stays (afterMatch len) :=
  .get_bind fun _ =>
    .ite (Stays.then (.modify fun _ _ h => h.earlyEndCheck) (.pure _)) (stays_checkedCopy len)

theorem stays_decPacket : Stays decPacket :=
  .get_bind fun _ => (stays_decBit _).bind fun _ =>
    .ite
      ((stays_decBit _).bind fun _ =>
        .ite ((stays_decRep _ _).bind fun _ => stays_checkedCopy _)
          ((stays_decMatch _ _).bind fun _ => stays_afterMatch _))
      (stays_decLitByte.bind fun _ => (stays_putLiteral _).then (.pure _))

/-! ### The DECODE session's start (R290) -/

theorem InStage.decStartRegs (h : InStage g s) : InStage g (decStartRegs s) :=
  { h with
    base :=
      { h.base with
        cells := .nil, codec := { h.base.codec with state := show 0#4 ≤ 11#4 by decide } } }

/-- The start of a DECODE session takes up the window's duty with OW.INIT and that of R115 with
RC.DEC_INIT. -/
theorem leads_decSessionStart : Leads (InStage g.freeRange.freeWindow) (InStage g) decSessionStart :=
  .get_bind fun s h => by
    split
    · exact leads_raiseConfigError s h
    · exact Leads.bind (Q := InStage g.freeRange.freeWindow) (.modify fun _ h => h.clearHeaderRegs)
        (fun _ => (stays_decHeader _).bind fun _ =>
          Leads.bind (Q := InStage g.freeRange.freeWindow) (.modify fun _ h => h.decStartRegs) fun _ =>
            .get_bind fun u hu => (leads_owInit _).bind (fun _ => leads_decInit) u hu) s h

/-! ### Packets as instructions (30_encoding R85..R92) -/

theorem stays_performLit (b : Byte) : Stays (performLit b) := (stays_putLiteral b).then (.pure _)

theorem stays_performMatch (len d : U32) : Stays (performMatch len d) :=
  (stays_modifyCodec_state fun _ => stMatch_le _).then (stays_afterMatch len)

theorem stays_performShortrep : Stays performShortrep :=
  (stays_modifyCodec_state fun _ => stShortrep_le _).then (stays_checkedCopy _)

theorem stays_performLongrep (i : Nat) (len : U32) : Stays (performLongrep i len) :=
  (stays_modifyCodec_state fun _ => stRep_le _).then (stays_checkedCopy len)

theorem stays_codeLit (b : Byte) : Stays (codeLit b) :=
  (stays_encLitByte b).then ((stays_encAdvance _).then (.pure _))

theorem stays_codeMatch (len d : U32) : Stays (codeMatch len d) :=
  (stays_encMatch _ _).then ((stays_encLastByte _).then ((stays_encAdvance _).then (.pure _)))

theorem stays_codeRep (i : Nat) (len : U32) : Stays (codeRep i len) :=
  (stays_encRep _ _).then ((stays_encLastByte _).then ((stays_encAdvance _).then (.pure _)))

theorem stays_codeEos : Stays codeEos := stays_encEos.then (.pure _)

end Sys2Proof
end

section
/-! Every instruction, host access and turn of the engine keeps the invariant, which reset meets. -/

namespace Sys2Proof

open Machine

variable {g : Stage} {s t : State}

/-! ### Reset (70_reset_and_hazards R335) -/

/-- The stage of IDLE, DONE and of a session's start: no error and no duty. -/
def Stage.plain (q : Seq) : Stage := ⟨q, 0#4, False, False, False⟩

theorem Stage.plain_complete {q : Seq} (he : q ≠ .error) (henc : q.phase ≠ .encRun)
    (hdec : q.phase ≠ .decRun) : (Stage.plain q).Complete where
  code := ⟨show 0#4 ≤ 6#4 by decide, iff_of_false (fun h => h rfl) he⟩
  low h := absurd h henc
  range h := absurd h hdec
  window h := absurd h hdec

theorem base_resetWith {p : Params} (hp : p.wf = true) : Base (State.resetWith p) where
  params := hp
  inMem := rfl
  outMem := rfl
  outLen := Nat.zero_le _
  cells := .nil
  codec := ⟨show 0#4 ≤ 11#4 by decide, show 0#4 ≤ 8#4 by decide, show 0#3 ≤ 4#3 by decide,
    show 0#3 ≤ 4#3 by decide⟩
  fastBytes := show 0#9 ≤ 255#9 by decide
  encRange := show kTopValue ≤ 0xFFFFFFFF#32 by decide
  prices := ⟨rfl, rfl, rfl, show 0#32 ≤ 64#32 by decide, ⟨rfl, rfl, show 0#32 ≤ 272#32 by decide⟩,
    rfl, rfl, show 0#32 ≤ 272#32 by decide⟩
  parser := ⟨rfl, rfl⟩
  finder := ⟨rfl, rfl⟩
  win := rfl

theorem idle_complete : (Stage.plain .idle).Complete :=
  Stage.plain_complete nofun nofun nofun

theorem inStage_resetWith {p : Params} (hp : p.wf = true) :
    InStage (.plain .idle) (State.resetWith p) where
  base := base_resetWith hp
  seq := rfl
  code := rfl
  low := False.elim
  range := False.elim
  window := False.elim

theorem inv_resetWith {p : Params} (hp : p.wf = true) : Inv (State.resetWith p) :=
  (inStage_resetWith hp).inv idle_complete

theorem Inv.commandReset (h : Inv s) : Inv (commandReset s) := by
  have hr := inStage_resetWith h.params
  refine InStage.inv (g := .plain .idle) ?_ idle_complete
  exact { hr with base := { hr.base with inMem := h.inCanonical, outMem := h.outCanonical } }

theorem Inv.powerOnReset (h : Inv s) : Inv (powerOnReset s) := by
  have hr := inStage_resetWith h.params
  exact InStage.inv (g := .plain .idle) { hr with base := { hr.base with } } idle_complete

/-! ### Host commands (46_codec R296..R299) -/

theorem InStage.ignoreCommand (h : InStage g s) : InStage g (ignoreCommand s) :=
  h.withHost rfl rfl h.base.outLen

theorem InStage.writeCtrlFields (h : InStage g s) (irqEn marker : Bool) :
    InStage g (s.writeCtrlFields irqEn marker) := h.withHost rfl rfl h.base.outLen

/-- A command keeps the invariant if what it does once accepted does. -/
theorem inv_commandBy {f : State → State} (hf : ∀ u, Inv u → Inv (f u)) {irqEn marker : Bool}
    (hs : Inv s) (h : commandBy f irqEn marker s = .next t) : Inv t := by
  unfold commandBy at h
  split at h <;> cases h
  · exact hs.map fun _ _ hg => hg.ignoreCommand
  · exact hf _ (hs.map fun _ _ hg => hg.writeCtrlFields irqEn marker)

/-- A session starts without a duty of the phase it enters. -/
theorem InStage.enterSession (h : InStage g s) (q : Seq) : InStage (.plain q) (enterSession q s) where
  base := { h.base with outLen := Nat.zero_le _ }
  seq := rfl
  code := rfl
  low := False.elim
  range := False.elim
  window := False.elim

/-- The stages in which the two sessions' starts end. -/
def Stage.encStarted : Stage := ⟨.encFirst, 0#4, True, False, False⟩
def Stage.decStarted : Stage := ⟨.decLoop, 0#4, False, True, True⟩

theorem encStarted_complete : Stage.encStarted.Complete where
  code := ⟨show 0#4 ≤ 6#4 by decide, iff_of_false (fun h => h rfl) nofun⟩
  low _ := trivial
  range := nofun
  window := nofun

theorem decStarted_complete : Stage.decStarted.Complete where
  code := ⟨show 0#4 ≤ 6#4 by decide, iff_of_false (fun h => h rfl) nofun⟩
  low := nofun
  range _ := trivial
  window _ := trivial

/-- An operation that ends in a complete stage, before its value is returned. -/
theorem leads_inv_of_stage {α : Type} {P : State → Prop} {m : Eng α} (hm : Leads P (InStage g) m)
    (hg : g.Complete) (r : Ret) : Leads P Inv (m >>= fun _ => pure r) :=
  hm.bind fun _ => .pure (fun _ h => h.inv hg) _

theorem Inv.startEncode (h : Inv s) :
    Inv (finish ((encSessionStart >>= fun _ => pure .none) (enterSession .encFirst s))) :=
  (leads_inv_of_stage (leads_encSessionStart (g := .encStarted)) encStarted_complete _).inv_finish
    (h.inStage.enterSession .encFirst)

theorem Inv.startDecode (h : Inv s) :
    Inv (finish ((decSessionStart >>= fun _ => pure .none) (enterSession .decLoop s))) :=
  (leads_inv_of_stage (leads_decSessionStart (g := .decStarted)) decStarted_complete _).inv_finish
    (h.inStage.enterSession .decLoop)

/-! ### Instructions -/

theorem inv_packetBy {perform code : Eng Ret} (hp : Stays perform) (hc : Stays code) (hs : Inv s)
    (h : packetBy perform code s = .next t) : Inv t := by
  unfold packetBy at h
  split at h
  · exact hp.inv_complete hs h
  · exact hc.inv_complete hs h

theorem inv_execOptGetOptimum {position : U32} (hs : Inv s)
    (h : execOptGetOptimum position s = .next t) : Inv t := by
  unfold execOptGetOptimum at h
  split at h
  · next hr => exact inv_answer ((hs.inStage.setPm (hs.toBase.pm.getOptimum hr)).inv hs.complete) h
  · exact nomatch h

theorem inv_execOptBackward {cur : U32} (hs : Inv s) (h : execOptBackward cur s = .next t) : Inv t := by
  unfold execOptBackward at h
  split at h
  · next hr =>
    exact inv_answer ((hs.inStage.setPm
      (x := ⟨_, s.mf⟩) ⟨hs.toBase.parser.backward hr, hs.toBase.finder⟩).inv hs.complete) h
  · exact nomatch h

theorem inv_execCodecEncBlock (hs : Inv s) (h : execCodecEncBlock s = .next t) : Inv t := by
  unfold execCodecEncBlock at h
  split at h
  · next hr =>
    exact (stays_encBlockWith _).inv_completeUnit
      ((hs.inStage.setPm (hs.toBase.pm.getOptimum hr)).inv hs.complete) h
  · exact nomatch h

theorem inv_withFinder (hs : Inv s) {m : MatchFinder} (hm : FinderOk m) : Inv { s with mf := m } :=
  (hs.inStage.withFinder hm).inv hs.complete

/-- Every instruction keeps the invariant, whenever it is presented. -/
theorem exec_inv (i : Instr) (hs : Inv s) (h : exec i s = .next t) : Inv t := by
  have hm := hs.toBase.finder
  have hpm := hs.toBase.pm
  cases i with
  | rcEncInit => exact stays_encInit.inv_completeUnit hs h
  | rcEncBit p b => exact (stays_encBit p b).inv_completeUnit hs h
  | rcShiftLow => exact stays_shiftLow.inv_completeUnit hs h
  | rcEncDirect v n => exact (stays_encDirect v _).inv_completeUnit hs h
  | rcEncFlush => exact stays_encFlush.inv_completeUnit hs h
  | rcDecInit => exact stays_decInit.inv_completeUnit hs h
  | rcDecBit p => exact ((stays_decBit p).bind fun _ => .pure _).inv_completeWord hs h
  | rcDecDirect n => exact (stays_decDirect _ _).inv_completeWord hs h
  | btEnc c n sym => exact (stays_btEnc c _ _).inv_completeUnit hs h
  | btDec c n => exact (stays_btDec c _).inv_completeWord hs h
  | btRenc c n sym => exact (stays_btRenc c _ _).inv_completeUnit hs h
  | btRdec c n => exact (stays_btRdec c _).inv_completeWord hs h
  | btInit a k => exact inv_answer (hs.map fun _ _ hg => hg.btInit a k) h
  | litEnc c sym => exact (stays_litEnc _ sym).inv_completeUnit hs h
  | litEncMatched c mb sym => exact (stays_litEncMatched _ mb sym).inv_completeUnit hs h
  | litDec c => exact ((stays_litDec _).bind fun _ => .pure _).inv_completeWord hs h
  | litDecMatched c mb => exact ((stays_litDecMatched _ mb).bind fun _ => .pure _).inv_completeWord hs h
  | lenEnc c k ps => exact (stays_lenEnc c _ _).inv_completeUnit hs h
  | lenDec c ps => exact (stays_lenDec c _).inv_completeWord hs h
  | lenSetPrices c ps => exact inv_answer (hs.map fun _ _ hg => hg.lenSetPrices c _) h
  | lenEncCounted c k ps => exact (stays_lenEncCounted c _ _).inv_completeUnit hs h
  | mfInit => exact inv_answer (inv_withFinder hs (hm.mfInit s)) h
  | mfMovePos => exact inv_answer (inv_withFinder hs hm.mfMovePos) h
  | mfGetMatches => exact inv_answer (inv_withFinder hs (hm.mfGetMatches s)) h
  | mfTreeWalk c l e => exact inv_answer (inv_withFinder hs (hm.mfTreeWalk s c l e _ _)) h
  | mfSkip n => exact inv_answer (inv_withFinder hs (hm.mfSkip s _)) h
  | optGetOptimum position => exact inv_execOptGetOptimum hs h
  | optReadMatchDistances =>
    exact inv_answer ((hs.inStage.setPm (hpm.readMatchDistances s)).inv hs.complete) h
  | optMovePos n => exact inv_answer ((hs.inStage.setPm (hpm.movePos s n)).inv hs.complete) h
  | optBackward cur => exact inv_execOptBackward hs h
  | optFillDist => exact inv_answer (hs.map fun _ _ hg => hg.fillDist) h
  | optFillAlign => exact inv_answer (hs.map fun _ _ hg => hg.fillAlign) h
  | repsPush d =>
    exact inv_answer (hs.map (f := fun s => s.setReps (repsPush s.codec.reps d)) fun _ _ hg =>
      hg.withCodec { hg.base.codec with }) h
  | repsPromote i =>
    exact inv_answer (hs.map (f := fun s => s.setReps (repsPromote s.codec.reps i.toNat)) fun _ _ hg =>
      hg.withCodec { hg.base.codec with }) h
  | codecEncHeader => exact stays_encHeader.inv_completeUnit hs h
  | codecDecHeader => exact stays_decHeader.inv_completeUnit hs h
  | codecEncLit => exact stays_encLit.inv_completeUnit hs h
  | codecEncMatch len d => exact (stays_encMatch _ d).inv_completeUnit hs h
  | codecEncRep i len => exact (stays_encRep _ _).inv_completeUnit hs h
  | codecEncEos => exact stays_encEos.inv_completeUnit hs h
  | codecEncDistance d len => exact (stays_encDistance d _).inv_completeUnit hs h
  | codecEncBlock => exact inv_execCodecEncBlock hs h
  | codecDecDistance len => exact (stays_decDistance _).inv_completeWord hs h
  | codecDecPacket => exact stays_decPacket.inv_complete hs h
  | codecCheckDist => exact stays_checkDist.inv_completeUnit hs h
  | codecDecEarlyEndCheck => exact inv_answer (hs.map fun _ _ hg => hg.earlyEndCheck) h
  | codecCopy len => exact (stays_copy _).inv_completeUnit hs h
  | owInit n => exact (stays_owInit n).inv_completeUnit hs h
  | owPut b => exact (stays_owPut b).inv_completeUnit hs h
  | owCopy d n => exact (stays_owCopy d _).inv_completeUnit hs h
  | owFlush => exact stays_owFlush.inv_completeUnit hs h
  | nop irqEn marker => exact inv_commandBy (fun _ hu => hu) hs h
  | reset irqEn marker => exact inv_commandBy (fun _ hu => hu.commandReset) hs h
  | encode irqEn marker => exact inv_commandBy (fun _ hu => hu.startEncode) hs h
  | decode irqEn marker => exact inv_commandBy (fun _ hu => hu.startDecode) hs h
  | ctrlReserved4 op irqEn marker | ctrlReserved8 op irqEn marker =>
    cases h
    exact hs.map fun _ _ hg => hg.ignoreCommand
  | lit b => exact inv_packetBy (stays_performLit b) (stays_codeLit b) hs h
  | matchDist len d => exact inv_packetBy (stays_performMatch _ d) (stays_codeMatch _ d) hs h
  | shortrep => exact inv_packetBy stays_performShortrep (stays_codeRep _ _) hs h
  | longrep0 len | longrep1 len | longrep2 len | longrep3 len =>
    exact inv_packetBy (stays_performLongrep _ _) (stays_codeRep _ _) hs h
  | eos => exact inv_packetBy (stays_performMatch _ _) stays_codeEos hs h
  | rcPriceBit p b | btPrice c n sym | btRprice c n sym | litSelect pos prev
  | litPrice c m mb sym | lenPrice c k ps | mfHash cur | mfAvail | mfIndexByte k
  | mfMatchLen k d l | optRepLen1Price st ps | optPureRepPrice i st ps | optRepPrice i len st ps
  | optPosLenPrice d len ps | stChar v | stMatch v | stRep v | stShortrep v | stIsChar v
  | lenToPosState len | posSlot d | posSlot2 d | owGet d => exact inv_answer hs h

/-! ### Host accesses -/

theorem runCode_inv {c : Code} (hs : Inv s) (h : runCode c s = .next t) : Inv t := by
  unfold runCode at h
  split at h
  · exact exec_inv _ hs h
  · exact nomatch h

theorem regWrite_inv {n : Byte} {w : U32} (hs : Inv s) (h : regWrite n w s = .next t) : Inv t := by
  have hhost : ∀ r : HostRegs, r.seq = s.host.seq → r.errCode = s.host.errCode →
      r.outLen = s.host.outLen → Inv { s with host := r } := fun r h1 h2 h3 =>
    (hs.inStage.withHost h1 h2 (h3 ▸ hs.outBounded)).inv hs.complete
  unfold regWrite at h
  split at h
  · exact exec_inv _ hs h
  · cases h
    exact hhost _ rfl rfl rfl
  · split at h <;> cases h
    · exact hs
    · exact hhost _ rfl rfl rfl
  · cases h
    exact hs

theorem hostWriteIn_inv {a : Nat} {b : Byte} (hs : Inv s) (h : hostWriteIn a b s = .next t) : Inv t := by
  unfold hostWriteIn at h
  split at h
  · exact nomatch h
  · split at h <;> cases h
    · exact hs
    · exact { hs with inCanonical := Memory.wf_write hs.inCanonical }

theorem hostWriteOut_inv {a : Nat} {b : Byte} (hs : Inv s) (h : hostWriteOut a b s = .next t) : Inv t := by
  unfold hostWriteOut at h
  split at h
  · exact nomatch h
  · split at h <;> cases h <;>
      exact { hs with outCanonical := Memory.wf_write hs.outCanonical }

/-! ### Turns of the engine (46_codec R286, R291) -/

theorem InStage.goTo (h : InStage g s) (q : Seq) : InStage { g with seq := q } (s.goTo q) :=
  { h with base := { h.base with }, seq := rfl }

/-- Another place of the same phase asks for the same duties. -/
theorem Stage.Complete.goTo (h : g.Complete) {q : Seq} (hq : q.phase = g.seq.phase) (he : g.seq ≠ .error)
    (he' : q ≠ .error) : Stage.Complete { g with seq := q } where
  code := ⟨h.code.1, iff_of_false (mt h.code.2.1 he) he'⟩
  low hp := h.low (hq ▸ hp)
  range hp := h.range (hq ▸ hp)
  window hp := h.window (hq ▸ hp)

theorem Inv.complete_goTo (h : Inv s) {p q : Seq} (hp : s.host.seq = p) (hq : q.phase = p.phase)
    (he : p ≠ .error) (he' : q ≠ .error) : Stage.Complete { stageOf s with seq := q } := by
  subst hp
  exact h.complete.goTo hq he he'

theorem Inv.goTo (h : Inv s) {p q : Seq} (hp : s.host.seq = p) (hq : q.phase = p.phase)
    (he : p ≠ .error) (he' : q ≠ .error) : Inv (s.goTo q) :=
  (h.inStage.goTo q).inv (h.complete_goTo hp hq he he')

theorem InStage.completeSession (h : InStage g s) : InStage (.plain .done) (completeSession s) where
  base := { h.base with }
  seq := rfl
  code := rfl
  low := False.elim
  range := False.elim
  window := False.elim

/-- A turn that runs an operation and moves on in its phase. -/
theorem inv_turn_goTo {m : Eng Unit} (hm : Stays m) {p q : Seq} (hs : Inv s) (hp : s.host.seq = p)
    (hq : q.phase = p.phase) (he : p ≠ .error) (he' : q ≠ .error)
    (h : completeUnit (m >>= fun _ => Machine.goTo q) s = .next t) : Inv t := by
  have hl : Leads (InStage (stageOf s)) (InStage { stageOf s with seq := q })
      (m >>= fun _ => Machine.goTo q) := (hm _).bind fun _ => .modify fun _ hu => hu.goTo q
  exact (leads_inv_of_stage hl (hs.complete_goTo hp hq he he') _).inv_complete hs.inStage h

/-- A turn that runs the session's last operation and completes. -/
theorem inv_turn_done {m : Eng Unit} (hm : Stays m) (hs : Inv s)
    (h : completeUnit (m >>= fun _ => modify completeSession) s = .next t) : Inv t := by
  have hl : Leads (InStage (stageOf s)) (InStage (.plain .done)) (m >>= fun _ => modify completeSession) :=
    (hm _).bind fun _ => .modify fun _ hu => hu.completeSession
  have hd : (Stage.plain .done).Complete := Stage.plain_complete nofun nofun nofun
  exact (leads_inv_of_stage hl hd _).inv_complete hs.inStage h

theorem turnEncFirst_inv (hq : s.host.seq = .encFirst) (hs : Inv s) (h : turnEncFirst s = .next t) :
    Inv t := by
  unfold turnEncFirst at h
  split at h
  · cases h
    exact hs.goTo hq rfl nofun nofun
  · exact inv_turn_goTo (q := .encLoop) stays_encFirstByte hs hq rfl nofun nofun h

theorem turnEncLoop_inv (hq : s.host.seq = .encLoop) (hs : Inv s) (h : turnEncLoop s = .next t) :
    Inv t := by
  unfold turnEncLoop at h
  split at h
  · cases h
    exact hs.goTo hq rfl nofun nofun
  · exact inv_execCodecEncBlock hs h

theorem turnEncFinish_inv (hq : s.host.seq = .encFinish) (hs : Inv s) (h : turnEncFinish s = .next t) :
    Inv t := by
  unfold turnEncFinish at h
  split at h
  · exact inv_turn_goTo (q := .encFlush) stays_encEos hs hq rfl nofun nofun h
  · cases h
    exact hs.goTo hq rfl nofun nofun

theorem leads_decLoopPacket (hq : g.seq = .decLoop) (hg : g.Complete) :
    Leads (InStage g) Inv decLoopPacket :=
  (stays_decPacket g).bind fun r => Leads.bind (Q := Inv) (.modify fun u hu => by
    unfold leaveAtEnd
    split
    · exact (hu.inv hg).goTo (hu.seq.trans hq) rfl nofun nofun
    · exact hu.inv hg) fun _ => .pure (fun _ => id) _

theorem turnDecLoop_inv (hq : s.host.seq = .decLoop) (hs : Inv s) (h : turnDecLoop s = .next t) :
    Inv t := by
  unfold turnDecLoop at h
  split at h
  · cases h
    exact hs.goTo hq rfl nofun nofun
  · exact (leads_decLoopPacket hq hs.complete).inv_complete hs.inStage h

theorem engineTurn_inv (hs : Inv s) (h : engineTurn s = .next t) : Inv t := by
  cases hq : s.host.seq <;> simp only [engineTurn, hq] at h
  case idle | done | error =>
    cases h
    exact hs
  case encFirst => exact turnEncFirst_inv hq hs h
  case encLoop => exact turnEncLoop_inv hq hs h
  case encFinish => exact turnEncFinish_inv hq hs h
  case encFlush => exact inv_turn_done stays_encFlush hs h
  case decLoop => exact turnDecLoop_inv hq hs h
  case decFlush => exact inv_turn_done stays_owFlush hs h

/-! ### Steps -/

theorem InStage.tick (h : InStage g s) : InStage g s.tick := { h with base := { h.base with } }

theorem takeInput_inv {x : Input} (hs : Inv s) (h : takeInput x s = .next t) : Inv t := by
  cases x with
  | code c => exact runCode_inv hs h
  | regWrite n w => exact regWrite_inv hs h
  | inWrite a b => exact hostWriteIn_inv hs h
  | outWrite a b => exact hostWriteOut_inv hs h
  | engine => exact engineTurn_inv hs h
  | powerOn =>
    cases h
    exact hs.powerOnReset

theorem step_inv (hs : Inv s) (h : step s = .next t) : Inv t := by
  have ht : Inv s.tick := hs.map fun _ _ hg => hg.tick
  unfold step at h
  split at h
  · exact engineTurn_inv ht h
  · exact takeInput_inv ht h

/-- Settles O12: each input and each turn runs operations that keep every stage, and an error entry has
no duties. -/
theorem everyStepKeepsTheInvariant : Obligations.EveryStepKeepsTheInvariant :=
  fun _ _ hs h => step_inv hs h

/-- Settles O11: the reset state has every component in order, and IDLE has no duties. -/
theorem resetMeetsTheInvariant : Obligations.ResetMeetsTheInvariant :=
  ⟨inv_resetWith (by decide), fun _ hp => inv_resetWith hp⟩

end Sys2Proof
end

section
/-! Lists of bytes written to OUT, and the header of ENCODE (46_codec R270): what it leaves when it fits, and
where it stops when OUT is too small. -/

namespace Sys2Proof

open Machine

variable {s : State}

/-! ### Bytes in a row -/

/-- The bytes `bs` written from index `i` on. -/
def writeBytes : List Byte → Nat → Memory → Memory
  | [], _, m => m
  | b :: bs, i, m => writeBytes bs (i + 1) (m.write i b)

theorem writeBytes_append : ∀ (as bs : List Byte) (i : Nat) (m : Memory),
    writeBytes (as ++ bs) i m = writeBytes bs (i + as.length) (writeBytes as i m)
  | [], _, _, _ => rfl
  | a :: as, bs, i, m => by
    rw [List.cons_append, writeBytes, writeBytes_append as bs, List.length_cons, writeBytes,
      Nat.add_right_comm, Nat.add_assoc i]

/-- The bytes from `i` on are `bs`; the others keep what they hold. -/
theorem read_writeBytes : ∀ (bs : List Byte) (i j : Nat) {m : Memory}, m.wf = true →
    (writeBytes bs i m).read j = if i ≤ j then (bs[j - i]?).getD (m.read j) else m.read j
  | [], _, _, _, _ => by simp [writeBytes]
  | b :: bs, i, j, m, h => by
    unfold writeBytes
    rw [read_writeBytes bs (i + 1) j (Memory.wf_write h), Memory.read_write h]
    rcases Nat.lt_trichotomy i j with hi | rfl | hi
    · obtain ⟨k, rfl⟩ := Nat.exists_eq_add_of_lt hi
      simp [show i + k + 1 - i = k + 1 by omega, show i + k + 1 - (i + 1) = k by omega,
        show i + k + 1 ≠ i by omega, show i ≤ i + k + 1 by omega]
    · simp
    · rw [if_neg (by omega), if_neg (by omega), if_neg (by omega)]

/-- The state with the bytes `bs` appended to OUT. -/
def appendAll (s : State) (bs : List Byte) : State :=
  { s with
    outMem := writeBytes bs s.host.outLen.toNat s.outMem
    host := { s.host with outLen := s.host.outLen + BitVec.ofNat 64 bs.length } }

theorem appendAll_outLen {bs : List Byte} (h : s.host.outLen.toNat + bs.length ≤ s.outCap) :
    (appendAll s bs).host.outLen.toNat = s.host.outLen.toNat + bs.length := by
  have hc := outCap_lt s
  show (s.host.outLen + BitVec.ofNat 64 bs.length).toNat = _
  rw [BitVec.toNat_add, BitVec.toNat_ofNat]
  omega

theorem appendAll_appendAll {as bs : List Byte} (h : s.host.outLen.toNat + as.length ≤ s.outCap) :
    appendAll (appendAll s as) bs = appendAll s (as ++ bs) := by
  have hl : s.host.outLen + BitVec.ofNat 64 as.length + BitVec.ofNat 64 bs.length =
      s.host.outLen + BitVec.ofNat 64 (as ++ bs).length := by
    rw [List.length_append, BitVec.ofNat_add, BitVec.add_assoc]
  have hm := writeBytes_append as bs s.host.outLen.toNat s.outMem
  have ha : (appendAll s as).host.outLen.toNat = _ := appendAll_outLen h
  unfold appendAll at ha ⊢
  simp only [ha, hl, hm]

theorem appendOut_eq (s : State) (b : Byte) : s.appendOut b = appendAll s [b] := rfl

theorem outWriteAll_ok : ∀ (bs : List Byte) {s : State}, s.host.outLen.toNat + bs.length ≤ s.outCap →
    outWriteAll bs s = .ok () (appendAll s bs)
  | [], s, _ => by simp [outWriteAll, appendAll, writeBytes]
  | b :: bs, s, h => by
    rw [List.length_cons] at h
    have h1 : s.host.outLen.toNat + [b].length ≤ s.outCap := by rw [List.length_singleton]; omega
    unfold outWriteAll
    rw [bind_ok (outWrite_ok b (by omega)), appendOut_eq, outWriteAll_ok bs (s := appendAll s [b]),
      appendAll_appendAll h1, List.singleton_append]
    rw [appendAll_outLen h1, List.length_singleton]
    exact (by omega : s.host.outLen.toNat + 1 + bs.length ≤ s.outCap)

/-! ### How many bytes an operation emits -/

/-- The operation emits `k` bytes: with room for them OUT_LEN grows by `k`, without it the operation ends in
ResourceExhausted with OUT full (20_memory R64). Neither moves IN_POS. -/
structure Emits (k : Nat) (m : Eng Unit) : Prop where
  fits : ∀ s : State, s.host.outLen.toNat + k ≤ s.outCap → ∃ t, m s = .ok () t ∧
    t.host.outLen.toNat = s.host.outLen.toNat + k ∧ t.outCap = s.outCap ∧ t.host.inPos = s.host.inPos
  full : ∀ s : State, s.host.outLen.toNat ≤ s.outCap → s.outCap < s.host.outLen.toNat + k →
    ∃ t, m s = .error .resourceExhausted t ∧ t.host.outLen.toNat = s.outCap ∧
      t.host.inPos = s.host.inPos

theorem Emits.then {k l : Nat} {m n : Eng Unit} (hm : Emits k m) (hn : Emits l n) :
    Emits (k + l) (m >>= fun _ => n) where
  fits s h := by
    obtain ⟨t, ht, hlen, hcap, hpos⟩ := hm.fits s (by omega)
    obtain ⟨u, hu, hlen', hcap', hpos'⟩ := hn.fits t (by omega)
    exact ⟨u, by rw [bind_ok ht, hu], by omega, hcap'.trans hcap, hpos'.trans hpos⟩
  full s h hfull := by
    by_cases hk : s.host.outLen.toNat + k ≤ s.outCap
    · obtain ⟨t, ht, hlen, hcap, hpos⟩ := hm.fits s hk
      obtain ⟨u, hu, hlen', hpos'⟩ := hn.full t (by omega) (by omega)
      exact ⟨u, by rw [bind_ok ht, hu], by omega, hpos'.trans hpos⟩
    · obtain ⟨t, ht, hlen, hpos⟩ := hm.full s h (by omega)
      exact ⟨t, bind_error ht, hlen, hpos⟩

theorem Emits.modify {f : State → State}
    (hl : ∀ s, (f s).host.outLen = s.host.outLen := by exact fun _ => rfl)
    (hp : ∀ s, (f s).params = s.params := by exact fun _ => rfl)
    (hi : ∀ s, (f s).host.inPos = s.host.inPos := by exact fun _ => rfl) : Emits 0 (modify f) where
  fits s _ := ⟨f s, rfl, by rw [hl, Nat.add_zero], by rw [State.outCap, hp, State.outCap], hi s⟩
  full s h hfull := absurd hfull (by omega)

theorem Emits.get_bind {k : Nat} {f : State → Eng Unit} (h : ∀ s, Emits k (f s)) :
    Emits k (MonadState.get >>= f) where
  fits s := (h s).fits s
  full s := (h s).full s

theorem emits_outWrite (b : Byte) : Emits 1 (outWrite b) where
  fits s h := ⟨s.appendOut b, outWrite_ok b (by omega), appendOut_outLen b (by omega), rfl, rfl⟩
  full s h hfull := ⟨s, outWrite_full b (by omega), by omega, rfl⟩

theorem emits_outWriteAll : ∀ bs, Emits bs.length (outWriteAll bs)
  | [] => ⟨fun s _ => ⟨s, rfl, rfl, rfl, rfl⟩, fun s h hfull => absurd hfull (by simpa using h)⟩
  | b :: bs => by
    rw [List.length_cons, Nat.add_comm]
    exact (emits_outWrite b).then (emits_outWriteAll bs)

theorem leBytes_length : ∀ n v, (leBytes n v).length = n
  | 0, _ => rfl
  | n + 1, v => by rw [leBytes, List.length_cons, leBytes_length n]

theorem emits_leBytes (n v : Nat) : Emits n (outWriteAll (leBytes n v)) := by
  have h := emits_outWriteAll (leBytes n v)
  rwa [leBytes_length] at h

/-! ### The header -/

theorem emits_encHeader : Emits 13 encHeader :=
  (emits_outWrite _).then <| Emits.then (l := 12) .modify <| .get_bind fun _ =>
    Emits.then (l := 8) (emits_leBytes 4 _) <| Emits.then (emits_leBytes 8 _) .modify

/-- The bytes of a little-endian number one by one. -/
theorem leBytes_eq_map : ∀ n v, leBytes n v = (List.range n).map fun k => BitVec.ofNat 8 (v / 256 ^ k)
  | 0, _ => rfl
  | n + 1, v => by
    rw [leBytes, leBytes_eq_map n, List.range_succ_eq_map, List.map_cons, List.map_map, pow_zero,
      Nat.div_one]
    congr 2
    funext k
    rw [Function.comp_apply, Nat.pow_succ', Nat.div_div_eq_div_mul]

theorem headerBytes_eq (d n : U32) :
    headerBytes d n = [encProps] ++ leBytes 4 d.toNat ++ leBytes 8 n.toNat := by
  rw [leBytes_eq_map, leBytes_eq_map]
  rfl

/-- The state after CODEC.ENC_HEADER with room for its 13 bytes. -/
def headerWritten (s : State) : State :=
  { s with
    outMem := writeBytes (headerBytes s.codec.dictSize s.host.inLen) s.host.outLen.toNat s.outMem
    codec := s.codec.withProps encProps
    host := { s.host with outLen := s.host.outLen + 13#64, size := s.host.inLen.setWidth 64 } }

theorem outWriteAll_then {α : Type} {bs : List Byte} (k : Eng α)
    (h : s.host.outLen.toNat + bs.length ≤ s.outCap) :
    (outWriteAll bs >>= fun _ => k) s = k (appendAll s bs) := bind_ok (outWriteAll_ok bs h)

/-- PROPS of ENCODE, written between the header's first byte and its second. -/
def withEncProps (s : State) : State := { s with codec := s.codec.withProps encProps }

theorem encHeader_ok (h : s.host.outLen.toNat + 13 ≤ s.outCap) :
    encHeader s = .ok () (headerWritten s) := by
  have h1 : s.host.outLen.toNat + [encProps].length ≤ s.outCap := by rw [List.length_singleton]; omega
  have l1 : (withEncProps (appendAll s [encProps])).host.outLen.toNat = s.host.outLen.toNat + 1 :=
    appendAll_outLen h1
  have h2 : (withEncProps (appendAll s [encProps])).host.outLen.toNat +
      (leBytes 4 s.codec.dictSize.toNat).length ≤ s.outCap := by
    rw [l1, leBytes_length]; omega
  have h3 : (appendAll (withEncProps (appendAll s [encProps]))
      (leBytes 4 s.codec.dictSize.toNat)).host.outLen.toNat +
      (leBytes 8 s.host.inLen.toNat).length ≤ s.outCap := by
    rw [appendAll_outLen h2, l1, leBytes_length, leBytes_length]; omega
  have hrun : encHeader s = (outWriteAll (leBytes 4 s.codec.dictSize.toNat) >>= fun _ =>
      outWriteAll (leBytes 8 s.host.inLen.toNat) >>= fun _ =>
        modify fun s => { s with host := { s.host with size := s.host.inLen.setWidth 64 } })
      (withEncProps (appendAll s [encProps])) := bind_ok (outWrite_ok encProps (by omega))
  have hall : appendAll (appendAll (withEncProps (appendAll s [encProps]))
      (leBytes 4 s.codec.dictSize.toNat)) (leBytes 8 s.host.inLen.toNat) =
      withEncProps (appendAll s (headerBytes s.codec.dictSize s.host.inLen)) := by
    rw [appendAll_appendAll h2, headerBytes_eq, List.append_assoc, ← appendAll_appendAll h1]
    rfl
  rw [hrun, outWriteAll_then _ h2, outWriteAll_then _ h3, hall]
  rfl

end Sys2Proof
end

section
/-! The price tables of a session whose cells are all 1024 (45_optimal_parser R243). -/

namespace Sys2Proof

open Machine

variable {s : State}

/-! ### Writes of values that are not the unlisted one -/

/-- Reading after a write of a value other than what an unlisted index reads as: here the store need not
be canonical. -/
theorem Store.get_set_of_ne {α : Type} [DecidableEq α] {d v : α} (hv : v ≠ d) (i j : Nat) :
    ∀ t : Store α, Store.get d (Store.set d t i v) j = if j = i then v else Store.get d t j
  | [] => by
    simp only [Store.set, Store.cons, if_neg hv, Store.get]
    split
    · rfl
    · split <;> rfl
  | (k, u) :: t => by
    rcases Nat.lt_trichotomy i k with hi | rfl | hi
    · simp only [Store.set, Store.cons, if_neg hv, if_neg hi.ne, if_pos hi, Store.get]
      split
      · rfl
      · split
        · rw [if_neg (by omega), if_pos (by omega)]
        · rfl
    · simp only [Store.set, Store.cons, if_neg hv, if_true, Store.get]
      split <;> rfl
    · simp only [Store.set, if_neg hi.ne', if_neg hi.le.not_gt, Store.get, Store.get_set_of_ne hv i j t]
      split
      · rw [if_neg (by omega)]
      · split
        · rw [if_neg (by omega)]
        · rfl

theorem get_fillTable {f : Nat → U32} (base : Nat) (t : Store U32) (j : Nat) : ∀ n : Nat,
    (∀ i < n, f i ≠ 0#32) → Store.get 0#32 (fillTable f base n t) j =
      if base ≤ j ∧ j < base + n then f (j - base) else Store.get 0#32 t j
  | 0, _ => by rw [if_neg (by omega)]; rfl
  | n + 1, hf => by
    unfold fillTable
    rw [Store.get_set_of_ne (hf n (Nat.lt_succ_self n)),
      get_fillTable base t j n fun i hi => hf i (Nat.lt_succ_of_lt hi)]
    by_cases hj : j = base + n
    · rw [if_pos hj, if_pos (by omega), hj, Nat.add_sub_cancel_left]
    · rw [if_neg hj]
      congr 1
      exact propext (by omega)

/-! ### Prices of fresh cells -/

/-- Every cell holds 1024. -/
def FreshCells (s : State) : Prop := ∀ c, s.prob c = 1024#16

theorem FreshCells.of_nil (h : s.probs = []) : FreshCells s := fun c => by
  rw [State.prob, h]; rfl

theorem priceBit_fresh (b : Bool) : priceBit 1024#16 b = 64#32 := by cases b <;> decide +kernel

theorem FreshCells.cellPrice (h : FreshCells s) (c : CellRef) (b : Bool) : s.cellPrice c b = 64#32 := by
  rw [State.cellPrice, h c, priceBit_fresh]

theorem add_ofNat_mul (n : Nat) : 64#32 + BitVec.ofNat 32 (64 * n) = BitVec.ofNat 32 (64 * (n + 1)) := by
  rw [← BitVec.ofNat_add, Nat.mul_succ, Nat.add_comm]

/-- A tree of `n` fresh levels costs 64 a level. -/
theorem FreshCells.btPriceFrom (h : FreshCells s) (t : CellRef) (sym : U32) : ∀ n m,
    btPriceFrom s t sym n m = BitVec.ofNat 32 (64 * n)
  | 0, _ => rfl
  | n + 1, _ => by
    rw [Machine.btPriceFrom, h.cellPrice, FreshCells.btPriceFrom h t sym n, add_ofNat_mul]

theorem FreshCells.btPrice (h : FreshCells s) (t : CellRef) (n : Nat) (sym : U32) :
    btPrice s t n sym = BitVec.ofNat 32 (64 * n) := h.btPriceFrom t sym n _

theorem FreshCells.btRpriceFrom (h : FreshCells s) (t : CellRef) : ∀ n sym m,
    btRpriceFrom s t n sym m = BitVec.ofNat 32 (64 * n)
  | 0, _, _ => rfl
  | n + 1, _, _ => by
    rw [Machine.btRpriceFrom, h.cellPrice, FreshCells.btRpriceFrom h t n, add_ofNat_mul]

theorem FreshCells.btRprice (h : FreshCells s) (t : CellRef) (n : Nat) (sym : U32) :
    btRprice s t n sym = BitVec.ofNat 32 (64 * n) := h.btRpriceFrom t n sym _

/-! ### Slots and distances (R240) -/

/-- The price of slot `n` with fresh cells. -/
def freshSlotPrice (n : Nat) : U32 := BitVec.ofNat 32 (384 + if n < 14 then 0 else 64 * (n / 2 - 5))

theorem FreshCells.posSlotPriceOf (h : FreshCells s) (l n : Nat) :
    posSlotPriceOf s l n = freshSlotPrice n := by
  unfold Machine.posSlotPriceOf freshSlotPrice
  dsimp only
  rw [h.btPrice]
  split
  · rfl
  · rw [← BitVec.ofNat_add, Nat.mul_comm _ 64]
    rfl

theorem freshSlotPrice_ne {n : Nat} (hn : n < 64) : freshSlotPrice n ≠ 0#32 := by
  intro h
  have h' := congrArg BitVec.toNat h
  simp only [freshSlotPrice, BitVec.toNat_ofNat] at h'
  split at h' <;> omega

theorem get_fillSlotRows (h : FreshCells s) {size : Nat} (hs : size ≤ 64) (t : Store U32) {l n : Nat}
    (hn : n < size) : ∀ m, l < m →
      Store.get 0#32 (fillSlotRows s size m t) (64 * l + n) = freshSlotPrice n
  | m + 1, hl => by
    unfold fillSlotRows
    rw [get_fillTable _ _ _ _ fun i hi => by
      rw [h.posSlotPriceOf]; exact freshSlotPrice_ne (Nat.lt_of_lt_of_le hi hs)]
    rcases Nat.lt_succ_iff_lt_or_eq.1 hl with hl | rfl
    · rw [if_neg (by omega), get_fillSlotRows h hs t hn m hl]
    · rw [if_pos (by omega), h.posSlotPriceOf]
      congr 1
      omega

/-- The price of distance `i < 128` with fresh cells. -/
def freshDistancePrice (i : Nat) : U32 :=
  BitVec.ofNat 32 (384 + if i < 4 then 0 else 64 * (slotOf i / 2 - 1))

/-- The slots of the distances below 128 (46_codec R263). -/
theorem slotOf_small : ∀ i < 128, slotOf i < 14 := by decide +kernel

theorem posSlotOf_small {i : Nat} (hi : i < 128) : (posSlotOf (BitVec.ofNat 32 i)).toNat = slotOf i := by
  have hs := slotOf_small i hi
  have ht : (BitVec.ofNat 32 i).toNat = i := by rw [BitVec.toNat_ofNat]; omega
  have hlt : BitVec.ofNat 32 i < 0x800#32 := by
    show (BitVec.ofNat 32 i).toNat < 2048
    omega
  rw [posSlotOf, if_pos hlt, ht, fastPos, BitVec.toNat_ofNat]
  omega

theorem footerBits_small {i : Nat} (hi : i < 128) :
    footerBits (posSlotOf (BitVec.ofNat 32 i)) = slotOf i / 2 - 1 := by
  rw [footerBits, BitVec.toNat_ushiftRight, posSlotOf_small hi, Nat.shiftRight_eq_div_pow, pow_one]

theorem FreshCells.footerPrice (h : FreshCells s) {i : Nat} (hi : i < 128) :
    footerPrice s i = BitVec.ofNat 32 (64 * (slotOf i / 2 - 1)) := by
  rw [Machine.footerPrice, h.btRprice, footerBits_small hi]

theorem FreshCells.distancePriceOf (h : FreshCells s) {slots : Store U32} {l : Nat}
    (hslots : ∀ n < 14, Store.get 0#32 slots (64 * l + n) = freshSlotPrice n) {i : Nat} (hi : i < 128) :
    distancePriceOf s slots l i = freshDistancePrice i := by
  have hfirst : ∀ n < 14, Store.get 0#32 slots (l * 64 + n) = 384#32 := fun n hn => by
    rw [Nat.mul_comm, hslots n hn, freshSlotPrice, if_pos hn]
  unfold Machine.distancePriceOf freshDistancePrice
  split
  · next h4 => exact hfirst i (by omega)
  · rw [posSlotOf_small hi, hfirst _ (slotOf_small i hi), h.footerPrice hi, ← BitVec.ofNat_add]

theorem freshDistancePrice_ne {i : Nat} (hi : i < 128) : freshDistancePrice i ≠ 0#32 := by
  intro h
  have hs := slotOf_small i hi
  have h' := congrArg BitVec.toNat h
  simp only [freshDistancePrice, BitVec.toNat_ofNat] at h'
  split at h' <;> omega

theorem get_fillDistanceRows (h : FreshCells s) {slots : Store U32}
    (hslots : ∀ l < 4, ∀ n < 14, Store.get 0#32 slots (64 * l + n) = freshSlotPrice n) (t : Store U32)
    {l i : Nat} (hi : i < 128) : ∀ m ≤ 4, l < m →
      Store.get 0#32 (fillDistanceRows s slots m t) (128 * l + i) = freshDistancePrice i
  | m + 1, hm, hl => by
    unfold fillDistanceRows
    rw [get_fillTable _ _ _ _ fun i hi => by
      rw [h.distancePriceOf (hslots m (by omega)) hi]; exact freshDistancePrice_ne hi]
    rcases Nat.lt_succ_iff_lt_or_eq.1 hl with hl | rfl
    · rw [if_neg (by omega), get_fillDistanceRows h hslots t hi m (by omega) hl]
    · have hsub : 128 * l + i - l * 128 = i := by omega
      rw [if_pos (by omega), hsub, h.distancePriceOf (hslots l (by omega)) hi]

/-! ### Lengths (43_length_coder R167) -/

theorem FreshCells.lenSymbolPrice (h : FreshCells s) (c : LenSel) (ps : U32) {k : Nat} (hk : k < 272) :
    lenSymbolPrice s c ps (BitVec.ofNat 32 k) = freshLenPrice k := by
  have ht : (BitVec.ofNat 32 k).toNat = k := by rw [BitVec.toNat_ofNat]; omega
  have h8 : BitVec.ofNat 32 k < 8#32 ↔ k < 8 := by rw [BitVec.lt_def, ht]; rfl
  have h16 : BitVec.ofNat 32 k < 16#32 ↔ k < 16 := by rw [BitVec.lt_def, ht]; rfl
  simp only [Machine.lenSymbolPrice, freshLenPrice, h8, h16, h.cellPrice, h.btPrice]
  rfl

theorem freshLenPrice_ne (k : Nat) : freshLenPrice k ≠ 0#32 := by
  unfold freshLenPrice
  split
  · decide
  · split <;> decide

theorem get_fillLenPrices (h : FreshCells s) (c : LenSel) (ps : U32) (t : Store U32) (j : Nat) :
    ∀ n ≤ 272, Store.get 0#32 (fillLenPrices s c ps n t) j =
      if 272 * ps.toNat ≤ j ∧ j < 272 * ps.toNat + n then freshLenPrice (j - 272 * ps.toNat)
      else Store.get 0#32 t j
  | 0, _ => by rw [if_neg (by omega)]; rfl
  | n + 1, hn => by
    unfold fillLenPrices
    rw [h.lenSymbolPrice c ps (by omega), Store.get_set_of_ne (freshLenPrice_ne n),
      get_fillLenPrices h c ps t j n (by omega), lenPriceIndex, Nat.mul_comm ps.toNat]
    by_cases hj : j = 272 * ps.toNat + n
    · rw [if_pos hj, if_pos (by omega), hj, Nat.add_sub_cancel_left]
    · rw [if_neg hj]
      congr 1
      exact propext (by omega)

/-- The rows below `m` of a length table are those of a new session. -/
structure LenRowsFresh (m : Nat) (size : U32) (p : LenPrices) : Prop where
  tableSize : p.tableSize = size
  rows : ∀ ps < m, lenCounterAt p ps = size ∧ ∀ k < size.toNat, lenPriceAt p ps k = freshLenPrice k

@[simp] theorem len_setLen_same (p : Prices) (c : LenSel) (v : LenPrices) :
    (p.setLen c v).len c = v := by cases c <;> rfl

theorem len_setLen_of_ne (p : Prices) {c c' : LenSel} (v : LenPrices) (h : c' ≠ c) :
    (p.setLen c v).len c' = p.len c' := by
  cases c <;> cases c' <;> first | rfl | exact absurd rfl h

theorem LenRowsFresh.lenSetPrices (h : FreshCells s) {c : LenSel} {m : Nat} {size : U32}
    (hr : LenRowsFresh m size (s.prices.len c)) (hm : m < 4) (h0 : size ≠ 0#32) (hs : size.toNat ≤ 272) :
    LenRowsFresh (m + 1) size ((lenSetPrices c (BitVec.ofNat 32 m) s).prices.len c) := by
  have hps : (BitVec.ofNat 32 m).toNat = m := by rw [BitVec.toNat_ofNat]; omega
  have hcount : ∀ ps, lenCounterAt ((Machine.lenSetPrices c (BitVec.ofNat 32 m) s).prices.len c) ps =
      if ps = m then size else lenCounterAt (s.prices.len c) ps := fun ps => by
    simp only [Machine.lenSetPrices, len_setLen_same, lenCounterAt, hr.tableSize, hps,
      Store.get_set_of_ne h0]
  have hprice : ∀ ps k, lenPriceAt ((Machine.lenSetPrices c (BitVec.ofNat 32 m) s).prices.len c) ps k =
      if 272 * m ≤ 272 * ps + k ∧ 272 * ps + k < 272 * m + size.toNat then
        freshLenPrice (272 * ps + k - 272 * m)
      else lenPriceAt (s.prices.len c) ps k := fun ps k => by
    simp only [Machine.lenSetPrices, len_setLen_same, lenPriceAt, hr.tableSize,
      get_fillLenPrices h c _ _ _ _ hs, hps]
  refine ⟨?_, fun ps hlt => ?_⟩
  · simp only [Machine.lenSetPrices, len_setLen_same, hr.tableSize]
  · rw [hcount]
    rcases Nat.lt_succ_iff_lt_or_eq.1 hlt with hlt | rfl
    · obtain ⟨hc, hp⟩ := hr.rows ps hlt
      refine ⟨by rw [if_neg hlt.ne, hc], fun k hk => ?_⟩
      rw [hprice, if_neg (by omega), hp k hk]
    · refine ⟨if_pos rfl, fun k hk => ?_⟩
      rw [hprice, if_pos (by omega), Nat.add_sub_cancel_left]

theorem FreshCells.withPrices (h : FreshCells s) (p : Prices) : FreshCells { s with prices := p } := h

theorem FreshCells.fillDist (h : FreshCells s) : FreshCells (fillDist s) := h.withPrices _

theorem FreshCells.fillAlign (h : FreshCells s) : FreshCells (fillAlign s) := h.withPrices _

theorem FreshCells.fillLenTables (h : FreshCells s) (c : LenSel) : FreshCells (fillLenTables c s) :=
  h.withPrices _

/-- R282's four rows, with fresh cells. -/
theorem fillLenTables_fresh (h : FreshCells s) (c : LenSel) {size : U32}
    (hsize : s.encCfg.fastBytes.setWidth 32 - 1#32 = size) (h0 : size ≠ 0#32) (hs : size.toNat ≤ 272) :
    LenRowsFresh 4 size ((fillLenTables c s).prices.len c) := by
  have hstart : ∀ p : Prices, LenRowsFresh 0 size ((p.setLen c { p.len c with
      tableSize := s.encCfg.fastBytes.setWidth 32 - 1#32 }).len c) := fun p =>
    ⟨by rw [len_setLen_same, hsize], nofun⟩
  have r1 := LenRowsFresh.lenSetPrices (h.withPrices _) (hstart s.prices) (by decide) h0 hs
  have r2 := LenRowsFresh.lenSetPrices (h.withPrices _) r1 (by decide) h0 hs
  have r3 := LenRowsFresh.lenSetPrices (h.withPrices _) r2 (by decide) h0 hs
  exact LenRowsFresh.lenSetPrices (h.withPrices _) r3 (by decide) h0 hs

/-- Length prices aside, the price tables are the same. -/
structure SameTables (p q : Prices) : Prop where
  slots : q.posSlotPrices = p.posSlotPrices
  distances : q.distancesPrices = p.distancesPrices
  align : q.alignPrices = p.alignPrices
  matchCount : q.matchPriceCount = p.matchPriceCount
  alignCount : q.alignPriceCount = p.alignPriceCount
  slotCount : q.distTableSize = p.distTableSize

theorem SameTables.trans {p q r : Prices} (h : SameTables p q) (k : SameTables q r) : SameTables p r :=
  ⟨k.slots.trans h.slots, k.distances.trans h.distances, k.align.trans h.align,
    k.matchCount.trans h.matchCount, k.alignCount.trans h.alignCount, k.slotCount.trans h.slotCount⟩

theorem SameTables.setLen (p : Prices) (v : LenPrices) : ∀ c, SameTables p (p.setLen c v)
  | .matchLen => ⟨rfl, rfl, rfl, rfl, rfl, rfl⟩
  | .repLen => ⟨rfl, rfl, rfl, rfl, rfl, rfl⟩

theorem SameTables.lenSetPrices (c : LenSel) (ps : U32) (s : State) :
    SameTables s.prices (lenSetPrices c ps s).prices := .setLen ..

theorem SameTables.fillLenTables (c : LenSel) (s : State) :
    SameTables s.prices (fillLenTables c s).prices := by
  unfold Machine.fillLenTables
  refine SameTables.trans ?_ (.lenSetPrices c 3#32 _)
  refine SameTables.trans ?_ (.lenSetPrices c 2#32 _)
  refine SameTables.trans ?_ (.lenSetPrices c 1#32 _)
  refine SameTables.trans ?_ (.lenSetPrices c 0#32 _)
  exact .setLen s.prices _ c

theorem lenSetPrices_len_of_ne {c c' : LenSel} (h : c' ≠ c) (ps : U32) (s : State) :
    (lenSetPrices c ps s).prices.len c' = s.prices.len c' := len_setLen_of_ne _ _ h

theorem fillLenTables_len_of_ne {c c' : LenSel} (h : c' ≠ c) (s : State) :
    (fillLenTables c s).prices.len c' = s.prices.len c' := by
  unfold fillLenTables
  simp only [lenSetPrices_len_of_ne h, len_setLen_of_ne _ _ h]

theorem SameTables.encStartPrices (s : State) :
    SameTables (fillAlign (fillDist s)).prices (encStartPrices s).prices :=
  (SameTables.fillLenTables .matchLen _).trans (.fillLenTables .repLen _)

theorem fillDist_slots (s : State) : (fillDist s).prices.posSlotPrices =
    fillSlotRows s s.prices.distTableSize.toNat 4 s.prices.posSlotPrices := by simp only [fillDist]

theorem fillDist_distances (s : State) : (fillDist s).prices.distancesPrices =
    fillDistanceRows s (fillDist s).prices.posSlotPrices 4 s.prices.distancesPrices := by
  simp only [fillDist]

theorem fillAlign_align (s : State) : (fillAlign s).prices.alignPrices =
    fillTable (fun i => btRprice s posAlignTree 4 (BitVec.ofNat 32 i)) 0 16 s.prices.alignPrices := by
  simp only [fillAlign]

theorem fillAlign_distances (s : State) :
    (fillAlign s).prices.distancesPrices = s.prices.distancesPrices := by simp only [fillAlign]

theorem get_fillAlign (h : FreshCells s) {i : Nat} (hi : i < 16) :
    Store.get 0#32 (fillAlign s).prices.alignPrices i = 256#32 := by
  have hp : ∀ j, btRprice s posAlignTree 4 (BitVec.ofNat 32 j) = 256#32 := fun _ => h.btRprice ..
  rw [fillAlign_align, get_fillTable _ _ _ _ fun j _ => by rw [hp]; decide, if_pos (by omega), hp]

theorem encStartPrices_lengths (h : FreshCells s) {size : U32}
    (hsize : s.encCfg.fastBytes.setWidth 32 - 1#32 = size) (h0 : size ≠ 0#32) (hs : size.toNat ≤ 272) :
    ∀ c, LenRowsFresh 4 size ((encStartPrices s).prices.len c)
  | .matchLen => by
    unfold encStartPrices
    rw [fillLenTables_len_of_ne (c := .repLen) (by decide)]
    exact fillLenTables_fresh h.fillDist.fillAlign .matchLen hsize h0 hs
  | .repLen => fillLenTables_fresh (h.fillDist.fillAlign.fillLenTables .matchLen) .repLen hsize h0 hs

/-- The price tables an ENCODE session starts with (R282, R243). -/
theorem encStartPrices_fresh (h : FreshCells s) {row : LevelRow}
    (hd : 16 ≤ row.searchDepth ∧ row.searchDepth ≤ 25) (hf : 64#9 ≤ row.fastBytes)
    (hf' : row.fastBytes ≤ 255#9) (hsize : s.prices.distTableSize.toNat = 2 * row.searchDepth)
    (hfast : s.encCfg.fastBytes = row.fastBytes) : FreshPrices row (encStartPrices s).prices := by
  have same := SameTables.encStartPrices s
  have hslots : ∀ l < 4, ∀ n < 2 * row.searchDepth,
      Store.get 0#32 (fillDist s).prices.posSlotPrices (64 * l + n) = freshSlotPrice n := by
    intro l hl n hn
    rw [fillDist_slots, get_fillSlotRows h (by omega) _ (by omega) 4 hl]
  have hlen : (row.fastBytes.setWidth 32 - 1#32).toNat = row.fastBytes.toNat - 1 := by bv_omega
  have hrows := encStartPrices_lengths h (size := row.fastBytes.setWidth 32 - 1#32) (by rw [hfast])
    (by bv_omega) (by bv_omega)
  exact
    { counts := ⟨same.matchCount, same.alignCount⟩
      slots := by rw [same.slotCount]; exact hsize
      slotPrices := fun l n hl hn => by rw [same.slots]; exact hslots l hl n hn
      distances := fun l i hl hi => by
        rw [same.distances, fillAlign_distances, fillDist_distances]
        exact get_fillDistanceRows h (fun l hl n hn => hslots l hl n (by omega)) _ hi 4 (Nat.le_refl 4) hl
      align := fun i hi => by rw [same.align, get_fillAlign h.fillDist hi]
      lengths := fun c => ⟨(hrows c).tableSize, fun ps hps => by
        rw [← hlen]
        exact (hrows c).rows ps hps⟩ }

end Sys2Proof
end

section
/-! The start of an ENCODE session (46_codec R280..R282, R298): its checks, and the state it leaves. -/

namespace Sys2Proof

open Machine

variable {s : State} {row : LevelRow}

/-! ### The command -/

/-- The state in which an accepted ENCODE starts its session (R298). -/
def encEntry (irqEn marker : Bool) (s : State) : State :=
  enterSession .encFirst (s.writeCtrlFields irqEn marker)

theorem exec_encode (irqEn marker : Bool) (hb : s.busy = false) : exec (.encode irqEn marker) s =
    .next (finish ((encSessionStart >>= fun _ => pure .none) (encEntry irqEn marker s))) :=
  if_neg (by rw [hb]; exact Bool.false_ne_true)

theorem exec_encode_ok {irqEn marker : Bool} {t : State} (hb : s.busy = false)
    (h : encSessionStart (encEntry irqEn marker s) = .ok () t) :
    exec (.encode irqEn marker) s = .next { t with ret := .none } := by
  rw [exec_encode irqEn marker hb, bind_ok h]
  rfl

theorem exec_encode_error {irqEn marker : Bool} {t : State} {e : ErrKind} (hb : s.busy = false)
    (h : encSessionStart (encEntry irqEn marker s) = .error e t) :
    exec (.encode irqEn marker) s = .next (erred e.code t) := by
  rw [exec_encode irqEn marker hb, bind_error h]
  rfl

/-! ### The checks (R281) -/

theorem encSessionStart_configError (h : levelRow s.host.level = none ∨ s.maxInLen < s.host.inLen.toNat) :
    encSessionStart s = .error .configError (clearHeaderRegs s) := by
  unfold encSessionStart
  rw [get_bind_run]
  cases hrow : levelRow s.host.level with
  | none => rfl
  | some row =>
    rw [hrow] at h
    exact congrFun (if_pos (h.resolve_left nofun)) s

theorem encSessionStart_checked (hrow : levelRow s.host.level = some row)
    (hlen : s.host.inLen.toNat ≤ s.maxInLen) :
    encSessionStart s = (encHeader >>= fun _ => encInit) (encStartPrices (encStartRegs row s)) := by
  unfold encSessionStart
  rw [get_bind_run, hrow]
  exact congrFun (if_neg (Nat.not_lt.2 hlen)) s

/-! ### The session started -/

theorem encStartPrices_prices (s : State) : OnlyPrices s (encStartPrices s) := by
  have hl : ∀ c u, OnlyPrices u (fillLenTables c u) := fun _ _ => rfl
  exact ((fillDist_prices s).trans (fillAlign_prices _)).trans ((hl .matchLen _).trans (hl .repLen _))

/-- The registers and tables of a new session (R280, R282). -/
def encFresh (row : LevelRow) (s : State) : State :=
  { encStartRegs row s with prices := (encStartPrices (encStartRegs row s)).prices }

theorem encStartPrices_eq (row : LevelRow) (s : State) :
    encStartPrices (encStartRegs row s) = encFresh row s := encStartPrices_prices _

theorem encSessionStart_ok (hrow : levelRow s.host.level = some row)
    (hlen : s.host.inLen.toNat ≤ s.maxInLen) (hroom : 13 ≤ s.outCap) :
    encSessionStart s = .ok () { headerWritten (encFresh row s) with enc := encInitRegs } := by
  rw [encSessionStart_checked hrow hlen, encStartPrices_eq, bind_ok (encHeader_ok _)]
  · rfl
  · exact hroom

theorem encSessionStart_full (hrow : levelRow s.host.level = some row)
    (hlen : s.host.inLen.toNat ≤ s.maxInLen) (hfull : s.outCap < 13) :
    ∃ t, encSessionStart s = .error .resourceExhausted t ∧ t.host.outLen.toNat = s.outCap ∧
      t.host.inPos = 0#32 := by
  obtain ⟨t, ht, hout, hpos⟩ := emits_encHeader.full (encFresh row s) (Nat.zero_le _)
    (by exact Nat.lt_of_lt_of_le hfull (Nat.le_add_left _ _))
  exact ⟨t, by rw [encSessionStart_checked hrow hlen, encStartPrices_eq, bind_error ht], hout, hpos⟩

/-! ### The level table (00_scope R7) -/

theorem levelRow_eq_none_iff : ∀ l : U4, levelRow l = none ↔ l = 0#4 ∨ 9#4 < l := by decide

/-- The dictionary size of a level is a power of 2 that a u32 holds, and one more still is (R280). -/
theorem levelRow_dictSize {l : U4} (h : levelRow l = some row) :
    (1#32 <<< row.searchDepth).toNat = 2 ^ row.searchDepth ∧
      (1#32 <<< row.searchDepth + 1#32).toNat = 2 ^ row.searchDepth + 1 :=
  of_decide_eq_true <| levelRow_of_all (p := fun row => decide
    ((1#32 <<< row.searchDepth).toNat = 2 ^ row.searchDepth ∧
      (1#32 <<< row.searchDepth + 1#32).toNat = 2 ^ row.searchDepth + 1)) (by decide) h

/-- The match finder's limits and hash mask at a level (44_match_finder R180). -/
theorem levelRow_finder {l : U4} (h : levelRow l = some row) :
    (16#32 + (row.fastBytes >>> 1).setWidth 32).toNat = 16 + row.fastBytes.toNat / 2 ∧
      (row.fastBytes.setWidth 32 : U32).toNat = row.fastBytes.toNat ∧
      (hashMaskFor (if row.bt4 then .bt4 else .bt2) (1#32 <<< row.searchDepth)).toNat =
        if row.bt4 then 2 ^ (row.searchDepth - 1) - 1 else 65535 :=
  of_decide_eq_true <| levelRow_of_all (p := fun row => decide
    ((16#32 + (row.fastBytes >>> 1).setWidth 32).toNat = 16 + row.fastBytes.toNat / 2 ∧
      (row.fastBytes.setWidth 32 : U32).toNat = row.fastBytes.toNat ∧
      (hashMaskFor (if row.bt4 then .bt4 else .bt2) (1#32 <<< row.searchDepth)).toNat =
        if row.bt4 then 2 ^ (row.searchDepth - 1) - 1 else 65535)) (by decide) h

/-! ### What the session start leaves -/

theorem encFresh_prices (hrow : levelRow s.host.level = some row) :
    FreshPrices row (encFresh row s).prices := by
  obtain ⟨hd, hf, hf'⟩ := levelRow_bounds hrow
  refine encStartPrices_fresh (s := encStartRegs row s) (.of_nil rfl) hd hf hf' ?_ rfl
  show (BitVec.ofNat 32 (2 * row.searchDepth)).toNat = _
  rw [BitVec.toNat_ofNat]
  omega

theorem encFresh_finder (hrow : levelRow s.host.level = some row) :
    FinderStarted row s.host.inLen (encFresh row s).mf := by
  obtain ⟨hcut, hmax, hmask⟩ := levelRow_finder hrow
  exact
    { positions := ⟨rfl, rfl, rfl⟩, size := (levelRow_dictSize hrow).2, limits := ⟨hcut, hmax⟩
      mask := hmask, hash := fun _ => rfl }

theorem encodeStarted (irqEn marker : Bool) (hm : Memory.wf s.outMem = true)
    (hrow : levelRow s.host.level = some row) :
    EncodeStarted row irqEn marker s
      { headerWritten (encFresh row (encEntry irqEn marker s)) with enc := encInitRegs, ret := .none } where
  kept := ⟨rfl, rfl, rfl, rfl, rfl, rfl⟩
  ctrl := ⟨rfl, rfl⟩
  place := rfl
  status := ⟨rfl, rfl, rfl, rfl⟩
  counts := ⟨rfl, rfl, rfl⟩
  out a := (read_writeBytes _ 0 a hm).trans (if_pos (Nat.zero_le a))
  props := ⟨rfl, rfl, rfl, rfl⟩
  latched := ⟨(levelRow_dictSize hrow).1, rfl, rfl⟩
  cells _ := rfl
  codec := ⟨rfl, rfl, rfl, rfl⟩
  candidates := ⟨rfl, rfl, rfl, rfl, rfl, rfl⟩
  finder := encFresh_finder (s := encEntry irqEn marker s) hrow
  prices := encFresh_prices (s := encEntry irqEn marker s) hrow
  enc := rfl
  decoder := ⟨rfl, rfl⟩

/-- Settles O7: the checks end in ConfigError; past them the start is a closed form with room for the
header's 13 bytes, and without it the header stops where OUT is full. -/
theorem encodeChecksThenStartsTheSession : Obligations.EncodeChecksThenStartsTheSession := by
  refine ⟨levelRow_eq_none_iff, by decide, fun irqEn marker s hb hm => ⟨fun hbad => ?_, ?_, ?_⟩⟩
  · exact exec_encode_error hb (encSessionStart_configError (s := encEntry irqEn marker s) hbad)
  · intro row hrow hlen hroom
    exact ⟨_, exec_encode_ok hb (encSessionStart_ok (s := encEntry irqEn marker s) hrow hlen hroom),
      encodeStarted irqEn marker hm hrow⟩
  · intro row hrow hlen hfull
    obtain ⟨t, ht, hout, hpos⟩ :=
      encSessionStart_full (s := encEntry irqEn marker s) hrow hlen hfull
    exact ⟨_, exec_encode_error hb ht, rfl, rfl, hpos, hout⟩

end Sys2Proof
end

section
/-! Which instruction a CTRL word spells, and what a command does with CMD_IGNORED (10_state R21, 30_encoding
R100, 46_codec R296..R299). -/

namespace Sys2Proof

open Machine

variable {s : State}

/-! ### CTRL words -/

theorem extractLsb'_eq_ofNat (w : U32) {k : Nat} (hk : k ≤ 4) :
    w.extractLsb' 0 k = BitVec.ofNat k (w.toNat % 16) := by
  apply BitVec.eq_of_toNat_eq
  rw [BitVec.extractLsb'_toNat, BitVec.toNat_ofNat, Nat.shiftRight_zero,
    Nat.mod_mod_of_dvd _ (Nat.pow_dvd_pow 2 hk : 2 ^ k ∣ 16)]

/-- OP as the four-bit number `decodeCtrl` looks at. -/
theorem ctrlOp_eq {w : U32} {op : Nat} (h : w.toNat % 16 = op) : w.extractLsb' 0 4 = BitVec.ofNat 4 op := by
  rw [extractLsb'_eq_ofNat w (Nat.le_refl 4), h]

theorem ctrlOp_top (w : U32) : w.getLsbD 3 = decide (8 ≤ w.toNat % 16) := by
  rw [BitVec.getLsbD, Nat.testBit_eq_decide_div_mod_eq, decide_eq_decide]
  omega

theorem decodeCtrl_nop {w : U32} (h : w.toNat % 16 = 0) :
    decodeCtrl w = .nop (w.getLsbD 4) (w.getLsbD 5) := by
  unfold decodeCtrl
  rw [ctrlOp_eq h]
  rfl

theorem decodeCtrl_reset {w : U32} (h : w.toNat % 16 = 1) :
    decodeCtrl w = .reset (w.getLsbD 4) (w.getLsbD 5) := by
  unfold decodeCtrl
  rw [ctrlOp_eq h]
  rfl

theorem decodeCtrl_encode {w : U32} (h : w.toNat % 16 = 2) :
    decodeCtrl w = .encode (w.getLsbD 4) (w.getLsbD 5) := by
  unfold decodeCtrl
  rw [ctrlOp_eq h]
  rfl

theorem decodeCtrl_decode {w : U32} (h : w.toNat % 16 = 3) :
    decodeCtrl w = .decode (w.getLsbD 4) (w.getLsbD 5) := by
  unfold decodeCtrl
  rw [ctrlOp_eq h]
  rfl

/-- From OP 4 on the word is reserved; OP's top bit tells the two ranges apart. -/
theorem decodeCtrl_reserved {w : U32} (h : 4 ≤ w.toNat % 16) :
    decodeCtrl w =
      if 8 ≤ w.toNat % 16 then .ctrlReserved8 (BitVec.ofNat 3 (w.toNat % 16)) (w.getLsbD 4) (w.getLsbD 5)
      else .ctrlReserved4 (BitVec.ofNat 2 (w.toNat % 16)) (w.getLsbD 4) (w.getLsbD 5) := by
  have hop : ∀ n : Nat, n < 4 → w.extractLsb' 0 4 ≠ BitVec.ofNat 4 n := by
    intro n hn heq
    have := congrArg BitVec.toNat heq
    rw [BitVec.extractLsb'_toNat, BitVec.toNat_ofNat, Nat.shiftRight_zero] at this
    omega
  unfold decodeCtrl
  dsimp only
  split
  · next heq => exact absurd heq (hop 0 (by decide))
  · next heq => exact absurd heq (hop 1 (by decide))
  · next heq => exact absurd heq (hop 2 (by decide))
  · next heq => exact absurd heq (hop 3 (by decide))
  · rw [ctrlOp_top, extractLsb'_eq_ofNat w (by decide), extractLsb'_eq_ofNat w (by decide)]
    simp only [decide_eq_true_eq]

/-! ### Commands -/

theorem commandBy_busy (f : State → State) (irqEn marker : Bool) (hb : s.busy = true) :
    commandBy f irqEn marker s = .next (ignoreCommand s) := if_pos hb

theorem commandBy_accepted (f : State → State) (irqEn marker : Bool) (hb : s.busy = false) :
    commandBy f irqEn marker s = .next (f (s.writeCtrlFields irqEn marker)) :=
  if_neg (by rw [hb]; exact Bool.false_ne_true)

/-- What ENCODE and DECODE do once accepted: enter the session at `q` and run its start (R298, R299). -/
def startSession (q : Seq) (start : Eng Unit) (s : State) : State :=
  finish ((start >>= fun _ => pure .none) (enterSession q s))

theorem exec_encode_eq (irqEn marker : Bool) (s : State) : exec (.encode irqEn marker) s =
    commandBy (startSession .encFirst encSessionStart) irqEn marker s := rfl

theorem exec_decode_eq (irqEn marker : Bool) (s : State) : exec (.decode irqEn marker) s =
    commandBy (startSession .decLoop decSessionStart) irqEn marker s := rfl

/-! ### The registers a session's start leaves -/

theorem HostSame.cmdIgnored {t : State} (h : HostSame s t) : t.host.cmdIgnored = s.host.cmdIgnored := by
  rw [h]

theorem hostSame_composes : Composes HostSame where
  refl _ := rfl
  trans h k := by
    unfold HostSame at *
    rw [k, h]

section

variable {α β : Type}

theorem hostSame_then {m : Eng α} {n : Eng β} (hm : Keeps HostSame m) (hn : Keeps HostSame n) :
    Keeps HostSame (m >>= fun _ => n) := .bind hostSame_composes hm fun _ => hn

theorem hostSame_modify_then {f : State → State} {n : Eng β} (hf : ∀ s, HostSame s (f s))
    (hn : Keeps HostSame n) : Keeps HostSame (modify f >>= fun _ => n) := hostSame_then (.modify hf) hn

theorem hostSame_get_bind {f : State → Eng β} (hf : ∀ s, Keeps HostSame (f s)) :
    Keeps HostSame (MonadState.get >>= f) := .get_bind fun s => hf s s

end

theorem hostSame_outWrite (b : Byte) : Keeps HostSame (outWrite b) := by
  intro s
  unfold outWrite
  split <;> rfl

theorem hostSame_outWriteAll : ∀ bs, Keeps HostSame (outWriteAll bs)
  | [] => .pure hostSame_composes _
  | b :: bs => hostSame_then (hostSame_outWrite b) (hostSame_outWriteAll bs)

theorem hostSame_encHeader : Keeps HostSame encHeader :=
  hostSame_then (hostSame_outWrite _) <| hostSame_modify_then (fun _ => rfl) <| hostSame_get_bind fun _ =>
    hostSame_then (hostSame_outWriteAll _) <| hostSame_then (hostSame_outWriteAll _) <|
      .modify fun _ => rfl

theorem hostSame_raiseConfigError : Keeps HostSame raiseConfigError := fun _ => rfl

/-- The checks, registers, tables and header of an ENCODE session (R281, R282). -/
theorem hostSame_encSessionStart : Keeps HostSame encSessionStart :=
  hostSame_get_bind fun u => by
    cases levelRow u.host.level with
    | none => exact hostSame_raiseConfigError
    | some row =>
      have hregs : ∀ s, HostSame s (encStartPrices (encStartRegs row s)) := fun s => by
        rw [encStartPrices_eq]
        rfl
      exact .ite hostSame_raiseConfigError <| hostSame_modify_then hregs <|
        hostSame_then hostSame_encHeader <| .modify fun _ => rfl

theorem hostSame_decHeaderRest : Keeps HostSame decHeaderRest := by
  intro s
  unfold decHeaderRest
  dsimp only
  split
  · rfl
  · split <;> rfl

theorem hostSame_decHeader : Keeps HostSame decHeader := by
  intro s
  unfold decHeader
  dsimp only
  split
  · rfl
  · split
    · rfl
    · exact hostSame_decHeaderRest _

theorem hostSame_readByte : Keeps HostSame readByte := by
  intro s
  unfold readByte
  split <;> rfl

theorem hostSame_decShiftIn : Keeps HostSame decShiftIn :=
  .bind hostSame_composes hostSame_readByte fun _ => .modify fun _ => rfl

theorem hostSame_decShiftInTimes : ∀ n, Keeps HostSame (decShiftInTimes n)
  | 0 => .pure hostSame_composes _
  | n + 1 => hostSame_then hostSame_decShiftIn (hostSame_decShiftInTimes n)

/-- The check, header and registers of a DECODE session (R290). -/
theorem hostSame_decSessionStart : Keeps HostSame decSessionStart :=
  hostSame_get_bind fun _ => .ite hostSame_raiseConfigError <|
    hostSame_modify_then (fun _ => rfl) <| hostSame_then hostSame_decHeader <|
      hostSame_modify_then (fun _ => rfl) <| hostSame_get_bind fun _ =>
        hostSame_modify_then (fun _ => rfl) <| hostSame_modify_then (fun _ => rfl) <|
          hostSame_decShiftInTimes 5

theorem hostSame_finish {m : Eng Ret} (hm : Keeps HostSame m) (s : State) : HostSame s (finish (m s)) :=
  hm.complete hostSame_composes (fun _ _ => rfl) (fun _ _ => rfl) rfl

/-- The command that enters a session clears CMD_IGNORED (R296), and the session's start leaves it so. -/
theorem startSession_cmdIgnored {start : Eng Unit} (h : Keeps HostSame start) (q : Seq) (s : State) :
    (startSession q start s).host.cmdIgnored = false :=
  (hostSame_finish (hostSame_then h (.pure hostSame_composes _)) (enterSession q s)).cmdIgnored

/-! ### O4 -/

/-- Settles O4: OP by OP, then a command ignored while BUSY or when reserved, and accepted otherwise. -/
theorem commandsAreAcceptedOrIgnored : Obligations.CommandsAreAcceptedOrIgnored := by
  refine ⟨fun w => ⟨decodeCtrl_nop, decodeCtrl_reset, decodeCtrl_encode, decodeCtrl_decode,
    fun h4 h8 => ?_, fun h8 => ?_⟩,
    fun irqEn marker s => ⟨fun hb => ?_, fun _ => rfl, fun _ => rfl, fun hb => ?_⟩⟩
  · rw [decodeCtrl_reserved h4, if_neg (Nat.not_le.2 h8)]
  · rw [decodeCtrl_reserved (Nat.le_trans (by decide) h8), if_pos h8]
  · rw [exec_encode_eq, exec_decode_eq]
    exact ⟨commandBy_busy _ _ _ hb, commandBy_busy _ _ _ hb, commandBy_busy _ _ _ hb,
      commandBy_busy _ _ _ hb⟩
  · rw [exec_encode_eq, exec_decode_eq]
    exact ⟨commandBy_accepted _ _ _ hb, ⟨_, commandBy_accepted _ _ _ hb, rfl⟩,
      ⟨_, commandBy_accepted _ _ _ hb, startSession_cmdIgnored hostSame_encSessionStart _ _⟩,
      ⟨_, commandBy_accepted _ _ _ hb, startSession_cmdIgnored hostSame_decSessionStart _ _⟩⟩

end Sys2Proof
end

section
/-! What the host reads from the registers (10_state R21..R32): a word put together from fields that stand
side by side is the sum of the fields at their places. -/

namespace Sys2Proof

open Machine

/-! ### Words of fields side by side -/

/-- The low `k` bits of the word hold the number `v`, the others are 0. -/
structure Fits (k : Nat) (x : U32) (v : Nat) : Prop where
  toNat : x.toNat = v
  lt : v < 2 ^ k

theorem Fits.mono {k l : Nat} {x : U32} {v : Nat} (h : Fits k x v) (hl : k ≤ l) : Fits l x v :=
  ⟨h.toNat, h.lt.trans_le (Nat.pow_le_pow_right (by decide) hl)⟩

/-- A field above the `n` bits in use. -/
theorem Fits.or {n k : Nat} {x y : U32} {v u : Nat} (hx : Fits n x v) (hy : Fits k y u) (h : n + k ≤ 32) :
    Fits (n + k) (x ||| y <<< n) (v + 2 ^ n * u) := by
  have hsum : v + 2 ^ n * u < 2 ^ (n + k) :=
    calc v + 2 ^ n * u < 2 ^ n + 2 ^ n * u := Nat.add_lt_add_right hx.lt _
      _ = 2 ^ n * (u + 1) := by rw [Nat.mul_succ, Nat.add_comm]
      _ ≤ 2 ^ n * 2 ^ k := Nat.mul_le_mul_left _ hy.lt
      _ = 2 ^ (n + k) := (Nat.pow_add ..).symm
  have h32 : 2 ^ (n + k) ≤ 2 ^ 32 := Nat.pow_le_pow_right (by decide) h
  refine ⟨?_, hsum⟩
  rw [BitVec.toNat_or, BitVec.toNat_shiftLeft, Nat.shiftLeft_eq, hx.toNat, hy.toNat, Nat.mul_comm,
    Nat.mod_eq_of_lt (by omega), Nat.or_comm, ← Nat.two_pow_add_eq_or_of_lt hx.lt, Nat.add_comm]

theorem Fits.field {k : Nat} (v : BitVec k) (h : k ≤ 32) : Fits k (v.setWidth 32) v.toNat where
  toNat := BitVec.toNat_setWidth_of_le h
  lt := v.isLt

theorem Fits.bit (b : Bool) : Fits 1 (if b then 1#32 else 0#32) b.toNat := by
  cases b <;> exact ⟨rfl, by decide⟩

/-- The first field of a word, with nothing below it. -/
theorem Fits.shift {k : Nat} {y : U32} {u : Nat} (hy : Fits k y u) (n : Nat) (h : n + k ≤ 32) :
    Fits (n + k) (y <<< n) (2 ^ n * u) := by
  have h0 : Fits n 0#32 0 := ⟨rfl, Nat.two_pow_pos n⟩
  have hor := h0.or hy h
  rwa [BitVec.zero_or, Nat.zero_add] at hor

/-! ### The words -/

/-- CTRL as read (R21). -/
theorem ctrlWordRead_fits (s : State) : Fits 6 s.ctrlWordRead
    (2 ^ 4 * s.host.irqEn.toNat + 2 ^ 5 * s.host.writeEndMarker.toNat) :=
  ((Fits.bit _).shift 4 (by decide)).or (.bit _) (by decide)

/-- STATUS (R22). -/
theorem statusWord_fits (s : State) : Fits 11 s.statusWord
    (2 ^ 0 * s.busy.toNat + 2 ^ 1 * s.doneFlag.toNat + 2 ^ 2 * s.errorFlag.toNat +
      2 ^ 4 * s.host.errCode.toNat + 2 ^ 8 * s.host.earlyEnd.toNat + 2 ^ 9 * s.host.cmdIgnored.toNat +
      2 ^ 10 * s.host.outTruncated.toNat) :=
  have phase : Fits 4 (bitAt s.busy 0 ||| bitAt s.doneFlag 1 ||| bitAt s.errorFlag 2) _ :=
    ((((Fits.bit _).shift 0 (by decide)).or (.bit _) (by decide)).or (.bit _) (by decide)).mono (by decide)
  (((phase.or (.field s.host.errCode (by decide)) (by decide)).or (.bit _) (by decide)).or
    (.bit _) (by decide)).or (.bit _) (by decide)

/-- PROPS (R28); the bit above LP is not used. -/
theorem propsWord_fits (s : State) : Fits 19 s.propsWord
    (s.codec.propsByte.toNat + 2 ^ 8 * s.codec.lc.toNat + 2 ^ 12 * s.codec.lp.toNat +
      2 ^ 16 * s.codec.pb.toNat) :=
  have low : Fits 15 _ _ :=
    ((Fits.field s.codec.propsByte (by decide)).or (.field s.codec.lc (by decide)) (by decide)).or
      (.field s.codec.lp (by decide)) (by decide)
  (low.mono (by decide : 15 ≤ 16)).or (.field s.codec.pb (by decide)) (by decide)

/-- The two words of a 64-bit register (R27, R30). -/
theorem toNat_eq_words (v : U64) :
    (v.extractLsb' 0 32).toNat + 2 ^ 32 * (v.extractLsb' 32 32).toNat = v.toNat := by
  have hv := v.isLt
  rw [BitVec.extractLsb'_toNat, BitVec.extractLsb'_toNat, Nat.shiftRight_zero, Nat.shiftRight_eq_div_pow]
  omega

/-- MF_KIND (R31). -/
theorem readReg_mfKind (s : State) : s.readReg 13 = if s.encCfg.mfKind = .bt2 then 0#32 else 1#32 := by
  unfold State.readReg
  cases s.encCfg.mfKind <;> rfl

/-! ### STATUS by PHASE -/

/-- BUSY is PHASE ENC_RUN or DEC_RUN (R32). -/
theorem busy_iff (s : State) : s.busy = true ↔ s.phase = .encRun ∨ s.phase = .decRun := by
  unfold State.busy
  cases s.phase <;> decide

theorem irq_iff (s : State) :
    s.irq = true ↔ s.host.irqEn = true ∧ (s.phase = .done ∨ s.phase = .error) := by
  rw [State.irq, State.doneFlag, State.errorFlag, Bool.and_eq_true, Bool.or_eq_true, decide_eq_true_eq,
    decide_eq_true_eq]

/-- The number a flag adds to a word. -/
theorem mul_toNat_of_iff {b : Bool} {p : Prop} [Decidable p] (h : b = true ↔ p) (n : Nat) :
    n * b.toNat = if p then n else 0 := by
  cases b
  · rw [if_neg fun hp => Bool.false_ne_true (h.2 hp)]; rfl
  · rw [if_pos (h.1 rfl)]; exact Nat.mul_one n

/-! ### O5 -/

/-- Settles O5: CTRL, STATUS and PROPS are words of fields side by side, the others one field each. -/
theorem registersReadTheirFields : Obligations.RegistersReadTheirFields := by
  refine ⟨fun s => ⟨?_, irq_iff s⟩, fun s => ⟨(ctrlWordRead_fits s).toNat,
    (Fits.field _ (by decide)).toNat, rfl, rfl, ?_, toNat_eq_words _, (propsWord_fits s).toNat, rfl,
    toNat_eq_words _, (Fits.field _ (by decide)).toNat, ?_, ?_, rfl, fun n hn => ?_⟩⟩
  · have hdone : s.doneFlag = true ↔ s.phase = .done := decide_eq_true_iff
    have herror : s.errorFlag = true ↔ s.phase = .error := decide_eq_true_iff
    have hstatus := (statusWord_fits s).toNat
    rw [mul_toNat_of_iff (busy_iff s), mul_toNat_of_iff hdone, mul_toNat_of_iff herror] at hstatus
    exact hstatus
  · exact (BitVec.toNat_ofNat _ _).trans (Nat.mod_eq_of_lt (outCap_lt s))
  · rw [readReg_mfKind]
    cases s.encCfg.mfKind <;> decide
  · rw [readReg_mfKind]
    cases s.encCfg.mfKind <;> decide
  · obtain ⟨m, rfl⟩ := Nat.exists_eq_add_of_le' hn
    rfl

end Sys2Proof
end

section
/-! Operations that may raise an error: what such an operation keeps, whether it returns or raises, and
which errors it can raise (60_exceptions R311). -/

namespace Sys2Proof

open Machine

section

variable {α β : Type} {R : State → State → Prop} {E : ErrKind → State → Prop}

/-- `R` holds from the start of `m` to its end, and `m` raises only errors of `E`. -/
structure Runs (R : State → State → Prop) (E : ErrKind → State → Prop) (m : Eng α) : Prop where
  keeps : Keeps R m
  raises : ∀ {s t : State} {e : ErrKind}, m s = .error e t → E e t

theorem Runs.pure (hR : Composes R) (a : α) : Runs R E (Pure.pure a : Eng α) :=
  ⟨Keeps.pure hR a, nofun⟩

theorem Runs.modify {f : State → State} (h : ∀ s, R s (f s)) : Runs R E (modify f : Eng PUnit) :=
  ⟨Keeps.modify h, nofun⟩

theorem Runs.bind (hR : Composes R) {m : Eng α} {f : α → Eng β} (hm : Runs R E m)
    (hf : ∀ a, Runs R E (f a)) : Runs R E (m >>= f) where
  keeps := Keeps.bind hR hm.keeps fun a => (hf a).keeps
  raises {s t e} h := by
    rw [bind_run] at h
    cases hs : m s with
    | ok a u => rw [hs] at h; exact (hf a).raises h
    | error e' u => rw [hs] at h; cases h; exact hm.raises hs

theorem Runs.map (hR : Composes R) {m : Eng α} (hm : Runs R E m) (f : α → β) :
    Runs R E (m >>= fun a => Pure.pure (f a)) := hm.bind hR fun a => .pure hR (f a)

theorem Runs.get_bind {f : State → Eng β} (hf : ∀ s, Runs R E (f s)) :
    Runs R E (MonadState.get >>= f) :=
  ⟨Keeps.get_bind fun s => (hf s).keeps s, fun h => (hf _).raises h⟩

theorem Runs.ite {c : Prop} [Decidable c] {m n : Eng α} (hm : Runs R E m) (hn : Runs R E n) :
    Runs R E (if c then m else n) := by
  split
  · exact hm
  · exact hn

/-- An operation whose run from each state is a move of `R` and then the run of another. -/
theorem Runs.of_move (hR : Composes R) {m : Eng α}
    (h : ∀ s, ∃ (u : State) (n : Eng α), m s = n u ∧ R s u ∧ Runs R E n) : Runs R E m where
  keeps s := by
    obtain ⟨u, n, hm, hu, hn⟩ := h s
    rw [hm]
    exact hR.trans hu (hn.keeps u)
  raises {s _ _} he := by
    obtain ⟨u, n, hm, -, hn⟩ := h s
    exact hn.raises (hm ▸ he)

/-- What is kept from a start to an end may be stated in two parts. -/
theorem Runs.and {Q : State → State → Prop} {m : Eng α} (hQ : Keeps Q m) (hm : Runs R E m) :
    Runs (fun s t => Q s t ∧ R s t) E m :=
  ⟨fun s => ⟨hQ s, hm.keeps s⟩, hm.raises⟩

theorem Machine.Keeps.mono {Q : State → State → Prop} (hRQ : ∀ s t, R s t → Q s t) {m : Eng α}
    (hm : Keeps R m) : Keeps Q m := fun s => hRQ _ _ (hm s)

/-- What is kept whatever the state read is kept after reading it. -/
theorem Machine.Keeps.read {f : State → Eng β} (hf : ∀ s, Keeps R (f s)) :
    Keeps R (MonadState.get >>= f) := Keeps.get_bind fun s => hf s s

theorem Machine.Composes.and {Q : State → State → Prop} (hQ : Composes Q) (hR : Composes R) :
    Composes fun s t => Q s t ∧ R s t where
  refl s := ⟨hQ.refl s, hR.refl s⟩
  trans h k := ⟨hQ.trans h.1 k.1, hR.trans h.2 k.2⟩

end

theorem NoError.composes : Composes NoError := ⟨.refl, .trans⟩

/-- Where an instruction stands that runs `m`: past its end, or in the error entry (60_exceptions R320). -/
theorem Runs.complete_cases {R : State → State → Prop} {E : ErrKind → State → Prop} {m : Eng Ret}
    (hm : Runs R E m) {s t : State} (h : complete m s = .next t) :
    (∃ u r, R s u ∧ t = { u with ret := r }) ∨
      ∃ e u, R s u ∧ E e u ∧ t = { errorEntry e u with ret := .none } := by
  have hk := hm.keeps s
  cases hs : m s with
  | ok r u =>
    rw [hs] at hk
    rw [complete_ok hs] at h
    cases h
    exact .inl ⟨u, r, hk, rfl⟩
  | error e u =>
    rw [hs] at hk
    rw [complete_error hs] at h
    cases h
    exact .inr ⟨e, u, hk, hm.raises hs, rfl⟩

/-! ### The error of OutWrite (20_memory R64) -/

/-- `ResourceExhausted` with OUT full. -/
def OutFull (e : ErrKind) (t : State) : Prop := e = .resourceExhausted ∧ t.outCap ≤ t.host.outLen.toNat

theorem runs_outWrite {R : State → State → Prop} (hR : Composes R) (b : Byte)
    (hout : ∀ s, s.host.outLen.toNat < s.outCap → R s (s.appendOut b)) : Runs R OutFull (outWrite b) where
  keeps s := by
    rcases Nat.lt_or_ge s.host.outLen.toNat s.outCap with h | h
    · rw [outWrite_ok b h]; exact hout s h
    · rw [outWrite_full b h]; exact hR.refl s
  raises {s _ _} he := by
    rcases Nat.lt_or_ge s.host.outLen.toNat s.outCap with h | h
    · rw [outWrite_ok b h] at he; cases he
    · rw [outWrite_full b h] at he; cases he; exact ⟨rfl, h⟩

theorem Runs.endsOrOutFull {m : Eng Ret} (hm : Runs NoError OutFull m) {s t : State}
    (h : complete m s = .next t) : EndsOrOutFull s t := by
  rcases hm.complete_cases h with ⟨u, r, hu, rfl⟩ | ⟨e, u, -, ⟨rfl, hfull⟩, rfl⟩
  · exact .inl hu
  · exact .inr ⟨rfl, rfl, hfull⟩

end Sys2Proof
end

section
/-! The paths of the trees (41_bit_tree, 42_literal_coder, 43_length_coder): each tree encoder's loop is
ENC_BIT along a path listed node by node, and that list is the closed form the statements use. -/

namespace Sys2Proof

open Machine

/-! ### Nodes -/

/-- The node reached is twice the node left, plus the decision: the `|||` of R135 is a sum. -/
theorem childNode_eq_add (m : U32) (b : Bool) : childNode m b = (m <<< 1) + bitWord b :=
  (BitVec.add_eq_or_of_and_eq_zero _ _ (by ext i; cases b <;> cases i <;> simp [bitWord])).symm

theorem childNode_toNat (m : U32) (b : Bool) :
    (childNode m b).toNat = (2 * m.toNat + b.toNat) % 2 ^ 32 := by
  have hbit : (bitWord b).toNat = b.toNat := by cases b <;> rfl
  rw [childNode_eq_add, BitVec.toNat_add, BitVec.toNat_shiftLeft, Nat.shiftLeft_eq, hbit]
  omega

theorem childNode_ofNat (x : Nat) (b : Bool) :
    childNode (BitVec.ofNat 32 x) b = BitVec.ofNat 32 (2 * x + b.toNat) := by
  apply BitVec.eq_of_toNat_eq
  rw [childNode_toNat, BitVec.toNat_ofNat, BitVec.toNat_ofNat]
  omega

/-- Half of a number and its low bit. -/
theorem two_mul_div_add_testBit (x k : Nat) :
    2 * (x / 2 ^ (k + 1)) + (x.testBit k).toNat = x / 2 ^ k := by
  rw [Nat.pow_succ, ← Nat.div_div_eq_div_mul, Nat.testBit_eq_decide_div_mod_eq]
  rcases Nat.mod_two_eq_zero_or_one (x / 2 ^ k) with h | h
  · simp only [h, zero_ne_one, decide_false, Bool.toNat_false]; omega
  · simp only [h, decide_true, Bool.toNat_true]; omega

/-! ### Forward trees (R135) -/

/-- The cells and decisions of `n` levels from node `m`. -/
def treeSteps (t : CellRef) (sym : U32) : Nat → U32 → List (CellRef × Bool)
  | 0, _ => []
  | n + 1, m => (treeCell t m, sym.getLsbD n) :: treeSteps t sym n (childNode m (sym.getLsbD n))

theorem btEncFrom_eq_encBits (t : CellRef) (sym : U32) :
    ∀ n m, btEncFrom t sym n m = encBits (treeSteps t sym n m)
  | 0, _ => rfl
  | n + 1, m => by rw [btEncFrom, treeSteps, encBits, btEncFrom_eq_encBits t sym n]

/-- The node of level `k` of `n` on the way to `sym`. -/
def pathNode (n sym k : Nat) : Nat := 2 ^ k + sym / 2 ^ (n - k)

theorem pathNode_zero {n sym : Nat} (h : sym < 2 ^ n) : BitVec.ofNat 32 (pathNode n sym 0) = 1#32 := by
  rw [pathNode, Nat.sub_zero, Nat.div_eq_of_lt h]
  rfl

theorem childNode_pathNode {n sym k j : Nat} (hn : k + j + 1 = n) :
    childNode (BitVec.ofNat 32 (pathNode n sym k)) (sym.testBit j) =
      BitVec.ofNat 32 (pathNode n sym (k + 1)) := by
  have h := two_mul_div_add_testBit sym j
  rw [childNode_ofNat, pathNode, pathNode, show n - k = j + 1 by omega, show n - (k + 1) = j by omega,
    Nat.pow_succ 2 k]
  congr 1
  omega

theorem treeSteps_eq {t : CellRef} {sym : U32} {N : Nat} : ∀ {n k : Nat}, k + n = N →
    treeSteps t sym n (BitVec.ofNat 32 (pathNode N sym.toNat k)) =
      (List.range' k n).map fun k =>
        (treeCell t (BitVec.ofNat 32 (pathNode N sym.toNat k)), sym.toNat.testBit (N - 1 - k))
  | 0, _, _ => rfl
  | n + 1, k, h => by
    rw [treeSteps, ← BitVec.testBit_toNat, childNode_pathNode (j := n) (by omega),
      treeSteps_eq (by omega), List.range'_succ, List.map_cons, show N - 1 - k = n by omega]

theorem treePath_eq_treeSteps {t : CellRef} {n : Nat} {sym : U32} (h : sym.toNat < 2 ^ n) :
    treePath t n sym.toNat = treeSteps t sym n 1#32 := by
  rw [← pathNode_zero h, treeSteps_eq (Nat.zero_add n), treePath, List.range_eq_range']
  rfl

theorem btEnc_eq_encBits {t : CellRef} {n : Nat} {sym : U32} (h : sym.toNat < 2 ^ n) :
    btEnc t n sym = encBits (treePath t n sym.toNat) := by
  rw [treePath_eq_treeSteps h]
  exact btEncFrom_eq_encBits t sym n _

/-! ### Reverse trees (R138) -/

/-- The cells and decisions of `n` levels from node `m`, lowest bit first. -/
def reverseSteps (t : CellRef) : Nat → U32 → U32 → List (CellRef × Bool)
  | 0, _, _ => []
  | n + 1, sym, m =>
    (treeCell t m, sym.getLsbD 0) :: reverseSteps t n (sym >>> 1) (childNode m (sym.getLsbD 0))

theorem btRencFrom_eq_encBits (t : CellRef) :
    ∀ n sym m, btRencFrom t n sym m = encBits (reverseSteps t n sym m)
  | 0, _, _ => rfl
  | n + 1, sym, m => by rw [btRencFrom, reverseSteps, encBits, btRencFrom_eq_encBits t n]

theorem childNode_reverseBits (sym k : Nat) :
    childNode (BitVec.ofNat 32 (2 ^ k + reverseBits k sym)) (sym.testBit k) =
      BitVec.ofNat 32 (2 ^ (k + 1) + reverseBits (k + 1) sym) := by
  have hbit : (sym.testBit k).toNat = sym / 2 ^ k % 2 := Nat.toNat_testBit sym k
  rw [childNode_ofNat, reverseBits, hbit, Nat.pow_succ]
  congr 1
  omega

theorem reverseSteps_eq {t : CellRef} {sym : U32} : ∀ n k : Nat,
    reverseSteps t n (sym >>> k) (BitVec.ofNat 32 (2 ^ k + reverseBits k sym.toNat)) =
      (List.range' k n).map fun k =>
        (treeCell t (BitVec.ofNat 32 (2 ^ k + reverseBits k sym.toNat)), sym.toNat.testBit k)
  | 0, _ => rfl
  | n + 1, k => by
    have hbit : (sym >>> k).getLsbD 0 = sym.toNat.testBit k := by
      rw [BitVec.getLsbD_ushiftRight, Nat.add_zero, BitVec.testBit_toNat]
    rw [reverseSteps, hbit, childNode_reverseBits, ← BitVec.shiftRight_add, reverseSteps_eq n (k + 1),
      List.range'_succ, List.map_cons]

theorem reversePath_eq_reverseSteps (t : CellRef) (n : Nat) (sym : U32) :
    reversePath t n sym.toNat = reverseSteps t n sym 1#32 := by
  have h := reverseSteps_eq (t := t) (sym := sym) n 0
  rw [← List.range_eq_range'] at h
  exact h.symm

theorem btRenc_eq_encBits (t : CellRef) (n : Nat) (sym : U32) :
    btRenc t n sym = encBits (reversePath t n sym.toNat) := by
  rw [reversePath_eq_reverseSteps]
  exact btRencFrom_eq_encBits t n sym _

/-! ### Literals (R152, R153) -/

/-- The cells of a literal block as those of a tree: `L[m]` is its node `m` (R151). -/
def blockTree (c : U32) : CellRef := ⟨.literal, c * 768#32⟩

theorem blockTree_cell (c : U16) (m : Nat) :
    treeCell (blockTree (c.setWidth 32)) (BitVec.ofNat 32 m) = cellOf .literal (768 * c.toNat + m) := by
  have hidx : c.setWidth 32 * 768#32 + BitVec.ofNat 32 m = BitVec.ofNat 32 (768 * c.toNat + m) := by
    apply BitVec.eq_of_toNat_eq
    simp only [BitVec.toNat_add, BitVec.toNat_mul, BitVec.toNat_ofNat, BitVec.toNat_setWidth]
    omega
  exact congrArg (CellRef.mk .literal) hidx

theorem toNat_symbol (sym : Byte) : (sym.setWidth 32).toNat = sym.toNat :=
  BitVec.toNat_setWidth_of_le (by decide)

theorem getLsbD_symbol (sym : Byte) (n : Nat) : (sym.setWidth 32).getLsbD n = sym.getLsbD n := by
  rw [← BitVec.testBit_toNat, toNat_symbol, BitVec.testBit_toNat]

theorem litEncFrom_eq_encBits (c : U32) (sym : Byte) :
    ∀ n m, litEncFrom c sym n m = encBits (treeSteps (blockTree c) (sym.setWidth 32) n m)
  | 0, _ => rfl
  | n + 1, m => by
    rw [litEncFrom, treeSteps, encBits, litEncFrom_eq_encBits c sym n, getLsbD_symbol]
    rfl

theorem literalPath_eq_treeSteps (c : U16) (sym : Byte) :
    literalPath c.toNat sym = treeSteps (blockTree (c.setWidth 32)) (sym.setWidth 32) 8 1#32 := by
  have hbase : blockTree (c.setWidth 32) = ⟨.literal, BitVec.ofNat 32 (768 * c.toNat)⟩ := by
    have h := blockTree_cell c 0
    rwa [treeCell, BitVec.add_zero] at h
  rw [← treePath_eq_treeSteps (by rw [toNat_symbol]; exact sym.isLt), toNat_symbol, hbase]
  rfl

theorem litEnc_eq_encBits (c : U16) (sym : Byte) :
    litEnc (c.setWidth 32) sym = encBits (literalPath c.toNat sym) := by
  rw [literalPath_eq_treeSteps]
  exact litEncFrom_eq_encBits _ sym 8 _

/-- The cells and decisions of `n` levels from node `m` in matched mode: past the first difference they
are those of the normal mode. -/
def matchedSteps (c : U32) (matchByte sym : Byte) : Nat → U32 → List (CellRef × Bool)
  | 0, _ => []
  | n + 1, m =>
    (matchedCell c m (matchByte.getLsbD n), sym.getLsbD n) ::
      if matchByte.getLsbD n = sym.getLsbD n then
        matchedSteps c matchByte sym n (childNode m (sym.getLsbD n))
      else treeSteps (blockTree c) (sym.setWidth 32) n (childNode m (sym.getLsbD n))

theorem litEncMatchedFrom_eq_encBits (c : U32) (matchByte sym : Byte) :
    ∀ n m, litEncMatchedFrom c matchByte sym n m = encBits (matchedSteps c matchByte sym n m)
  | 0, _ => rfl
  | n + 1, m => by
    rw [litEncMatchedFrom, matchedSteps, encBits, litEncMatchedFrom_eq_encBits c matchByte sym n,
      litEncFrom_eq_encBits, apply_ite encBits]

theorem matchedCell_eq (c : U32) (m : Nat) (b : Bool) :
    matchedCell c (BitVec.ofNat 32 m) b =
      treeCell (blockTree c) (BitVec.ofNat 32 (256 * (1 + b.toNat) + m)) := by
  rw [BitVec.ofNat_add]
  cases b <;> rfl

/-- `sym` and `matchByte` have the same bits down to level `k`. -/
def Agree (matchByte sym : Byte) (k : Nat) : Prop :=
  sym.toNat / 2 ^ (8 - k) = matchByte.toNat / 2 ^ (8 - k)

theorem Agree.zero (matchByte sym : Byte) : Agree matchByte sym 0 := by
  rw [Agree, Nat.div_eq_of_lt sym.isLt, Nat.div_eq_of_lt matchByte.isLt]

/-- One level further down they agree if the next bits do as well. -/
theorem Agree.succ_iff {matchByte sym : Byte} {k n : Nat} (h : k + n + 1 = 8) :
    Agree matchByte sym (k + 1) ↔
      Agree matchByte sym k ∧ matchByte.getLsbD n = sym.getLsbD n := by
  rw [Agree, Agree, show 8 - (k + 1) = n by omega, show 8 - k = n + 1 by omega,
    ← BitVec.testBit_toNat, ← BitVec.testBit_toNat]
  constructor
  · intro h'
    rw [Nat.testBit_eq_decide_div_mod_eq, Nat.testBit_eq_decide_div_mod_eq, Nat.pow_succ,
      ← Nat.div_div_eq_div_mul, ← Nat.div_div_eq_div_mul, h']
    exact ⟨rfl, rfl⟩
  · rintro ⟨h', hb⟩
    rw [← two_mul_div_add_testBit sym.toNat n, ← two_mul_div_add_testBit matchByte.toNat n, h', hb]

theorem Agree.of_le {matchByte sym : Byte} {k j : Nat} (hkj : k ≤ j) (hj : j ≤ 8)
    (h : Agree matchByte sym j) : Agree matchByte sym k := by
  induction hkj with
  | refl => exact h
  | @step i _ ih =>
    exact ih (by omega) ((succ_iff (n := 7 - i) (by omega)).1 h).1

/-- The decision of level `k` of a matched literal in `matchedPath`. -/
def matchedLevel (c : Nat) (matchByte sym : Byte) (k : Nat) : CellRef × Bool :=
  let node := pathNode 8 sym.toNat k
  let same := decide (sym.toNat / 2 ^ (8 - k) = matchByte.toNat / 2 ^ (8 - k))
  let offset := if same then 256 * (1 + (matchByte.toNat / 2 ^ (7 - k)) % 2) else 0
  (cellOf .literal (768 * c + offset + node), sym.toNat.testBit (7 - k))

theorem matchedPath_eq_levels (c : Nat) (matchByte sym : Byte) :
    matchedPath c matchByte sym = (List.range 8).map (matchedLevel c matchByte sym) := rfl

/-- Where the bits have differed, a level is that of the normal mode. -/
theorem matchedLevel_of_differ {c : U16} {matchByte sym : Byte} {k : Nat}
    (h : ¬ Agree matchByte sym k) :
    matchedLevel c.toNat matchByte sym k =
      (treeCell (blockTree (c.setWidth 32)) (BitVec.ofNat 32 (pathNode 8 sym.toNat k)),
        sym.toNat.testBit (8 - 1 - k)) := by
  rw [blockTree_cell, matchedLevel, if_neg (by rwa [decide_eq_true_iff])]
  rfl

/-- Where they have not, it is that of the cells chosen by the next bit of `matchByte`. -/
theorem matchedLevel_of_agree {c : U16} {matchByte sym : Byte} {k n : Nat} (hk : k + n + 1 = 8)
    (h : Agree matchByte sym k) :
    matchedLevel c.toNat matchByte sym k =
      (matchedCell (c.setWidth 32) (BitVec.ofNat 32 (pathNode 8 sym.toNat k)) (matchByte.getLsbD n),
        sym.getLsbD n) := by
  have hbit : matchByte.toNat / 2 ^ n % 2 = (matchByte.getLsbD n).toNat := by
    rw [← BitVec.testBit_toNat, Nat.toNat_testBit]
  rw [matchedCell_eq, blockTree_cell, ← Nat.add_assoc, matchedLevel, if_pos (by rwa [decide_eq_true_iff]),
    show 7 - k = n by omega, hbit, BitVec.testBit_toNat]

theorem treeSteps_eq_levels {c : U16} {matchByte sym : Byte} {n k : Nat} (hk : k + n = 8)
    (h : ¬ Agree matchByte sym k) :
    treeSteps (blockTree (c.setWidth 32)) (sym.setWidth 32) n (BitVec.ofNat 32 (pathNode 8 sym.toNat k)) =
      (List.range' k n).map (matchedLevel c.toNat matchByte sym) := by
  have hs := treeSteps_eq (t := blockTree (c.setWidth 32)) (sym := sym.setWidth 32) hk
  rw [toNat_symbol] at hs
  rw [hs]
  refine List.map_congr_left fun j hj => (matchedLevel_of_differ fun ha => h ?_).symm
  obtain ⟨h1, h2⟩ := List.mem_range'_1.1 hj
  exact ha.of_le h1 (by omega)

theorem matchedSteps_eq_levels {c : U16} {matchByte sym : Byte} : ∀ {n k : Nat}, k + n = 8 →
    Agree matchByte sym k →
    matchedSteps (c.setWidth 32) matchByte sym n (BitVec.ofNat 32 (pathNode 8 sym.toNat k)) =
      (List.range' k n).map (matchedLevel c.toNat matchByte sym)
  | 0, _, _, _ => rfl
  | n + 1, k, hk, ha => by
    have hchild := childNode_pathNode (sym := sym.toNat) (show k + n + 1 = 8 by omega)
    have hnext := Agree.succ_iff (matchByte := matchByte) (sym := sym) (show k + n + 1 = 8 by omega)
    rw [BitVec.testBit_toNat] at hchild
    rw [List.range'_succ, List.map_cons, matchedLevel_of_agree (by omega) ha, matchedSteps, hchild]
    congr 1
    split
    · next hb => exact matchedSteps_eq_levels (by omega) (hnext.2 ⟨ha, hb⟩)
    · next hb => exact treeSteps_eq_levels (by omega) fun h' => hb (hnext.1 h').2

theorem litEncMatched_eq_encBits (c : U16) (matchByte sym : Byte) :
    litEncMatched (c.setWidth 32) matchByte sym = encBits (matchedPath c.toNat matchByte sym) := by
  rw [matchedPath_eq_levels, List.range_eq_range', ← matchedSteps_eq_levels rfl (.zero matchByte sym),
    pathNode_zero sym.isLt]
  exact litEncMatchedFrom_eq_encBits _ matchByte sym 8 _

/-! ### Lengths (R165) -/

theorem lenEnc_eq_encBits (c : LenSel) {k : U16} (hk : k.toNat ≤ 271) (ps : Byte) :
    lenEnc c (k.setWidth 32) (ps.setWidth 32) = encBits (lengthPath c ps.toNat k.toNat) := by
  have hw : (k.setWidth 32).toNat = k.toNat := BitVec.toNat_setWidth_of_le (by decide)
  have hrow : (ps.setWidth 32 : U32) <<< 3 = BitVec.ofNat 32 (8 * ps.toNat) := by
    apply BitVec.eq_of_toNat_eq
    rw [BitVec.toNat_shiftLeft, toNat_symbol, Nat.shiftLeft_eq, BitVec.toNat_ofNat, Nat.mul_comm]
  have hlt : ∀ x : U32, k.setWidth 32 < x ↔ k.toNat < x.toNat := fun x => by rw [BitVec.lt_def, hw]
  have hsub : ∀ x : U32, x.toNat ≤ k.toNat → (k.setWidth 32 - x).toNat = k.toNat - x.toNat :=
    fun x hx => by rw [BitVec.toNat_sub_of_le (by rw [BitVec.le_def, hw]; exact hx), hw]
  unfold lenEnc lengthPath
  by_cases h8 : k.toNat < 8
  · rw [if_pos ((hlt 8#32).2 h8), if_pos h8, btEnc_eq_encBits (by omega), hw, lowTree, hrow]
    rfl
  by_cases h16 : k.toNat < 16
  · have h : (k.setWidth 32 - 8#32).toNat = k.toNat - 8 := hsub 8#32 (Nat.le_of_not_lt h8)
    rw [if_neg (mt (hlt 8#32).1 h8), if_neg h8, if_pos ((hlt 16#32).2 h16), if_pos h16,
      btEnc_eq_encBits (by omega), h, midTree, hrow]
    rfl
  · have h : (k.setWidth 32 - 16#32).toNat = k.toNat - 16 := hsub 16#32 (Nat.le_of_not_lt h16)
    rw [if_neg (mt (hlt 8#32).1 h8), if_neg h8, if_neg (mt (hlt 16#32).1 h16), if_neg h16,
      btEnc_eq_encBits (by omega), h]
    rfl

end Sys2Proof
end

section
/-! The frames of the range encoder's operations (40_range_coder, 41_bit_tree, 42_literal_coder,
43_length_coder): what they keep, and that OUT is full where they raise an error. -/

namespace Sys2Proof

open Machine

/-! ### The error of the range encoder -/

theorem runs_emitPending (carry : Byte) : ∀ n temp, Runs NoError OutFull (emitPending carry n temp)
  | 0, _ => .pure NoError.composes _
  | n + 1, _ => (runs_outWrite NoError.composes _ fun _ _ => ⟨rfl, rfl⟩).bind NoError.composes fun _ =>
      Runs.bind NoError.composes (.modify fun _ => ⟨rfl, rfl⟩) fun _ => runs_emitPending carry n _

theorem runs_emitSettled : Runs NoError OutFull emitSettled :=
  .get_bind fun _ => (runs_emitPending _ _ _).bind NoError.composes fun _ => .modify fun _ => ⟨rfl, rfl⟩

theorem runs_shiftLow : Runs NoError OutFull shiftLow :=
  Runs.bind NoError.composes (.get_bind fun _ => .ite runs_emitSettled (.pure NoError.composes _))
    fun _ => .modify fun _ => ⟨rfl, rfl⟩

theorem runs_encNormalise : Runs NoError OutFull encNormalise :=
  .get_bind fun _ => .ite
    (Runs.bind NoError.composes (.modify fun _ => ⟨rfl, rfl⟩) fun _ => runs_shiftLow)
    (.pure NoError.composes _)

theorem runs_encBit (c : CellRef) (b : Bool) : Runs NoError OutFull (encBit c b) :=
  Runs.bind NoError.composes (.modify fun _ => ⟨rfl, rfl⟩) fun _ => runs_encNormalise

theorem runs_encBits : ∀ ds, Runs NoError OutFull (encBits ds)
  | [] => .pure NoError.composes _
  | _ :: ds => (runs_encBit _ _).bind NoError.composes fun _ => runs_encBits ds

theorem runs_encDirect (value : U32) : ∀ n, Runs NoError OutFull (encDirect value n)
  | 0 => .pure NoError.composes _
  | n + 1 =>
    have hbit : Runs NoError OutFull (encDirectBit (value.getLsbD n)) :=
      Runs.bind NoError.composes (.modify fun _ => ⟨rfl, rfl⟩) fun _ => runs_encNormalise
    hbit.bind NoError.composes fun _ => runs_encDirect value n

theorem runs_shiftLowTimes : ∀ n, Runs NoError OutFull (shiftLowTimes n)
  | 0 => .pure NoError.composes _
  | n + 1 => runs_shiftLow.bind NoError.composes fun _ => runs_shiftLowTimes n

/-! ### What the operations without a cell keep -/

section

variable {P : CellRef → Prop}

theorem keeps_encDirectBit (b : Bool) : Keeps (EncKeep P) (encDirectBit b) :=
  Keeps.bind (EncKeep.composes P) (Keeps.modify fun s => .of_enc s _) fun _ => keeps_encNormalise

theorem keeps_encDirect (value : U32) : ∀ n, Keeps (EncKeep P) (encDirect value n)
  | 0 => Keeps.pure (EncKeep.composes P) ()
  | n + 1 => Keeps.bind (EncKeep.composes P) (keeps_encDirectBit _) fun _ => keeps_encDirect value n

theorem keeps_shiftLowTimes : ∀ n, Keeps (EncKeep P) (shiftLowTimes n)
  | 0 => Keeps.pure (EncKeep.composes P) ()
  | n + 1 => Keeps.bind (EncKeep.composes P) keeps_shiftLow fun _ => keeps_shiftLowTimes n

end

/-! ### O56 -/

section

variable {P : CellRef → Prop} {s t : State}

/-- The frame of an instruction that runs `m`. -/
theorem encFrame_of_keeps {m : Eng Unit} (hout : Memory.wf s.outMem = true)
    (hprobs : Store.wf probInit s.probs = true) (hk : Keeps (EncKeep P) m)
    (hm : Runs NoError OutFull m)
    (h : completeUnit m s = .next t) : EncFrame P s t ∧ EndsOrOutFull s t := by
  have hk' := Keeps.bind (EncKeep.composes P) hk fun _ => Keeps.pure (EncKeep.composes P) Ret.none
  obtain ⟨-, -, hframe⟩ := hk'.complete (EncKeep.composes P) .of_ret .of_error h hout hprobs
  exact ⟨hframe, (hm.map NoError.composes fun _ => Ret.none).endsOrOutFull h⟩

/-- An instruction that codes a path may write the cells of the path. -/
theorem encFrame_of_path {m : Eng Unit} {ds : List (CellRef × Bool)} (hout : Memory.wf s.outMem = true)
    (hprobs : Store.wf probInit s.probs = true) (hm : m = encBits ds)
    (h : completeUnit m s = .next t) : EncFrame (· ∈ ds.map Prod.fst) s t ∧ EndsOrOutFull s t :=
  encFrame_of_keeps hout hprobs (hm ▸ keeps_encBits ds) (hm ▸ runs_encBits ds) h

end

/-- The symbol of a tree instruction in range has no more bits than the tree has levels. -/
theorem treeOperandsWf_iff (t : CellRef) (n sym : Byte) : treeOperandsWf t n sym = true ↔
    (1 ≤ n.toNat ∧ n.toNat ≤ 8 ∧ sym.toNat < 2 ^ n.toNat) ∧ t.treeWf n.toNat = true := by
  rw [treeOperandsWf, Bool.and_eq_true, decide_eq_true_iff]

/-- Settles O56: each operation is a path of ENC_BITs or has no cell, and raises only where OutWrite does. -/
theorem rangeEncoderFrames : Obligations.RangeEncoderFrames := by
  intro s t hout hprobs
  refine ⟨fun c b => ?_, fun v n => ?_, ?_, ?_, fun a n sym hwf => ?_, fun a n sym hwf => ?_,
    fun c sym => ?_, fun c m sym => ?_, fun c k ps hwf => ?_⟩
  · exact encFrame_of_keeps hout hprobs
      ((keeps_encBit c b).mono fun _ _ => .mono fun _ => List.mem_singleton.2) (runs_encBit c b)
  · exact encFrame_of_keeps hout hprobs (keeps_encDirect v _) (runs_encDirect v _)
  · exact encFrame_of_keeps hout hprobs keeps_shiftLow runs_shiftLow
  · exact encFrame_of_keeps hout hprobs (keeps_shiftLowTimes 5) (runs_shiftLowTimes 5)
  · obtain ⟨⟨-, -, hsym⟩, -⟩ := (treeOperandsWf_iff a n sym).1 hwf
    rw [← toNat_symbol] at hsym ⊢
    exact encFrame_of_path hout hprobs (btEnc_eq_encBits hsym)
  · rw [← toNat_symbol]
    exact encFrame_of_path hout hprobs (btRenc_eq_encBits a n.toNat (sym.setWidth 32))
  · exact encFrame_of_path hout hprobs (litEnc_eq_encBits c sym)
  · exact encFrame_of_path hout hprobs (litEncMatched_eq_encBits c m sym)
  · obtain ⟨hk, -⟩ := of_decide_eq_true hwf
    exact encFrame_of_path hout hprobs (lenEnc_eq_encBits c hk ps)

end Sys2Proof
end

section
/-! The frames of the range decoder's operations (40_range_coder, 41_bit_tree, 42_literal_coder,
43_length_coder, 46_codec R278): what they keep, and that no byte of IN is left where they raise an
error. -/

namespace Sys2Proof

open Machine

/-! ### What a step of the range decoder does, whatever cell it writes -/

/-- The error of ReadByte (20_memory R66). -/
def InputEnded (e : ErrKind) (t : State) : Prop := e = .truncatedInput ∧ t.host.inLen ≤ t.host.inPos

/-- Only the cells, the range decoder and IN_POS change, and IN_POS does not pass IN_LEN. -/
structure DecMoves (s t : State) : Prop where
  frame : DecFrame (fun _ => True) s t
  noError : NoError s t
  cursor : s.host.inPos ≤ s.host.inLen → t.host.inPos ≤ t.host.inLen

theorem DecMoves.composes : Composes DecMoves where
  refl s := ⟨.refl _ s, .refl s, id⟩
  trans h k := ⟨h.frame.trans k.frame, h.noError.trans k.noError, k.cursor ∘ h.cursor⟩

theorem DecMoves.of_move (s : State) (p : Store U16) (d : RangeDec) {v : U32}
    (hv : s.host.inPos ≤ s.host.inLen → v ≤ s.host.inLen) :
    DecMoves s { s with probs := p, dec := d, host := { s.host with inPos := v } } where
  frame := ⟨⟨rfl, rfl, rfl, rfl, rfl, .inl ⟨rfl, rfl⟩⟩, rfl, rfl, ⟨rfl, rfl, rfl⟩,
    fun _ hc => absurd trivial hc, rfl, rfl, rfl, rfl, rfl, rfl, rfl⟩
  noError := ⟨rfl, rfl⟩
  cursor := hv

theorem moves_readByte : Runs DecMoves InputEnded readByte where
  keeps s := by
    by_cases h : s.host.inPos < s.host.inLen
    · rw [readByte_ok h]; exact .of_move s s.probs s.dec fun _ => by bv_omega
    · rw [readByte_end h]; exact DecMoves.composes.refl s
  raises {s _ _} he := by
    by_cases h : s.host.inPos < s.host.inLen
    · rw [readByte_ok h] at he; cases he
    · rw [readByte_end h] at he; cases he; exact ⟨rfl, BitVec.not_lt.1 h⟩

theorem moves_decShiftIn : Runs DecMoves InputEnded decShiftIn :=
  moves_readByte.bind DecMoves.composes fun _ => .modify fun s => .of_move s s.probs _ id

theorem moves_decNormalise : Runs DecMoves InputEnded decNormalise :=
  .get_bind fun _ => .ite
    (moves_decShiftIn.bind DecMoves.composes fun _ => .modify fun s => .of_move s s.probs _ id)
    (.pure DecMoves.composes _)

theorem moves_decBit (c : CellRef) : Runs DecMoves InputEnded (decBit c) :=
  .of_move DecMoves.composes fun s =>
    ⟨_, _, decBit_run c s, .of_move s _ _ id, moves_decNormalise.map DecMoves.composes _⟩

/-! ### The steps, with the cells they may write -/

/-- A step of the range decoder that may write the cells of `P`. -/
def DecStep (P : CellRef → Prop) (s t : State) : Prop := DecKeep P s t ∧ DecMoves s t

section

variable {P : CellRef → Prop}

theorem DecStep.composes : Composes (DecStep P) := (DecKeep.composes P).and DecMoves.composes

theorem DecStep.of_dec (s : State) (d : RangeDec) : DecStep P s { s with dec := d } :=
  ⟨.of_dec s d, .of_move s s.probs d id⟩

theorem runs_decBit {c : CellRef} (hc : P c) : Runs (DecStep P) InputEnded (decBit c) :=
  .and ((keeps_decBit c).mono fun _ _ => .mono fun _ h => h ▸ hc) (moves_decBit c)

/-- DEC_DIRECT halves the range, may take it from `code`, and renormalises (R122). -/
theorem decDirectBit_run (s : State) : ∃ d b,
    decDirectBit s = (decNormalise >>= fun _ => pure b) { s with dec := d } := ⟨_, _, rfl⟩

theorem runs_decDirectBit : Runs (DecStep P) InputEnded decDirectBit :=
  .of_move DecStep.composes fun s =>
    have ⟨d, _, h⟩ := decDirectBit_run s
    ⟨_, _, h, .of_dec s d, (Runs.and keeps_decNormalise moves_decNormalise).map DecStep.composes _⟩

theorem runs_decDirect : ∀ n r, Runs (DecStep P) InputEnded (decDirect n r)
  | 0, _ => .pure DecStep.composes _
  | n + 1, _ => runs_decDirectBit.bind DecStep.composes fun _ => runs_decDirect n _

theorem runs_decShiftInTimes : ∀ n, Runs (DecStep P) InputEnded (decShiftInTimes n)
  | 0 => .pure DecStep.composes _
  | n + 1 => (Runs.and keeps_decShiftIn moves_decShiftIn).bind DecStep.composes fun _ =>
      runs_decShiftInTimes n

theorem runs_decInit : Runs (DecStep P) InputEnded decInit :=
  Runs.bind DecStep.composes (.modify fun s => .of_dec s _) fun _ => runs_decShiftInTimes 5

end

/-! ### Trees (R136, R139) -/

/-- The cells of a tree of `n` levels. -/
def TreeCell (t : CellRef) (n : Nat) (c : CellRef) : Prop :=
  ∃ m, 1 ≤ m ∧ m < 2 ^ n ∧ c = treeCell t (BitVec.ofNat 32 m)

theorem TreeCell.arr {t c : CellRef} {n : Nat} (h : TreeCell t n c) : c.arr = t.arr := by
  obtain ⟨m, -, -, rfl⟩ := h
  rfl

/-- A node of a tree of `N` levels with `n` levels still to come. -/
structure TreeNode (N n : Nat) (m : U32) : Prop where
  pos : 1 ≤ m.toNat
  room : (m.toNat + 1) * 2 ^ n ≤ 2 ^ (N + 1)

theorem TreeNode.root (N : Nat) : TreeNode N N 1#32 :=
  ⟨by decide, by rw [Nat.pow_succ, Nat.mul_comm]; rfl⟩

section

variable {N n : Nat} {m : U32}

theorem TreeNode.two_mul_le (h : TreeNode N (n + 1) m) : 2 * (m.toNat + 1) ≤ 2 ^ (N + 1) := by
  have h2 : 2 ≤ 2 ^ (n + 1) := Nat.le_self_pow (Nat.succ_ne_zero n) 2
  calc 2 * (m.toNat + 1) = (m.toNat + 1) * 2 := Nat.mul_comm ..
    _ ≤ (m.toNat + 1) * 2 ^ (n + 1) := Nat.mul_le_mul_left _ h2
    _ ≤ 2 ^ (N + 1) := h.room

theorem TreeNode.cell (h : TreeNode N (n + 1) m) (t : CellRef) : TreeCell t N (treeCell t m) :=
  ⟨m.toNat, h.pos, by have := h.two_mul_le; rw [Nat.pow_succ] at this; omega,
    by rw [BitVec.ofNat_toNat, BitVec.setWidth_eq]⟩

theorem TreeNode.child (h : TreeNode N (n + 1) m) (hN : N ≤ 31) (b : Bool) :
    TreeNode N n (childNode m b) := by
  have hb := b.toNat_le
  have hpos := h.pos
  have htop : 2 ^ (N + 1) ≤ 2 ^ 32 := Nat.pow_le_pow_right (by decide) (by omega)
  have hnode : (childNode m b).toNat = 2 * m.toNat + b.toNat := by
    rw [childNode_toNat, Nat.mod_eq_of_lt (by have := h.two_mul_le; omega)]
  refine ⟨by omega, ?_⟩
  calc ((childNode m b).toNat + 1) * 2 ^ n ≤ 2 * (m.toNat + 1) * 2 ^ n :=
        Nat.mul_le_mul_right _ (by omega)
    _ = (m.toNat + 1) * 2 ^ (n + 1) := by rw [Nat.pow_succ, Nat.mul_comm 2, Nat.mul_assoc, Nat.mul_comm 2]
    _ ≤ 2 ^ (N + 1) := h.room

end

section

variable {P : CellRef → Prop} {t : CellRef} {N : Nat}

theorem runs_btDecFrom (hN : N ≤ 31) (hP : ∀ c, TreeCell t N c → P c) : ∀ {n : Nat} {m : U32},
    TreeNode N n m → Runs (DecStep P) InputEnded (btDecFrom t n m)
  | 0, _, _ => .pure DecStep.composes _
  | _ + 1, m, h => (runs_decBit (hP _ (h.cell t))).bind DecStep.composes fun b => by
      rw [← childNode_eq_add]
      exact runs_btDecFrom hN hP (h.child hN b)

theorem runs_btDec (hN : N ≤ 31) (hP : ∀ c, TreeCell t N c → P c) :
    Runs (DecStep P) InputEnded (btDec t N) :=
  (runs_btDecFrom hN hP (.root N)).map DecStep.composes _

theorem runs_btRdecFrom (hN : N ≤ 31) (hP : ∀ c, TreeCell t N c → P c) : ∀ {n i : Nat} {m sym : U32},
    TreeNode N n m → Runs (DecStep P) InputEnded (btRdecFrom t n i m sym)
  | 0, _, _, _, _ => .pure DecStep.composes _
  | _ + 1, _, m, _, h => (runs_decBit (hP _ (h.cell t))).bind DecStep.composes fun b => by
      rw [← childNode_eq_add]
      exact runs_btRdecFrom hN hP (h.child hN b)

theorem runs_btRdec (hN : N ≤ 31) (hP : ∀ c, TreeCell t N c → P c) :
    Runs (DecStep P) InputEnded (btRdec t N) := runs_btRdecFrom hN hP (.root N)

end

/-! ### Literals (R154, R155) -/

/-- The cells of the literal block `c` below `size`. -/
def BlockCell (c : U32) (size : Nat) (x : CellRef) : Prop :=
  ∃ m, m < size ∧ x = treeCell (blockTree c) (BitVec.ofNat 32 m)

theorem BlockCell.index {c : U16} {size : Nat} {x : CellRef} (h : BlockCell (c.setWidth 32) size x) :
    ∃ m, m < size ∧ x = cellOf .literal (768 * c.toNat + m) := by
  obtain ⟨m, hm, rfl⟩ := h
  exact ⟨m, hm, blockTree_cell c m⟩

theorem litDecFrom_eq_btDecFrom (c : U32) : ∀ n m, litDecFrom c n m = btDecFrom (blockTree c) n m
  | 0, _ => rfl
  | n + 1, m => by
    simp only [litDecFrom, btDecFrom, litDecFrom_eq_btDecFrom c n, childNode_eq_add]
    rfl

section

variable {P : CellRef → Prop} {c : U32}

theorem runs_litDecFrom (hP : ∀ x, BlockCell c 256 x → P x) {n : Nat} {m : U32} (h : TreeNode 8 n m) :
    Runs (DecStep P) InputEnded (litDecFrom c n m) := by
  rw [litDecFrom_eq_btDecFrom]
  exact runs_btDecFrom (by decide) (fun x ⟨m, _, hm, hx⟩ => hP x ⟨m, hm, hx⟩) h

theorem runs_litDec (hP : ∀ x, BlockCell c 256 x → P x) : Runs (DecStep P) InputEnded (litDec c) :=
  (runs_litDecFrom hP (.root 8)).map DecStep.composes _

theorem blockCell_matched {n : Nat} {m : U32} (h : TreeNode 8 (n + 1) m) (b : Bool) :
    BlockCell c 768 (matchedCell c m b) := by
  have hm := h.two_mul_le
  have hb := b.toNat_le
  have hcell := matchedCell_eq c m.toNat b
  rw [BitVec.ofNat_toNat, BitVec.setWidth_eq] at hcell
  exact ⟨_, by omega, hcell⟩

theorem runs_litDecMatchedFrom (matchByte : Byte) (hP : ∀ x, BlockCell c 768 x → P x) :
    ∀ {n : Nat} {m : U32}, TreeNode 8 n m →
      Runs (DecStep P) InputEnded (litDecMatchedFrom c matchByte n m)
  | 0, _, _ => .pure DecStep.composes _
  | _ + 1, _, h => (runs_decBit (hP _ (blockCell_matched h _))).bind DecStep.composes fun b =>
      have hc := h.child (by decide) b
      .ite (runs_litDecMatchedFrom matchByte hP hc)
        (runs_litDecFrom (fun x ⟨m, hm, hx⟩ => hP x ⟨m, by omega, hx⟩) hc)

theorem runs_litDecMatched (matchByte : Byte) (hP : ∀ x, BlockCell c 768 x → P x) :
    Runs (DecStep P) InputEnded (litDecMatched c matchByte) :=
  (runs_litDecMatchedFrom matchByte hP (.root 8)).map DecStep.composes _

end

/-! ### Lengths and distances (R166, R278) -/

/-- The cells of length coder `c`. -/
def LenCell (c : LenSel) (x : CellRef) : Prop :=
  x.arr = .lenChoice c ∨ x.arr = .lenLow c ∨ x.arr = .lenMid c ∨ x.arr = .lenHigh c

/-- The cells of the distance trees. -/
def DistanceCell (x : CellRef) : Prop := x.arr = .posSlot ∨ x.arr = .posModels ∨ x.arr = .posAlign

section

variable {P : CellRef → Prop}

theorem runs_lenDec {c : LenSel} (hP : ∀ x, LenCell c x → P x) (ps : U32) :
    Runs (DecStep P) InputEnded (lenDec c ps) :=
  (runs_decBit (hP _ (.inl rfl))).bind DecStep.composes fun _ => .ite
    ((runs_decBit (hP _ (.inl rfl))).bind DecStep.composes fun _ => .ite
      ((runs_btDec (by decide) fun x hx => hP x (.inr (.inr (.inr hx.arr)))).map DecStep.composes _)
      ((runs_btDec (by decide) fun x hx => hP x (.inr (.inr (.inl hx.arr)))).map DecStep.composes _))
    (runs_btDec (by decide) fun x hx => hP x (.inr (.inl hx.arr)))

theorem footerBits_le (slot : U32) (h : slot < 14#32) : footerBits slot ≤ 31 := by
  have h' : slot.toNat < 14 := h
  rw [footerBits, BitVec.toNat_ushiftRight, Nat.shiftRight_eq_div_pow]
  omega

theorem runs_decFooter (hP : ∀ x, DistanceCell x → P x) (slot : U32) :
    Runs (DecStep P) InputEnded (decFooter slot) := by
  unfold decFooter
  split
  · next h =>
    exact (runs_btRdec (footerBits_le slot h) fun x hx => hP x (.inr (.inl hx.arr))).map DecStep.composes _
  · exact (runs_decDirect _ _).bind DecStep.composes fun _ =>
      (runs_btRdec (by decide) fun x hx => hP x (.inr (.inr hx.arr))).map DecStep.composes _

theorem runs_decDistance (hP : ∀ x, DistanceCell x → P x) (len : U32) :
    Runs (DecStep P) InputEnded (decDistance len) :=
  (runs_btDec (by decide) fun x hx => hP x (.inl hx.arr)).bind DecStep.composes fun _ =>
    .ite (.pure DecStep.composes _) (runs_decFooter hP _)

end

/-! ### O57 -/

section

variable {P : CellRef → Prop} {s t : State}

theorem DecKeep.of_ret (s : State) (r : Ret) : DecKeep P s { s with ret := r } := fun hp =>
  ⟨hp, ⟨rfl, rfl, rfl, rfl, rfl, .inl ⟨rfl, rfl⟩⟩, rfl, rfl, ⟨rfl, rfl, rfl⟩, fun _ _ => rfl,
    rfl, rfl, rfl, rfl, rfl, rfl, rfl⟩

theorem DecKeep.of_error (s : State) (e : ErrKind) : DecKeep P s (errorEntry e s) := fun hp =>
  ⟨hp, ⟨rfl, rfl, rfl, rfl, rfl, .inr ⟨rfl, errKind_code_ne_zero e⟩⟩, rfl, rfl, ⟨rfl, rfl, rfl⟩,
    fun _ _ => rfl, rfl, rfl, rfl, rfl, rfl, rfl, rfl⟩

theorem endsOrTruncated_of_runs {m : Eng Ret} (hm : Runs DecMoves InputEnded m)
    (h : complete m s = .next t) : EndsOrTruncated s t := by
  rcases hm.complete_cases h with ⟨u, r, hu, rfl⟩ | ⟨e, u, hu, ⟨rfl, hend⟩, rfl⟩
  · exact .inl hu.noError
  · exact .inr ⟨rfl, rfl, hend, fun hs => BitVec.le_antisymm (hu.cursor hs) hend⟩

/-- The frame of an instruction that runs `m` and returns what `f` makes of its value. -/
theorem decFrame_of_runs {α : Type} {m : Eng α} {f : α → Ret} (hprobs : Store.wf probInit s.probs = true)
    (hm : Runs (DecStep P) InputEnded m) (h : complete (m >>= fun a => pure (f a)) s = .next t) :
    DecFrame P s t ∧ EndsOrTruncated s t := by
  have hr := hm.map DecStep.composes f
  have hk := hr.keeps.mono fun _ _ h => h.1
  exact ⟨(hk.complete (DecKeep.composes P) .of_ret .of_error h hprobs).2,
    endsOrTruncated_of_runs ⟨hr.keeps.mono fun _ _ h => h.2, hr.raises⟩ h⟩

end

/-- Settles O57: every step reads a decision at a cell of the tree, and raises only where ReadByte does. -/
theorem rangeDecoderFrames : Obligations.RangeDecoderFrames := by
  intro s t hprobs
  refine ⟨fun c => ?_, fun n => ?_, ?_, fun a n hwf => ?_, fun a n hwf => ?_, fun c => ?_, fun c b => ?_,
    fun c ps => ?_, fun len => ?_⟩
  · exact decFrame_of_runs hprobs ((runs_decBit (P := (· = c)) rfl).map DecStep.composes _)
  · exact decFrame_of_runs hprobs (runs_decDirect _ _)
  · exact decFrame_of_runs hprobs runs_decInit
  · obtain ⟨⟨-, hn, -⟩, -⟩ := (treeOperandsWf_iff a n _).1 hwf
    exact decFrame_of_runs hprobs (runs_btDec (by omega) fun _ => id)
  · obtain ⟨⟨-, hn, -⟩, -⟩ := (treeOperandsWf_iff a n _).1 hwf
    exact decFrame_of_runs hprobs (runs_btRdec (by omega) fun _ => id)
  · exact decFrame_of_runs hprobs ((runs_litDec fun _ => BlockCell.index).map DecStep.composes _)
  · exact decFrame_of_runs hprobs ((runs_litDecMatched b fun _ => BlockCell.index).map DecStep.composes _)
  · exact decFrame_of_runs hprobs (runs_lenDec (fun _ => id) _)
  · exact decFrame_of_runs hprobs (runs_decDistance (fun _ => id) _)

end Sys2Proof
end

section
/-! The frames of the output window's operations and of the decoder's packets (47_output_window R300 to
R304, 46_codec R292 to R295). -/

namespace Sys2Proof

open Machine

/-! ### Frames that need OUT in canonical form -/

/-- `R`, with the canonical form of OUT, which it needs and keeps. -/
def OutKeep (R : State → State → Prop) (s t : State) : Prop :=
  Memory.wf s.outMem = true → Memory.wf t.outMem = true ∧ R s t

section

variable {R Q : State → State → Prop} {s t : State}

theorem OutKeep.composes (hR : Composes R) : Composes (OutKeep R) where
  refl s := fun hm => ⟨hm, hR.refl s⟩
  trans h k := fun hm =>
    have ⟨ht, h'⟩ := h hm
    have ⟨hu, k'⟩ := k ht
    ⟨hu, hR.trans h' k'⟩

theorem OutKeep.mono (hRQ : R s t → Q s t) (h : OutKeep R s t) : OutKeep Q s t := fun hm =>
  ⟨(h hm).1, hRQ (h hm).2⟩

theorem OutKeep.of_same (ho : t.outMem = s.outMem) (h : R s t) : OutKeep R s t := fun hm =>
  ⟨ho ▸ hm, h⟩

end

/-! ### Output window -/

theorem WinFrame.composes : Composes WinFrame where
  refl s := ⟨.refl s, .refl s, rfl, ⟨rfl, rfl, rfl⟩, rfl, rfl, rfl, rfl, rfl, rfl, rfl, rfl⟩
  trans h k :=
    { core := h.core.trans k.core
      out := h.out.trans k.out
      inPos := k.inPos.trans h.inPos
      flags := ⟨k.flags.1.trans h.flags.1, k.flags.2.1.trans h.flags.2.1,
        k.flags.2.2.trans h.flags.2.2⟩
      probs := k.probs.trans h.probs
      enc := k.enc.trans h.enc
      dec := k.dec.trans h.dec
      codec := k.codec.trans h.codec
      encCfg := k.encCfg.trans h.encCfg
      prices := k.prices.trans h.prices
      parser := k.parser.trans h.parser
      mf := k.mf.trans h.mf }

theorem WinFrame.of_window (s : State) (w : Window) (r : Ret) :
    WinFrame s { s with window := w, ret := r } :=
  ⟨⟨rfl, rfl, rfl, rfl, rfl, .inl ⟨rfl, rfl⟩⟩, .refl s, rfl, ⟨rfl, rfl, rfl⟩,
    rfl, rfl, rfl, rfl, rfl, rfl, rfl, rfl⟩

theorem WinFrame.of_error (s : State) (e : ErrKind) : WinFrame s (errorEntry e s) :=
  ⟨⟨rfl, rfl, rfl, rfl, rfl, .inr ⟨rfl, errKind_code_ne_zero e⟩⟩, .refl s, rfl, ⟨rfl, rfl, rfl⟩,
    rfl, rfl, rfl, rfl, rfl, rfl, rfl, rfl⟩

/-- A byte appended to OUT stands at OUT_LEN, which moves past it (20_memory R64). -/
theorem winFrame_appendOut (s : State) (b : Byte) (h : s.host.outLen.toNat < s.outCap) :
    OutKeep WinFrame s (s.appendOut b) := by
  intro hm
  have happ : OutAppended s (s.appendOut b) := by
    refine ⟨by rw [appendOut_outLen b h]; omega, fun a ha => ?_⟩
    rw [appendOut_outLen b h] at ha
    rw [State.appendOut_outMem, Memory.read_write hm, if_neg (by omega)]
  exact ⟨Memory.wf_write hm, ⟨rfl, rfl, rfl, rfl, rfl, .inl ⟨rfl, rfl⟩⟩, happ, rfl, ⟨rfl, rfl, rfl⟩,
    rfl, rfl, rfl, rfl, rfl, rfl, rfl, rfl⟩

/-- A step of a window operation. -/
def WinStep (s t : State) : Prop := OutKeep WinFrame s t ∧ NoError s t

theorem WinStep.composes : Composes WinStep := (OutKeep.composes WinFrame.composes).and NoError.composes

theorem WinStep.of_window (s : State) (w : Window) : WinStep s { s with window := w } :=
  ⟨.of_same rfl (.of_window s w s.ret), rfl, rfl⟩

theorem runs_flushBytes : ∀ n i, Runs WinStep OutFull (flushBytes n i)
  | 0, _ => .pure WinStep.composes _
  | n + 1, i => .get_bind fun _ =>
      (runs_outWrite WinStep.composes _ fun s h => ⟨winFrame_appendOut s _ h, rfl, rfl⟩).bind
        WinStep.composes fun _ => runs_flushBytes n (i + 1)

theorem runs_owFlush : Runs WinStep OutFull owFlush :=
  .get_bind fun _ => (runs_flushBytes _ _).bind WinStep.composes fun _ => .modify fun s => .of_window s _

theorem runs_owPut (b : Byte) : Runs WinStep OutFull (owPut b) :=
  Runs.bind WinStep.composes (.modify fun s => .of_window s _) fun _ =>
    .get_bind fun _ => .ite runs_owFlush (.pure WinStep.composes _)

theorem runs_owCopy (d : U32) : ∀ n, Runs WinStep OutFull (owCopy d n)
  | 0 => .pure WinStep.composes _
  | n + 1 => .get_bind fun _ => (runs_owPut _).bind WinStep.composes fun _ => runs_owCopy d n

/-- The frame of an instruction that runs the window operation `m`. -/
theorem winFrame_of_runs {m : Eng Unit} {s t : State} (hout : Memory.wf s.outMem = true)
    (hm : Runs WinStep OutFull m) (h : completeUnit m s = .next t) :
    WinFrame s t ∧ EndsOrOutFull s t := by
  have hr := hm.map WinStep.composes fun _ => Ret.none
  have hk : Keeps (OutKeep WinFrame) _ := hr.keeps.mono fun _ _ h => h.1
  have hframe := hk.complete (OutKeep.composes WinFrame.composes)
    (fun s r => .of_same rfl (.of_window s s.window r)) (fun s e => .of_same rfl (.of_error s e)) h hout
  exact ⟨hframe.2, Runs.endsOrOutFull ⟨hr.keeps.mono fun _ _ h => h.2, hr.raises⟩ h⟩

/-! ### Performing a packet (46_codec R292) -/

/-- The decoder's side, and the cells, the range decoder and IN_POS, which only the decisions of a packet
change and not its effect. -/
structure PerformFrame (s t : State) : Prop where
  side : DecoderSide s t
  probs : t.probs = s.probs
  dec : t.dec = s.dec
  inPos : t.host.inPos = s.host.inPos

theorem DecoderSide.composes : Composes DecoderSide where
  refl s := ⟨.refl s, .refl s, rfl, rfl, rfl, rfl, rfl, rfl⟩
  trans h k :=
    { core := h.core.trans k.core
      out := h.out.trans k.out
      enc := k.enc.trans h.enc
      encCfg := k.encCfg.trans h.encCfg
      prices := k.prices.trans h.prices
      parser := k.parser.trans h.parser
      mf := k.mf.trans h.mf
      size := k.size.trans h.size }

theorem PerformFrame.composes : Composes PerformFrame where
  refl s := ⟨DecoderSide.composes.refl s, rfl, rfl, rfl⟩
  trans h k := ⟨DecoderSide.composes.trans h.side k.side, k.probs.trans h.probs, k.dec.trans h.dec,
    k.inPos.trans h.inPos⟩

theorem WinFrame.perform {s t : State} (h : WinFrame s t) : PerformFrame s t where
  side := ⟨h.core, h.out, h.enc, h.encCfg, h.prices, h.parser, h.mf, h.flags.2.2⟩
  probs := h.probs
  dec := h.dec
  inPos := h.inPos

/-- The codec registers and the status bits of DECODE (10_state R22). -/
theorem PerformFrame.of_codec (s : State) (c : Codec) (early truncated : Bool) :
    PerformFrame s { s with
      codec := c, host := { s.host with earlyEnd := early, outTruncated := truncated } } :=
  ⟨⟨⟨rfl, rfl, rfl, rfl, rfl, .inl ⟨rfl, rfl⟩⟩, .refl s, rfl, rfl, rfl, rfl, rfl, rfl⟩, rfl, rfl, rfl⟩

/-- What performing a packet keeps. -/
abbrev PerformKeep : State → State → Prop := OutKeep PerformFrame

theorem PerformKeep.composes : Composes PerformKeep := OutKeep.composes PerformFrame.composes

theorem PerformKeep.of_codec (s : State) (c : Codec) (early truncated : Bool) :
    PerformKeep s { s with
      codec := c, host := { s.host with earlyEnd := early, outTruncated := truncated } } :=
  .of_same rfl (.of_codec s c early truncated)

theorem keeps_of_winStep {α : Type} {E : ErrKind → State → Prop} {m : Eng α} (hm : Runs WinStep E m) :
    Keeps PerformKeep m :=
  hm.keeps.mono fun _ _ h => h.1.mono WinFrame.perform

theorem keeps_modifyCodec (f : Codec → Codec) : Keeps PerformKeep (modifyCodec f) :=
  .modify fun s => .of_codec s _ s.host.earlyEnd s.host.outTruncated

theorem keeps_checkDist : Keeps PerformKeep checkDist := by
  intro s
  unfold checkDist
  split <;> exact PerformKeep.composes.refl s

theorem keeps_copyBytes (n : U32) : Keeps PerformKeep (copyBytes n) :=
  .read fun _ => .bind PerformKeep.composes (keeps_of_winStep (runs_owCopy _ _)) fun _ =>
    .modify fun s => .of_codec s _ s.host.earlyEnd s.host.outTruncated

/-- The copy itself, after a cut that sets OUT_TRUNCATED or without one, or the error of a size overrun
(R295). -/
theorem keeps_copy (len : U32) : Keeps PerformKeep (copy len) :=
  .read fun s => by
    split
    · exact keeps_copyBytes _
    split
    · split
      · exact .raise PerformKeep.composes _
      · exact .bind PerformKeep.composes (.modify fun s => .of_codec s s.codec s.host.earlyEnd true) fun _ =>
          keeps_copyBytes _
    · exact keeps_copyBytes _

theorem keeps_putLiteral (b : Byte) : Keeps PerformKeep (putLiteral b) :=
  .bind PerformKeep.composes (keeps_of_winStep (runs_owPut b)) fun _ => keeps_modifyCodec _

theorem keeps_checkedCopy (len : U32) : Keeps PerformKeep (checkedCopy len) :=
  .bind PerformKeep.composes keeps_checkDist fun _ =>
    .bind PerformKeep.composes (keeps_copy len) fun _ => .pure PerformKeep.composes _

theorem keeps_earlyEndCheck : Keeps PerformKeep (modify earlyEndCheck : Eng PUnit) :=
  .modify fun s => by
    unfold earlyEndCheck
    split
    · exact .of_codec s s.codec true s.host.outTruncated
    · exact PerformKeep.composes.refl s

theorem keeps_afterMatch (len : U32) : Keeps PerformKeep (afterMatch len) :=
  .read fun _ => .ite
    (.bind PerformKeep.composes keeps_earlyEndCheck fun _ => .pure PerformKeep.composes _)
    (keeps_checkedCopy len)

theorem keeps_performLit (b : Byte) : Keeps PerformKeep (performLit b) :=
  .bind PerformKeep.composes (keeps_putLiteral b) fun _ => .pure PerformKeep.composes _

theorem keeps_performMatch (len d : U32) : Keeps PerformKeep (performMatch len d) :=
  .bind PerformKeep.composes (keeps_modifyCodec _) fun _ => keeps_afterMatch len

theorem keeps_performShortrep : Keeps PerformKeep performShortrep :=
  .bind PerformKeep.composes (keeps_modifyCodec _) fun _ => keeps_checkedCopy _

theorem keeps_performLongrep (i : Nat) (len : U32) : Keeps PerformKeep (performLongrep i len) :=
  .bind PerformKeep.composes (keeps_modifyCodec _) fun _ => keeps_checkedCopy len

/-! ### Decoding and performing a packet -/

/-- What DEC_PACKET keeps. -/
abbrev SideKeep : State → State → Prop := OutKeep DecoderSide

theorem SideKeep.composes : Composes SideKeep := OutKeep.composes DecoderSide.composes

theorem DecFrame.side {P : CellRef → Prop} {s t : State} (h : DecFrame P s t) : DecoderSide s t where
  core := h.core
  out := ⟨(congrArg BitVec.toNat h.outLen).ge, fun _ _ => by rw [h.outMem]⟩
  enc := h.enc
  encCfg := h.encCfg
  prices := h.prices
  parser := h.parser
  mf := h.mf
  size := h.flags.2.2

section

variable {α β : Type}

/-- Reading decisions stays on the decoder's side. -/
theorem side_of_decStep {E : ErrKind → State → Prop} {m : Eng α}
    (hm : Runs (DecStep fun _ => True) E m) : Keeps SideKeep m :=
  hm.keeps.mono fun _ _ h => .of_same h.2.frame.outMem h.2.frame.side

theorem side_of_perform {m : Eng α} (hm : Keeps PerformKeep m) : Keeps SideKeep m :=
  hm.mono fun _ _ h => h.mono PerformFrame.side

theorem side_bind {m : Eng α} {f : α → Eng β} (hm : Keeps SideKeep m) (hf : ∀ a, Keeps SideKeep (f a)) :
    Keeps SideKeep (m >>= f) := .bind SideKeep.composes hm hf

theorem side_pure (a : α) : Keeps SideKeep (pure a : Eng α) := .pure SideKeep.composes a

theorem side_modifyCodec (f : Codec → Codec) : Keeps SideKeep (modifyCodec f) :=
  side_of_perform (keeps_modifyCodec f)

theorem side_decBit (c : CellRef) : Keeps SideKeep (decBit c) := side_of_decStep (runs_decBit trivial)

theorem side_lenDec (c : LenSel) (ps : U32) : Keeps SideKeep (lenDec c ps) :=
  side_of_decStep (runs_lenDec (fun _ _ => trivial) ps)

end

theorem side_decLitByte : Keeps SideKeep decLitByte :=
  .read fun _ => .ite (side_of_decStep (runs_litDec fun _ _ => trivial))
    (side_of_decStep (runs_litDecMatched _ fun _ _ => trivial))

theorem side_decRepChoice (st : U4) (ps : U32) : Keeps SideKeep (decRepChoice st ps) :=
  side_bind (side_decBit _) fun _ => .ite
    (side_bind (side_decBit _) fun _ => .ite
      (side_bind (side_decBit _) fun _ => side_pure _) (side_pure _))
    (side_bind (side_decBit _) fun _ => side_pure _)

theorem side_decRep (st : U4) (ps : U32) : Keeps SideKeep (decRep st ps) :=
  side_bind (side_decRepChoice st ps) fun _ => .ite
    (side_bind (side_modifyCodec _) fun _ => side_pure _)
    (side_bind (side_modifyCodec _) fun _ => side_bind (side_lenDec _ _) fun _ =>
      side_bind (side_modifyCodec _) fun _ => side_pure _)

theorem side_decMatch (st : U4) (ps : U32) : Keeps SideKeep (decMatch st ps) :=
  side_bind (side_lenDec _ _) fun _ => side_bind (side_modifyCodec _) fun _ =>
    side_bind (side_of_decStep (runs_decDistance (fun _ _ => trivial) _)) fun _ =>
      side_bind (side_modifyCodec _) fun _ => side_pure _

theorem side_decPacket : Keeps SideKeep decPacket :=
  .read fun _ => side_bind (side_decBit _) fun _ => .ite
    (side_bind (side_decBit _) fun _ => .ite
      (side_bind (side_decRep _ _) fun _ => side_of_perform (keeps_checkedCopy _))
      (side_bind (side_decMatch _ _) fun _ => side_of_perform (keeps_afterMatch _)))
    (side_bind side_decLitByte fun _ =>
      side_bind (side_of_perform (keeps_putLiteral _)) fun _ => side_pure _)

/-! ### O59 -/

theorem sideFrame_of_keeps {m : Eng Ret} {s t : State} (hout : Memory.wf s.outMem = true)
    (hm : Keeps SideKeep m) (h : complete m s = .next t) : DecoderSide s t :=
  (hm.complete SideKeep.composes (fun s r => .of_same rfl (WinFrame.of_window s s.window r).perform.side)
    (fun s e => .of_same rfl (WinFrame.of_error s e).perform.side) h hout).2

theorem performFrame_of_keeps {m : Eng Ret} {s t : State} (hout : Memory.wf s.outMem = true)
    (hm : Keeps PerformKeep m) (h : complete m s = .next t) : PerformFrame s t :=
  (hm.complete PerformKeep.composes (fun s r => .of_same rfl (WinFrame.of_window s s.window r).perform)
    (fun s e => .of_same rfl (WinFrame.of_error s e).perform) h hout).2

theorem packetBy_of_decRun {perform code : Eng Ret} {s : State} (h : s.phase = .decRun) :
    packetBy perform code s = complete perform s := if_pos h

/-- A packet presented in DEC_RUN is performed (the model's choice, log 6). -/
theorem exec_packet_of_decRun {s : State} (h : s.phase = .decRun) {i : Instr}
    (hi : (∃ b, i = .lit b) ∨ (∃ len d, i = .matchDist len d) ∨ i = .shortrep ∨
      (∃ len, i = .longrep0 len ∨ i = .longrep1 len ∨ i = .longrep2 len ∨ i = .longrep3 len) ∨
      i = .eos) :
    ∃ m, Keeps PerformKeep m ∧ exec i s = complete m s := by
  rcases hi with ⟨b, rfl⟩ | ⟨len, d, rfl⟩ | rfl | ⟨len, rfl | rfl | rfl | rfl⟩ | rfl
  · exact ⟨_, keeps_performLit b, packetBy_of_decRun h⟩
  · exact ⟨_, keeps_performMatch _ d, packetBy_of_decRun h⟩
  · exact ⟨_, keeps_performShortrep, packetBy_of_decRun h⟩
  · exact ⟨_, keeps_performLongrep 0 _, packetBy_of_decRun h⟩
  · exact ⟨_, keeps_performLongrep 1 _, packetBy_of_decRun h⟩
  · exact ⟨_, keeps_performLongrep 2 _, packetBy_of_decRun h⟩
  · exact ⟨_, keeps_performLongrep 3 _, packetBy_of_decRun h⟩
  · exact ⟨_, keeps_performMatch _ _, packetBy_of_decRun h⟩

/-- Settles O59: reading the decisions changes the decoder alone, performing the packet the window, the
codec and OUT, and only a window that flushes into a full OUT raises ResourceExhausted. -/
theorem decoderPacketAndWindowFrames : Obligations.DecoderPacketAndWindowFrames := by
  intro s t hout
  refine ⟨fun h => ?_, fun len h => ?_, fun hphase i hi h => ?_, fun b h => ?_, fun d n h => ?_,
    fun h => ?_⟩
  · exact sideFrame_of_keeps hout side_decPacket h
  · have hk : Keeps PerformKeep (copy (len.setWidth 32) >>= fun _ => pure Ret.none) :=
      .bind PerformKeep.composes (keeps_copy _) fun _ => .pure PerformKeep.composes _
    obtain ⟨hside, hprobs, hdec, hpos⟩ := performFrame_of_keeps hout hk h
    exact ⟨hside, hprobs, hdec, hpos⟩
  · obtain ⟨m, hm, hrun⟩ := exec_packet_of_decRun hphase hi
    obtain ⟨hside, hprobs, hdec, hpos⟩ := performFrame_of_keeps hout hm (hrun ▸ h)
    exact ⟨hside, hprobs, hdec, hpos⟩
  · exact winFrame_of_runs hout (runs_owPut b) h
  · exact winFrame_of_runs hout (runs_owCopy d _) h
  · exact winFrame_of_runs hout runs_owFlush h

end Sys2Proof
end

section
/-! The slot of a distance (46_codec R262 to R265): it names the two leading bits, and with them where the
footer below begins. -/

namespace Sys2Proof

open Machine

/-! ### The slot -/

theorem slotOf_of_two_le {d : Nat} (h : 2 ≤ d) :
    slotOf d = 2 * Nat.log 2 d + d / 2 ^ (Nat.log 2 d - 1) % 2 := by
  unfold slotOf
  split
  · obtain rfl | rfl : d = 2 ∨ d = 3 := by omega
    · rfl
    · rfl
  · rw [Nat.log2_eq_log_two, Nat.shiftRight_eq_div_pow]

/-- R262's table serves larger distances after a shift: the leading bits stay (R263). -/
theorem slotOf_div_pow {d n : Nat} (h : 2 ≤ d / 2 ^ n) : slotOf (d / 2 ^ n) + 2 * n = slotOf d := by
  have hd : 2 ≤ d := h.trans (Nat.div_le_self ..)
  have hlog : Nat.log 2 (d / 2 ^ n) = Nat.log 2 d - n := Nat.log_div_base_pow ..
  have hpos : 0 < Nat.log 2 (d / 2 ^ n) := Nat.log_pos (by decide) h
  rw [slotOf_of_two_le h, slotOf_of_two_le hd, Nat.div_div_eq_div_mul, ← Nat.pow_add, hlog,
    show n + (Nat.log 2 d - n - 1) = Nat.log 2 d - 1 by omega]
  omega

theorem slotOf_lt {d : Nat} (h : d < 2 ^ 32) : slotOf d < 64 := by
  rcases Nat.lt_or_ge d 2 with hd | hd
  · rw [slotOf, if_pos (by omega)]; omega
  · have hlog : Nat.log 2 d < 32 := Nat.log_lt_of_lt_pow (by omega) h
    rw [slotOf_of_two_le hd]; omega

/-- R263's three ranges give one slot. -/
theorem posSlotOf_eq (d : U32) : posSlotOf d = BitVec.ofNat 32 (slotOf d.toNat) := by
  have hshift : ∀ n k : Nat, k = 2 * n → 2 ≤ d.toNat / 2 ^ n →
      BitVec.ofNat 32 (fastPos (d >>> n).toNat) + BitVec.ofNat 32 k = BitVec.ofNat 32 (slotOf d.toNat) := by
    rintro n _ rfl h
    rw [fastPos, BitVec.toNat_ushiftRight, Nat.shiftRight_eq_div_pow, ← BitVec.ofNat_add, slotOf_div_pow h]
  unfold posSlotOf
  split
  · rfl
  split
  · exact hshift 10 20 rfl (by bv_omega)
  · exact hshift 20 40 rfl (by bv_omega)

theorem toNat_posSlotOf (d : U32) : (posSlotOf d).toNat = slotOf d.toNat := by
  rw [posSlotOf_eq, BitVec.toNat_ofNat, Nat.mod_eq_of_lt ((slotOf_lt d.isLt).trans (by decide))]

/-! ### Base and footer -/

theorem slotOf_lt_four_iff {d : Nat} : slotOf d < 4 ↔ d < 4 := by
  constructor
  · intro h
    by_contra hd
    have hlog : 2 ≤ Nat.log 2 d := Nat.le_log_of_pow_le (by decide) (by omega)
    rw [slotOf_of_two_le (by omega)] at h
    omega
  · intro h
    rwa [slotOf, if_pos h]

theorem slotOf_of_lt_four {d : Nat} (h : d < 4) : slotOf d = d := if_pos h

theorem footerBits_eq (slot : U32) : footerBits slot = slot.toNat / 2 - 1 := by
  rw [footerBits, BitVec.toNat_ushiftRight, Nat.shiftRight_eq_div_pow, pow_one]

/-- The least distance of a slot from 4 on (R265). -/
def baseOf (slot : Nat) : Nat := (2 + slot % 2) * 2 ^ (slot / 2 - 1)

theorem slotBase_eq (slot : U32) : slotBase slot = BitVec.ofNat 32 (baseOf slot.toNat) := by
  have hbit : slot &&& 1#32 = BitVec.ofNat 32 (slot.toNat % 2) := by
    apply BitVec.eq_of_toNat_eq
    rw [BitVec.toNat_and, BitVec.toNat_ofNat, BitVec.toNat_ofNat, Nat.one_mod_two_pow (by decide),
      Nat.and_one_is_mod, Nat.mod_eq_of_lt (b := 2 ^ 32) (by omega)]
  have hlead : 2#32 ||| (slot &&& 1#32) = BitVec.ofNat 32 (2 + slot.toNat % 2) := by
    rw [hbit]
    rcases Nat.mod_two_eq_zero_or_one slot.toNat with h | h <;> rw [h] <;> rfl
  apply BitVec.eq_of_toNat_eq
  rw [slotBase, hlead, footerBits_eq, baseOf, BitVec.toNat_shiftLeft, BitVec.toNat_ofNat, BitVec.toNat_ofNat,
    Nat.shiftLeft_eq, Nat.mod_mul_mod]

/-- A distance from 4 on is its slot's base and the footer below the two leading bits (R265). -/
theorem baseOf_add_footer {d : Nat} (h : 4 ≤ d) :
    baseOf (slotOf d) + d % 2 ^ (slotOf d / 2 - 1) = d := by
  have hlog : 2 ≤ Nat.log 2 d := Nat.le_log_of_pow_le (by decide) h
  have hslot := slotOf_of_two_le (d := d) (by omega)
  have hfooter : slotOf d / 2 - 1 = Nat.log 2 d - 1 := by omega
  have hlo : 2 ≤ d / 2 ^ (Nat.log 2 d - 1) := by
    rw [Nat.le_div_iff_mul_le (Nat.two_pow_pos _), ← Nat.pow_succ',
      show (Nat.log 2 d - 1).succ = Nat.log 2 d by omega]
    exact Nat.pow_log_le_self 2 (by omega)
  have hhi : d / 2 ^ (Nat.log 2 d - 1) < 4 := by
    rw [Nat.div_lt_iff_lt_mul (Nat.two_pow_pos _), show 4 = 2 ^ 2 from rfl, ← Nat.pow_add,
      show 2 + (Nat.log 2 d - 1) = Nat.log 2 d + 1 by omega]
    exact Nat.lt_pow_succ_log_self (by decide) d
  rw [baseOf, hfooter, show 2 + slotOf d % 2 = d / 2 ^ (Nat.log 2 d - 1) by omega, Nat.mul_comm]
  exact Nat.div_add_mod ..

theorem toNat_sub_slotBase {d : U32} (h : 4 ≤ d.toNat) :
    (d - slotBase (posSlotOf d)).toNat = d.toNat % 2 ^ footerBits (posSlotOf d) := by
  have hd := baseOf_add_footer h
  have hlt := d.isLt
  rw [slotBase_eq, footerBits_eq, toNat_posSlotOf, BitVec.toNat_sub, BitVec.toNat_ofNat]
  omega

/-- From slot 14 on the footer's bits above its four aligned ones are coded directly (R265). -/
theorem footer_high_lt {slot : U32} (h : ¬ slot < 14#32) {r : Nat} (hr : r < 2 ^ footerBits slot) :
    r / 16 < 2 ^ (footerBits slot - 4) := by
  have hbits : 4 ≤ footerBits slot := by
    rw [BitVec.lt_def, BitVec.toNat_ofNat] at h
    rw [footerBits_eq]
    omega
  apply Nat.div_lt_of_lt_mul
  rwa [show 16 = 2 ^ 4 from rfl, ← Nat.pow_add, Nat.add_sub_cancel' hbits]

/-- A footer of a direct part and four aligned bits (R265). -/
theorem footer_eq_high_add_low (r : Nat) :
    (BitVec.ofNat 32 (r / 16) <<< 4) + BitVec.ofNat 32 (r % 16) = BitVec.ofNat 32 r := by
  apply BitVec.eq_of_toNat_eq
  rw [BitVec.toNat_add, BitVec.toNat_shiftLeft, BitVec.toNat_ofNat, BitVec.toNat_ofNat, BitVec.toNat_ofNat,
    Nat.shiftLeft_eq]
  omega

end Sys2Proof
end

section
/-! Decoding what was encoded (30_encoding): every field of a code is taken off the front again, whatever
follows it. -/

namespace Sys2Proof

open Machine

/-! ### Operand bytes of a micro-op (R101, R102) -/

theorem takeLE_bytesLE (rest : List Byte) : ∀ n v : Nat,
    takeLE n (bytesLE n v ++ rest) = .ok (v % 256 ^ n, rest)
  | 0, v => by rw [pow_zero, Nat.mod_one]; rfl
  | n + 1, v => by
    have hsplit : v % 256 + 256 * (v / 256 % 256 ^ n) = v % 256 ^ (n + 1) := by
      rw [Nat.pow_succ', Nat.mod_mul]
    rw [bytesLE, List.cons_append, takeLE, takeLE_bytesLE rest n]
    exact congrArg (fun x => Except.ok (x, rest)) hsplit

section

variable {α : Type} {bs : List Byte}

@[simp] theorem operand_field {w : Nat} (hw : 8 * (w / 8) = w) (v : BitVec w)
    (k : BitVec w → List Byte → Except Reject α) : operand w (field v ++ bs) k = k v bs := by
  have hv : BitVec.ofNat w (v.toNat % 256 ^ (w / 8)) = v := by
    rw [show 256 = 2 ^ 8 from rfl, ← Nat.pow_mul, hw, Nat.mod_eq_of_lt v.isLt, BitVec.ofNat_toNat,
      BitVec.setWidth_eq]
  rw [operand, field, takeLE_bytesLE]
  exact congrArg (k · bs) hv

@[simp] theorem flagOperand_flagField (b : Bool) (k : Bool → List Byte → Except Reject α) :
    flagOperand (flagField b ++ bs) k = k b bs := by
  cases b <;> rfl

@[simp] theorem lenSelOperand_lenSelField (c : LenSel) (k : LenSel → List Byte → Except Reject α) :
    lenSelOperand (lenSelField c ++ bs) k = k c bs := by
  cases c <;> rfl

theorem ofSelector_selector (a : ProbArray) : ProbArray.ofSelector a.selector = some a := by
  rcases a with _ | _ | _ | _ | _ | _ | _ | _ | _ | _ | ⟨_ | _⟩ | ⟨_ | _⟩ | ⟨_ | _⟩ | ⟨_ | _⟩ <;> rfl

theorem selector_lt (a : ProbArray) : a.selector < 18 := by
  rcases a with _ | _ | _ | _ | _ | _ | _ | _ | _ | _ | ⟨_ | _⟩ | ⟨_ | _⟩ | ⟨_ | _⟩ | ⟨_ | _⟩ <;> decide

theorem field_byte (b : Byte) : field b = [b] := by
  show [BitVec.ofNat 8 b.toNat] = [b]
  rw [BitVec.ofNat_toNat, BitVec.setWidth_eq]

@[simp] theorem cellOperand_cellField (p : CellRef) (k : CellRef → List Byte → Except Reject α) :
    cellOperand (cellField p ++ bs) k = k p bs := by
  have hsel : ProbArray.ofSelector (BitVec.ofNat 8 p.arr.selector).toNat = some p.arr := by
    have hlt := selector_lt p.arr
    rw [BitVec.toNat_ofNat, Nat.mod_eq_of_lt (by omega), ofSelector_selector]
  have hbyte : cellField p ++ bs = field (BitVec.ofNat 8 p.arr.selector) ++ (field p.idx ++ bs) := by
    rw [field_byte]
    rfl
  rw [hbyte, cellOperand, operand_field (by decide), hsel]
  exact operand_field (by decide) _ _

@[simp] theorem treeOperand_treeField (t : CellRef) (k : CellRef → List Byte → Except Reject α) :
    treeOperand (treeField t ++ bs) k = k t bs := by
  rw [treeOperand, treeField, cellOperand_cellField, BitVec.add_sub_cancel]

end

theorem decodeMicro_cons {id : Byte} {bs rest : List Byte} {i : Instr} (hi : i.wf = true)
    (h : decodeOperands id bs = .ok (i, rest)) : decodeMicro (id :: bs) = .ok (i, rest) := by
  rw [decodeMicro, h, checked, if_pos hi]

/-- A micro-op's bytes tell where they end: after the id each operand is taken off by its own rule. -/
theorem decodeMicro_encode {i : Instr} {bs : List Byte} (hi : i.wf = true) (he : encode i = .micro bs)
    (rest : List Byte) : decodeMicro (bs ++ rest) = .ok (i, rest) := by
  cases i <;> cases he
  all_goals
    simp only [List.cons_append, List.append_assoc]
    refine decodeMicro_cons hi ?_
    unfold decodeOperands
  case rcEncInit | rcShiftLow | rcEncFlush | rcDecInit | mfInit | mfGetMatches | mfAvail | mfMovePos |
      optReadMatchDistances | optFillDist | optFillAlign | codecEncHeader | codecEncLit | codecEncEos |
      codecEncBlock | codecDecHeader | codecDecPacket | codecCheckDist | codecDecEarlyEndCheck | owFlush =>
    rfl
  case rcEncBit | rcDecBit | btInit => exact Eq.trans (cellOperand_cellField _ _) (by simp)
  case btEnc | btDec | btPrice | btRenc | btRdec | btRprice =>
    exact Eq.trans (treeOperand_treeField _ _) (by simp)
  case lenEnc | lenDec | lenSetPrices | lenPrice | lenEncCounted =>
    exact Eq.trans (lenSelOperand_lenSelField _ _) (by simp)
  all_goals exact Eq.trans (operand_field (by decide) _ _) (by simp)

/-! ### CTRL words (R100) -/

theorem decodeCtrl_eq_of_encode {i : Instr} {w : U32} (he : encode i = .ctrl w) : decodeCtrl w = i := by
  cases i <;> cases he
  case nop irqEn marker | reset irqEn marker | encode irqEn marker | decode irqEn marker =>
    cases irqEn <;> cases marker <;> rfl
  case ctrlReserved4 op irqEn marker | ctrlReserved8 op irqEn marker =>
    revert op
    cases irqEn <;> cases marker <;> decide

/-! ### Packets (R85 to R94) -/

theorem takeMsb_bitsMsb (rest : List Bool) : ∀ n acc v : Nat,
    takeMsb n acc (bitsMsb n v ++ rest) = .ok (acc * 2 ^ n + v % 2 ^ n, rest)
  | 0, acc, v => by rw [pow_zero, Nat.mod_one, Nat.mul_one]; rfl
  | n + 1, acc, v => by
    have hbit : (2 * acc + (v.testBit n).toNat) * 2 ^ n + v % 2 ^ n = acc * 2 ^ (n + 1) + v % 2 ^ (n + 1) := by
      rw [Nat.mod_pow_succ, Nat.toNat_testBit]
      ring
    rw [bitsMsb, List.cons_append, takeMsb, takeMsb_bitsMsb rest n, hbit]

theorem takeLsb_bitsLsb (rest : List Bool) : ∀ n v : Nat,
    takeLsb n (bitsLsb n v ++ rest) = .ok (v % 2 ^ n, rest)
  | 0, v => by rw [pow_zero, Nat.mod_one]; rfl
  | n + 1, v => by
    have hbit : (v.testBit 0).toNat + 2 * (v / 2 % 2 ^ n) = v % 2 ^ (n + 1) := by
      rw [Nat.toNat_testBit, pow_zero, Nat.div_one, Nat.pow_succ', Nat.mod_mul]
    rw [bitsLsb, List.cons_append, takeLsb, takeLsb_bitsLsb rest n]
    exact congrArg (fun x => Except.ok (x, rest)) hbit

theorem lenWf_iff (len : U16) : lenWf len = true ↔ 2 ≤ len.toNat ∧ len.toNat ≤ 273 := decide_eq_true_iff

theorem takeLen_lenBits {len : U16} (h : lenWf len = true) (rest : List Bool) :
    takeLen (lenBits len.toNat ++ rest) = .ok (len, rest) := by
  obtain ⟨h2, h273⟩ := (lenWf_iff len).1 h
  have hlen : ∀ v base : Nat, v + base = len.toNat →
      (Except.ok (BitVec.ofNat 16 (v + base), rest) : Except Reject _) = .ok (len, rest) := by
    rintro v base hv
    rw [hv, BitVec.ofNat_toNat, BitVec.setWidth_eq]
  unfold lenBits
  split
  · rw [List.cons_append, takeLen, takeMsb_bitsMsb]
    exact hlen _ _ (by omega)
  split
  · rw [List.cons_append, List.cons_append, takeLen, takeMsb_bitsMsb]
    exact hlen _ _ (by omega)
  · rw [List.cons_append, List.cons_append, takeLen, takeMsb_bitsMsb]
    exact hlen _ _ (by omega)

/-- The decisions of a distance after its slot, `r` being what they add to the slot's base (R94). -/
def footerDecisions (slot : U32) (r : Nat) : List Bool :=
  if slot < 4#32 then []
  else if slot < 14#32 then bitsLsb (footerBits slot) r
  else bitsMsb (footerBits slot - 4) (r / 16) ++ bitsLsb 4 (r % 16)

theorem distBits_eq (d : U32) : distBits d =
    bitsMsb 6 (slotOf d.toNat) ++ footerDecisions (posSlotOf d) (d - slotBase (posSlotOf d)).toNat := by
  rw [← toNat_posSlotOf]
  rfl

theorem takeFooter_of_lt_four {slot : U32} (h : slot < 4#32) (r : Nat) (rest : List Bool) :
    takeFooter slot (footerDecisions slot r ++ rest) = .ok (slot, rest) := by
  rw [takeFooter, footerDecisions, if_pos h, if_pos h]
  rfl

theorem takeFooter_of_four_le {slot : U32} (h : ¬ slot < 4#32) {r : Nat} (hr : r < 2 ^ footerBits slot)
    (rest : List Bool) :
    takeFooter slot (footerDecisions slot r ++ rest) = .ok (slotBase slot + BitVec.ofNat 32 r, rest) := by
  rw [takeFooter, footerDecisions, if_neg h, if_neg h]
  by_cases h14 : slot < 14#32
  · rw [if_pos h14, if_pos h14, takeLsb_bitsLsb, Nat.mod_eq_of_lt hr]
  · rw [if_neg h14, if_neg h14, List.append_assoc, takeMsb_bitsMsb]
    simp only [takeLsb_bitsLsb, Nat.mod_eq_of_lt (footer_high_lt h14 hr), Nat.zero_mul, Nat.zero_add,
      Nat.mod_mod, Nat.reducePow, BitVec.add_assoc, footer_eq_high_add_low]

theorem takeDist_distBits (d : U32) (rest : List Bool) : takeDist (distBits d ++ rest) = .ok (d, rest) := by
  have hslot : BitVec.ofNat 32 (0 * 2 ^ 6 + slotOf d.toNat % 2 ^ 6) = posSlotOf d := by
    have hlt : slotOf d.toNat < 2 ^ 6 := slotOf_lt d.isLt
    rw [posSlotOf_eq, Nat.zero_mul, Nat.zero_add, Nat.mod_eq_of_lt hlt]
  have hsmall : posSlotOf d < 4#32 ↔ d.toNat < 4 := by
    rw [BitVec.lt_def, toNat_posSlotOf]
    exact slotOf_lt_four_iff
  rw [takeDist, distBits_eq, List.append_assoc, takeMsb_bitsMsb]
  simp only [hslot]
  by_cases h4 : posSlotOf d < 4#32
  · rw [takeFooter_of_lt_four h4, posSlotOf_eq, slotOf_of_lt_four (hsmall.1 h4), BitVec.ofNat_toNat,
      BitVec.setWidth_eq]
  · have hr := toNat_sub_slotBase (Nat.le_of_not_lt (mt hsmall.2 h4))
    rw [takeFooter_of_four_le h4 (hr ▸ Nat.mod_lt _ (Nat.two_pow_pos _)), BitVec.ofNat_toNat,
      BitVec.setWidth_eq, BitVec.add_comm, BitVec.sub_add_cancel]

theorem lenPacket_lenBits (mk : U16 → Instr) {len : U16} (h : lenWf len = true) (rest : List Bool) :
    lenPacket mk (lenBits len.toNat ++ rest) = .ok (mk len, rest) := by
  rw [lenPacket, takeLen_lenBits h]

/-- The MATCH branch of R86 and R92: the end marker is the pair that no well-formed MATCH has. -/
theorem decodePacket_match {len : U16} (h : lenWf len = true) (d : U32) (rest : List Bool) :
    decodePacket (true :: false :: (lenBits len.toNat ++ distBits d ++ rest)) =
      .ok (if len = 2#16 ∧ d = 0xFFFFFFFF#32 then .eos else .matchDist len d, rest) := by
  rw [List.append_assoc, decodePacket, takeLen_lenBits h]
  simp only [takeDist_distBits]
  split <;> rfl

theorem matchDist_wf_iff (len : U16) (d : U32) : (Instr.matchDist len d).wf = true ↔
    lenWf len = true ∧ ¬ (len = 2#16 ∧ d = 0xFFFFFFFF#32) := by
  rw [Instr.wf, Bool.and_eq_true, Bool.not_eq_true', decide_eq_false_iff_not]

theorem decodePacket_encode {i : Instr} {ds : List Bool} (hi : i.wf = true) (he : encode i = .packet ds)
    (rest : List Bool) : decodePacket (ds ++ rest) = .ok (i, rest) := by
  cases i <;> cases he
  case lit b =>
    have hb : BitVec.ofNat 8 (0 * 2 ^ 8 + b.toNat % 2 ^ 8) = b := by
      rw [Nat.zero_mul, Nat.zero_add, Nat.mod_eq_of_lt b.isLt, BitVec.ofNat_toNat, BitVec.setWidth_eq]
    rw [List.cons_append, decodePacket, takeMsb_bitsMsb]
    exact congrArg (fun x => Except.ok (Instr.lit x, rest)) hb
  case matchDist len d =>
    obtain ⟨hlen, hd⟩ := (matchDist_wf_iff len d).1 hi
    exact (decodePacket_match hlen d rest).trans (by rw [if_neg hd])
  case eos => exact decodePacket_match (len := 2#16) rfl _ rest
  case shortrep => rfl
  case longrep0 => exact lenPacket_lenBits .longrep0 hi rest
  case longrep1 => exact lenPacket_lenBits .longrep1 hi rest
  case longrep2 => exact lenPacket_lenBits .longrep2 hi rest
  case longrep3 => exact lenPacket_lenBits .longrep3 hi rest

/-! ### O14, O15 -/

/-- Settles O14: each of the three kinds of code is decoded back, here with nothing after it. -/
theorem decodeOfEncodeIsTheInstruction : Obligations.DecodeOfEncodeIsTheInstruction := by
  intro i hi
  cases he : encode i with
  | ctrl w => rw [decode, decodeCtrl_eq_of_encode he]
  | micro bs =>
    have h := decodeMicro_encode hi he []
    rw [List.append_nil] at h
    rw [decode, h]
  | packet ds =>
    have h := decodePacket_encode hi he []
    rw [List.append_nil] at h
    rw [decode, h]

/-- Settles O15: what is decoded from the longer of two such codes is both packets. -/
theorem packetsAreSelfDelimiting : Obligations.PacketsAreSelfDelimiting := by
  refine ⟨fun i ds rest hi he => decodePacket_encode hi he rest, ?_⟩
  rintro i j ds _ hi hj hei hej ⟨rest, rfl⟩
  have h : decodePacket (ds ++ rest) = .ok (i, rest) := decodePacket_encode hi hei rest
  have h' : decodePacket (ds ++ rest ++ []) = .ok (j, []) := decodePacket_encode hj hej []
  rw [List.append_nil, h] at h'
  cases h'
  rfl

end Sys2Proof
end

section
/-! A step runs what its input decodes to (30_encoding R100 to R103), and words of the tables decode. -/

namespace Sys2Proof

open Machine

variable {s : State}

theorem step_of_agenda {x : Input} {tail : List Input} (h : s.agenda = x :: tail) :
    step s = takeInput x { s with agenda := tail, freeCount := s.freeCount + 1 } := by
  rw [step, h, State.tick, h]
  rfl

theorem runCode_of_ok {c : Code} {i : Instr} (h : decode c = .ok i) : runCode c s = exec i s := by
  rw [runCode, h]

theorem runCode_of_error {c : Code} {r : Reject} (h : decode c = .error r) :
    runCode c s = .refused (.badCode r) := by
  rw [runCode, h]

theorem decodeTableWord_eq_some_iff (nbits w : Nat) (i : Instr) :
    decodeTableWord nbits w = some i ↔ decode (tableCode nbits w) = .ok i := by
  unfold decodeTableWord
  cases decode (tableCode nbits w) <;> simp

/-- Settles O2: the step takes the first input off the agenda and hands it to `decode` or `decodeCtrl`. -/
theorem stepRunsTheDecodedInstruction : Obligations.StepRunsTheDecodedInstruction := by
  refine ⟨fun s c tail i h hi => ?_, fun s w tail h => step_of_agenda h, fun s c tail r h hr => ?_,
    fun s nbits w i hi => ?_⟩
  · exact (step_of_agenda h).trans (runCode_of_ok hi)
  · exact (step_of_agenda h).trans (runCode_of_error hr)
  · have h : (s.withFetchWord nbits w).agenda = .code (tableCode nbits w) :: s.agenda := rfl
    exact (step_of_agenda h).trans (runCode_of_ok ((decodeTableWord_eq_some_iff nbits w i).1 hi))

/-- Settles O16: closed words, each decoded by evaluation. -/
theorem wordsOfTheSpecDecode : Obligations.WordsOfTheSpecDecode := by
  unfold Obligations.WordsOfTheSpecDecode
  decide

end Sys2Proof
end

section
/-! Reading decisions (30_encoding R85 to R94): where the decoder reads the decisions that spell a value,
the operation that decodes it returns that value and stops where they end. -/

namespace Sys2Proof

open Machine

/-! ### Decision by decision -/

section

variable {α β : Type} {s u : State} {ds es : List Coded} {a : α} {b : β}

theorem bind_eq_ok_iff {m : Eng α} {f : α → Eng β} :
    (m >>= f) s = .ok b u ↔ ∃ a t, m s = .ok a t ∧ f a t = .ok b u := by
  rw [bind_run]
  cases m s <;> simp

theorem bitWord_inj {b c : Bool} : bitWord b = bitWord c ↔ b = c := by
  cases b <;> cases c <;> decide

theorem reads_bit_cons {c : CellRef} {b : Bool} :
    Reads (.bit c b :: ds) s u ↔ ∃ t, decBit c s = .ok b t ∧ Reads ds t u := by
  simp only [Reads, decCoded, bind_eq_ok_iff, pure_run, EStateM.Result.ok.injEq, List.map_cons, Coded.value,
    List.cons.injEq, bitWord_inj]
  constructor
  · rintro ⟨_, t, hbit, _, _, hrest, ⟨rfl, rfl⟩, rfl⟩
    exact ⟨t, hbit, hrest⟩
  · rintro ⟨t, hbit, hrest⟩
    exact ⟨b, t, hbit, _, u, hrest, ⟨rfl, rfl⟩, rfl⟩

theorem reads_direct_cons {v : U32} {n : Nat} :
    Reads (.direct v n :: ds) s u ↔
      ∃ t, decDirect n 0#32 s = .ok (BitVec.ofNat 32 (v.toNat % 2 ^ n)) t ∧ Reads ds t u := by
  simp only [Reads, decCoded, bind_eq_ok_iff, pure_run, EStateM.Result.ok.injEq, List.map_cons, Coded.value,
    List.cons.injEq]
  constructor
  · rintro ⟨_, t, hbits, _, _, hrest, ⟨rfl, rfl⟩, rfl⟩
    exact ⟨t, hbits, hrest⟩
  · rintro ⟨t, hbits, hrest⟩
    exact ⟨_, t, hbits, _, u, hrest, ⟨rfl, rfl⟩, rfl⟩

theorem reads_nil : Reads [] s u ↔ s = u := by
  simp [Reads, decCoded]

theorem reads_append : ∀ {ds : List Coded} {s : State},
    Reads (ds ++ es) s u ↔ ∃ t, Reads ds s t ∧ Reads es t u
  | [], s => by simp [reads_nil]
  | .bit c b :: ds, s => by
    simp only [List.cons_append, reads_bit_cons, reads_append (ds := ds)]
    exact ⟨fun ⟨t, h, v, hv, hu⟩ => ⟨v, ⟨t, h, hv⟩, hu⟩, fun ⟨v, ⟨t, h, hv⟩, hu⟩ => ⟨t, h, v, hv, hu⟩⟩
  | .direct v n :: ds, s => by
    simp only [List.cons_append, reads_direct_cons, reads_append (ds := ds)]
    exact ⟨fun ⟨t, h, v, hv, hu⟩ => ⟨v, ⟨t, h, hv⟩, hu⟩, fun ⟨v, ⟨t, h, hv⟩, hu⟩ => ⟨t, h, v, hv, hu⟩⟩

/-- Where the decisions `ds` are read, `m` returns `a` and stops in the state after them. -/
def DecodesTo (m : Eng α) (ds : List Coded) (a : α) : Prop := ∀ s u, Reads ds s u → m s = .ok a u

theorem DecodesTo.pure (a : α) : DecodesTo (Pure.pure a) [] a := fun _ _ h => by
  rw [reads_nil.1 h]
  rfl

theorem DecodesTo.bit {c : CellRef} {x : Bool} {f : Bool → Eng α} (h : DecodesTo (f x) ds a) :
    DecodesTo (decBit c >>= f) (.bit c x :: ds) a := fun _ u hr =>
  have ⟨_, hbit, hrest⟩ := reads_bit_cons.1 hr
  (bind_ok hbit).trans (h _ u hrest)

theorem DecodesTo.bind {m : Eng α} {f : α → Eng β} (hm : DecodesTo m ds a) (hf : DecodesTo (f a) es b) :
    DecodesTo (m >>= f) (ds ++ es) b := fun s u hr =>
  have ⟨_, hds, hes⟩ := reads_append.1 hr
  (bind_ok (hm s _ hds)).trans (hf _ u hes)

theorem DecodesTo.map {m : Eng α} (hm : DecodesTo m ds a) (f : α → β) :
    DecodesTo (m >>= fun a => Pure.pure (f a)) ds (f a) := fun s u hr => bind_ok (hm s u hr)

theorem decodesTo_decDirect (v : U32) (n : Nat) :
    DecodesTo (decDirect n 0#32) [.direct v n] (BitVec.ofNat 32 (v.toNat % 2 ^ n)) := fun _ _ hr => by
  obtain ⟨t, hbits, hrest⟩ := reads_direct_cons.1 hr
  rwa [← reads_nil.1 hrest]

end

/-! ### Trees (41_bit_tree R136, R139) -/

theorem childNode_pathNode_getLsbD {w : Nat} (sym : BitVec w) {N k n : Nat} (h : k + n + 1 = N) :
    childNode (BitVec.ofNat 32 (pathNode N sym.toNat k)) (sym.getLsbD n) =
      BitVec.ofNat 32 (pathNode N sym.toNat (k + 1)) := by
  rw [← BitVec.testBit_toNat]
  exact childNode_pathNode h

/-- The decoder walks down the nodes of the path, whose last holds the symbol below its leading 1. -/
theorem decodesTo_btDecFrom (t : CellRef) (sym : U32) {N : Nat} : ∀ {n k : Nat}, k + n = N →
    DecodesTo (btDecFrom t n (BitVec.ofNat 32 (pathNode N sym.toNat k)))
      (bitsOf (treeSteps t sym n (BitVec.ofNat 32 (pathNode N sym.toNat k))))
      (BitVec.ofNat 32 (2 ^ N + sym.toNat))
  | 0, k, h => by
    obtain rfl : k = N := h
    rw [pathNode, Nat.sub_self, pow_zero, Nat.div_one]
    exact .pure _
  | n + 1, k, h => .bit <| by
    rw [← childNode_eq_add, childNode_pathNode_getLsbD sym h]
    exact decodesTo_btDecFrom t sym (by omega)

theorem one_shiftLeft (n : Nat) : 1#32 <<< n = BitVec.ofNat 32 (2 ^ n) := by
  apply BitVec.eq_of_toNat_eq
  rw [BitVec.toNat_shiftLeft, BitVec.toNat_ofNat, BitVec.toNat_ofNat, Nat.shiftLeft_eq,
    Nat.one_mod_two_pow (by decide), Nat.one_mul]

theorem decodesTo_btDec (t : CellRef) {n sym : Nat} (hn : n ≤ 32) (h : sym < 2 ^ n) :
    DecodesTo (btDec t n) (bitsOf (treePath t n sym)) (BitVec.ofNat 32 sym) := by
  have hsym : (BitVec.ofNat 32 sym).toNat = sym := by
    rw [BitVec.toNat_ofNat, Nat.mod_eq_of_lt (h.trans_le (Nat.pow_le_pow_right (by decide) hn))]
  have hroot : BitVec.ofNat 32 (pathNode n sym 0) = 1#32 := pathNode_zero h
  have hread := decodesTo_btDecFrom t (BitVec.ofNat 32 sym) (Nat.zero_add n)
  rw [hsym, hroot, ← treePath_eq_treeSteps (by rwa [hsym]), hsym] at hread
  have hvalue : BitVec.ofNat 32 (2 ^ n + sym) - (1#32 <<< n) = BitVec.ofNat 32 sym := by
    rw [one_shiftLeft, BitVec.ofNat_add, BitVec.add_comm, BitVec.add_sub_cancel]
  rw [← hvalue]
  exact hread.map fun m => m - (1#32 <<< n)

/-- The bits below `k` and the bit at `k` are the bits below `k + 1`. -/
theorem ofNat_mod_or_bit (v k : Nat) :
    BitVec.ofNat 32 (v % 2 ^ k) ||| (bitWord (v.testBit k) <<< k) = BitVec.ofNat 32 (v % 2 ^ (k + 1)) := by
  have hbit : bitWord (v.testBit k) <<< k = BitVec.ofNat 32 (2 ^ k * (v / 2 ^ k % 2)) := by
    rw [← Nat.toNat_testBit]
    apply BitVec.eq_of_toNat_eq
    rw [BitVec.toNat_shiftLeft, Nat.shiftLeft_eq, BitVec.toNat_ofNat, Nat.mul_comm]
    cases v.testBit k <;> rfl
  rw [hbit, ← BitVec.ofNat_or, Nat.mod_pow_succ, Nat.or_comm, Nat.add_comm,
    Nat.two_pow_add_eq_or_of_lt (Nat.mod_lt _ (Nat.two_pow_pos k))]

theorem decodesTo_btRdecFrom (t : CellRef) (v : Nat) : ∀ n k : Nat,
    DecodesTo (btRdecFrom t n k (BitVec.ofNat 32 (2 ^ k + reverseBits k v)) (BitVec.ofNat 32 (v % 2 ^ k)))
      (bitsOf ((List.range' k n).map fun k =>
        (treeCell t (BitVec.ofNat 32 (2 ^ k + reverseBits k v)), v.testBit k)))
      (BitVec.ofNat 32 (v % 2 ^ (k + n)))
  | 0, _ => .pure _
  | n + 1, k => .bit <| by
    rw [← childNode_eq_add, childNode_reverseBits, ofNat_mod_or_bit, ← Nat.add_assoc, Nat.add_right_comm]
    exact decodesTo_btRdecFrom t v n (k + 1)

theorem decodesTo_btRdec (t : CellRef) {n v : Nat} (h : v < 2 ^ n) :
    DecodesTo (btRdec t n) (bitsOf (reversePath t n v)) (BitVec.ofNat 32 v) := by
  have hread := decodesTo_btRdecFrom t v n 0
  rw [Nat.zero_add, Nat.mod_eq_of_lt h, pow_zero, Nat.mod_one, ← List.range_eq_range'] at hread
  exact hread

/-! ### Literals (42_literal_coder R154, R155) -/

/-- The decision `d` of literal block 0 in the block with index `c` (R151). -/
def inBlock (c : U32) (d : CellRef × Bool) : CellRef × Bool := (⟨d.1.arr, c * 768#32 + d.1.idx⟩, d.2)

theorem inBlock_litCell (c m : U32) (b : Bool) : inBlock c (litCell 0#32 m, b) = (litCell c m, b) := by
  simp [inBlock, litCell]

theorem block_index (c : U32) : c * 768#32 = BitVec.ofNat 32 (768 * c.toNat) := by
  rw [BitVec.ofNat_mul, BitVec.ofNat_toNat, BitVec.setWidth_eq, BitVec.mul_comm]

theorem treeSteps_inBlock (c sym : U32) : ∀ n m,
    (treeSteps (blockTree 0#32) sym n m).map (inBlock c) = treeSteps (blockTree c) sym n m
  | 0, _ => rfl
  | n + 1, m => congrArg₂ List.cons (inBlock_litCell c m _) (treeSteps_inBlock c sym n _)

theorem matchedSteps_inBlock (c : U32) (matchByte sym : Byte) : ∀ n m,
    (matchedSteps 0#32 matchByte sym n m).map (inBlock c) = matchedSteps c matchByte sym n m
  | 0, _ => rfl
  | n + 1, m => by
    rw [matchedSteps, matchedSteps, List.map_cons, apply_ite (List.map (inBlock c)),
      matchedSteps_inBlock c matchByte sym n, treeSteps_inBlock]
    exact congrArg₂ List.cons (inBlock_litCell c _ _) rfl

theorem matchedPath_inBlock (c : U32) (matchByte sym : Byte) :
    (matchedPath 0 matchByte sym).map (inBlock c) = matchedPath c.toNat matchByte sym := by
  rw [matchedPath, matchedPath, List.map_map]
  refine List.map_congr_left fun k _ => ?_
  dsimp only [Function.comp, inBlock]
  rw [block_index, ← BitVec.ofNat_add, Nat.mul_zero, Nat.zero_add, Nat.add_assoc, ← Nat.add_assoc]

/-- The path of a matched literal in any block, as `matchedSteps_eq_levels` has it for block 0. -/
theorem matchedPath_eq_matchedSteps (c : U32) (matchByte sym : Byte) :
    matchedPath c.toNat matchByte sym = matchedSteps c matchByte sym 8 1#32 := by
  have hzero := matchedSteps_eq_levels (c := 0#16) (Nat.zero_add 8) (.zero matchByte sym)
  rw [pathNode_zero sym.isLt, ← List.range_eq_range'] at hzero
  rw [← matchedPath_inBlock, ← matchedSteps_inBlock]
  exact congrArg (List.map (inBlock c)) hzero.symm

theorem decodesTo_litDecFrom (c : U32) (sym : Byte) {n k : Nat} (h : k + n = 8) :
    DecodesTo (litDecFrom c n (BitVec.ofNat 32 (pathNode 8 sym.toNat k)))
      (bitsOf (treeSteps (blockTree c) (sym.setWidth 32) n (BitVec.ofNat 32 (pathNode 8 sym.toNat k))))
      (BitVec.ofNat 32 (2 ^ 8 + sym.toNat)) := by
  have hread := decodesTo_btDecFrom (blockTree c) (sym.setWidth 32) h
  rwa [toNat_symbol, ← litDecFrom_eq_btDecFrom] at hread

theorem decodesTo_litDecMatchedFrom (c : U32) (matchByte sym : Byte) : ∀ {n k : Nat}, k + n = 8 →
    DecodesTo (litDecMatchedFrom c matchByte n (BitVec.ofNat 32 (pathNode 8 sym.toNat k)))
      (bitsOf (matchedSteps c matchByte sym n (BitVec.ofNat 32 (pathNode 8 sym.toNat k))))
      (BitVec.ofNat 32 (2 ^ 8 + sym.toNat))
  | 0, k, h => decodesTo_litDecFrom c sym h
  | n + 1, k, h => .bit <| by
    rw [childNode_pathNode_getLsbD sym h]
    split
    · exact decodesTo_litDecMatchedFrom c matchByte sym (by omega)
    · exact decodesTo_litDecFrom c sym (by omega)

theorem setWidth_literalNode (sym : Byte) : (BitVec.ofNat 32 (2 ^ 8 + sym.toNat)).setWidth 8 = sym := by
  apply BitVec.eq_of_toNat_eq
  rw [BitVec.toNat_setWidth, BitVec.toNat_ofNat]
  omega

theorem decodesTo_litDec (c : U32) (sym : Byte) :
    DecodesTo (litDec c) (bitsOf (literalPath c.toNat sym)) sym := by
  have hpath : literalPath c.toNat sym = treeSteps (blockTree c) (sym.setWidth 32) 8 1#32 := by
    rw [← treePath_eq_treeSteps (by rw [toNat_symbol]; exact sym.isLt), toNat_symbol, blockTree, block_index]
    rfl
  have hread := decodesTo_litDecFrom c sym (Nat.zero_add 8)
  rw [pathNode_zero sym.isLt, ← hpath] at hread
  have hbyte := hread.map fun m => m.setWidth 8
  rwa [setWidth_literalNode] at hbyte

theorem decodesTo_litDecMatched (c : U32) (matchByte sym : Byte) :
    DecodesTo (litDecMatched c matchByte) (bitsOf (matchedPath c.toNat matchByte sym)) sym := by
  have hread := decodesTo_litDecMatchedFrom c matchByte sym (Nat.zero_add 8)
  rw [pathNode_zero sym.isLt, ← matchedPath_eq_matchedSteps] at hread
  have hbyte := hread.map fun m => m.setWidth 8
  rwa [setWidth_literalNode] at hbyte

/-! ### Lengths (43_length_coder R166) -/

theorem lenRow_index (ps : U32) : ps <<< 3 = BitVec.ofNat 32 (8 * ps.toNat) := by
  apply BitVec.eq_of_toNat_eq
  rw [BitVec.toNat_shiftLeft, Nat.shiftLeft_eq, BitVec.toNat_ofNat, Nat.mul_comm]

theorem decodesTo_lenDec (c : LenSel) (ps : U32) {k : Nat} (hk : k ≤ 271) :
    DecodesTo (lenDec c ps) (bitsOf (lengthPath c ps.toNat k)) (BitVec.ofNat 32 k) := by
  have hsum : ∀ base, base ≤ k → BitVec.ofNat 32 base + BitVec.ofNat 32 (k - base) = BitVec.ofNat 32 k :=
    fun base h => by rw [← BitVec.ofNat_add, Nat.add_sub_cancel' h]
  unfold lengthPath
  rw [← lenRow_index]
  by_cases h8 : k < 8
  · rw [if_pos h8]
    exact .bit (decodesTo_btDec (lowTree c ps) (by decide) h8)
  rw [if_neg h8]
  by_cases h16 : k < 16
  · have hread := decodesTo_btDec (midTree c ps) (n := 3) (sym := k - 8) (by decide) (by omega)
    rw [if_pos h16, ← hsum 8 (by omega)]
    exact .bit (.bit (hread.map _))
  · have hread := decodesTo_btDec (highTree c) (n := 8) (sym := k - 16) (by decide) (by omega)
    rw [if_neg h16, ← hsum 16 (by omega)]
    exact .bit (.bit (hread.map _))

/-! ### Distances (46_codec R278) -/

theorem posSlotTree_lenToPosStateOf {len : U32} (h : 2 ≤ len.toNat) :
    posSlotTree (lenToPosStateOf len) = ⟨.posSlot, BitVec.ofNat 32 (64 * min (len.toNat - 2) 3)⟩ := by
  have hsub : (len - 2#32).toNat = len.toNat - 2 := BitVec.toNat_sub_of_le h
  have hpos : (lenToPosStateOf len).toNat = min (len.toNat - 2) 3 := by
    unfold lenToPosStateOf
    split
    · next hlt =>
      rw [BitVec.lt_def, hsub] at hlt
      exact hsub.trans (Nat.min_eq_left (Nat.le_of_lt hlt)).symm
    · next hge =>
      rw [BitVec.lt_def, hsub] at hge
      exact (Nat.min_eq_right (Nat.le_of_not_lt hge)).symm
  have hidx : lenToPosStateOf len <<< 6 = BitVec.ofNat 32 (64 * min (len.toNat - 2) 3) := by
    apply BitVec.eq_of_toNat_eq
    rw [BitVec.toNat_shiftLeft, Nat.shiftLeft_eq, BitVec.toNat_ofNat, hpos, Nat.mul_comm]
  rw [posSlotTree, hidx]

theorem posModelsTree_eq (slot : U32) : posModelsTree slot =
    ⟨.posModels, BitVec.ofInt 32 ((baseOf slot.toNat : Int) - slot.toNat - 1)⟩ := by
  have hidx : slotBase slot - slot - 1#32 = BitVec.ofInt 32 ((baseOf slot.toNat : Int) - slot.toNat - 1) := by
    rw [slotBase_eq, Int.sub_eq_add_neg, Int.sub_eq_add_neg, BitVec.ofInt_add, BitVec.ofInt_add,
      BitVec.ofInt_neg, BitVec.ofInt_neg, BitVec.ofInt_natCast, BitVec.ofInt_natCast, BitVec.ofNat_toNat,
      BitVec.setWidth_eq, ← BitVec.sub_eq_add_neg, ← BitVec.sub_eq_add_neg]
    rfl
  rw [posModelsTree, hidx]

/-- The decisions of a distance after its slot, `r` being what they add to the slot's base
(30_encoding R94). -/
def footerCode (slot r : Nat) : List Coded :=
  if slot < 14 then
    bitsOf (reversePath ⟨.posModels, BitVec.ofInt 32 ((baseOf slot : Int) - slot - 1)⟩ (slot / 2 - 1) r)
  else
    .direct (BitVec.ofNat 32 (r / 16)) (slot / 2 - 1 - 4) ::
      bitsOf (reversePath ⟨.posAlign, 0#32⟩ 4 (r % 16))

theorem distanceCode_eq (len d : Nat) : distanceCode len d =
    bitsOf (treePath ⟨.posSlot, BitVec.ofNat 32 (64 * min (len - 2) 3)⟩ 6 (slotOf d)) ++
      if slotOf d < 4 then [] else footerCode (slotOf d) (d - baseOf (slotOf d)) := rfl

theorem decodesTo_decFooter {slot : U32} {r : Nat} (hr : r < 2 ^ footerBits slot) (hr' : r < 2 ^ 32) :
    DecodesTo (decFooter slot) (footerCode slot.toNat r) (slotBase slot + BitVec.ofNat 32 r) := by
  unfold decFooter footerCode
  rw [← posModelsTree_eq, ← footerBits_eq]
  by_cases h14 : slot < 14#32
  · rw [if_pos h14, if_pos (show slot.toNat < 14 from h14)]
    exact (decodesTo_btRdec _ hr).map _
  · have hhi : (BitVec.ofNat 32 (r / 16)).toNat % 2 ^ (footerBits slot - 4) = r / 16 := by
      rw [BitVec.toNat_ofNat, Nat.mod_eq_of_lt (b := 2 ^ 32) (by omega),
        Nat.mod_eq_of_lt (footer_high_lt h14 hr)]
    have hdirect := decodesTo_decDirect (BitVec.ofNat 32 (r / 16)) (footerBits slot - 4)
    have halign := decodesTo_btRdec posAlignTree (n := 4) (v := r % 16) (Nat.mod_lt r (by decide))
    rw [hhi] at hdirect
    rw [if_neg h14, if_neg (show ¬ slot.toNat < 14 from h14), ← footer_eq_high_add_low r, ← BitVec.add_assoc]
    exact hdirect.bind (halign.map _)

/-- The distance read is the one whose field it is, the end marker's included. -/
theorem decodesTo_decDistance {len : U32} (h : 2 ≤ len.toNat) (d : U32) :
    DecodesTo (decDistance len) (distanceCode len.toNat d.toNat) d := by
  have hslot := decodesTo_btDec (posSlotTree (lenToPosStateOf len)) (n := 6) (by decide) (slotOf_lt d.isLt)
  rw [← posSlotOf_eq, posSlotTree_lenToPosStateOf h] at hslot
  have hsmall : posSlotOf d < 4#32 ↔ slotOf d.toNat < 4 := by
    rw [BitVec.lt_def, toNat_posSlotOf]
    rfl
  unfold decDistance
  rw [distanceCode_eq, posSlotTree_lenToPosStateOf h]
  refine hslot.bind ?_
  by_cases h4 : slotOf d.toNat < 4
  · have hd : posSlotOf d = d := by
      rw [posSlotOf_eq, slotOf_of_lt_four (slotOf_lt_four_iff.1 h4), BitVec.ofNat_toNat, BitVec.setWidth_eq]
    rw [if_pos h4, if_pos (hsmall.2 h4), hd]
    exact .pure d
  · have hsplit := baseOf_add_footer (Nat.le_of_not_lt (mt slotOf_lt_four_iff.2 h4))
    have hlt : d.toNat - baseOf (slotOf d.toNat) < 2 ^ footerBits (posSlotOf d) := by
      have := Nat.mod_lt d.toNat (Nat.two_pow_pos (slotOf d.toNat / 2 - 1))
      rw [footerBits_eq, toNat_posSlotOf]
      omega
    have hd : slotBase (posSlotOf d) + BitVec.ofNat 32 (d.toNat - baseOf (slotOf d.toNat)) = d := by
      rw [slotBase_eq, toNat_posSlotOf, ← BitVec.ofNat_add, Nat.add_sub_cancel' (by omega),
        BitVec.ofNat_toNat, BitVec.setWidth_eq]
    have hfooter := decodesTo_decFooter hlt (by have := d.isLt; omega)
    rw [if_neg h4, if_neg (mt hsmall.1 h4)]
    rwa [hd, toNat_posSlotOf] at hfooter

end Sys2Proof
end

section
/-! Decoding with enough bytes of IN left: each decision takes at most one (40_range_coder R121, R122), so
the operations run to their end, and what they return is in its range. -/

namespace Sys2Proof

open Machine

section

variable {α β : Type} {k l : Nat} {P : α → Prop} {Q : β → Prop}

/-- With `k` bytes of IN left `m` runs to its end without an error, takes no more of them, and returns
a value of `P`. -/
def Yields (k : Nat) (P : α → Prop) (m : Eng α) : Prop :=
  ∀ s l, DecInput s (k + l) → ∃ a u, m s = .ok a u ∧ P a ∧ DecInput u l ∧ NoError s u

theorem Yields.pure {a : α} (h : P a) : Yields k P (Pure.pure a) := fun s l hin =>
  ⟨a, s, rfl, h, hin.mono (Nat.le_add_left l k), .refl s⟩

theorem Yields.bind {m : Eng α} {f : α → Eng β} (hm : Yields k P m) (hf : ∀ a, P a → Yields l Q (f a)) :
    Yields (k + l) Q (m >>= f) := fun s j hin => by
  obtain ⟨a, t, hrun, ha, hleft, hne⟩ := hm s (l + j) (by rwa [← Nat.add_assoc])
  obtain ⟨b, u, hrun', hb, hleft', hne'⟩ := hf a ha t j hleft
  exact ⟨b, u, (bind_ok hrun).trans hrun', hb, hleft', hne.trans hne'⟩

theorem Yields.map {m : Eng α} {f : α → β} (hm : Yields k P m) (hf : ∀ a, P a → Q (f a)) :
    Yields k Q (m >>= fun a => Pure.pure (f a)) := hm.bind (l := 0) fun a ha => .pure (hf a ha)

theorem Yields.get_bind {f : State → Eng β} (hf : ∀ s, Yields k Q (f s)) :
    Yields k Q (MonadState.get >>= f) := fun s l hin => hf s s l hin

theorem Yields.mono {m : Eng α} (hm : Yields k P m) (hl : k ≤ l) : Yields l P m := fun s j hin => by
  obtain ⟨a, u, hrun, ha, hleft, hne⟩ := hm s (l - k + j) (by rwa [← Nat.add_assoc, Nat.add_sub_cancel' hl])
  exact ⟨a, u, hrun, ha, hleft.mono (Nat.le_add_left j _), hne⟩

theorem Yields.ite {c : Prop} [Decidable c] {m n : Eng α} (hm : c → Yields k P m) (hn : ¬ c → Yields k P n) :
    Yields k P (if c then m else n) := by
  split
  · next h => exact hm h
  · next h => exact hn h

theorem Yields.imp {m : Eng α} {R : α → Prop} (hm : Yields k P m) (h : ∀ a, P a → R a) : Yields k R m :=
  fun s l hin =>
    have ⟨a, u, hrun, ha, hrest⟩ := hm s l hin
    ⟨a, u, hrun, h a ha, hrest⟩

/-- A step that takes at most one byte, and what follows it. -/
theorem Yields.step {m : Eng α} {f : α → Eng β} (hm : Yields 1 P m) (hf : ∀ a, Yields k Q (f a)) :
    Yields (k + 1) Q (m >>= f) := by
  rw [Nat.add_comm]
  exact hm.bind fun a _ => hf a

end

/-- Nothing is asked of the value. -/
abbrev Any {α : Type} (_ : α) : Prop := True

theorem yields_decBit (c : CellRef) : Yields 1 Any (decBit c) := fun _ l hin =>
  have ⟨t, hrun, hleft, hne⟩ := decBit_runs c (Nat.add_comm 1 l ▸ hin)
  ⟨_, t, hrun, trivial, hleft, hne⟩

theorem yields_decDirectBit : Yields 1 Any decDirectBit := fun s l hin => by
  obtain ⟨d, b, hrun⟩ := decDirectBit_run s
  obtain ⟨t, ht, hleft, hne⟩ := decNormalise_runs (s := { s with dec := d }) (Nat.add_comm 1 l ▸ hin)
  exact ⟨b, t, hrun.trans (bind_ok ht), trivial, hleft, hne⟩

theorem yields_decDirect : ∀ n r, Yields n Any (decDirect n r)
  | 0, _ => .pure trivial
  | n + 1, _ => yields_decDirectBit.step fun _ => yields_decDirect n _

/-! ### Trees -/

/-- `m` is a node of level `k` of a tree, its root being on level 0. -/
def OnLevel (k : Nat) (m : U32) : Prop := 2 ^ k ≤ m.toNat ∧ m.toNat < 2 ^ (k + 1)

theorem OnLevel.child {k : Nat} {m : U32} (h : OnLevel k m) (hk : k < 31) (b : Bool) :
    OnLevel (k + 1) (childNode m b) := by
  obtain ⟨hlo, hhi⟩ := h
  have hb := b.toNat_le
  have htop : 2 ^ (k + 1) ≤ 2 ^ 31 := Nat.pow_le_pow_right (by decide) hk
  have hnode : (childNode m b).toNat = 2 * m.toNat + b.toNat := by
    rw [childNode_toNat, Nat.mod_eq_of_lt (by omega)]
  rw [OnLevel, hnode, Nat.pow_succ 2 (k + 1)]
  rw [Nat.pow_succ] at hhi ⊢
  omega

theorem yields_btDecFrom (t : CellRef) : ∀ {n k : Nat} {m : U32}, k + n ≤ 31 → OnLevel k m →
    Yields n (OnLevel (k + n)) (btDecFrom t n m)
  | 0, _, _, _, h => .pure h
  | n + 1, k, m, hk, h => (yields_decBit _).step fun b => by
    rw [← childNode_eq_add, ← Nat.add_assoc, Nat.add_right_comm]
    exact yields_btDecFrom t (by omega) (h.child (by omega) b)

theorem yields_btDec (t : CellRef) {n : Nat} (hn : n ≤ 31) :
    Yields n (fun v => v.toNat < 2 ^ n) (btDec t n) := by
  have hroot : OnLevel 0 1#32 := ⟨by decide, by decide⟩
  refine (yields_btDecFrom t (by omega) hroot).map fun m ⟨hlo, hhi⟩ => ?_
  have htop : 2 ^ n ≤ 2 ^ 31 := Nat.pow_le_pow_right (by decide) hn
  rw [Nat.zero_add] at hlo hhi
  rw [Nat.pow_succ] at hhi
  rw [one_shiftLeft, BitVec.toNat_sub, BitVec.toNat_ofNat]
  omega

theorem yields_btRdecFrom (t : CellRef) : ∀ n i m sym, Yields n Any (btRdecFrom t n i m sym)
  | 0, _, _, _ => .pure trivial
  | n + 1, i, _, _ => (yields_decBit _).step fun _ => yields_btRdecFrom t n (i + 1) _ _

theorem yields_btRdec (t : CellRef) (n : Nat) : Yields n Any (btRdec t n) := yields_btRdecFrom t n 0 _ _

/-! ### Literals -/

theorem yields_litDecFrom (c : U32) : ∀ n m, Yields n Any (litDecFrom c n m)
  | 0, _ => .pure trivial
  | n + 1, _ => (yields_decBit _).step fun _ => yields_litDecFrom c n _

theorem yields_litDecMatchedFrom (c : U32) (matchByte : Byte) : ∀ n m,
    Yields n Any (litDecMatchedFrom c matchByte n m)
  | 0, _ => .pure trivial
  | n + 1, _ => (yields_decBit _).step fun _ =>
      .ite (fun _ => yields_litDecMatchedFrom c matchByte n _) fun _ => yields_litDecFrom c n _

theorem yields_decLitByte : Yields 8 Any decLitByte := .get_bind fun _ =>
  .ite (fun _ => (yields_litDecFrom _ 8 _).map fun _ _ => trivial) fun _ =>
    (yields_litDecMatchedFrom _ _ 8 _).map fun _ _ => trivial

/-! ### Lengths and distances -/

theorem yields_lenDec (c : LenSel) (ps : U32) : Yields 10 (fun k => k.toNat ≤ 271) (lenDec c ps) := by
  have hsum : ∀ {n : Nat} (base : Nat), base + 2 ^ n ≤ 272 → ∀ k : U32, k.toNat < 2 ^ n →
      (BitVec.ofNat 32 base + k).toNat ≤ 271 := fun base h k hk => by
    rw [BitVec.toNat_add, BitVec.toNat_ofNat]
    omega
  refine (yields_decBit _).step fun first => .ite (fun _ => ?_) fun _ => ?_
  · refine (yields_decBit _).step fun second => .ite (fun _ => ?_) fun _ => ?_
    · exact (yields_btDec _ (by decide)).map (hsum 16 (by decide))
    · exact ((yields_btDec _ (by decide)).map (hsum (n := 3) 8 (by decide))).mono (by decide)
  · exact ((yields_btDec _ (by decide)).imp fun k (hk : k.toNat < 2 ^ 3) => by omega).mono (by decide)

theorem yields_decDistance (len : U32) : Yields 36 Any (decDistance len) := by
  refine Yields.bind (k := 6) (l := 30) (yields_btDec _ (by decide)) fun slot hslot =>
    .ite (fun _ => .pure trivial) fun _ => ?_
  unfold decFooter
  rw [footerBits_eq]
  refine .ite (fun h14 => ?_) fun _ => ?_
  · rw [BitVec.lt_def, BitVec.toNat_ofNat] at h14
    exact ((yields_btRdec _ _).map fun _ _ => trivial).mono (by omega)
  · exact ((yields_decDirect _ _).bind fun _ _ => (yields_btRdec _ 4).map fun _ _ => trivial).mono (by omega)

end Sys2Proof
end

section
/-! A packet off the body (30_encoding R85 to R95): the packet fetched is the one whose decisions stand
there, and with enough input there always is one. -/

namespace Sys2Proof

open Machine

variable {s u : State}

/-! ### Cells -/

theorem stateIndex_eq (st : U4) (ps : U32) :
    stateIndex st ps = BitVec.ofNat 32 (16 * st.toNat + ps.toNat) := by
  apply BitVec.eq_of_toNat_eq
  rw [stateIndex, BitVec.toNat_add, BitVec.toNat_shiftLeft, BitVec.toNat_setWidth, Nat.shiftLeft_eq,
    BitVec.toNat_ofNat]
  omega

theorem isMatchCell_eq (st : U4) (ps : U32) :
    isMatchCell st ps = cellOf .isMatch (16 * st.toNat + ps.toNat) := by
  rw [isMatchCell, stateIndex_eq, cellOf]

theorem isRep0LongCell_eq (st : U4) (ps : U32) :
    isRep0LongCell st ps = cellOf .isRep0Long (16 * st.toNat + ps.toNat) := by
  rw [isRep0LongCell, stateIndex_eq, cellOf]

theorem isRepCell_eq (st : U4) : isRepCell st = cellOf .isRep st.toNat := by
  rw [isRepCell, cellOf, BitVec.ofNat_toNat]

theorem isRepG0Cell_eq (st : U4) : isRepG0Cell st = cellOf .isRepG0 st.toNat := by
  rw [isRepG0Cell, cellOf, BitVec.ofNat_toNat]

theorem isRepG1Cell_eq (st : U4) : isRepG1Cell st = cellOf .isRepG1 st.toNat := by
  rw [isRepG1Cell, cellOf, BitVec.ofNat_toNat]

theorem isRepG2Cell_eq (st : U4) : isRepG2Cell st = cellOf .isRepG2 st.toNat := by
  rw [isRepG2Cell, cellOf, BitVec.ofNat_toNat]

/-! ### Branches of the decision tree -/

section

variable {α : Type} {c : CellRef} {m n : Eng α} {ds : List Coded} {a : α}

theorem DecodesTo.bit_true (h : DecodesTo m ds a) :
    DecodesTo (decBit c >>= fun x => if x = true then m else n) (.bit c true :: ds) a := .bit h

theorem DecodesTo.bit_false (h : DecodesTo n ds a) :
    DecodesTo (decBit c >>= fun x => if x = true then m else n) (.bit c false :: ds) a := .bit h

end

theorem decodesTo_decRepChoice (st : U4) (ps : U32) {i : Nat} (hi : i < 4) {short : Bool}
    (hs : short = true → i = 0) :
    DecodesTo (decRepChoice st ps) (bitsOf (repNaming st.toNat ps.toNat i short)) (i, short) := by
  have hlong : i ≠ 0 → short = false := fun h => Bool.eq_false_iff.2 (mt hs h)
  unfold decRepChoice
  rw [isRep0LongCell_eq, isRepG0Cell_eq, isRepG1Cell_eq, isRepG2Cell_eq]
  match i, hi with
  | 0, _ =>
    refine .bit_false (.bit ?_)
    rw [Bool.not_not]
    exact .pure (0, short)
  | 1, _ =>
    rw [hlong (by decide)]
    exact .bit_true (.bit_false (.pure (1, false)))
  | 2, _ =>
    rw [hlong (by decide)]
    exact .bit_true (.bit_true (.bit (x := false) (DecodesTo.pure (2, false))))
  | 3, _ =>
    rw [hlong (by decide)]
    exact .bit_true (.bit_true (.bit (.pure (3, false))))

/-! ### Packets -/

theorem stIsChar_iff (st : U4) : stIsChar st = true ↔ st.toNat < 7 := decide_eq_true_iff

theorem decodesTo_literal (st : U4) (c : U32) (matchByte b : Byte) :
    DecodesTo (if stIsChar st then litDec c else litDecMatched c matchByte)
      (bitsOf (if st.toNat < 7 then literalPath c.toNat b else matchedPath c.toNat matchByte b)) b := by
  by_cases h : st.toNat < 7
  · rw [if_pos h, if_pos ((stIsChar_iff st).2 h)]
    exact decodesTo_litDec c b
  · rw [if_neg h, if_neg (mt (stIsChar_iff st).1 h)]
    exact decodesTo_litDecMatched c matchByte b

/-- The literal's block and matched byte are those before its first decision, which changes neither the
codec nor the window. -/
theorem fetchPacket_lit {b : Byte} (h : Reads (litPacket s.codec.state.toNat s.posState.toNat
    (decLitBlock s.codec).toNat (owGet s s.codec.reps.r0) b) s u) : fetchPacket s = .ok (.lit b) u := by
  obtain ⟨t, hbit, hrest⟩ := reads_bit_cons.1 h
  rw [← isMatchCell_eq] at hbit
  have hframe : DecFrame (fun _ => True) s t := by
    have hkeep := (moves_decBit (isMatchCell s.codec.state s.posState)).keeps s
    rw [hbit] at hkeep
    exact hkeep.frame
  have hbyte : owGet t s.codec.reps.r0 = owGet s s.codec.reps.r0 := by
    rw [owGet, owGet, hframe.window, hframe.core.freeCount]
  have hlit : decLitByte t = .ok b u := by
    rw [decLitByte, get_bind_run, hframe.codec, hbyte]
    exact decodesTo_literal _ _ _ b t u hrest
  exact (bind_ok hbit).trans (bind_ok hlit)

/-- A length symbol and its length as words (30_encoding R93). -/
theorem lenWord_eq {len : U16} (h : 2 ≤ len.toNat) :
    2#32 + BitVec.ofNat 32 (len.toNat - 2) = len.setWidth 32 := by
  rw [← BitVec.ofNat_add, Nat.add_sub_cancel' h, BitVec.ofNat_toNat]

theorem toNat_lenWord (len : U16) : (len.setWidth 32).toNat = len.toNat :=
  BitVec.toNat_setWidth_of_le (by decide)

theorem setWidth_lenWord (len : U16) : (len.setWidth 32).setWidth 16 = len := by
  rw [BitVec.setWidth_setWidth_of_le _ (by decide), BitVec.setWidth_eq]

theorem fetchPacket_match {len : U16} (hlen : lenWf len = true) {d : U32}
    (h : Reads (matchPacket s.codec.state.toNat s.posState.toNat len.toNat d.toNat) s u) :
    fetchPacket s = .ok (if len = 2#16 ∧ d = kEndMarker then .eos else .matchDist len d) u := by
  obtain ⟨h2, h273⟩ := (lenWf_iff len).1 hlen
  have hlenDec := decodesTo_lenDec .matchLen s.posState (k := len.toNat - 2) (by omega)
  have hdist := decodesTo_decDistance (len := len.setWidth 32) (by rwa [toNat_lenWord]) d
  rw [toNat_lenWord] at hdist
  rw [fetchPacket, get_bind_run, isMatchCell_eq, isRepCell_eq]
  refine DecodesTo.bit_true (.bit_false (hlenDec.bind ?_)) s u h
  rw [lenWord_eq h2, setWidth_lenWord]
  exact hdist.map fun d => if len = 2#16 ∧ d = kEndMarker then Instr.eos else Instr.matchDist len d

theorem fetchPacket_shortrep (h : Reads (repPacket s.codec.state.toNat s.posState.toNat 0 1) s u) :
    fetchPacket s = .ok .shortrep u := by
  have hname := decodesTo_decRepChoice s.codec.state s.posState (i := 0) (short := true) (by decide)
    fun _ => rfl
  rw [fetchPacket, get_bind_run, isMatchCell_eq, isRepCell_eq]
  refine DecodesTo.bit_true (.bit_true (hname.bind ?_)) s u h
  exact .pure Instr.shortrep

/-- Long rep `i` of `len` bytes (R88 to R91). -/
def longrep (i : Nat) (len : U16) : Instr :=
  match i with
  | 0 => .longrep0 len
  | 1 => .longrep1 len
  | 2 => .longrep2 len
  | _ => .longrep3 len

theorem fetchPacket_longrep {i : Nat} (hi : i < 4) {len : U16} (hlen : lenWf len = true)
    (h : Reads (repPacket s.codec.state.toNat s.posState.toNat i len.toNat) s u) :
    fetchPacket s = .ok (longrep i len) u := by
  obtain ⟨h2, h273⟩ := (lenWf_iff len).1 hlen
  have hname := decodesTo_decRepChoice s.codec.state s.posState hi (short := false) nofun
  have hlenDec := decodesTo_lenDec .repLen s.posState (k := len.toNat - 2) (by omega)
  have hlong : ¬ len.toNat = 1 := by omega
  rw [repPacket, if_neg hlong, decide_eq_false hlong] at h
  rw [fetchPacket, get_bind_run, isMatchCell_eq, isRepCell_eq]
  refine DecodesTo.bit_true (.bit_true (hname.bind ?_)) s u h
  have hpacket := hlenDec.map fun k => longrep i ((2#32 + k).setWidth 16)
  rw [lenWord_eq h2, setWidth_lenWord] at hpacket
  exact hpacket

/-! ### With enough input -/

theorem yields_decRepChoice (st : U4) (ps : U32) : Yields 3 Any (decRepChoice st ps) :=
  (yields_decBit _).step fun _ => .ite
    (fun _ => (yields_decBit _).step fun _ => .ite
      (fun _ => (yields_decBit _).step fun _ => .pure trivial) fun _ => .pure trivial)
    fun _ => (yields_decBit _).step fun _ => .pure trivial

theorem longrep_wf (i : Nat) {len : U16} (h : lenWf len = true) : (longrep i len).wf = true := by
  unfold longrep
  split <;> exact h

theorem lenWf_lenWord {k : U32} (h : k.toNat ≤ 271) : lenWf ((2#32 + k).setWidth 16) = true := by
  rw [lenWf_iff, BitVec.toNat_setWidth, BitVec.toNat_add, BitVec.toNat_ofNat]
  omega

theorem yields_fetchPacket : Yields 48 (·.wf = true) fetchPacket := by
  refine .get_bind fun s => Yields.step (k := 47) (yields_decBit _) fun isMatch =>
    .ite (fun _ => ?_) fun _ => ?_
  · refine Yields.step (k := 46) (yields_decBit _) fun isRep => .ite (fun _ => ?_) fun _ => ?_
    · refine Yields.bind (k := 3) (l := 43) (yields_decRepChoice _ _) fun r _ =>
        .ite (fun _ => .pure rfl) fun _ => ?_
      have hpacket : Yields 10 (·.wf = true) (lenDec .repLen s.posState >>= fun k =>
          pure (longrep r.1 ((2#32 + k).setWidth 16))) :=
        (yields_lenDec _ _).map fun _ hk => longrep_wf r.1 (lenWf_lenWord hk)
      exact hpacket.mono (by decide)
    · refine Yields.bind (k := 10) (l := 36) (yields_lenDec _ _) fun k hk =>
        (yields_decDistance _).map fun d _ => ?_
      split
      · rfl
      · next hd => exact (matchDist_wf_iff _ _).2 ⟨lenWf_lenWord hk, hd⟩
  · exact Yields.mono (k := 8) (yields_decLitByte.map fun _ _ => rfl) (by decide)

/-- Settles O48: each branch of the decision tree returns the packet it spells, and each is taken with at
most 48 decisions. -/
theorem fetchedPacketIsTheOneRead : Obligations.FetchedPacketIsTheOneRead := by
  intro s
  refine ⟨fun b u => fetchPacket_lit, fun len d u hwf h => ?_, fun u h => ?_, fun u => fetchPacket_shortrep,
    fun len u hlen => ?_, fun hin => ?_⟩
  · obtain ⟨hlen, hd⟩ := (matchDist_wf_iff len d).1 hwf
    exact (fetchPacket_match hlen h).trans (by rw [kEndMarker, if_neg hd])
  · exact fetchPacket_match (len := 2#16) (d := 0xFFFFFFFF#32) rfl h
  · exact ⟨fetchPacket_longrep (i := 0) (by decide) hlen, fetchPacket_longrep (i := 1) (by decide) hlen,
      fetchPacket_longrep (i := 2) (by decide) hlen, fetchPacket_longrep (i := 3) (by decide) hlen⟩
  · obtain ⟨i, u, hrun, hwf, -, hne⟩ := yields_fetchPacket s 0 hin
    exact ⟨i, u, hrun, hwf, hne⟩

end Sys2Proof
end

section
/-! SHIFT_LOW (40_range_coder R112) in closed form: the bytes it emits and the state it ends in, whether it
holds the byte, emits the pending ones or finds OUT full. -/

namespace Sys2Proof

open Machine

variable {s : State} {carry temp : Byte}

/-! ### The pending bytes -/

/-- The bytes of `n` passes of R112's loop. -/
def pendingBytes (carry : Byte) : Nat → Byte → List Byte
  | 0, _ => []
  | n + 1, temp => (temp + carry) :: pendingBytes carry n 0xFF#8

@[simp] theorem length_pendingBytes (carry : Byte) : ∀ n temp, (pendingBytes carry n temp).length = n
  | 0, _ => rfl
  | n + 1, _ => congrArg (· + 1) (length_pendingBytes carry n _)

theorem getElem?_pendingBytes : ∀ {n j : Nat} {temp : Byte}, j < n →
    (pendingBytes carry n temp)[j]? = some ((if j = 0 then temp else 0xFF#8) + carry)
  | _ + 1, 0, _, _ => rfl
  | n + 1, j + 1, temp, h => by
    rw [pendingBytes, List.getElem?_cons_succ, getElem?_pendingBytes (Nat.lt_of_succ_lt_succ h),
      if_neg (Nat.succ_ne_zero j), ite_self]

/-- The registers after `n` passes. -/
def countedRegs (e : RangeEnc) (n : Nat) : RangeEnc :=
  { e with
    outPosition := e.outPosition + BitVec.ofNat 64 n
    cacheSize := e.cacheSize - BitVec.ofNat 64 n }

/-- The state after `n` passes. -/
def emitted (carry temp : Byte) (n : Nat) (s : State) : State :=
  { appendAll s (pendingBytes carry n temp) with enc := countedRegs s.enc n }

theorem emitted_zero : emitted carry temp 0 s = s := by
  simp [emitted, appendAll, pendingBytes, writeBytes, countedRegs]

theorem countedRegs_countedRegs (e : RangeEnc) (k n : Nat) :
    countedRegs (countedRegs e k) n = countedRegs e (k + n) := by
  simp only [countedRegs, BitVec.ofNat_add, BitVec.add_assoc, RangeEnc.mk.injEq, true_and, and_true]
  bv_omega

theorem emitted_succ (n : Nat) (h : s.host.outLen.toNat < s.outCap) :
    emitted carry 0xFF#8 n (emitted carry temp 1 s) = emitted carry temp (n + 1) s := by
  have hbytes : pendingBytes carry 1 temp ++ pendingBytes carry n 0xFF#8 = pendingBytes carry (n + 1) temp := rfl
  have happend := appendAll_appendAll (bs := pendingBytes carry n 0xFF#8) (s := s)
    (as := pendingBytes carry 1 temp) h
  rw [hbytes] at happend
  have hregs : countedRegs (countedRegs s.enc 1) n = countedRegs s.enc (n + 1) := by
    rw [countedRegs_countedRegs, Nat.add_comm]
  calc emitted carry 0xFF#8 n (emitted carry temp 1 s)
      = { appendAll (appendAll s (pendingBytes carry 1 temp)) (pendingBytes carry n 0xFF#8) with
          enc := countedRegs (countedRegs s.enc 1) n } := rfl
    _ = emitted carry temp (n + 1) s := by rw [happend, hregs]; rfl

theorem emitted_outLen {n : Nat} (h : s.host.outLen.toNat + n ≤ s.outCap) :
    (emitted carry temp n s).host.outLen.toNat = s.host.outLen.toNat + n := by
  have hlen := appendAll_outLen (s := s) (bs := pendingBytes carry n temp) (by rwa [length_pendingBytes])
  rwa [length_pendingBytes] at hlen

theorem read_emitted {n j : Nat} (hm : s.outMem.wf = true) (h : j < n) :
    (emitted carry temp n s).outMem.read (s.host.outLen.toNat + j) =
      (if j = 0 then temp else 0xFF#8) + carry := by
  refine (read_writeBytes (pendingBytes carry n temp) _ _ hm).trans ?_
  rw [if_pos (Nat.le_add_right _ j), Nat.add_sub_cancel_left, getElem?_pendingBytes h, Option.getD_some]

theorem read_emitted_of_outside {n a : Nat} (hm : s.outMem.wf = true)
    (h : a < s.host.outLen.toNat ∨ s.host.outLen.toNat + n ≤ a) :
    (emitted carry temp n s).outMem.read a = s.outMem.read a := by
  refine (read_writeBytes (pendingBytes carry n temp) _ _ hm).trans ?_
  rcases h with h | h
  · exact if_neg (Nat.not_le.2 h)
  · rw [List.getElem?_eq_none (by rw [length_pendingBytes]; omega), Option.getD_none, ite_self]

theorem wf_writeBytes : ∀ (bs : List Byte) (i : Nat) {m : Memory}, m.wf = true → (writeBytes bs i m).wf = true
  | [], _, _, h => h
  | _ :: bs, i, _, h => wf_writeBytes bs (i + 1) (Memory.wf_write h)

theorem wf_emitted {n : Nat} (hm : s.outMem.wf = true) : (emitted carry temp n s).outMem.wf = true :=
  wf_writeBytes _ _ hm

theorem emitPending_succ (n : Nat) (h : s.host.outLen.toNat < s.outCap) :
    emitPending carry (n + 1) temp s = emitPending carry n 0xFF#8 (emitted carry temp 1 s) :=
  bind_ok (outWrite_ok _ h)

theorem emitPending_ok {n : Nat} (h : s.host.outLen.toNat + n ≤ s.outCap) :
    emitPending carry n temp s = .ok () (emitted carry temp n s) := by
  induction n generalizing temp s with
  | zero => rw [emitted_zero]; rfl
  | succ n ih =>
    have hlen := emitted_outLen (carry := carry) (temp := temp) (s := s) (n := 1) (by omega)
    have hroom : (emitted carry temp 1 s).host.outLen.toNat + n ≤ (emitted carry temp 1 s).outCap := by
      rw [hlen]
      exact (by omega : s.host.outLen.toNat + 1 + n ≤ s.outCap)
    rw [emitPending_succ n (by omega), ih hroom, emitted_succ n (by omega)]

/-- The loop stops at the byte for which OUT has no room. -/
theorem emitPending_full {k n : Nat} (h : s.host.outLen.toNat + k = s.outCap) (hk : k < n) :
    emitPending carry n temp s = .error .resourceExhausted (emitted carry temp k s) := by
  obtain ⟨j, rfl⟩ := Nat.exists_eq_add_of_lt hk
  induction k generalizing temp s with
  | zero =>
    rw [emitted_zero, Nat.zero_add]
    exact bind_error (outWrite_full _ (Nat.le_of_eq h.symm))
  | succ k ih =>
    have hlen := emitted_outLen (carry := carry) (temp := temp) (s := s) (n := 1) (by omega)
    have hroom : (emitted carry temp 1 s).host.outLen.toNat + k = (emitted carry temp 1 s).outCap := by
      rw [hlen]
      exact (by omega : s.host.outLen.toNat + 1 + k = s.outCap)
    rw [show k + 1 + j + 1 = k + j + 1 + 1 by omega, emitPending_succ _ (by omega),
      ih hroom (by omega), emitted_succ k (by omega)]

/-! ### SHIFT_LOW -/

/-- The top byte of `low` is settled (R112). -/
def Settled (low : U64) : Prop := low < 0xFF000000#64 ∨ 0x100000000#64 ≤ low

theorem settled_iff (low : U64) : Settled low ↔ low.toNat < 0xFF000000 ∨ 2 ^ 32 ≤ low.toNat := Iff.rfl

/-- `low` moved up by a byte. -/
def shiftedLow (low : U64) : U64 := (low &&& 0x00FFFFFF#64) <<< 8

theorem toNat_shiftedLow (low : U64) : (shiftedLow low).toNat = low.toNat % 2 ^ 24 * 2 ^ 8 := by
  have hm : low.toNat &&& 0x00FFFFFF = low.toNat % 2 ^ 24 := Nat.and_two_pow_sub_one_eq_mod _ 24
  rw [shiftedLow, BitVec.toNat_shiftLeft, BitVec.toNat_and, Nat.shiftLeft_eq]
  simp only [BitVec.toNat_ofNat, Nat.reducePow, Nat.reduceMod] at hm ⊢
  omega

theorem shiftedLow_eq (low : U64) : shiftedLow low = BitVec.ofNat 64 (low.toNat % 2 ^ 24 * 2 ^ 8) := by
  rw [← toNat_shiftedLow, BitVec.ofNat_toNat, BitVec.setWidth_eq]

theorem setWidth_ushiftRight (low : U64) (k : Nat) :
    (low >>> k).setWidth 8 = BitVec.ofNat 8 (low.toNat / 2 ^ k) := by
  rw [← BitVec.ofNat_toNat, BitVec.toNat_ushiftRight, Nat.shiftRight_eq_div_pow]

/-- The carry out of `low`. -/
def carryOf (low : U64) : Byte := (low >>> 32).setWidth 8

theorem ofNat_pendingCount (c : U64) : BitVec.ofNat 64 (pendingCount c) = c := by
  unfold pendingCount
  split
  · next h => rw [h]; rfl
  · rw [BitVec.ofNat_toNat, BitVec.setWidth_eq]

/-- The registers after the pending bytes are out. -/
def emptiedRegs (e : RangeEnc) : RangeEnc :=
  { e with
    low := shiftedLow e.low
    cache := (e.low >>> 24).setWidth 8
    cacheSize := 1#64
    outPosition := e.outPosition + e.cacheSize }

theorem emitIfSettled_of_settled (h : Settled s.enc.low) : emitIfSettled s = emitSettled s :=
  congrFun (if_pos h) s

theorem emitIfSettled_of_not_settled (h : ¬ Settled s.enc.low) : emitIfSettled s = .ok () s :=
  congrFun (if_neg h) s

theorem emitSettled_run (s : State) : emitSettled s =
    (emitPending (carryOf s.enc.low) (pendingCount s.enc.cacheSize) s.enc.cache >>= fun _ =>
      modify fun s => { s with enc := { s.enc with cache := (s.enc.low >>> 24).setWidth 8 } }) s := rfl

theorem shiftLow_held (h : ¬ Settled s.enc.low) : shiftLow s =
    .ok () { s with
      enc := { s.enc with cacheSize := s.enc.cacheSize + 1#64, low := shiftedLow s.enc.low } } :=
  bind_ok (emitIfSettled_of_not_settled h)

theorem shiftLow_emits (h : Settled s.enc.low)
    (hroom : s.host.outLen.toNat + pendingCount s.enc.cacheSize ≤ s.outCap) : shiftLow s =
    .ok () { emitted (carryOf s.enc.low) s.enc.cache (pendingCount s.enc.cacheSize) s with
      enc := emptiedRegs s.enc } := by
  have hem := (emitSettled_run s).trans (bind_ok (emitPending_ok hroom))
  refine (bind_ok ((emitIfSettled_of_settled h).trans hem)).trans ?_
  simp [emitted, countedRegs, emptiedRegs, ofNat_pendingCount, shiftedLow]

theorem shiftLow_full {k : Nat} (h : Settled s.enc.low) (hk : s.host.outLen.toNat + k = s.outCap)
    (hfull : k < pendingCount s.enc.cacheSize) : shiftLow s =
    .error .resourceExhausted (emitted (carryOf s.enc.low) s.enc.cache k s) := by
  have hem := (emitSettled_run s).trans (bind_error (emitPending_full hk hfull))
  exact bind_error ((emitIfSettled_of_settled h).trans hem)

/-- Settles O20: the byte held, the pending bytes emitted, or as many of them as OUT has room for. -/
theorem shiftLowHoldsOrEmits : Obligations.ShiftLowHoldsOrEmits := by
  intro s hm hcap low settled carry n free emits
  have hcarry : carryOf s.enc.low = carry := setWidth_ushiftRight _ 32
  have hread (k : Nat) (t : State) (hlen : t.host.outLen.toNat = s.host.outLen.toNat + k)
      (ht : t.outMem = (emitted (carryOf s.enc.low) s.enc.cache k s).outMem) : emits t k :=
    ⟨hlen, fun j hj => by rw [ht, read_emitted hm hj, hcarry],
      fun a ha => by rw [ht, read_emitted_of_outside hm ha]⟩
  refine ⟨fun h => ?_, fun h hroom => ?_, fun h hfull => ?_⟩
  · refine (completeUnit_ok (shiftLow_held h)).trans ?_
    rw [shiftedLow_eq]
  · have hfit : s.host.outLen.toNat + pendingCount s.enc.cacheSize ≤ s.outCap :=
      (by omega : s.host.outLen.toNat + n ≤ s.outCap)
    have hpos : BitVec.ofNat 64 n = s.enc.cacheSize := ofNat_pendingCount _
    refine ⟨_, completeUnit_ok (shiftLow_emits h hfit), ⟨rfl, rfl⟩, hread n _ (emitted_outLen hfit) rfl, ?_⟩
    rw [← shiftedLow_eq, ← setWidth_ushiftRight, hpos]
    rfl
  · have hfit : s.host.outLen.toNat + free = s.outCap := Nat.add_sub_cancel' hcap
    exact ⟨_, completeUnit_error (shiftLow_full h hfit hfull),
      hread free _ (emitted_outLen (Nat.le_of_eq hfit)) rfl, rfl⟩

end Sys2Proof
end

section
/-! The range encoder's operations (40_range_coder R110 to R117) as the runs of their parts, and the cells they
adapt. -/

namespace Sys2Proof

open Machine

variable {s : State}

/-! ### Runs -/

section

variable {α β : Type} {u : State}

theorem bind_congr_run {m n : Eng α} (f : α → Eng β) (h : m s = n u) : (m >>= f) s = (n >>= f) u := by
  rw [bind_run, h, ← bind_run]

/-- A value passed on through a function. -/
theorem map_bind_run {γ : Type} (m : Eng α) (f : α → β) (g : β → Eng γ) (s : State) :
    ((m >>= fun a => pure (f a)) >>= g) s = (m >>= fun a => g (f a)) s := by
  rw [bind_run, bind_run, bind_run]
  cases m s <;> rfl

/-- An instruction depends on its operation's run alone. -/
theorem complete_congr {m n : Eng Ret} (h : m s = n u) : complete m s = complete n u :=
  congrArg (fun r => Host.Outcome.next (finish r)) h

theorem completeUnit_congr {m n : Eng Unit} (h : m s = n u) : completeUnit m s = completeUnit n u :=
  complete_congr (bind_congr_run _ h)

end

theorem encNormalise_of_lt (h : s.enc.range < kTopValue) :
    encNormalise s = shiftLow { s with enc := { s.enc with range := s.enc.range <<< 8 } } :=
  congrFun (if_pos h) s

theorem encNormalise_of_not_lt (h : ¬ s.enc.range < kTopValue) : encNormalise s = .ok () s :=
  congrFun (if_neg h) s

/-- The state of ENC_BIT before it normalises (R111). -/
def afterNarrow (c : CellRef) (bit : Bool) (s : State) : State :=
  { s.setProb c (adapt (s.prob c) bit) with enc := narrow s.enc (bitBound s.enc.range (s.prob c)) bit }

theorem encBit_run (c : CellRef) (bit : Bool) (s : State) :
    encBit c bit s = encNormalise (afterNarrow c bit s) := rfl

theorem encDirectBit_run (bit : Bool) (s : State) :
    encDirectBit bit s = encNormalise { s with enc := halve s.enc bit } := rfl

/-- Settles O18: ENC_BIT is the split and then the renormalisation. -/
theorem encBitCodesOneDecision : Obligations.EncBitCodesOneDecision := by
  intro c bit s p bound split
  have hsplit : split = afterNarrow c bit s := by cases bit <;> rfl
  rw [hsplit]
  refine ⟨?_, fun hroom => ?_⟩
  · by_cases h : (afterNarrow c bit s).enc.range < kTopValue
    · exact (completeUnit_congr (encNormalise_of_lt h)).trans (if_pos h).symm
    · exact (completeUnit_ok (encNormalise_of_not_lt h)).trans (if_neg h).symm
  · obtain ⟨t, ht, -, hne⟩ := encBit_runs c bit (k := 0) hroom
    exact ⟨_, completeUnit_ok ht, hne⟩

/-! ### Direct bits (R113) -/

theorem encDirect_runs (value : U32) : ∀ {n k : Nat} {s : State}, EncRoom s (k + n) →
    ∃ t, encDirect value n s = .ok () t ∧ EncRoom t k ∧ NoError s t
  | 0, _, s, h => ⟨s, rfl, h, .refl s⟩
  | n + 1, _, s, h => by
    obtain ⟨t, ht, hroom, hne⟩ := encNormalise_runs (s := { s with enc := halve s.enc (value.getLsbD n) }) h
    obtain ⟨u, hu, hroom', hne'⟩ := encDirect_runs value hroom
    exact ⟨u, (bind_ok ht).trans hu, hroom', hne.trans hne'⟩

/-- Settles O21: ENC_DIRECT of `n + 1` bits is the top bit and then ENC_DIRECT of the others. -/
theorem encDirectCodesBitByBit : Obligations.EncDirectCodesBitByBit := by
  refine ⟨fun _ _ => rfl, ?_, fun value n s _ hroom => ?_⟩
  · intro value n s hn range enc
    have hlen : (n + 1#8).toNat = n.toNat + 1 := by
      rw [BitVec.toNat_add, BitVec.toNat_ofNat]
      omega
    have hexec : exec (.rcEncDirect value (n + 1#8)) s =
        completeUnit (encNormalise >>= fun _ => encDirect value n.toNat) { s with enc := enc } := by
      show completeUnit (encDirect value (n + 1#8).toNat) s = _
      rw [hlen]
      exact completeUnit_congr rfl
    rw [hexec]
    refine ⟨fun h => ?_, fun h t ht => ⟨completeUnit_ok ht, ?_⟩, fun h e t ht => ?_⟩
    · exact completeUnit_congr (bind_ok (encNormalise_of_not_lt (BitVec.not_lt.2 h)))
    · exact completeUnit_congr (bind_ok ((encNormalise_of_lt h).trans ht))
    · rw [completeUnit_error (bind_error ((encNormalise_of_lt h).trans ht))]
      exact (completeUnit_error ht).symm
  · obtain ⟨t, ht, -, hne⟩ := encDirect_runs value (k := 0) (n := n.toNat) (by rwa [Nat.zero_add])
    exact ⟨_, completeUnit_ok ht, hne⟩

/-! ### Initialisation and flush (R110, R117) -/

/-- The state after SHIFT_LOW, where OUT has room. -/
@[irreducible] def afterShift (s : State) : State :=
  if s.enc.low < 0xFF000000#64 ∨ 0x100000000#64 ≤ s.enc.low then
    { emitted (carryOf s.enc.low) s.enc.cache s.enc.cacheSize.toNat s with enc := emptiedRegs s.enc }
  else
    { s with enc := { s.enc with cacheSize := s.enc.cacheSize + 1#64, low := shiftedLow s.enc.low } }

theorem afterShift_of_settled (h : Settled s.enc.low) : afterShift s =
    { emitted (carryOf s.enc.low) s.enc.cache s.enc.cacheSize.toNat s with enc := emptiedRegs s.enc } := by
  unfold afterShift
  exact if_pos h

theorem afterShift_of_not_settled (h : ¬ Settled s.enc.low) : afterShift s =
    { s with enc := { s.enc with cacheSize := s.enc.cacheSize + 1#64, low := shiftedLow s.enc.low } } := by
  unfold afterShift
  exact if_neg h

theorem pendingCount_of_pos {c : U64} (h : 1 ≤ c.toNat) : pendingCount c = c.toNat :=
  if_neg fun h0 => by rw [h0] at h; exact absurd h (by decide)

theorem shiftLow_eq {k : Nat} (h : EncRoom s (k + 1)) : shiftLow s = .ok () (afterShift s) := by
  obtain ⟨hheld, hroom⟩ := h
  have hcount := pendingCount_of_pos hheld
  by_cases hs : Settled s.enc.low
  · rw [shiftLow_emits hs (by omega), afterShift_of_settled hs, hcount]
  · rw [shiftLow_held hs, afterShift_of_not_settled hs]

/-- The register in which the machine returns a value plays no part in SHIFT_LOW. -/
theorem afterShift_withRet (s : State) (r : Ret) :
    afterShift { s with ret := r } = { afterShift s with ret := r } := by
  by_cases hs : Settled s.enc.low
  · rw [afterShift_of_settled hs, afterShift_of_settled (s := { s with ret := r }) hs]
    rfl
  · rw [afterShift_of_not_settled hs, afterShift_of_not_settled (s := { s with ret := r }) hs]

/-- What `k` SHIFT_LOWs do to the counts (R118). -/
structure Moved (k : Nat) (s t : State) : Prop where
  noError : NoError s t
  range : t.enc.range = s.enc.range
  total : t.host.outLen.toNat + t.enc.cacheSize.toNat = s.host.outLen.toNat + s.enc.cacheSize.toNat + k
  grows : s.host.outLen.toNat ≤ t.host.outLen.toNat
  position : t.enc.outPosition = s.enc.outPosition + BitVec.ofNat 64 (t.host.outLen.toNat - s.host.outLen.toNat)

theorem Moved.refl (s : State) : Moved 0 s s := ⟨.refl s, rfl, rfl, le_refl _, by simp⟩

theorem Moved.trans {k l : Nat} {s t u : State} (h : Moved k s t) (h' : Moved l t u) : Moved (k + l) s u where
  noError := h.noError.trans h'.noError
  range := h'.range.trans h.range
  total := by rw [h'.total, h.total, Nat.add_assoc]
  grows := h.grows.trans h'.grows
  position := by
    have h1 := h.grows
    have h2 := h'.grows
    rw [h'.position, h.position, BitVec.add_assoc, ← BitVec.ofNat_add]
    congr 2
    omega

theorem moved_afterShift {k : Nat} (h : EncRoom s (k + 1)) :
    EncRoom (afterShift s) k ∧ Moved 1 s (afterShift s) ∧
      (afterShift s).enc.low = shiftedLow s.enc.low := by
  obtain ⟨t, ht, hroom, hne, hrange, hlow, htotal⟩ := shiftLow_runs h
  obtain rfl : afterShift s = t := by
    have hrun := (shiftLow_eq h).symm.trans ht
    cases hrun
    rfl
  refine ⟨hroom, ⟨hne, hrange, htotal, ?_, ?_⟩, hlow⟩
  · by_cases hs : Settled s.enc.low
    · rw [afterShift_of_settled hs]
      exact (Nat.le_add_right _ _).trans_eq (emitted_outLen (by have := h.2; omega)).symm
    · rw [afterShift_of_not_settled hs]
  · by_cases hs : Settled s.enc.low
    · rw [afterShift_of_settled hs, emitted_outLen (by have := h.2; omega), Nat.add_sub_cancel_left,
        BitVec.ofNat_toNat, BitVec.setWidth_eq]
      rfl
    · rw [afterShift_of_not_settled hs]
      simp

theorem moved_iterate : ∀ {n k : Nat} {s : State}, EncRoom s (k + n) →
    shiftLowTimes n s = .ok () (afterShift^[n] s) ∧ EncRoom (afterShift^[n] s) k ∧
      Moved n s (afterShift^[n] s) ∧ (afterShift^[n] s).enc.low = shiftedLow^[n] s.enc.low
  | 0, _, s, h => ⟨rfl, h, .refl s, rfl⟩
  | n + 1, k, s, h => by
    obtain ⟨hroom, hmoved, hlow⟩ := moved_afterShift (k := k + n) h
    obtain ⟨hrun, hroom', hmoved', hlow'⟩ := moved_iterate hroom
    rw [Function.iterate_succ_apply, Function.iterate_succ_apply, ← hlow]
    exact ⟨(bind_ok (shiftLow_eq h)).trans hrun, hroom', Nat.add_comm 1 n ▸ hmoved.trans hmoved', hlow'⟩

theorem exec_shiftLow {k : Nat} (h : EncRoom s (k + 1)) :
    exec .rcShiftLow s = .next { afterShift s with ret := .none } := completeUnit_ok (shiftLow_eq h)

theorem runInstrs_cons {i : Instr} {is : List Instr} {t u : State} {rs : List Ret} (h : exec i s = .next t)
    (h' : runInstrs is t = some (rs, u)) : runInstrs (i :: is) s = some (t.ret :: rs, u) := by
  simp only [runInstrs, h, h']

theorem runInstrs_shiftLows : ∀ {n : Nat} {s : State}, EncRoom s n →
    runInstrs (List.replicate n .rcShiftLow) { s with ret := .none } =
      some (List.replicate n .none, { afterShift^[n] s with ret := .none })
  | 0, _, _ => rfl
  | n + 1, s, h => by
    have hstep : exec .rcShiftLow { s with ret := .none } = .next { afterShift s with ret := .none } := by
      rw [exec_shiftLow (s := { s with ret := .none }) h, afterShift_withRet]
    exact runInstrs_cons hstep (runInstrs_shiftLows (moved_afterShift h).1)

/-- The first of them runs from whatever the operation before it returned. -/
theorem runInstrs_shiftLows_succ {n : Nat} (h : EncRoom s (n + 1)) :
    runInstrs (List.replicate (n + 1) .rcShiftLow) s =
      some (List.replicate (n + 1) .none, { afterShift^[n + 1] s with ret := .none }) :=
  runInstrs_cons (exec_shiftLow h) (runInstrs_shiftLows (moved_afterShift h).1)

theorem shiftedLow_iterate_four (low : U64) : shiftedLow^[4] low = 0#64 := by
  apply BitVec.eq_of_toNat_eq
  show (shiftedLow (shiftedLow (shiftedLow (shiftedLow low)))).toNat = 0
  simp only [toNat_shiftedLow]
  omega

/-- After four SHIFT_LOWs `low` is 0, so the fifth writes what is pending. -/
theorem afterShift_iterate_five (h : EncRoom s 5) :
    (afterShift^[5] s).enc.low = 0#64 ∧ (afterShift^[5] s).enc.cache = 0#8 ∧
      (afterShift^[5] s).enc.cacheSize = 1#64 := by
  obtain ⟨-, -, -, hlow⟩ := moved_iterate (n := 4) (k := 1) h
  rw [shiftedLow_iterate_four] at hlow
  have hs : Settled (afterShift^[4] s).enc.low := by rw [hlow]; exact .inl (by decide)
  rw [Function.iterate_succ_apply', afterShift_of_settled hs]
  simp only [emptiedRegs, hlow]
  decide

/-- Settles O17: the fifth SHIFT_LOW of a flush writes all that is pending, since `low` is 0 by then. -/
theorem encoderInitAndFlush : Obligations.EncoderInitAndFlush := by
  refine ⟨fun _ => rfl, fun s hroom _ => ?_⟩
  obtain ⟨hrun, -, hmoved, -⟩ := moved_iterate (n := 5) (k := 0) hroom
  obtain ⟨hlow, hcache, hsize⟩ := afterShift_iterate_five hroom
  have htotal := hmoved.total
  rw [hsize] at htotal
  exact ⟨_, completeUnit_ok hrun, hmoved.noError, runInstrs_shiftLows_succ (n := 4) hroom, hlow, hcache, hsize,
    hmoved.range, htotal, hmoved.position⟩

/-! ### Cells (R114) -/

section

variable {R : State → State → Prop}

/-! What appending to OUT and setting the encoder's registers keep, the encoder's parts keep. -/

variable (hR : Composes R) (hout : ∀ s b, R s (s.appendOut b)) (henc : ∀ s e, R s { s with enc := e })

include hR hout

theorem keeps_outWrite_of (b : Byte) : Keeps R (outWrite b) := fun s => by
  rcases Nat.lt_or_ge s.host.outLen.toNat s.outCap with h | h
  · rw [outWrite_ok b h]; exact hout s b
  · rw [outWrite_full b h]; exact hR.refl s

include henc

theorem keeps_emitPending_of (carry : Byte) : ∀ n temp, Keeps R (emitPending carry n temp)
  | 0, _ => .pure hR ()
  | n + 1, _ => .bind hR (keeps_outWrite_of hR hout _) fun _ =>
      .bind hR (.modify fun s => henc s _) fun _ => keeps_emitPending_of carry n _

theorem keeps_shiftLow_of : Keeps R shiftLow := by
  have hsettled : Keeps R emitSettled :=
    .read fun _ => .bind hR (keeps_emitPending_of hR hout henc _ _ _) fun _ => .modify fun s => henc s _
  exact .bind hR (.read fun _ => .ite hsettled (.pure hR ())) fun _ => .modify fun s => henc s _

theorem keeps_encNormalise_of : Keeps R encNormalise :=
  .read fun _ => .ite (.bind hR (.modify fun s => henc s _) fun _ => keeps_shiftLow_of hR hout henc) (.pure hR ())

end

theorem sameProbs_composes : Composes fun s t : State => t.probs = s.probs where
  refl _ := rfl
  trans h h' := h'.trans h

theorem encNormalise_probs : Keeps (fun s t => t.probs = s.probs) encNormalise :=
  keeps_encNormalise_of sameProbs_composes (fun _ _ => rfl) fun _ _ => rfl

theorem adapt_true_toNat (p : U16) : (adapt p true).toNat = p.toNat - p.toNat / 32 := by
  have hshift : (p >>> 5).toNat = p.toNat / 32 := by
    rw [BitVec.toNat_ushiftRight, Nat.shiftRight_eq_div_pow]
  show (p - (p >>> 5)).toNat = _
  rw [BitVec.toNat_sub_of_le (by rw [BitVec.le_def, hshift]; omega), hshift]

theorem adapt_false_toNat {p : U16} (h : p.toNat ≤ 2048) :
    (adapt p false).toNat = p.toNat + (2048 - p.toNat) / 32 := by
  have hsub : (2048#16 - p).toNat = 2048 - p.toNat := BitVec.toNat_sub_of_le h
  have hshift : ((2048#16 - p) >>> 5).toNat = (2048 - p.toNat) / 32 := by
    rw [BitVec.toNat_ushiftRight, hsub, Nat.shiftRight_eq_div_pow]
  show (p + ((2048#16 - p) >>> 5)).toNat = _
  rw [BitVec.toNat_add, hshift]
  omega

theorem adapt_eq_self_iff {p : U16} (h : p.toNat ≤ 2048) (b : Bool) :
    adapt p b = p ↔ if b then p.toNat ≤ 31 else 2017 ≤ p.toNat := by
  rw [← BitVec.toNat_inj]
  cases b
  · rw [adapt_false_toNat h, if_neg Bool.false_ne_true]
    omega
  · rw [adapt_true_toNat, if_pos rfl]
    omega

theorem execDecBit_run (c : CellRef) (s : State) : exec (.rcDecBit c) s =
    complete (decNormalise >>= fun _ =>
      pure (Ret.word (bitWord (!decide (s.dec.code < bitBound s.dec.range (s.prob c))))))
      (afterDecision c s) := by
  refine complete_congr ((map_bind_run _ _ _ s).trans ((bind_congr_run _ (decBit_run c s)).trans ?_))
  exact map_bind_run _ _ _ _

/-- Whether ENC_BIT runs to its end or finds OUT full, the cell is adapted. -/
theorem prob_of_exec_encBit {c : CellRef} {b : Bool} {t : State} (hprobs : Store.wf probInit s.probs = true)
    (h : exec (.rcEncBit c b) s = .next t) : t.prob c = adapt (s.prob c) b := by
  have hrun : completeUnit encNormalise (afterNarrow c b s) = .next t :=
    (completeUnit_congr (encBit_run c b s)).symm.trans h
  have hsame : t.probs = (afterNarrow c b s).probs :=
    Keeps.complete sameProbs_composes
      (.bind sameProbs_composes encNormalise_probs fun _ => .pure sameProbs_composes _)
      (fun _ _ => rfl) (fun _ _ => rfl) hrun
  calc t.prob c = (s.setProb c (adapt (s.prob c) b)).prob c := congrArg (Store.get probInit · _) hsame
    _ = adapt (s.prob c) b := (prob_setProb hprobs).trans (if_pos rfl)

/-- Whether DEC_BIT runs to its end or finds no byte left, the cell is adapted. -/
theorem prob_of_exec_decBit {c : CellRef} {t : State} (hprobs : Store.wf probInit s.probs = true)
    (h : exec (.rcDecBit c) s = .next t) :
    t.prob c = adapt (s.prob c) (!decide (s.dec.code < bitBound s.dec.range (s.prob c))) := by
  have hR := DecKeep.composes fun _ => False
  have hrun := (execDecBit_run c s).symm.trans h
  have hkeep := Keeps.bind hR keeps_decNormalise fun _ =>
    .pure hR (Ret.word (bitWord (!decide (s.dec.code < bitBound s.dec.range (s.prob c)))))
  obtain ⟨-, hframe⟩ := hkeep.complete hR DecKeep.of_ret DecKeep.of_error hrun (Store.wf_set hprobs)
  exact (hframe.cells c id).trans ((prob_setProb hprobs).trans (if_pos rfl))

/-- Settles O19: the cell is adapted whether or not the operation ends in an error. -/
theorem adaptationLaw : Obligations.AdaptationLaw := by
  intro c s hprobs hlo hhi
  refine ⟨fun b t h => ?_, fun t h => ?_⟩
  · rw [prob_of_exec_encBit hprobs h]
    have hvalue : (adapt (s.prob c) b).toNat = if b then (s.prob c).toNat - (s.prob c).toNat / 32
        else (s.prob c).toNat + (2048 - (s.prob c).toNat) / 32 := by
      cases b
      · exact adapt_false_toNat (by omega)
      · exact adapt_true_toNat _
    obtain ⟨h1, h2⟩ := adapt_bounds (s.prob c) b hlo hhi
    exact ⟨hvalue, h1, h2, adapt_eq_self_iff (by omega) b⟩
  · intro b
    rw [prob_of_exec_decBit hprobs h]
    refine ⟨fun hb => ?_, fun hb => ?_⟩
    · rw [bitBound, decide_eq_false hb]
      exact adapt_true_toNat _
    · rw [bitBound, decide_eq_true (not_not.1 hb)]
      exact adapt_false_toNat (by omega)

end Sys2Proof
end

section
/-! The range decoder's operations (40_range_coder R120 to R122): the bytes shifted in, where they run out, and
the decision of a direct bit. -/

namespace Sys2Proof

open Machine

variable {s : State}

/-! ### Bytes shifted in -/

/-- The state after one byte of IN went into `code`. -/
def afterShiftIn (s : State) : State :=
  { s with
    dec := { s.dec with code := (s.dec.code <<< 8) ||| (s.inByte s.host.inPos.toNat).setWidth 32 }
    host := { s.host with inPos := s.host.inPos + 1#32 } }

theorem decShiftIn_of_lt (h : s.host.inPos < s.host.inLen) : decShiftIn s = .ok () (afterShiftIn s) :=
  bind_ok (readByte_ok h)

theorem decShiftIn_end (h : ¬ s.host.inPos < s.host.inLen) : decShiftIn s = .error .truncatedInput s :=
  bind_error (readByte_end h)

theorem toNat_shiftIn (code : U32) (b : Byte) :
    ((code <<< 8) ||| b.setWidth 32).toNat = (code.toNat * 256 + b.toNat) % 2 ^ 32 := by
  have hdisjoint : (code <<< 8) &&& b.setWidth 32 = 0#32 := by
    ext i hi
    rw [BitVec.getElem_and, BitVec.getElem_shiftLeft, BitVec.getElem_setWidth]
    by_cases h8 : i < 8
    · simp [h8]
    · rw [BitVec.getLsbD_of_ge b i (by omega)]
      simp
  have hb : (b.setWidth 32).toNat = b.toNat := toNat_symbol b
  rw [← BitVec.add_eq_or_of_and_eq_zero _ _ hdisjoint, BitVec.toNat_add, BitVec.toNat_shiftLeft, Nat.shiftLeft_eq,
    hb, Nat.mod_add_mod]

theorem afterShiftIn_inPos (h : s.host.inPos < s.host.inLen) :
    (afterShiftIn s).host.inPos.toNat = s.host.inPos.toNat + 1 := by
  show (s.host.inPos + 1#32).toNat = _
  bv_omega

theorem decNormalise_of_not_lt (h : ¬ s.dec.range < kTopValue) : decNormalise s = .ok () s :=
  congrFun (if_neg h) s

/-- The state after a renormalisation that shifts. -/
def afterRenorm (s : State) : State :=
  { afterShiftIn s with dec := { (afterShiftIn s).dec with range := s.dec.range <<< 8 } }

theorem decNormalise_of_lt (h : s.dec.range < kTopValue) (hin : s.host.inPos < s.host.inLen) :
    decNormalise s = .ok () (afterRenorm s) :=
  (congrFun (if_pos h) s).trans (bind_ok (decShiftIn_of_lt hin))

theorem decNormalise_end (h : s.dec.range < kTopValue) (hin : ¬ s.host.inPos < s.host.inLen) :
    decNormalise s = .error .truncatedInput s :=
  (congrFun (if_pos h) s).trans (bind_error (decShiftIn_end hin))

/-! ### DEC_INIT (R120) -/

/-- The first `n` bytes of `f` as a number, first byte highest. -/
def beNat (f : Nat → Byte) : Nat → Nat
  | 0 => 0
  | n + 1 => beNat f n * 256 + (f n).toNat

theorem beNat_add (f : Nat → Byte) (m : Nat) : ∀ n,
    beNat f (m + n) = beNat f m * 256 ^ n + beNat (fun j => f (m + j)) n
  | 0 => by simp [beNat]
  | n + 1 => by
    rw [← Nat.add_assoc, beNat, beNat, beNat_add f m n, Nat.pow_succ]
    ring

theorem beNat_congr {f g : Nat → Byte} : ∀ {n : Nat}, (∀ j < n, f j = g j) → beNat f n = beNat g n
  | 0, _ => rfl
  | n + 1, h => by rw [beNat, beNat, beNat_congr fun j hj => h j (by omega), h n (by omega)]

/-- The bytes of IN from IN_POS on. -/
def inFrom (s : State) (j : Nat) : Byte := s.inByte ((s.host.inPos.toNat + j : Nat) : Int)

theorem inFrom_afterShiftIn (h : s.host.inPos < s.host.inLen) (j : Nat) :
    inFrom (afterShiftIn s) j = inFrom s (1 + j) := by
  show s.inByte (((afterShiftIn s).host.inPos.toNat + j : Nat) : Int) = _
  rw [afterShiftIn_inPos h, Nat.add_assoc]
  rfl

/-- The state after `n` bytes of IN went into `code`. -/
def shiftedIn (n : Nat) (s : State) : State :=
  { s with
    dec := { s.dec with code := BitVec.ofNat 32 (s.dec.code.toNat * 256 ^ n + beNat (inFrom s) n) }
    host := { s.host with inPos := s.host.inPos + BitVec.ofNat 32 n } }

theorem shiftedIn_zero : shiftedIn 0 s = s := by simp [shiftedIn, beNat]

theorem shiftedIn_afterShiftIn (n : Nat) (h : s.host.inPos < s.host.inLen) :
    shiftedIn n (afterShiftIn s) = shiftedIn (n + 1) s := by
  have hpos : (afterShiftIn s).host.inPos + BitVec.ofNat 32 n = s.host.inPos + BitVec.ofNat 32 (n + 1) := by
    rw [Nat.add_comm n, BitVec.ofNat_add, ← BitVec.add_assoc]
    rfl
  have hbytes : beNat (inFrom s) (n + 1) =
      (inFrom s 0).toNat * 256 ^ n + beNat (inFrom (afterShiftIn s)) n := by
    rw [Nat.add_comm n, beNat_add, beNat_congr fun j _ => inFrom_afterShiftIn h j, beNat, beNat, Nat.zero_mul,
      Nat.zero_add]
  have hcode : BitVec.ofNat 32 ((afterShiftIn s).dec.code.toNat * 256 ^ n + beNat (inFrom (afterShiftIn s)) n) =
      BitVec.ofNat 32 (s.dec.code.toNat * 256 ^ (n + 1) + beNat (inFrom s) (n + 1)) := by
    have hfirst : (afterShiftIn s).dec.code.toNat = _ := toNat_shiftIn s.dec.code (inFrom s 0)
    apply BitVec.eq_of_toNat_eq
    rw [BitVec.toNat_ofNat, BitVec.toNat_ofNat, hbytes, hfirst, Nat.add_mod, Nat.mod_mul_mod, ← Nat.add_mod,
      Nat.pow_succ]
    congr 1
    ring
  rw [shiftedIn, hpos, hcode]
  rfl

theorem decShiftInTimes_ok : ∀ {n : Nat} {s : State}, DecInput s n →
    decShiftInTimes n s = .ok () (shiftedIn n s)
  | 0, s, _ => by rw [shiftedIn_zero]; rfl
  | n + 1, s, h => by
    have hin : s.host.inPos < s.host.inLen := by
      unfold DecInput at h
      bv_omega
    have hleft : DecInput (afterShiftIn s) n := by
      rw [DecInput, afterShiftIn_inPos hin, Nat.add_assoc, Nat.add_comm 1]
      exact h
    rw [← shiftedIn_afterShiftIn n hin, ← decShiftInTimes_ok hleft]
    exact bind_ok (decShiftIn_of_lt hin)

/-- The state of DEC_INIT before its bytes. -/
def decStart (s : State) : State := { s with dec := { code := 0#32, range := 0xFFFFFFFF#32 } }

/-- Where IN ends before the last byte, the shifting stops at IN_LEN. -/
theorem decShiftInTimes_end : ∀ {n : Nat} {s : State}, ¬ DecInput s (n + 1) →
    ∃ c v, decShiftInTimes (n + 1) s = .error .truncatedInput
      { s with dec := { s.dec with code := c }, host := { s.host with inPos := v } } ∧
      (s.host.inPos ≤ s.host.inLen → v = s.host.inLen)
  | n, s, h => by
    by_cases hin : s.host.inPos < s.host.inLen
    · have hpos := afterShiftIn_inPos hin
      have hleft : ¬ DecInput (afterShiftIn s) n := by
        rw [DecInput, hpos, Nat.add_assoc, Nat.add_comm 1]
        exact h
      cases n with
      | zero => exact absurd hin h
      | succ n =>
        obtain ⟨c, v, hrun, hv⟩ := decShiftInTimes_end hleft
        refine ⟨c, v, (bind_ok (decShiftIn_of_lt hin)).trans hrun, fun _ => hv ?_⟩
        rw [BitVec.le_def, hpos]
        exact hin
    · refine ⟨s.dec.code, s.host.inPos, bind_error (decShiftIn_end hin), fun hle => ?_⟩
      exact BitVec.le_antisymm hle (BitVec.not_lt.1 hin)

/-! ### DEC_BIT (R121) -/

/-- Settles O22: with enough bytes the operation is the shifts in closed form; without, it ends where they run
out. -/
theorem decInitAndDecBit : Obligations.DecInitAndDecBit := by
  refine ⟨?_, fun c s => ?_⟩
  · intro s b
    refine ⟨fun h => ?_, fun h => ?_⟩
    · have hcode : BitVec.ofNat 32 (0 * 256 ^ 5 + beNat (inFrom (decStart s)) 5) =
          BitVec.ofNat 32 (b 1 * 2 ^ 24 + b 2 * 2 ^ 16 + b 3 * 2 ^ 8 + b 4) := by
        have hbytes : beNat (inFrom (decStart s)) 5 =
            (((b 0 * 256 + b 1) * 256 + b 2) * 256 + b 3) * 256 + b 4 := by
          simp only [beNat, Nat.zero_mul, Nat.zero_add]
          rfl
        apply BitVec.eq_of_toNat_eq
        rw [BitVec.toNat_ofNat, BitVec.toNat_ofNat, hbytes]
        omega
      refine (completeUnit_ok (decShiftInTimes_ok (s := decStart s) h)).trans ?_
      rw [← hcode]
      rfl
    · obtain ⟨v, p, hrun, hp⟩ := decShiftInTimes_end (n := 4) (s := decStart s) h
      have herror : ErrKind.truncatedInput.code ≠ 0#4 := errKind_code_ne_zero _
      exact ⟨_, completeUnit_error hrun, rfl, rfl, ⟨⟨rfl, rfl, rfl, rfl, rfl, .inr ⟨rfl, herror⟩⟩, rfl, rfl,
        ⟨rfl, rfl, rfl⟩, fun _ _ => rfl, rfl, rfl, rfl, rfl, rfl, rfl, rfl⟩, hp⟩
  · intro p bound bit split returned
    have hzero : afterDecision c s = split ∧
        bitWord (!decide (s.dec.code < bitBound s.dec.range (s.prob c))) =
          if s.dec.code < bound then 0#32 else 1#32 := by
      by_cases h : s.dec.code < bound
      · simp only [split, afterDecision, decNarrow, if_pos h]
        rw [if_pos (show _ < bitBound s.dec.range (s.prob c) from h),
          decide_eq_true (show _ < bitBound s.dec.range (s.prob c) from h)]
        exact ⟨rfl, rfl⟩
      · simp only [split, afterDecision, decNarrow, if_neg h]
        rw [if_neg (show ¬ _ < bitBound s.dec.range (s.prob c) from h),
          decide_eq_false (show ¬ _ < bitBound s.dec.range (s.prob c) from h)]
        exact ⟨rfl, rfl⟩
    obtain ⟨hsplit, hword⟩ := hzero
    have hrun : exec (.rcDecBit c) s = complete (decNormalise >>= fun _ => pure returned) (afterDecision c s) := by
      rw [execDecBit_run, hword]
    rw [← hsplit, hrun]
    refine ⟨fun h => ?_, fun h hin => ?_, fun h hin => ?_, fun hin => ?_⟩
    · exact complete_ok (bind_ok (decNormalise_of_not_lt (BitVec.not_lt.2 h)))
    · have hstep := bind_ok (f := fun _ => pure returned) (decNormalise_of_lt h hin)
      exact complete_ok hstep
    · exact complete_error (bind_error (decNormalise_end h (BitVec.not_lt.2 hin)))
    · obtain ⟨t, ht, -, hne⟩ := decNormalise_runs (s := afterDecision c s) (k := 0) hin
      refine ⟨_, complete_ok (bind_ok ht), hne, ?_⟩
      have hword_ne : Ret.word 0#32 ≠ Ret.word 1#32 := by decide
      by_cases h : s.dec.code < bound
      · have hret : returned = .word 0#32 := congrArg Ret.word (if_pos h)
        rw [hret]
        exact ⟨iff_of_false hword_ne (not_not_intro h), iff_of_true rfl (not_not_intro h)⟩
      · have hret : returned = .word 1#32 := congrArg Ret.word (if_neg h)
        rw [hret]
        exact ⟨iff_of_true rfl h, iff_of_false hword_ne.symm (not_not_intro h)⟩

/-! ### DEC_DIRECT (R122) -/

/-- The registers after a direct bit: the sign bit of `code - range` says whether `range` is taken off. -/
def halvedDec (d : RangeDec) : RangeDec :=
  { code := if (d.code - d.range >>> 1).getLsbD 31 then d.code else d.code - d.range >>> 1
    range := d.range >>> 1 }

theorem ushiftRight_thirtyOne (x : U32) : x >>> 31 = bitWord (x.getLsbD 31) := by
  apply BitVec.eq_of_toNat_eq
  rw [BitVec.toNat_ushiftRight, ← BitVec.testBit_toNat, Nat.testBit_eq_decide_div_mod_eq, Nat.shiftRight_eq_div_pow]
  have hx := x.isLt
  rcases (by omega : x.toNat / 2 ^ 31 = 0 ∨ x.toNat / 2 ^ 31 = 1) with h | h <;> rw [h] <;> rfl

theorem decDirectBit_eq (s : State) : decDirectBit s =
    (decNormalise >>= fun _ => pure (!(s.dec.code - s.dec.range >>> 1).getLsbD 31))
      { s with dec := halvedDec s.dec } := by
  have hcode : s.dec.code - (s.dec.range >>> 1 &&& ((s.dec.code - s.dec.range >>> 1) >>> 31 - 1#32)) =
      (halvedDec s.dec).code := by
    rw [ushiftRight_thirtyOne, halvedDec]
    cases (s.dec.code - s.dec.range >>> 1).getLsbD 31
    · exact congrArg (s.dec.code - ·) BitVec.and_allOnes
    · exact (congrArg (s.dec.code - ·) BitVec.and_zero).trans (BitVec.sub_zero _)
  have hbit : decide ((s.dec.code - s.dec.range >>> 1) >>> 31 = 0#32) =
      !(s.dec.code - s.dec.range >>> 1).getLsbD 31 := by
    rw [ushiftRight_thirtyOne]
    cases (s.dec.code - s.dec.range >>> 1).getLsbD 31 <;> rfl
  rw [← hbit]
  exact congrArg (fun d => (decNormalise >>= fun _ => pure (decide
    ((s.dec.code - s.dec.range >>> 1) >>> 31 = 0#32))) { s with dec := d })
      (congrArg (RangeDec.mk · (s.dec.range >>> 1)) hcode)

theorem getLsbD_sub_iff {code range : U32} (hr : range.toNat < 2 ^ 31) (h : code.toNat < 2 * range.toNat) :
    (code - range).getLsbD 31 = true ↔ code < range := by
  rw [← BitVec.testBit_toNat, Nat.testBit_eq_decide_div_mod_eq, decide_eq_true_iff, BitVec.toNat_sub, BitVec.lt_def]
  have hc := code.isLt
  omega

theorem toNat_ushiftRight_one (r : U32) : (r >>> 1).toNat = r.toNat / 2 := by
  rw [BitVec.toNat_ushiftRight, Nat.shiftRight_eq_div_pow, pow_one]

/-- Settles O23: a direct bit is the sign of `code - range`, and DEC_DIRECT goes on from there. -/
theorem decDirectDecodesBitByBit : Obligations.DecDirectDecodesBitByBit := by
  refine ⟨fun _ => rfl, ?_, fun n s =>
    ⟨fun v t => completeWord_ok, fun e t => completeWord_error, fun hin => ?_⟩⟩
  · intro n acc s range one dec acc'
    have hrun : decDirect (n + 1) acc s =
        (decNormalise >>= fun _ => decDirect n acc') { s with dec := dec } := by
      refine (bind_congr_run _ (decDirectBit_eq s)).trans ?_
      have hword : (if (!(s.dec.code - range).getLsbD 31) = true then 1#32 else 0#32 : U32) =
          if (s.dec.code - range).getLsbD 31 then 0#32 else 1#32 := by
        cases (s.dec.code - range).getLsbD 31 <;> rfl
      rw [map_bind_run, hword]
      rfl
    rw [hrun]
    refine ⟨fun h => ?_, fun h => ?_, fun h hin => ?_, fun h hin => ?_⟩
    · have hr : range.toNat < 2 ^ 31 := by
        have := s.dec.range.isLt
        rw [toNat_ushiftRight_one]
        omega
      exact (not_congr (getLsbD_sub_iff hr h)).trans BitVec.not_lt
    · exact bind_ok (decNormalise_of_not_lt (BitVec.not_lt.2 h))
    · exact bind_ok (decNormalise_of_lt h hin)
    · exact bind_error (decNormalise_end h (BitVec.not_lt.2 hin))
  · obtain ⟨v, t, hrun, -, -, hne⟩ := yields_decDirect n.toNat 0#32 s 0 hin
    exact ⟨_, v, completeWord_ok hrun, rfl, hne⟩

end Sys2Proof
end

section
/-! Prices (40_range_coder R126, 41_bit_tree R137, R140, 42_literal_coder R156): the loops that price a symbol
go along the same steps as those that encode it. -/

namespace Sys2Proof

open Machine

/-! ### Price of a bit (R126) -/

theorem priceBit_eq_table {p : U16} (bit : Bool) (h1 : 31 ≤ p.toNat) (h2 : p.toNat ≤ 2017) :
    priceBit p bit =
      BitVec.ofNat 32 (probPriceTable.getD (if bit then (2048 - p.toNat) / 4 else p.toNat / 4) 0) := by
  have hsub : (2048#16 - p).toNat = 2048 - p.toNat :=
    BitVec.toNat_sub_of_le (show p.toNat ≤ 2048 by omega)
  cases bit
  · have hindex : (p >>> 2).toNat = p.toNat / 4 := by rw [BitVec.toNat_ushiftRight, Nat.shiftRight_eq_div_pow]
    rw [priceBit, if_neg Bool.false_ne_true, hindex, if_neg Bool.false_ne_true]
    exact probPrice_table (by omega)
  · have hindex : ((2048#16 - p) >>> 2).toNat = (2048 - p.toNat) / 4 := by
      rw [BitVec.toNat_ushiftRight, hsub, Nat.shiftRight_eq_div_pow]
    rw [priceBit, if_pos rfl, hindex, if_pos rfl]
    exact probPrice_table (by omega)

theorem length_probPriceTable : probPriceTable.length = 512 := by
  have h := congrArg List.length probPrice_list
  rw [List.length_map, List.length_map, List.length_range] at h
  exact h.symm

/-! ### Paths (R137, R140, R156) -/

theorem pathPrice_cons (s : State) (d : CellRef × Bool) (ds : List (CellRef × Bool)) :
    pathPrice s (d :: ds) = s.cellPrice d.1 d.2 + pathPrice s ds := List.sum_cons

theorem btPriceFrom_eq_pathPrice (s : State) (t : CellRef) (sym : U32) :
    ∀ n m, btPriceFrom s t sym n m = pathPrice s (treeSteps t sym n m)
  | 0, _ => rfl
  | n + 1, m => by rw [btPriceFrom, treeSteps, pathPrice_cons, btPriceFrom_eq_pathPrice s t sym n]

theorem btPrice_eq_pathPrice (s : State) (t : CellRef) {n : Nat} {sym : U32} (h : sym.toNat < 2 ^ n) :
    btPrice s t n sym = pathPrice s (treePath t n sym.toNat) := by
  rw [treePath_eq_treeSteps h]
  exact btPriceFrom_eq_pathPrice s t sym n _

theorem btRpriceFrom_eq_pathPrice (s : State) (t : CellRef) :
    ∀ n sym m, btRpriceFrom s t n sym m = pathPrice s (reverseSteps t n sym m)
  | 0, _, _ => rfl
  | n + 1, sym, m => by rw [btRpriceFrom, reverseSteps, pathPrice_cons, btRpriceFrom_eq_pathPrice s t n]

theorem btRprice_eq_pathPrice (s : State) (t : CellRef) (n : Nat) (sym : U32) :
    btRprice s t n sym = pathPrice s (reversePath t n sym.toNat) := by
  rw [reversePath_eq_reverseSteps]
  exact btRpriceFrom_eq_pathPrice s t n sym _

theorem litPriceFrom_eq_pathPrice (s : State) (c : U32) (sym : Byte) :
    ∀ n m, litPriceFrom s c sym n m = pathPrice s (treeSteps (blockTree c) (sym.setWidth 32) n m)
  | 0, _ => rfl
  | n + 1, m => by
    rw [litPriceFrom, treeSteps, pathPrice_cons, litPriceFrom_eq_pathPrice s c sym n, getLsbD_symbol]
    rfl

theorem litPriceMatchedFrom_eq_pathPrice (s : State) (c : U32) (matchByte sym : Byte) :
    ∀ n m, litPriceMatchedFrom s c matchByte sym n m = pathPrice s (matchedSteps c matchByte sym n m)
  | 0, _ => rfl
  | n + 1, m => by
    rw [litPriceMatchedFrom, matchedSteps, pathPrice_cons, litPriceMatchedFrom_eq_pathPrice s c matchByte sym n,
      litPriceFrom_eq_pathPrice, apply_ite (pathPrice s)]

theorem litPrice_eq_pathPrice (s : State) (c : U16) (matchMode : Bool) (m sym : Byte) :
    litPrice s (c.setWidth 32) matchMode m sym =
      pathPrice s (if matchMode then matchedPath c.toNat m sym else literalPath c.toNat sym) := by
  cases matchMode
  · rw [if_neg Bool.false_ne_true, literalPath_eq_treeSteps]
    exact litPriceFrom_eq_pathPrice s _ sym 8 _
  · have hblock : (c.setWidth 32).toNat = c.toNat := BitVec.toNat_setWidth_of_le (by decide)
    rw [if_pos rfl, ← hblock, matchedPath_eq_matchedSteps]
    exact litPriceMatchedFrom_eq_pathPrice s _ m sym 8 _

/-- Settles O25: a bit's price is its entry of the table, a symbol's the sum along its path. -/
theorem pricesAreThoseOfTheDecisions : Obligations.PricesAreThoseOfTheDecisions := by
  refine ⟨⟨fun p bit s h1 h2 => ?_, length_probPriceTable⟩, fun t n sym s hwf => ?_, fun t n sym s _ => ?_,
    fun c matchMode m sym s => ?_⟩
  · rw [← priceBit_eq_table bit h1 h2]
    rfl
  · obtain ⟨⟨-, -, hsym⟩, -⟩ := (treeOperandsWf_iff t n sym).1 hwf
    rw [← toNat_symbol] at hsym
    rw [← toNat_symbol sym, ← btPrice_eq_pathPrice s t hsym]
    rfl
  · rw [← toNat_symbol sym, ← btRprice_eq_pathPrice]
    rfl
  · rw [← litPrice_eq_pathPrice]
    rfl

end Sys2Proof
end

section
/-! The number the range encoder has written (40_range_coder R116, R118): the bytes of OUT, the pending byte and
the held 0xFF bytes after it, and the four bytes of `low` below them. SHIFT_LOW multiplies it by 256. -/

namespace Sys2Proof

open Machine

variable {o r : Nat} {s : State}

/-- The number of `n` digits of which the first is `x` and the others are 0xFF. -/
def heldNat (x : Byte) (n : Nat) : Nat := (x.toNat + 1) * 256 ^ (n - 1) - 1

/-- How many bytes are written from index `o` on or pending. -/
def codedLen (o : Nat) (s : State) : Nat := s.host.outLen.toNat - o + s.enc.cacheSize.toNat

/-- The bytes of OUT from index `o` on. -/
def outFrom (o : Nat) (s : State) (j : Nat) : Byte := s.outMem.read (o + j)

/-- The number whose digits are the bytes from index `o` on, the pending ones and `low`. -/
def codedLow (o : Nat) (s : State) : Nat :=
  (beNat (outFrom o s) (s.host.outLen.toNat - o) * 256 ^ s.enc.cacheSize.toNat +
    heldNat s.enc.cache s.enc.cacheSize.toNat) * 2 ^ 32 + s.enc.low.toNat

/-- A code interval of `r` numbers from `codedLow` on, in which at most one carry is to come: none if the
pending byte is 0xFF, so that a carry stops there. -/
structure Codes (o r : Nat) (s : State) : Prop where
  out : s.outMem.wf = true
  start : o ≤ s.host.outLen.toNat
  width : s.enc.low.toNat + r ≤ 2 ^ 33
  carry : 2 ^ 32 < s.enc.low.toNat + r → s.enc.cache ≠ 0xFF#8

theorem Codes.mono {q : Nat} (h : Codes o r s) (hq : q ≤ r) : Codes o q s :=
  ⟨h.out, h.start, (Nat.add_le_add_left hq _).trans h.width, fun hc => h.carry (by omega)⟩

/-! ### The pending bytes with their carry -/

theorem heldNat_add_one (x : Byte) (n : Nat) : heldNat x n + 1 = (x.toNat + 1) * 256 ^ (n - 1) :=
  Nat.sub_add_cancel (Nat.mul_pos (Nat.succ_pos _) (Nat.pow_pos (by decide)))

theorem heldNat_succ (x : Byte) {n : Nat} (h : 1 ≤ n) : heldNat x (n + 1) = 256 * heldNat x n + 255 := by
  have h1 := heldNat_add_one x n
  have h2 := heldNat_add_one x (n + 1)
  rw [Nat.add_sub_cancel, ← Nat.sub_add_cancel h, Nat.pow_succ, ← Nat.mul_assoc, Nat.sub_add_cancel h,
    ← h1] at h2
  omega

theorem heldNat_one (x : Byte) : heldNat x 1 = x.toNat := by simp [heldNat]

/-- Without a carry the pending bytes go out as they are. -/
theorem beNat_of_no_carry {f : Nat → Byte} {x : Byte} {n : Nat} (hn : 1 ≤ n)
    (h : ∀ j < n, f j = if j = 0 then x else 0xFF#8) : beNat f n = heldNat x n := by
  induction n, hn using Nat.le_induction with
  | base => simp [beNat, heldNat, h 0 Nat.one_pos]
  | succ n hn ih =>
    have hlast : (f n).toNat = 255 := by rw [h n (Nat.lt_succ_self n), if_neg (by omega)]; rfl
    rw [beNat, hlast, ih fun j hj => h j (by omega), heldNat_succ x hn, Nat.mul_comm]

/-- With a carry the 0xFF bytes become 0x00, and the first byte, not 0xFF, goes up by one. -/
theorem beNat_of_carry {f : Nat → Byte} {x : Byte} {n : Nat} (hx : x ≠ 0xFF#8) (hn : 1 ≤ n)
    (h : ∀ j < n, f j = (if j = 0 then x else 0xFF#8) + 1#8) : beNat f n = heldNat x n + 1 := by
  induction n, hn using Nat.le_induction with
  | base =>
    have hx' : x.toNat ≠ 255 := fun h => hx (BitVec.eq_of_toNat_eq h)
    have hfirst : (x + 1#8).toNat = x.toNat + 1 := by
      rw [BitVec.toNat_add, BitVec.toNat_ofNat]
      omega
    simp [beNat, heldNat, h 0 Nat.one_pos, hfirst]
  | succ n hn ih =>
    have hlast : (f n).toNat = 0 := by rw [h n (Nat.lt_succ_self n), if_neg (by omega)]; rfl
    rw [beNat, hlast, ih fun j hj => h j (by omega), heldNat_succ x hn]
    omega

/-! ### SHIFT_LOW -/

theorem codedLen_afterShift {k : Nat} (hstart : o ≤ s.host.outLen.toNat) (hroom : EncRoom s (k + 1)) :
    codedLen o (afterShift s) = codedLen o s + 1 := by
  obtain ⟨-, hmoved, -⟩ := moved_afterShift hroom
  have htotal := hmoved.total
  have hgrows := hmoved.grows
  unfold codedLen
  omega

theorem afterShift_probs (s : State) : (afterShift s).probs = s.probs := by
  by_cases h : Settled s.enc.low
  · rw [afterShift_of_settled h]; rfl
  · rw [afterShift_of_not_settled h]

/-- Where the byte is not settled, it is held as one more 0xFF. -/
theorem codes_afterShift_of_not_settled {k : Nat} (h : Codes o r s) (hroom : EncRoom s (k + 1)) (hr : r < 2 ^ 24)
    (hs : ¬ Settled s.enc.low) :
    Codes o (256 * r) (afterShift s) ∧ codedLow o (afterShift s) = 256 * codedLow o s := by
  rw [afterShift_of_not_settled hs]
  rw [settled_iff] at hs
  obtain ⟨hheld, hfit⟩ := hroom
  have hcap := outCap_lt s
  have hlow := toNat_shiftedLow s.enc.low
  have hsize : (s.enc.cacheSize + 1#64).toNat = s.enc.cacheSize.toNat + 1 := by
    rw [BitVec.toNat_add, BitVec.toNat_ofNat]
    omega
  refine ⟨⟨h.out, h.start, ?_, fun hc => h.carry ?_⟩, ?_⟩
  · show (shiftedLow s.enc.low).toNat + 256 * r ≤ 2 ^ 33
    omega
  · change 2 ^ 32 < (shiftedLow s.enc.low).toNat + 256 * r at hc
    omega
  · show (beNat (outFrom o s) (s.host.outLen.toNat - o) * 256 ^ (s.enc.cacheSize + 1#64).toNat +
      heldNat s.enc.cache (s.enc.cacheSize + 1#64).toNat) * 2 ^ 32 + (shiftedLow s.enc.low).toNat = _
    rw [hsize, hlow, heldNat_succ _ hheld, Nat.pow_succ, ← Nat.mul_assoc, codedLow]
    omega

/-- The bytes that go out are the pending ones and the carry. -/
theorem beNat_emitted {n : Nat} (h : Codes o r s) (hr : 0 < r) (hn : 1 ≤ n) :
    beNat (fun j => (emitted (carryOf s.enc.low) s.enc.cache n s).outMem.read (s.host.outLen.toNat + j)) n =
      heldNat s.enc.cache n + s.enc.low.toNat / 2 ^ 32 := by
  have hw := h.width
  have hcarry : carryOf s.enc.low = BitVec.ofNat 8 (s.enc.low.toNat / 2 ^ 32) := setWidth_ushiftRight _ 32
  have hread := fun j (hj : j < n) => read_emitted (carry := carryOf s.enc.low) (temp := s.enc.cache) h.out hj
  rcases (by omega : s.enc.low.toNat / 2 ^ 32 = 0 ∨ s.enc.low.toNat / 2 ^ 32 = 1) with h0 | h1
  · rw [hcarry, h0] at hread ⊢
    exact beNat_of_no_carry hn fun j hj => (hread j hj).trans (BitVec.add_zero _)
  · rw [hcarry, h1] at hread ⊢
    exact beNat_of_carry (h.carry (by omega)) hn hread

/-- Where the byte is settled, the pending bytes go out and it becomes the pending one. -/
theorem codes_afterShift_of_settled {k : Nat} (h : Codes o r s) (hroom : EncRoom s (k + 1)) (hr0 : 0 < r)
    (hr : r < 2 ^ 24) (hs : Settled s.enc.low) :
    Codes o (256 * r) (afterShift s) ∧ codedLow o (afterShift s) = 256 * codedLow o s := by
  obtain ⟨hheld, hfit⟩ := hroom
  have hw := h.width
  have hstart := h.start
  have hlow := toNat_shiftedLow s.enc.low
  have hcache : ((s.enc.low >>> 24).setWidth 8).toNat = s.enc.low.toNat / 2 ^ 24 % 2 ^ 8 := by
    rw [setWidth_ushiftRight, BitVec.toNat_ofNat]
  have hlen := emitted_outLen (carry := carryOf s.enc.low) (temp := s.enc.cache) (s := s)
    (n := s.enc.cacheSize.toNat) (by omega)
  have hbytes := beNat_emitted h hr0 hheld
  rw [afterShift_of_settled hs]
  rw [settled_iff] at hs
  refine ⟨⟨?_, ?_, ?_, fun hc hff => ?_⟩, ?_⟩
  · exact wf_emitted h.out
  · show o ≤ (emitted _ _ _ s).host.outLen.toNat
    omega
  · show (shiftedLow s.enc.low).toNat + 256 * r ≤ 2 ^ 33
    omega
  · change 2 ^ 32 < (shiftedLow s.enc.low).toNat + 256 * r at hc
    have hff' : ((s.enc.low >>> 24).setWidth 8).toNat = 255 := congrArg BitVec.toNat hff
    omega
  · have hold : beNat (outFrom o (emitted (carryOf s.enc.low) s.enc.cache s.enc.cacheSize.toNat s))
        (s.host.outLen.toNat - o) = beNat (outFrom o s) (s.host.outLen.toNat - o) :=
      beNat_congr fun j hj => read_emitted_of_outside h.out (.inl (by omega))
    have hnew : beNat (outFrom o (emitted (carryOf s.enc.low) s.enc.cache s.enc.cacheSize.toNat s))
        ((emitted (carryOf s.enc.low) s.enc.cache s.enc.cacheSize.toNat s).host.outLen.toNat - o) =
        beNat (outFrom o s) (s.host.outLen.toNat - o) * 256 ^ s.enc.cacheSize.toNat +
          (heldNat s.enc.cache s.enc.cacheSize.toNat + s.enc.low.toNat / 2 ^ 32) := by
      rw [hlen, Nat.sub_add_comm hstart, beNat_add, hold, ← hbytes]
      congr 1
      exact beNat_congr fun j _ => congrArg _ (by omega : o + (s.host.outLen.toNat - o + j) = _)
    show (beNat (outFrom o (emitted _ _ _ s)) ((emitted _ _ _ s).host.outLen.toNat - o) * 256 ^ 1 +
      heldNat ((s.enc.low >>> 24).setWidth 8) 1) * 2 ^ 32 + (shiftedLow s.enc.low).toNat = _
    rw [hnew, heldNat_one, hcache, hlow, codedLow]
    omega

/-- SHIFT_LOW multiplies the number and the interval by 256 (R112, R116). -/
theorem codes_afterShift {k : Nat} (h : Codes o r s) (hroom : EncRoom s (k + 1)) (hr0 : 0 < r) (hr : r < 2 ^ 24) :
    Codes o (256 * r) (afterShift s) ∧ codedLow o (afterShift s) = 256 * codedLow o s := by
  by_cases hs : Settled s.enc.low
  · exact codes_afterShift_of_settled h hroom hr0 hr hs
  · exact codes_afterShift_of_not_settled h hroom hr hs

/-- In a flush the interval need not be more than its first number. -/
theorem codes_iterate : ∀ {n k : Nat} {s : State}, Codes o 1 s → EncRoom s (k + n) →
    Codes o 1 (afterShift^[n] s) ∧ codedLow o (afterShift^[n] s) = 256 ^ n * codedLow o s ∧
      codedLen o (afterShift^[n] s) = codedLen o s + n ∧ (afterShift^[n] s).probs = s.probs
  | 0, _, s, h, _ => ⟨h, (Nat.one_mul _).symm, rfl, rfl⟩
  | n + 1, k, s, h, hroom => by
    obtain ⟨hstep, hlow⟩ := codes_afterShift (k := k + n) h hroom Nat.one_pos (by decide)
    have hlen := codedLen_afterShift h.start (k := k + n) hroom
    obtain ⟨hcodes, hlow', hlen', hprobs⟩ :=
      codes_iterate (hstep.mono (by decide)) (moved_afterShift (k := k + n) hroom).1
    rw [Function.iterate_succ_apply]
    refine ⟨hcodes, ?_, ?_, hprobs.trans (afterShift_probs s)⟩
    · rw [hlow', hlow, Nat.pow_succ, Nat.mul_assoc]
    · rw [hlen', hlen, Nat.add_right_comm, Nat.add_assoc]

/-- A flush writes the number out: all its bytes but the last pending one, which is 0 (R117). -/
theorem codes_flush (h : Codes o r s) (hr : 0 < r) (hroom : EncRoom s 5) :
    o ≤ (afterShift^[5] s).host.outLen.toNat ∧
      (afterShift^[5] s).host.outLen.toNat - o = codedLen o s + 4 ∧
      beNat (outFrom o (afterShift^[5] s)) (codedLen o s + 4) = codedLow o s ∧
      (afterShift^[5] s).probs = s.probs := by
  obtain ⟨hcodes, hvalue, hlen, hprobs⟩ := codes_iterate (n := 5) (k := 0) (h.mono hr) hroom
  obtain ⟨hlow, hcache, hsize⟩ := afterShift_iterate_five hroom
  have hwritten : (afterShift^[5] s).host.outLen.toNat - o = codedLen o s + 4 := by
    rw [codedLen, hsize] at hlen
    exact Nat.succ_injective hlen
  have hone : (1#64 : U64).toNat = 1 := rfl
  have hzero : (0#64 : U64).toNat = 0 := rfl
  have hnone : heldNat 0#8 1 = 0 := by decide
  rw [codedLow, hlow, hcache, hsize, hwritten, hone, hzero, hnone] at hvalue
  refine ⟨hcodes.start, hwritten, ?_, hprobs⟩
  omega

end Sys2Proof
end

section
/-! Decisions coded and decoded (40_range_coder R123). The encoder's interval is a set of codes: those whose
first bytes, read as a number, lie in it. Each operation takes a part of it, so a code inside the last interval
is inside every one before, and a decoder that reads it holds in `code` the distance from the interval's start:
it finds the part that was taken. -/

namespace Sys2Proof

open Machine

variable {f : Nat → Byte} {o p len : Nat} {s t d : State}

/-! ### Encoder, code and decoder -/

/-- The encoder between two operations (R115, R116). -/
structure Encodes (o : Nat) (s : State) : Prop where
  codes : Codes o s.enc.range.toNat s
  cells : CellsOk s.probs
  range : kTopValue ≤ s.enc.range

/-- The code `f` lies in the encoder's interval. -/
def Inside (f : Nat → Byte) (o : Nat) (s : State) : Prop :=
  codedLow o s ≤ beNat f (codedLen o s + 4) ∧
    beNat f (codedLen o s + 4) < codedLow o s + s.enc.range.toNat

/-- A decoder that reads the `len` bytes of `f` from index `p` of IN stands where the encoder stood in `s`. -/
structure Follows (f : Nat → Byte) (o p len : Nat) (s d : State) : Prop where
  probs : d.probs = s.probs
  range : d.dec.range = s.enc.range
  code : codedLow o s + d.dec.code.toNat = beNat f (codedLen o s + 4)
  inPos : d.host.inPos.toNat = p + (codedLen o s + 4)
  bytes : ∀ j < len, d.inByte ((p + j : Nat) : Int) = f j
  room : p + len ≤ d.host.inLen.toNat

theorem Encodes.withRet (h : Encodes o s) (r : Ret) : Encodes o { s with ret := r } where
  codes := ⟨h.codes.out, h.codes.start, h.codes.width, h.codes.carry⟩
  cells := h.cells
  range := h.range

theorem Follows.withRet (h : Follows f o p len s d) (r r' : Ret) :
    Follows f o p len { s with ret := r } { d with ret := r' } :=
  ⟨h.probs, h.range, h.code, h.inPos, h.bytes, h.room⟩

/-- What `D` does to the decoder goes with what took the encoder from `s` to `t`. -/
def Tracks (o : Nat) (D : State → State → Prop) (s t : State) : Prop :=
  codedLen o s ≤ codedLen o t ∧ ∀ f, Inside f o t → Inside f o s ∧
    ∀ p len d, codedLen o t + 4 ≤ len → Follows f o p len s d →
      ∃ u, D d u ∧ Follows f o p len t u ∧ NoError d u

/-- The encoder can do `E` with room for `k` SHIFT_LOWs, and `D` decodes it. -/
def Mirrors (o k : Nat) (E D : State → State → Prop) : Prop :=
  ∀ s l, Encodes o s → EncRoom s (k + l) →
    ∃ t, E s t ∧ Encodes o t ∧ EncRoom t l ∧ NoError s t ∧ Tracks o D s t

theorem Tracks.trans {D D' : State → State → Prop} {u : State} (h : Tracks o D s t) (h' : Tracks o D' t u) :
    Tracks o (fun x z => ∃ y, D x y ∧ D' y z) s u := by
  refine ⟨h.1.trans h'.1, fun f hf => ?_⟩
  obtain ⟨hin', hdec'⟩ := h'.2 f hf
  obtain ⟨hin, hdec⟩ := h.2 f hin'
  refine ⟨hin, fun p len d hlen hd => ?_⟩
  obtain ⟨v, hv, hfollow, hne⟩ := hdec p len d (by have := h'.1; omega) hd
  obtain ⟨w, hw, hfollow', hne'⟩ := hdec' p len v hlen hfollow
  exact ⟨w, ⟨v, hv, hw⟩, hfollow', hne.trans hne'⟩

theorem Tracks.imp {D D' : State → State → Prop} (h : Tracks o D s t) (hD : ∀ x y, D x y → D' x y) :
    Tracks o D' s t := by
  refine ⟨h.1, fun f hf => ⟨(h.2 f hf).1, fun p len d hlen hd => ?_⟩⟩
  obtain ⟨u, hu, hrest⟩ := (h.2 f hf).2 p len d hlen hd
  exact ⟨u, hD _ _ hu, hrest⟩

theorem Tracks.refl (s : State) : Tracks o Eq s s :=
  ⟨le_refl _, fun _ hf => ⟨hf, fun _ _ d _ hd => ⟨d, rfl, hd, .refl d⟩⟩⟩

section

variable {E E' E'' D D' D'' : State → State → Prop} {k l : Nat}

/-- One operation after another. -/
theorem Mirrors.then (h : Mirrors o k E D) (h' : Mirrors o l E' D')
    (hE : ∀ s t u, E s t → E' t u → E'' s u) (hD : ∀ s t u, D s t → D' t u → D'' s u) :
    Mirrors o (k + l) E'' D'' := by
  intro s m hs hroom
  obtain ⟨t, ht, hcodes, hroom', hne, htrack⟩ := h s (l + m) hs (by rwa [← Nat.add_assoc])
  obtain ⟨u, hu, hcodes', hroom'', hne', htrack'⟩ := h' t m hcodes hroom'
  exact ⟨u, hE s t u ht hu, hcodes', hroom'', hne.trans hne',
    (htrack.trans htrack').imp fun x z ⟨y, hxy, hyz⟩ => hD x y z hxy hyz⟩

theorem Mirrors.nothing (hE : ∀ s, E s s) (hD : ∀ d, D d d) : Mirrors o 0 E D := fun s l hs hroom =>
  ⟨s, hE s, hs, by rwa [Nat.zero_add] at hroom, .refl s, (Tracks.refl s).imp fun x _ h => h ▸ hD x⟩

end

/-! ### Renormalisation (R115) -/

theorem toNat_shiftLeft_eight {r : U32} (h : r < kTopValue) : (r <<< 8).toNat = 256 * r.toNat := by
  have h' : r.toNat < 16777216 := h
  rw [BitVec.toNat_shiftLeft, Nat.shiftLeft_eq]
  omega

/-- What a renormalisation does to the encoder's number and interval. -/
structure Shifts (o : Nat) (s t : State) : Prop where
  low : codedLow o t = 256 * codedLow o s
  len : codedLen o t = codedLen o s + 1
  probs : t.probs = s.probs
  range : t.enc.range = s.enc.range <<< 8

/-- The range moved up by a byte, before SHIFT_LOW. -/
def afterScale (s : State) : State := { s with enc := { s.enc with range := s.enc.range <<< 8 } }

theorem shifts_renorm {k : Nat} (hcodes : Codes o s.enc.range.toNat s) (hr : 0 < s.enc.range.toNat)
    (hlt : s.enc.range < kTopValue) (hroom : EncRoom s (k + 1)) :
    ∃ t, encNormalise s = .ok () t ∧ EncRoom t k ∧ NoError s t ∧ Codes o t.enc.range.toNat t ∧
      Shifts o s t := by
  have hcodes' : Codes o s.enc.range.toNat (afterScale s) :=
    ⟨hcodes.out, hcodes.start, hcodes.width, hcodes.carry⟩
  obtain ⟨hnext, hlow⟩ := codes_afterShift hcodes' hroom hr hlt
  obtain ⟨hroom', hmoved, -⟩ := moved_afterShift (s := afterScale s) hroom
  have hrange : (afterShift (afterScale s)).enc.range = s.enc.range <<< 8 := hmoved.range
  rw [← toNat_shiftLeft_eight hlt, ← hrange] at hnext
  exact ⟨afterShift (afterScale s), (encNormalise_of_lt hlt).trans (shiftLow_eq hroom), hroom', hmoved.noError,
    hnext, hlow, codedLen_afterShift hcodes.start hroom, afterShift_probs (afterScale s), hrange⟩

theorem Shifts.beNat_eq (h : Shifts o s t) (f : Nat → Byte) : beNat f (codedLen o t + 4) =
    beNat f (codedLen o s + 4) * 256 + (f (codedLen o s + 4)).toNat := by
  rw [h.len, Nat.add_right_comm]
  rfl

theorem Shifts.inside (h : Shifts o s t) (hlt : s.enc.range < kTopValue) (hf : Inside f o t) : Inside f o s := by
  obtain ⟨hge, hle⟩ := hf
  rw [h.beNat_eq, h.low] at hge hle
  rw [h.range, toNat_shiftLeft_eight hlt] at hle
  exact ⟨by omega, by omega⟩

/-- The decoder takes in the next byte of the code. -/
theorem Shifts.follows (h : Shifts o s t) (hlt : s.enc.range < kTopValue) (hf : Inside f o s)
    (hlen : codedLen o t + 4 ≤ len) (hd : Follows f o p len s d) :
    decNormalise d = .ok () (afterRenorm d) ∧ Follows f o p len t (afterRenorm d) := by
  have hlt' : s.enc.range.toNat < 2 ^ 24 := hlt
  have hpos := hd.inPos
  have hroom := hd.room
  have hcode := hd.code
  obtain ⟨-, hwithin⟩ := hf
  rw [h.len] at hlen
  have hin : d.host.inPos < d.host.inLen := by
    rw [BitVec.lt_def]
    omega
  have hbyte : d.inByte d.host.inPos.toNat = f (codedLen o s + 4) := by
    rw [hpos]
    exact hd.bytes _ (by omega)
  have hshift : (afterRenorm d).dec.code.toNat = d.dec.code.toNat * 256 + (f (codedLen o s + 4)).toNat := by
    rw [← hbyte, ← Nat.mod_eq_of_lt (show d.dec.code.toNat * 256 + _ < 2 ^ 32 by omega)]
    exact toNat_shiftIn _ _
  refine ⟨decNormalise_of_lt (hd.range ▸ hlt) hin, hd.probs.trans h.probs.symm, ?_, ?_, ?_, hd.bytes, hd.room⟩
  · rw [h.range, ← hd.range]
    rfl
  · rw [h.beNat_eq, h.low, hshift]
    omega
  · rw [h.len]
    refine (afterShiftIn_inPos hin).trans ?_
    omega

/-- Both shift, or neither does. -/
theorem mirrors_normalise {k : Nat} (hcodes : Codes o s.enc.range.toNat s) (hcells : CellsOk s.probs)
    (hr : 65536 ≤ s.enc.range.toNat) (hroom : EncRoom s (k + 1)) :
    ∃ t, encNormalise s = .ok () t ∧ Encodes o t ∧ EncRoom t k ∧ NoError s t ∧
      Tracks o (fun d u => decNormalise d = .ok () u) s t := by
  by_cases hlt : s.enc.range < kTopValue
  · obtain ⟨t, hrun, hroom', hne, hcodes', hshifts⟩ := shifts_renorm hcodes (by omega) hlt hroom
    refine ⟨t, hrun, ⟨hcodes', hshifts.probs ▸ hcells, hshifts.range ▸ renormalised_ge hr hlt⟩, hroom', hne,
      by rw [hshifts.len]; omega, fun f hf => ?_⟩
    have hin := hshifts.inside hlt hf
    refine ⟨hin, fun p len d hlen hd => ?_⟩
    obtain ⟨hdec, hfollow⟩ := hshifts.follows hlt hin hlen hd
    exact ⟨_, hdec, hfollow, rfl, rfl⟩
  · have henc : Encodes o s := ⟨hcodes, hcells, BitVec.not_lt.1 hlt⟩
    refine ⟨s, encNormalise_of_not_lt hlt, henc, hroom.mono (by omega), .refl s, le_refl _, fun f hf =>
      ⟨hf, fun p len d _ hd => ⟨d, decNormalise_of_not_lt ?_, hd, .refl d⟩⟩⟩
    rwa [hd.range]

/-! ### Decisions (R111, R113, R121, R122) -/

/-- `e'` is the part of the interval of `e` that starts `x` numbers further. -/
structure Part (e e' : RangeEnc) (x : U32) : Prop where
  low : e'.low.toNat = e.low.toNat + x.toNat
  range : x.toNat + e'.range.toNat ≤ e.range.toNat
  wide : 65536 ≤ e'.range.toNat
  cache : e'.cache = e.cache
  cacheSize : e'.cacheSize = e.cacheSize

theorem toNat_low_add {e : RangeEnc} {x : U32} (hx : x ≤ e.range) (hlow : e.low.toNat + e.range.toNat ≤ 2 ^ 33) :
    (e.low + x.setWidth 64).toNat = e.low.toNat + x.toNat := by
  have hx' : x.toNat ≤ e.range.toNat := hx
  rw [BitVec.toNat_add, BitVec.toNat_setWidth_of_le (by decide)]
  omega

theorem part_narrow {e : RangeEnc} {q : U16} (b : Bool) (hlow : e.low.toNat + e.range.toNat ≤ 2 ^ 33)
    (hr : kTopValue ≤ e.range) (h1 : 31 ≤ q.toNat) (h2 : q.toNat ≤ 2017) :
    Part e (narrow e (bitBound e.range q) b) (if b then bitBound e.range q else 0#32) := by
  obtain ⟨hbound, hrest⟩ := bitBound_parts hr h1 h2
  have hle : bitBound e.range q ≤ e.range := by rw [BitVec.le_def]; omega
  have hsub := BitVec.toNat_sub_of_le hle
  cases b
  · exact ⟨rfl, (Nat.zero_add _).trans_le hle, hbound, rfl, rfl⟩
  · refine ⟨toNat_low_add hle hlow, ?_, ?_, rfl, rfl⟩
    · show (bitBound e.range q).toNat + (e.range - bitBound e.range q).toNat ≤ _
      omega
    · show 65536 ≤ (e.range - bitBound e.range q).toNat
      omega

theorem part_halve {e : RangeEnc} (b : Bool) (hlow : e.low.toNat + e.range.toNat ≤ 2 ^ 33)
    (hr : kTopValue ≤ e.range) : Part e (halve e b) (if b then e.range >>> 1 else 0#32) := by
  have hr' : 16777216 ≤ e.range.toNat := hr
  have hhalf := toNat_ushiftRight_one e.range
  have hle : e.range >>> 1 ≤ e.range := by rw [BitVec.le_def]; omega
  have hwide : 65536 ≤ (e.range >>> 1).toNat := by omega
  have hboth : (e.range >>> 1).toNat + (e.range >>> 1).toNat ≤ e.range.toNat := by omega
  cases b
  · exact ⟨rfl, (Nat.zero_add _).trans_le hle, hwide, rfl, rfl⟩
  · exact ⟨toNat_low_add hle hlow, hboth, hwide, rfl, rfl⟩

section

variable {e : RangeEnc} {x : U32} {cells : Store U16}

theorem Part.codedLow_eq (h : Part s.enc e x) :
    codedLow o { s with probs := cells, enc := e } = codedLow o s + x.toNat := by
  show (_ * 256 ^ e.cacheSize.toNat + heldNat e.cache e.cacheSize.toNat) * 2 ^ 32 + e.low.toNat = _
  rw [h.low, h.cache, h.cacheSize, ← Nat.add_assoc]
  rfl

theorem Part.codedLen_eq (h : Part s.enc e x) :
    codedLen o { s with probs := cells, enc := e } = codedLen o s := by
  show _ + e.cacheSize.toNat = _
  rw [h.cacheSize]
  rfl

theorem Part.codes (h : Part s.enc e x) (hs : Codes o s.enc.range.toNat s) :
    Codes o e.range.toNat { s with probs := cells, enc := e } := by
  have hlow := h.low
  have hrange := h.range
  have hwidth := hs.width
  exact ⟨hs.out, hs.start, by show e.low.toNat + _ ≤ _; omega,
    fun hc => h.cache ▸ hs.carry (by change _ < e.low.toNat + _ at hc; omega)⟩

theorem Part.inside (h : Part s.enc e x) (hf : Inside f o { s with probs := cells, enc := e }) :
    Inside f o s ∧ codedLow o s + x.toNat ≤ beNat f (codedLen o s + 4) ∧
      beNat f (codedLen o s + 4) < codedLow o s + (x.toNat + e.range.toNat) := by
  obtain ⟨hge, hlt⟩ := hf
  have hrange := h.range
  rw [h.codedLow_eq, h.codedLen_eq] at hge hlt
  change _ < _ + e.range.toNat at hlt
  exact ⟨⟨by omega, by omega⟩, by omega, by omega⟩

/-- The decoder that takes the same part stands where the encoder does. -/
theorem Part.follows (h : Part s.enc e x) (hd : Follows f o p len s d) (hx : x ≤ d.dec.code) :
    Follows f o p len { s with probs := cells, enc := e }
      { d with probs := cells, dec := ⟨d.dec.code - x, e.range⟩ } := by
  have hx' : x.toNat ≤ d.dec.code.toNat := hx
  refine ⟨rfl, rfl, ?_, h.codedLen_eq ▸ hd.inPos, hd.bytes, hd.room⟩
  rw [h.codedLow_eq, h.codedLen_eq, ← hd.code, BitVec.toNat_sub_of_le hx]
  omega

end

/-- `m` takes the part of the interval that starts at `x`; `n`, where `code` lies in that part, takes the same
and returns `a`. -/
def TakesPart {α : Type} (m : Eng Unit) (n : Eng α) (a : α) (s : State) : Prop :=
  ∃ cells e x, m s = encNormalise { s with probs := cells, enc := e } ∧ CellsOk cells ∧ Part s.enc e x ∧
    ∀ d : State, d.probs = s.probs → d.dec.range = s.enc.range → x ≤ d.dec.code →
      d.dec.code.toNat < x.toNat + e.range.toNat →
      n d = (decNormalise >>= fun _ => pure a) { d with probs := cells, dec := ⟨d.dec.code - x, e.range⟩ }

theorem mirrors_of_takesPart {α : Type} {m : Eng Unit} {n : Eng α} {a : α}
    (h : ∀ s, Encodes o s → TakesPart m n a s) :
    Mirrors o 1 (fun s t => m s = .ok () t) fun d u => n d = .ok a u := by
  intro s l hs hroom
  obtain ⟨cells, e, x, hm, hcells, hpart, hn⟩ := h s hs
  obtain ⟨hheld, hfit⟩ := hroom
  have hroom' : EncRoom { s with probs := cells, enc := e } (l + 1) := by
    constructor
    · show 1 ≤ e.cacheSize.toNat
      rwa [hpart.cacheSize]
    · show s.host.outLen.toNat + e.cacheSize.toNat + (l + 1) ≤ s.outCap + 1
      rwa [hpart.cacheSize, Nat.add_comm l]
  obtain ⟨t, ht, henc, hleft, hne, hlen, htrack⟩ :=
    mirrors_normalise (hpart.codes (cells := cells) hs.codes) hcells hpart.wide hroom'
  rw [hpart.codedLen_eq] at hlen
  refine ⟨t, hm.trans ht, henc, hleft, hne, hlen, fun f hf => ?_⟩
  obtain ⟨hin, hdec⟩ := htrack f hf
  obtain ⟨hin', hge, hlt⟩ := hpart.inside hin
  refine ⟨hin', fun p len d hlen' hd => ?_⟩
  have hcode := hd.code
  have hx : x ≤ d.dec.code := by rw [BitVec.le_def]; omega
  obtain ⟨u, hu, hfollow, hne'⟩ := hdec p len _ hlen' (hpart.follows hd hx)
  exact ⟨u, (hn d hd.probs hd.range hx (by omega)).trans (bind_ok hu), hfollow, hne'⟩

theorem CellsOk.adapted (h : CellsOk s.probs) (c : CellRef) (b : Bool) :
    CellsOk (s.setProb c (adapt (s.prob c) b)).probs := by
  obtain ⟨h1, h2⟩ := h.get (cellKey c)
  obtain ⟨h3, h4⟩ := adapt_bounds (s.prob c) b h1 h2
  exact h.set _ h3 h4

theorem mirrors_bit (o : Nat) (c : CellRef) (b : Bool) :
    Mirrors o 1 (fun s t => encBit c b s = .ok () t) fun d u => decBit c d = .ok b u := by
  refine mirrors_of_takesPart fun s hs => ?_
  obtain ⟨h1, h2⟩ := hs.cells.get (cellKey c)
  refine ⟨_, _, _, encBit_run c b s, hs.cells.adapted c b, part_narrow b hs.codes.width hs.range h1 h2,
    fun d hprobs hrange hx hlt => ?_⟩
  have hprob : d.prob c = s.prob c := congrArg (Store.get probInit · (cellKey c)) hprobs
  have hcompare : d.dec.code < bitBound s.enc.range (s.prob c) ↔ b = false := by
    cases b
    · exact iff_of_true (BitVec.lt_def.2 (hlt.trans_eq (Nat.zero_add _))) rfl
    · exact iff_of_false (BitVec.not_lt.2 hx) nofun
  have hbit : (!decide (d.dec.code < bitBound s.enc.range (s.prob c))) = b := by
    simp only [hcompare]
    cases b <;> decide
  have hnarrow : decNarrow d.dec (bitBound s.enc.range (s.prob c)) =
      ⟨d.dec.code - (if b then bitBound s.enc.range (s.prob c) else 0#32),
        (narrow s.enc (bitBound s.enc.range (s.prob c)) b).range⟩ := by
    cases b
    · rw [decNarrow, if_pos (hcompare.2 rfl), if_neg Bool.false_ne_true, BitVec.sub_zero]
      rfl
    · rw [decNarrow, if_neg (mt hcompare.1 nofun), if_pos rfl, hrange]
      rfl
  have hstate : afterDecision c d = { d with
      probs := (s.setProb c (adapt (s.prob c) b)).probs
      dec := decNarrow d.dec (bitBound s.enc.range (s.prob c)) } := by
    rw [afterDecision, hprob, hrange, hbit, State.setProb, hprobs]
    rfl
  rw [decBit_run, hprob, hrange, hbit, hstate, hnarrow]

theorem mirrors_directBit (o : Nat) (b : Bool) :
    Mirrors o 1 (fun s t => encDirectBit b s = .ok () t) fun d u => decDirectBit d = .ok b u := by
  refine mirrors_of_takesPart fun s hs => ⟨_, _, _, encDirectBit_run b s, hs.cells,
    part_halve b hs.codes.width hs.range, fun d hprobs hrange hx hlt => ?_⟩
  have hhalf := toNat_ushiftRight_one s.enc.range
  have hmax := s.enc.range.isLt
  have hcompare : (d.dec.code - d.dec.range >>> 1).getLsbD 31 = !b := by
    rw [hrange, Bool.eq_iff_iff, getLsbD_sub_iff (by omega)]
    · cases b
      · exact iff_of_true (BitVec.lt_def.2 (hlt.trans_eq (Nat.zero_add _))) rfl
      · exact iff_of_false (BitVec.not_lt.2 hx) nofun
    · refine hlt.trans_le ?_
      cases b
      · show 0 + (s.enc.range >>> 1).toNat ≤ _
        omega
      · show (s.enc.range >>> 1).toNat + (s.enc.range >>> 1).toNat ≤ _
        omega
  have hhalved : halvedDec d.dec =
      ⟨d.dec.code - (if b then s.enc.range >>> 1 else 0#32), (halve s.enc b).range⟩ := by
    rw [halvedDec, hcompare, hrange]
    cases b
    · exact congrArg (RangeDec.mk · (s.enc.range >>> 1)) (BitVec.sub_zero _).symm
    · rfl
  rw [decDirectBit_eq, hcompare, Bool.not_not, hhalved, ← hprobs]

/-- The `n` low bits of `v` go onto what the decoder has read before (R113, R122). -/
theorem mirrors_direct (o : Nat) (v : U32) : ∀ (n : Nat) (acc : U32),
    Mirrors o n (fun s t => encDirect v n s = .ok () t)
      fun d u => decDirect n acc d = .ok (BitVec.ofNat 32 (acc.toNat * 2 ^ n + v.toNat % 2 ^ n)) u
  | 0, acc => by
    refine .nothing (fun _ => rfl) fun d => ?_
    rw [pow_zero, Nat.mod_one, Nat.mul_one, Nat.add_zero, BitVec.ofNat_toNat, BitVec.setWidth_eq]
    rfl
  | n + 1, acc => by
    have hbits : v.toNat % 2 ^ (n + 1) = v.toNat % 2 ^ n + 2 ^ n * (v.getLsbD n).toNat := by
      rw [Nat.mod_pow_succ, ← Nat.toNat_testBit, BitVec.testBit_toNat]
    have hvalue : BitVec.ofNat 32 ((childNode acc (v.getLsbD n)).toNat * 2 ^ n + v.toNat % 2 ^ n) =
        BitVec.ofNat 32 (acc.toNat * 2 ^ (n + 1) + v.toNat % 2 ^ (n + 1)) := by
      apply BitVec.eq_of_toNat_eq
      rw [BitVec.toNat_ofNat, BitVec.toNat_ofNat, childNode_toNat, Nat.add_mod, Nat.mod_mul_mod, ← Nat.add_mod,
        hbits, Nat.pow_succ]
      congr 1
      ring
    rw [Nat.add_comm n]
    refine (mirrors_directBit o (v.getLsbD n)).then (mirrors_direct o v n (childNode acc (v.getLsbD n)))
      (fun s t u h h' => ?_) fun s t u h h' => ?_
    · rw [Nat.add_comm 1]
      exact (bind_ok h).trans h'
    · rw [Nat.add_comm 1, ← hvalue]
      exact (bind_ok h).trans h'

end Sys2Proof
end

section
/-! The mirror law (40_range_coder R123): the instructions of a sequence mirror each other, ENC_INIT and DEC_INIT
start together, and ENC_FLUSH writes a code that lies in the last interval. -/

namespace Sys2Proof

open Machine

variable {f : Nat → Byte} {o p len : Nat} {s t d : State}

/-! ### Instructions (R111, R113, R121, R122) -/

/-- The register in which the machine returns a value plays no part. -/
theorem Mirrors.instr {k : Nat} {m : Eng Unit} {n : Eng U32} {v : U32}
    (h : Mirrors o k (fun s t => m s = .ok () t) fun d u => n d = .ok v u) :
    Mirrors o k (fun s t => completeUnit m s = .next t ∧ t.ret = .none)
      fun d u => completeWord n d = .next u ∧ u.ret = .word v := by
  intro s l hs hroom
  obtain ⟨t, ht, henc, hleft, hne, hlen, htrack⟩ := h s l hs hroom
  refine ⟨{ t with ret := .none }, ⟨completeUnit_ok ht, rfl⟩, henc.withRet .none, hleft, hne, hlen,
    fun f hf => ?_⟩
  obtain ⟨hin, hdec⟩ := htrack f hf
  refine ⟨hin, fun p len d hlen' hd => ?_⟩
  obtain ⟨u, hu, hfollow, hne'⟩ := hdec p len d hlen' hd
  exact ⟨{ u with ret := .word v }, ⟨completeWord_ok hu, rfl⟩, hfollow.withRet .none (.word v), hne'⟩

theorem Mirrors.imp {k : Nat} {E D D' : State → State → Prop} (h : Mirrors o k E D)
    (hD : ∀ d u, D d u → D' d u) : Mirrors o k E D' := fun s l hs hroom =>
  have ⟨t, ht, henc, hleft, hne, htrack⟩ := h s l hs hroom
  ⟨t, ht, henc, hleft, hne, htrack.imp hD⟩

theorem toNat_count {n : Nat} (h : n ≤ 32) : (BitVec.ofNat 8 n).toNat = n := by
  rw [BitVec.toNat_ofNat]
  omega

theorem mirrors_item (o : Nat) (x : Coded) (hx : ∀ v n, x = .direct v n → n ≤ 32) :
    Mirrors o (codedBits [x]) (fun s t => exec x.encInstr s = .next t ∧ t.ret = .none)
      fun d u => exec x.decInstr d = .next u ∧ u.ret = .word x.value := by
  cases x with
  | bit c b =>
    exact ((mirrors_bit o c b).imp fun d u hu => bind_ok (f := fun b => pure (bitWord b)) hu).instr
  | direct v n =>
    have hn := toNat_count (hx v n rfl)
    have hvalue : (0#32 : U32).toNat * 2 ^ n + v.toNat % 2 ^ n = v.toNat % 2 ^ n := by
      rw [show (0#32 : U32).toNat = 0 from rfl, Nat.zero_mul, Nat.zero_add]
    have hexec := (mirrors_direct o v n 0#32).instr
    rw [hvalue] at hexec
    show Mirrors o n (fun s t => completeUnit (encDirect v (BitVec.ofNat 8 n).toNat) s = .next t ∧ _)
      fun d u => completeWord (decDirect (BitVec.ofNat 8 n).toNat 0#32) d = .next u ∧ _
    rwa [hn]

theorem codedBits_cons (x : Coded) (ds : List Coded) : codedBits (x :: ds) = codedBits [x] + codedBits ds := by
  cases x <;> rfl

theorem mirrors_items (o : Nat) : ∀ ds : List Coded, (∀ v n, Coded.direct v n ∈ ds → n ≤ 32) →
    Mirrors o (codedBits ds)
      (fun s t => runInstrs (ds.map Coded.encInstr) s = some (ds.map fun _ => Ret.none, t))
      fun d u => runInstrs (ds.map Coded.decInstr) d = some (ds.map fun x => Ret.word x.value, u)
  | [], _ => .nothing (fun _ => rfl) fun _ => rfl
  | x :: ds, h => by
    rw [codedBits_cons]
    refine (mirrors_item o x fun v n hx => h v n (hx ▸ List.mem_cons_self)).then
      (mirrors_items o ds fun v n hmem => h v n (List.mem_cons_of_mem x hmem))
      (fun s t u ⟨hstep, hret⟩ hrest => ?_) fun s t u ⟨hstep, hret⟩ hrest => ?_
    · have hrun := runInstrs_cons hstep hrest
      rwa [hret] at hrun
    · have hrun := runInstrs_cons hstep hrest
      rwa [hret] at hrun

theorem runInstrs_append {is js : List Instr} {rs rs' : List Ret} {u : State} : ∀ {s : State},
    runInstrs is s = some (rs, t) → runInstrs js t = some (rs', u) →
      runInstrs (is ++ js) s = some (rs ++ rs', u) := by
  induction is generalizing rs with
  | nil =>
    intro s h h'
    cases h
    exact h'
  | cons i is ih =>
    intro s h h'
    simp only [runInstrs] at h
    cases hstep : exec i s with
    | next v =>
      rw [hstep] at h
      cases hrest : runInstrs is v with
      | some x =>
        simp only [hrest, Option.some.injEq, Prod.mk.injEq] at h
        obtain ⟨rfl, rfl⟩ := h
        exact runInstrs_cons hstep (ih hrest h')
      | none =>
        simp only [hrest] at h
        cases h
    | fault r =>
      rw [hstep] at h
      cases h
    | refused r =>
      rw [hstep] at h
      cases h

/-! ### Start and end (R110, R117, R120) -/

/-- The state after ENC_INIT. -/
def encStart (s : State) : State := { s with enc := encInitRegs, ret := .none }

theorem encodes_encStart (hout : s.outMem.wf = true) (hcells : CellsOk s.probs) :
    Encodes s.host.outLen.toNat (encStart s) := by
  have hwidth : encInitRegs.low.toNat + encInitRegs.range.toNat ≤ 2 ^ 32 := by decide
  have hrange : kTopValue ≤ encInitRegs.range := by decide
  exact ⟨⟨hout, le_refl _, hwidth.trans (by decide), fun h => absurd h (Nat.not_lt.2 hwidth)⟩, hcells, hrange⟩

theorem codedLen_encStart (s : State) : codedLen s.host.outLen.toNat (encStart s) = 1 := by
  show s.host.outLen.toNat - s.host.outLen.toNat + 1 = 1
  rw [Nat.sub_self]

theorem codedLow_encStart (s : State) : codedLow s.host.outLen.toNat (encStart s) = 0 := by
  show (beNat _ (s.host.outLen.toNat - s.host.outLen.toNat) * 256 ^ 1 + heldNat 0#8 1) * 2 ^ 32 + 0 = 0
  rw [Nat.sub_self, heldNat_one]
  simp [beNat]

/-- DEC_INIT reads the first byte, which is 0, and the four that make the first `code`. -/
theorem follows_decInit (ho : o = s.host.outLen.toNat) (hf : Inside f o (encStart s))
    (hprobs : d.probs = s.probs) (hlen : 5 ≤ len) (hbytes : ∀ j < len, inFrom d j = f j)
    (hroom : DecInput d len) :
    ∃ u, exec .rcDecInit d = .next u ∧ u.ret = .none ∧ NoError d u ∧
      Follows f o d.host.inPos.toNat len (encStart s) u := by
  subst ho
  obtain ⟨-, hlt⟩ := hf
  rw [codedLen_encStart, codedLow_encStart] at hlt
  have hin := d.host.inLen.isLt
  unfold DecInput at hroom
  have hfive : DecInput (decStart d) 5 := by
    show d.host.inPos.toNat + 5 ≤ d.host.inLen.toNat
    omega
  have hread : beNat (inFrom (decStart d)) 5 = beNat f 5 := beNat_congr fun j hj => hbytes j (by omega)
  refine ⟨_, completeUnit_ok (decShiftInTimes_ok hfive), rfl, ⟨rfl, rfl⟩, hprobs, rfl, ?_, ?_, hbytes, hroom⟩
  · rw [codedLen_encStart, codedLow_encStart, Nat.zero_add]
    show (BitVec.ofNat 32 (0 * 256 ^ 5 + beNat (inFrom (decStart d)) 5)).toNat = beNat f (1 + 4)
    rw [hread, BitVec.toNat_ofNat, Nat.zero_mul, Nat.zero_add]
    exact Nat.mod_eq_of_lt (by change beNat f 5 < 0 + 4294967295 at hlt; omega)
  · rw [codedLen_encStart]
    show (d.host.inPos + 5#32).toNat = d.host.inPos.toNat + 5
    rw [BitVec.toNat_add, BitVec.toNat_ofNat]
    omega

/-- Settles O24: a flush writes the start of the last interval, so the bytes written lie in every interval
before, and the decoder takes the same parts. -/
theorem mirrorLaw : Obligations.MirrorLaw := by
  intro ds s hdirect hout hcanonical hbounded hcap
  have hstart := encodes_encStart hout ⟨hcanonical, hbounded⟩
  have hroom : EncRoom (encStart s) (codedBits ds + 5) := by
    refine ⟨le_refl 1, ?_⟩
    show s.host.outLen.toNat + 1 + (codedBits ds + 5) ≤ s.outCap + 1
    omega
  obtain ⟨t, ht, henc, hflush, hne, hlen, htrack⟩ :=
    mirrors_items s.host.outLen.toNat ds hdirect (encStart s) 5 hstart hroom
  rw [codedLen_encStart] at hlen
  obtain ⟨hrun, -, hmoved, -⟩ := moved_iterate (n := 5) (k := 0) hflush
  have hrange : 16777216 ≤ t.enc.range.toNat := henc.range
  obtain ⟨hge, hwritten, hcode, hprobs⟩ := codes_flush henc.codes (by omega) hflush
  have hinside : Inside (outFrom s.host.outLen.toNat (afterShift^[5] t)) s.host.outLen.toNat t :=
    ⟨hcode.ge, by omega⟩
  obtain ⟨hinside', hdec⟩ := htrack _ hinside
  have hexec : exec .rcEncFlush t = .next { afterShift^[5] t with ret := .none } := completeUnit_ok hrun
  have hend := runInstrs_cons (is := []) hexec rfl
  refine ⟨_, _, runInstrs_cons (t := encStart s) rfl (runInstrs_append ht hend), hne.trans hmoved.noError,
    fun d hd => ?_⟩
  intro written hin hbytes
  have hw : written = codedLen s.host.outLen.toNat t + 4 := hwritten
  obtain ⟨u, hinit, hret, hne', hfollow⟩ := follows_decInit rfl hinside' hd (by omega) hbytes hin
  obtain ⟨v, hv, hfollow', hne''⟩ := hdec _ _ u (le_of_eq hw.symm) hfollow
  have hdecoded := runInstrs_cons hinit hv
  rw [hret] at hdecoded
  exact ⟨v, hdecoded, hne'.trans hne'', hfollow'.probs.trans hprobs.symm, hw ▸ hfollow'.inPos⟩

end Sys2Proof
end

section
/-! The trees' instructions (41_bit_tree, 42_literal_coder, 43_length_coder): the encoders code their symbol's
path; any decision of a path can be changed without changing those before it, so the decoder always reads the
path of some symbol. -/

namespace Sys2Proof

open Machine

/-! ### Encoders (R135, R138, R152, R153, R165) -/

/-- An instruction that codes a path runs to its end with room for one SHIFT_LOW a decision. -/
theorem codesPath {m : Eng Unit} {path : List (CellRef × Bool)} (s : State) (hm : m = encBits path) :
    completeUnit m s = completeUnit (encBits path) s ∧
      (EncRoom s path.length → ∃ t, completeUnit m s = .next t ∧ NoError s t) := by
  subst hm
  refine ⟨rfl, fun hroom => ?_⟩
  obtain ⟨t, ht, -, hne⟩ := encBits_runs path (k := 0) (by rwa [Nat.zero_add])
  exact ⟨_, completeUnit_ok ht, hne⟩

/-- Settles O26: each operation is the path of its symbol, and a path with room runs to its end. -/
theorem treeEncodersCodeTheirPaths : Obligations.TreeEncodersCodeTheirPaths := by
  refine ⟨fun t n sym s hwf => ?_, fun t n sym s _ => ?_, fun c sym s => ?_, fun c m sym s => ?_,
    fun c k ps s hwf => ?_⟩
  · obtain ⟨⟨-, -, hsym⟩, -⟩ := (treeOperandsWf_iff t n sym).1 hwf
    rw [← toNat_symbol] at hsym ⊢
    exact codesPath s (btEnc_eq_encBits hsym)
  · rw [← toNat_symbol]
    exact codesPath s (btRenc_eq_encBits t n.toNat (sym.setWidth 32))
  · exact codesPath s (litEnc_eq_encBits c sym)
  · exact codesPath s (litEncMatched_eq_encBits c m sym)
  · obtain ⟨hk, -⟩ := of_decide_eq_true hwf
    exact codesPath s (lenEnc_eq_encBits c hk ps)

/-! ### One bit of a symbol -/

/-- `v` with bit `i` made `b`. -/
def withBit (v i : Nat) (b : Bool) : Nat := if v.testBit i = b then v else v ^^^ 2 ^ i

theorem testBit_withBit_self (v i : Nat) (b : Bool) : (withBit v i b).testBit i = b := by
  unfold withBit
  split
  · next h => exact h
  · next h =>
    rw [Nat.testBit_xor, Nat.testBit_two_pow_self, Bool.xor_true]
    exact Bool.not_eq.2 h

theorem testBit_withBit_of_ne {i j : Nat} (v : Nat) (b : Bool) (h : i ≠ j) :
    (withBit v i b).testBit j = v.testBit j := by
  unfold withBit
  split
  · rfl
  · rw [Nat.testBit_xor, Nat.testBit_two_pow_of_ne h, Bool.xor_false]

theorem withBit_lt {v i n : Nat} (b : Bool) (hv : v < 2 ^ n) (hi : i < n) : withBit v i b < 2 ^ n := by
  unfold withBit
  split
  · exact hv
  · exact Nat.xor_lt_two_pow hv (Nat.pow_lt_pow_right (by decide) hi)

theorem withBit_div {i k : Nat} (v : Nat) (b : Bool) (h : i < k) : withBit v i b / 2 ^ k = v / 2 ^ k := by
  apply Nat.eq_of_testBit_eq
  intro j
  rw [Nat.testBit_div_two_pow, Nat.testBit_div_two_pow, testBit_withBit_of_ne v b (by omega)]

/-- The `k` low bits in reverse order do not depend on the bits above. -/
theorem reverseBits_withBit (v : Nat) (b : Bool) {i : Nat} : ∀ {k : Nat}, k ≤ i →
    reverseBits k (withBit v i b) = reverseBits k v
  | 0, _ => rfl
  | k + 1, h => by
    rw [reverseBits, reverseBits, reverseBits_withBit v b (by omega), ← Nat.toNat_testBit, ← Nat.toNat_testBit,
      testBit_withBit_of_ne v b (by omega)]

/-! ### Paths the decoder follows -/

section

variable {n size : Nat}

/-- With `k` bytes of IN left the decoder reads the path of a symbol below `size`, takes no more of them,
and raises no error. -/
def ReadsSome (k size : Nat) (path : Nat → List (CellRef × Bool)) : Prop :=
  ∀ s l, DecInput s (k + l) →
    ∃ v u, v < size ∧ Reads (bitsOf (path v)) s u ∧ DecInput u l ∧ NoError s u

/-- Whatever symbol has been followed to level `k`, another one has the same decisions before and any
decision at `k`. -/
def Branches (n size : Nat) (level : Nat → Nat → CellRef × Bool) : Prop :=
  ∀ v k b, v < size → k < n →
    ∃ w < size, (∀ j < k, level w j = level v j) ∧ level w k = ((level v k).1, b)

theorem readsSome_of_branches {level : Nat → Nat → CellRef × Bool} (hsize : 0 < size)
    (h : Branches n size level) : ∀ {k : Nat}, k ≤ n →
      ReadsSome k size fun v => (List.range k).map (level v)
  | 0, _ => fun s l hin => ⟨0, s, hsize, reads_nil.2 rfl, by rwa [Nat.zero_add] at hin, .refl s⟩
  | k + 1, hk => fun s l hin => by
    obtain ⟨v, t, hv, hbefore, hleft, hne⟩ :=
      readsSome_of_branches hsize h (k := k) (by omega) s (1 + l) (by rwa [← Nat.add_assoc])
    obtain ⟨b, u, hbit, -, hleft', hne'⟩ := yields_decBit (level v k).1 t l hleft
    obtain ⟨w, hw, hsame, hnext⟩ := h v k b hv hk
    have hkept : (List.range k).map (level w) = (List.range k).map (level v) :=
      List.map_congr_left fun j hj => hsame j (List.mem_range.1 hj)
    refine ⟨w, u, hw, ?_, hleft', hne.trans hne'⟩
    have hpath : (List.range (k + 1)).map (level w) =
        (List.range k).map (level v) ++ [((level v k).1, b)] := by
      rw [List.range_succ, List.map_append, hkept, List.map_singleton, hnext]
    show Reads (bitsOf ((List.range (k + 1)).map (level w))) s u
    rw [hpath, bitsOf, List.map_append]
    exact reads_append.2 ⟨t, hbefore, reads_bit_cons.2 ⟨u, hbit, reads_nil.2 rfl⟩⟩

/-- Levels that take the bits of the symbol from the top, at cells that depend on the bits taken. -/
theorem branches_forward (cell : Nat → Nat → CellRef) (n : Nat) :
    Branches n (2 ^ n) fun v k => (cell k (v / 2 ^ (n - k)), v.testBit (n - 1 - k)) := by
  intro v k b hv hk
  refine ⟨withBit v (n - 1 - k) b, withBit_lt b hv (by omega), fun j hj => ?_, ?_⟩
  · dsimp only
    rw [withBit_div v b (by omega), testBit_withBit_of_ne v b (by omega)]
  · dsimp only
    rw [withBit_div v b (by omega), testBit_withBit_self]

/-- Levels that take them from the bottom (R139). -/
theorem branches_reverse (t : CellRef) (n : Nat) :
    Branches n (2 ^ n) fun v k => (treeCell t (BitVec.ofNat 32 (2 ^ k + reverseBits k v)), v.testBit k) := by
  intro v k b hv hk
  refine ⟨withBit v k b, withBit_lt b hv hk, fun j hj => ?_, ?_⟩
  · dsimp only
    rw [reverseBits_withBit v b (by omega), testBit_withBit_of_ne v b (by omega)]
  · dsimp only
    rw [reverseBits_withBit v b (le_refl k), testBit_withBit_self]

theorem readsSome_treePath (t : CellRef) (n : Nat) : ReadsSome n (2 ^ n) (treePath t n) :=
  readsSome_of_branches (Nat.two_pow_pos n)
    (branches_forward (fun k p => treeCell t (BitVec.ofNat 32 (2 ^ k + p))) n) (le_refl n)

theorem readsSome_reversePath (t : CellRef) (n : Nat) : ReadsSome n (2 ^ n) (reversePath t n) :=
  readsSome_of_branches (Nat.two_pow_pos n) (branches_reverse t n) (le_refl n)

theorem ReadsSome.congr {k : Nat} {path path' : Nat → List (CellRef × Bool)} (h : ReadsSome k size path)
    (heq : ∀ v < size, path' v = path v) : ReadsSome k size path' := fun s l hin => by
  obtain ⟨v, u, hv, hread, hrest⟩ := h s l hin
  exact ⟨v, u, hv, (heq v hv).symm ▸ hread, hrest⟩

theorem readsSome_literalPath (c : Nat) :
    ReadsSome 8 256 fun b => literalPath c (BitVec.ofNat 8 b) :=
  (readsSome_treePath ⟨.literal, BitVec.ofNat 32 (768 * c)⟩ 8).congr fun v hv => by
    rw [literalPath, BitVec.toNat_ofNat, Nat.mod_eq_of_lt hv]

/-- The cell of level `k` of a matched literal, `p` being the bits above (R153). -/
def matchedLevelCell (c : Nat) (matchByte : Byte) (k p : Nat) : CellRef :=
  let same := p = matchByte.toNat / 2 ^ (8 - k)
  let offset := if same then 256 * (1 + matchByte.toNat / 2 ^ (7 - k) % 2) else 0
  ⟨.literal, BitVec.ofNat 32 (768 * c + offset + (2 ^ k + p))⟩

theorem readsSome_matchedPath (c : Nat) (matchByte : Byte) :
    ReadsSome 8 256 fun b => matchedPath c matchByte (BitVec.ofNat 8 b) :=
  (readsSome_of_branches (by decide) (branches_forward (matchedLevelCell c matchByte) 8) (le_refl 8)).congr
    fun v hv => by
      rw [matchedPath, BitVec.toNat_ofNat, Nat.mod_eq_of_lt hv]
      refine List.map_congr_left fun k _ => ?_
      simp only [matchedLevelCell, decide_eq_true_iff]

end

section

variable {k l sizeA sizeB : Nat} {path : Nat → List (CellRef × Bool)}

/-- A decision, and then the path of a symbol of one of two trees, the second tree's counted on from the
first one's. -/
theorem ReadsSome.choice {c : CellRef} {low high : Nat → List (CellRef × Bool)} (hlow : ReadsSome k sizeA low)
    (hhigh : ReadsSome k sizeB high) (hpath : ∀ v < sizeA, path v = (c, false) :: low v)
    (hpath' : ∀ v < sizeB, path (sizeA + v) = (c, true) :: high v) :
    ReadsSome (k + 1) (sizeA + sizeB) path := fun s l hin => by
  obtain ⟨b, t, hbit, -, hleft, hne⟩ :=
    yields_decBit c s (k + l) (by rwa [← Nat.add_assoc, Nat.add_comm 1])
  cases b with
  | false =>
    obtain ⟨v, u, hv, hread, hleft', hne'⟩ := hlow t l hleft
    refine ⟨v, u, by omega, ?_, hleft', hne.trans hne'⟩
    rw [hpath v hv]
    exact reads_bit_cons.2 ⟨t, hbit, hread⟩
  | true =>
    obtain ⟨v, u, hv, hread, hleft', hne'⟩ := hhigh t l hleft
    refine ⟨sizeA + v, u, by omega, ?_, hleft', hne.trans hne'⟩
    rw [hpath' v hv]
    exact reads_bit_cons.2 ⟨t, hbit, hread⟩

theorem ReadsSome.mono {size : Nat} (h : ReadsSome k size path) (hl : k ≤ l) : ReadsSome l size path :=
  fun s j hin => by
    obtain ⟨v, u, hv, hread, hleft, hne⟩ := h s (l - k + j) (by rwa [← Nat.add_assoc, Nat.add_sub_cancel' hl])
    exact ⟨v, u, hv, hread, hleft.mono (Nat.le_add_left j _), hne⟩

end

/-- The 8 low, 8 mid and 256 high symbols of a length coder (R166). -/
theorem readsSome_lengthPath (c : LenSel) (ps : Nat) : ReadsSome 10 272 (lengthPath c ps) := by
  have hlow := (readsSome_treePath ⟨.lenLow c, BitVec.ofNat 32 (8 * ps)⟩ 3).mono (l := 9) (by decide)
  have hmid := (readsSome_treePath ⟨.lenMid c, BitVec.ofNat 32 (8 * ps)⟩ 3).mono (l := 8) (by decide)
  have hhigh := readsSome_treePath ⟨.lenHigh c, 0#32⟩ 8
  have hupper : ReadsSome 9 264 fun v => (lengthPath c ps (8 + v)).tail := by
    refine hmid.choice (c := ⟨.lenChoice c, 1#32⟩) hhigh (fun v hv => ?_) fun v hv => ?_
    · rw [lengthPath, if_neg (by omega), if_pos (by omega), Nat.add_sub_cancel_left]
      rfl
    · rw [lengthPath, if_neg (by omega), if_neg (by omega), show 8 + (2 ^ 3 + v) - 16 = v by omega]
      rfl
  refine hlow.choice (c := ⟨.lenChoice c, 0#32⟩) hupper (fun v hv => if_pos hv) fun v hv => ?_
  show lengthPath c ps (8 + v) = (⟨.lenChoice c, 0#32⟩, true) :: (lengthPath c ps (8 + v)).tail
  rw [lengthPath, if_neg (by omega)]
  split <;> rfl

/-! ### Decoders (R136, R139, R154, R155, R166) -/

/-- An instruction that decodes every path of a family returns the symbol whose path it has read, and with
enough bytes of IN there is one. -/
theorem returnsSymbol {m : Eng U32} {levels size : Nat} {path : Nat → List (CellRef × Bool)} (s : State)
    (hpaths : ReadsSome levels size path)
    (hm : ∀ v < size, DecodesTo m (bitsOf (path v)) (BitVec.ofNat 32 v)) :
    (∀ v u, v < size → Reads (bitsOf (path v)) s u →
      completeWord m s = .next { u with ret := .word (BitVec.ofNat 32 v) }) ∧
    (DecInput s levels → ∃ v u, v < size ∧ Reads (bitsOf (path v)) s u ∧ NoError s u ∧
      completeWord m s = .next { u with ret := .word (BitVec.ofNat 32 v) }) := by
  have hreturns : ∀ v u, v < size → Reads (bitsOf (path v)) s u →
      completeWord m s = .next { u with ret := .word (BitVec.ofNat 32 v) } := fun v u hv hread =>
    completeWord_ok (hm v hv s u hread)
  refine ⟨hreturns, fun hin => ?_⟩
  obtain ⟨v, u, hv, hread, -, hne⟩ := hpaths s 0 hin
  exact ⟨v, u, hv, hread, hne, hreturns v u hv hread⟩

theorem setWidth_byte {v : Nat} (hv : v < 256) : (BitVec.ofNat 8 v).setWidth 32 = BitVec.ofNat 32 v := by
  apply BitVec.eq_of_toNat_eq
  rw [BitVec.toNat_setWidth, BitVec.toNat_ofNat, BitVec.toNat_ofNat, Nat.mod_eq_of_lt hv]

/-- A byte decoded is the word returned. -/
theorem DecodesTo.byteWord {m : Eng Byte} {ds : List Coded} {v : Nat} (hv : v < 256)
    (h : DecodesTo m ds (BitVec.ofNat 8 v)) :
    DecodesTo (m >>= fun b => Pure.pure (b.setWidth 32)) ds (BitVec.ofNat 32 v) := by
  rw [← setWidth_byte hv]
  exact h.map fun b => b.setWidth 32

/-- Settles O27: each operation decodes every path of its symbols, and the decoder always reads one. -/
theorem treeDecodersReturnTheSymbolRead : Obligations.TreeDecodersReturnTheSymbolRead := by
  refine ⟨fun t n s hwf => ?_, fun t n s _ => ?_, fun c s => ?_, fun c m s => ?_, fun c ps s _ => ?_⟩
  · obtain ⟨⟨-, hn, -⟩, -⟩ := (treeOperandsWf_iff t n 0#8).1 hwf
    exact returnsSymbol s (readsSome_treePath t n.toNat) fun v hv => decodesTo_btDec t (by omega) hv
  · exact returnsSymbol s (readsSome_reversePath t n.toNat) fun v hv => decodesTo_btRdec t hv
  · refine returnsSymbol s (readsSome_literalPath c.toNat) fun v hv => .byteWord hv ?_
    rw [← toNat_lenWord c]
    exact decodesTo_litDec _ _
  · refine returnsSymbol s (readsSome_matchedPath c.toNat m) fun v hv => .byteWord hv ?_
    rw [← toNat_lenWord c]
    exact decodesTo_litDecMatched _ m _
  · refine returnsSymbol s (readsSome_lengthPath c ps.toNat) fun v hv => ?_
    rw [← toNat_symbol]
    exact decodesTo_lenDec c _ (by omega)

/-! ### BT.INIT (R145) -/

/-- The places of the store from `a` on, as far as the index space of its array goes, are the cells from
`a` on. -/
theorem cellKey_range_iff {a c : CellRef} {k : Nat} (h : a.idx.toNat + k ≤ 2 ^ 32) :
    (cellKey a ≤ cellKey c ∧ cellKey c < cellKey a + k) ↔
      c.arr = a.arr ∧ a.idx.toNat ≤ c.idx.toNat ∧ c.idx.toNat < a.idx.toNat + k := by
  have hc := c.idx.isLt
  unfold cellKey
  constructor
  · rintro ⟨hlo, hhi⟩
    have htag : arrayTag c.arr = arrayTag a.arr := by omega
    exact ⟨arrayTag_inj htag, by omega, by omega⟩
  · rintro ⟨harr, hlo, hhi⟩
    rw [harr]
    omega

theorem size_le (a : ProbArray) : a.size ≤ 2 ^ 32 := by
  unfold ProbArray.size
  split <;> decide

theorem prob_btInit {a : CellRef} {k : U32} {s : State} (hfit : a.idx.toNat + k.toNat ≤ a.arr.size)
    (hprobs : Store.wf probInit s.probs = true) (c : CellRef) :
    (btInit a k s).prob c =
      if c.arr = a.arr ∧ a.idx.toNat ≤ c.idx.toNat ∧ c.idx.toNat < a.idx.toNat + k.toNat then 1024#16
      else s.prob c :=
  (Store.get_clear hprobs).trans
    (ite_congr (propext (cellKey_range_iff (hfit.trans (size_le _)))) (fun _ => rfl) fun _ => rfl)

/-! ### LIT.SELECT (R150) -/

/-- The low `n` bits of a word. -/
theorem and_ones_toNat (x : U32) {n : Nat} (hn : n < 32) :
    (x &&& ((1#32 <<< n) - 1#32)).toNat = x.toNat % 2 ^ n := by
  have hpow : 2 ^ n < 2 ^ 32 := Nat.pow_lt_pow_right (by decide) hn
  have hpos := Nat.two_pow_pos n
  have hones : ((1#32 <<< n) - 1#32).toNat = 2 ^ n - 1 := by
    rw [one_shiftLeft, BitVec.toNat_sub_of_le, BitVec.toNat_ofNat, Nat.mod_eq_of_lt hpow]
    · rfl
    · rw [BitVec.le_def, BitVec.toNat_ofNat, BitVec.toNat_ofNat, Nat.mod_eq_of_lt hpow]
      exact hpos
  rw [BitVec.toNat_and, hones, Nat.and_two_pow_sub_one_eq_mod]

/-- Two fields side by side: the lower one has `m` bits, so the number has `m + n`. -/
theorem mul_add_lt_two_pow {x y m n : Nat} (hx : x < 2 ^ n) (hy : y < 2 ^ m) :
    x * 2 ^ m + y < 2 ^ (m + n) :=
  calc x * 2 ^ m + y < x * 2 ^ m + 2 ^ m := Nat.add_lt_add_left hy _
    _ = (x + 1) * 2 ^ m := (Nat.succ_mul x _).symm
    _ ≤ 2 ^ n * 2 ^ m := Nat.mul_le_mul_right _ hx
    _ = 2 ^ (m + n) := by rw [Nat.add_comm, Nat.pow_add]

/-- The literal block is the position's low bits above the high bits of the byte before, which do not
overlap. -/
theorem litSelect_toNat {s : State} (pos : U64) (prevByte : Byte) (hlc : s.codec.lc.toNat ≤ 8)
    (hlp : s.codec.lp.toNat ≤ 4) :
    (litSelect s pos prevByte).toNat = pos.toNat % 2 ^ s.codec.lp.toNat * 2 ^ s.codec.lc.toNat +
      prevByte.toNat / 2 ^ (8 - s.codec.lc.toNat) ∧
    (litSelect s pos prevByte).toNat < 2 ^ (s.codec.lc.toNat + s.codec.lp.toNat) := by
  generalize hc : s.codec.lc.toNat = lc at *
  generalize hp : s.codec.lp.toNat = lp at *
  have hhigh : prevByte.toNat / 2 ^ (8 - lc) < 2 ^ lc :=
    Nat.div_lt_of_lt_mul (by rw [← Nat.pow_add, Nat.sub_add_cancel hlc]; exact prevByte.isLt)
  have hlt := mul_add_lt_two_pow (Nat.mod_lt pos.toNat (Nat.two_pow_pos lp)) hhigh
  have hfit := hlt.trans_le (Nat.pow_le_pow_right (by decide : 0 < 2) (by omega : lc + lp ≤ 32))
  have hlow : (pos.setWidth 32 &&& ((1#32 <<< lp) - 1#32)).toNat = pos.toNat % 2 ^ lp := by
    rw [and_ones_toNat _ (by omega), BitVec.toNat_setWidth, Nat.mod_mod_of_dvd _ (Nat.pow_dvd_pow 2 (by omega))]
  have hvalue : (litSelect s pos prevByte).toNat = pos.toNat % 2 ^ lp * 2 ^ lc + prevByte.toNat / 2 ^ (8 - lc) := by
    rw [litSelect, hc, hp, BitVec.toNat_add, BitVec.toNat_shiftLeft, hlow, BitVec.toNat_ushiftRight, toNat_symbol,
      Nat.shiftLeft_eq, Nat.shiftRight_eq_div_pow,
      Nat.mod_eq_of_lt (lt_of_le_of_lt (Nat.le_add_right _ _) hfit), Nat.mod_eq_of_lt hfit]
  exact ⟨hvalue, hvalue ▸ hlt⟩

/-- Settles O28: BT.INIT clears a range of one array's places, and LIT.SELECT's two fields stand side by side. -/
theorem btInitAndLitSelect : Obligations.BtInitAndLitSelect := by
  refine ⟨fun a k s hwf hprobs => ?_, fun pos prevByte s hlc hlp => ?_⟩
  · exact ⟨{ btInit a k s with ret := .none }, rfl, rfl, prob_btInit (of_decide_eq_true hwf) hprobs⟩
  · exact ⟨litSelect s pos prevByte, rfl, litSelect_toNat pos prevByte hlc hlp⟩

end Sys2Proof
end

section
/-! The length coder's price table (43_length_coder R167 to R169): what SET_PRICES writes in one row, each price
being that of its symbol's path, and what a counted length leaves in the table. -/

namespace Sys2Proof

open Machine

/-! ### The price of a length symbol (R167) -/

theorem rowBase_eq (ps : U32) : ps <<< 3 = BitVec.ofNat 32 (8 * ps.toNat) := by
  apply BitVec.eq_of_toNat_eq
  rw [BitVec.toNat_shiftLeft, Nat.shiftLeft_eq, BitVec.toNat_ofNat, Nat.mul_comm]

theorem lenSymbolPrice_eq_pathPrice (s : State) (c : LenSel) (ps : U32) {k : Nat} (hk : k < 272) :
    lenSymbolPrice s c ps (BitVec.ofNat 32 k) = pathPrice s (lengthPath c ps.toNat k) := by
  have hw : (BitVec.ofNat 32 k).toNat = k := by rw [BitVec.toNat_ofNat]; omega
  have h8 : BitVec.ofNat 32 k < 8#32 ↔ k < 8 := by rw [BitVec.lt_def, hw]; rfl
  have h16 : BitVec.ofNat 32 k < 16#32 ↔ k < 16 := by rw [BitVec.lt_def, hw]; rfl
  have hsub (x : U32) (hx : x.toNat ≤ k) : (BitVec.ofNat 32 k - x).toNat = k - x.toNat := by
    rw [BitVec.toNat_sub_of_le (by rwa [BitVec.le_def, hw]), hw]
  simp only [lenSymbolPrice, lengthPath, h8, h16, lowTree, midTree, highTree, choiceCell, rowBase_eq]
  split
  · rw [pathPrice_cons, btPrice_eq_pathPrice s _ (by omega), hw]
  · split
    · have h : (BitVec.ofNat 32 k - 8#32).toNat = k - 8 := hsub 8#32 (show 8 ≤ k by omega)
      rw [pathPrice_cons, pathPrice_cons, btPrice_eq_pathPrice s _ (by omega), h, BitVec.add_assoc]
    · have h : (BitVec.ofNat 32 k - 16#32).toNat = k - 16 := hsub 16#32 (show 16 ≤ k by omega)
      rw [pathPrice_cons, pathPrice_cons, btPrice_eq_pathPrice s _ (by omega), h, BitVec.add_assoc]

/-! ### SET_PRICES (R167) -/

/-- The symbols below `n` of one row are priced; as a row has 272 places, no other row is touched. -/
theorem get_fillLenPrices_of_wf (s : State) (c : LenSel) (ps : U32) {t : Store U32}
    (ht : Store.wf 0#32 t = true) (q : Nat) {k : Nat} (hk : k < 272) : ∀ n ≤ 272,
    Store.get 0#32 (fillLenPrices s c ps n t) (272 * q + k) =
      if q = ps.toNat ∧ k < n then pathPrice s (lengthPath c ps.toNat k)
      else Store.get 0#32 t (272 * q + k)
  | 0, _ => by rw [if_neg (by omega)]; rfl
  | n + 1, hn => by
    rw [fillLenPrices, Store.get_set (fillLenPrices_wf s c ps ht n),
      get_fillLenPrices_of_wf s c ps ht q hk n (by omega), lenPriceIndex]
    by_cases hplace : 272 * q + k = ps.toNat * 272 + n
    · obtain ⟨hq, rfl⟩ : q = ps.toNat ∧ k = n := by omega
      rw [if_pos hplace, if_pos ⟨hq, Nat.lt_succ_self k⟩, lenSymbolPrice_eq_pathPrice s c ps hk]
    · rw [if_neg hplace]
      congr 1
      exact propext (by omega)

/-- The table `p` once its row `ps` is priced from the cells of `s`. -/
def pricedTable (s : State) (c : LenSel) (ps : U32) (p : LenPrices) : LenPrices :=
  { p with
    prices := fillLenPrices s c ps p.tableSize.toNat p.prices
    counters := Store.set 0#32 p.counters ps.toNat p.tableSize }

theorem lenSetPrices_eq (c : LenSel) (ps : U32) (s : State) : lenSetPrices c ps s =
    { s with prices := s.prices.setLen c (pricedTable s c ps (s.prices.len c)) } := rfl

theorem lenPriceAt_pricedTable (s : State) (c : LenSel) (ps : U32) {p : LenPrices}
    (hp : Store.wf 0#32 p.prices = true) (hsize : p.tableSize ≤ 272#32) (q : Nat) {k : Nat} (hk : k < 272) :
    lenPriceAt (pricedTable s c ps p) q k =
      if q = ps.toNat ∧ k < p.tableSize.toNat then pathPrice s (lengthPath c ps.toNat k)
      else lenPriceAt p q k :=
  get_fillLenPrices_of_wf s c ps hp q hk _ hsize

theorem lenCounterAt_pricedTable (s : State) (c : LenSel) (ps : U32) {p : LenPrices}
    (hc : Store.wf 0#32 p.counters = true) (q : Nat) :
    lenCounterAt (pricedTable s c ps p) q = if q = ps.toNat then p.tableSize else lenCounterAt p q :=
  Store.get_set hc

/-! ### PRICE (R168) -/

theorem lenPrice_eq_lenPriceAt (s : State) (c : LenSel) (k ps : U32) :
    lenPrice s c k ps = lenPriceAt (s.prices.len c) ps.toNat k.toNat := by
  rw [lenPrice, lenPriceIndex, Nat.mul_comm]
  rfl

/-! ### The count of ENC_COUNTED (R169) -/

/-- The table `p` once one more length is counted in row `ps`. -/
def countedTable (ps : U32) (p : LenPrices) : LenPrices :=
  { p with counters := Store.set 0#32 p.counters ps.toNat (lenCounterAt p ps.toNat - 1#32) }

theorem lenCounterAt_countedTable (ps : U32) {p : LenPrices} (hc : Store.wf 0#32 p.counters = true) (q : Nat) :
    lenCounterAt (countedTable ps p) q =
      if q = ps.toNat then lenCounterAt p ps.toNat - 1#32 else lenCounterAt p q :=
  Store.get_set hc

@[simp] theorem setLen_setLen (p : Prices) (c : LenSel) (v w : LenPrices) :
    (p.setLen c v).setLen c w = p.setLen c w := by cases c <;> rfl

/-- Where a refresh is due, the row that was counted is priced anew. -/
theorem counted_of_due {c : LenSel} {ps : U32} {p : LenPrices} {t : State}
    (hp : Store.wf 0#32 p.prices = true) (hc : Store.wf 0#32 p.counters = true) (hsize : p.tableSize ≤ 272#32)
    (hdue : refreshDue t (lenPoint c ps.toNat) (decide (lenCounterAt p ps.toNat = 1#32)) = true) :
    Counted c ps.toNat p t (pricedTable t c ps (countedTable ps p)) where
  size := rfl
  counters q := by
    rw [lenCounterAt_pricedTable t c ps (Store.wf_set hc), lenCounterAt_countedTable ps hc, if_pos hdue]
    by_cases hq : q = ps.toNat
    · rw [if_pos hq, if_pos hq]; rfl
    · rw [if_neg hq, if_neg hq, if_neg hq]
  prices q j hj := by
    rw [lenPriceAt_pricedTable t c ps (p := countedTable ps p) hp hsize q hj]
    exact if_congr (and_iff_right hdue).symm rfl rfl

/-- Where none is due, the prices stay. -/
theorem counted_of_not_due {c : LenSel} {ps : U32} {p : LenPrices} {t : State}
    (hc : Store.wf 0#32 p.counters = true)
    (hdue : ¬ refreshDue t (lenPoint c ps.toNat) (decide (lenCounterAt p ps.toNat = 1#32)) = true) :
    Counted c ps.toNat p t (countedTable ps p) where
  size := rfl
  counters q := by rw [lenCounterAt_countedTable ps hc, if_neg hdue]
  prices _ _ _ := (if_neg fun h => hdue h.1).symm

/-- The state `s` once a length is counted in row `ps` of coder `c`. -/
def countDown (c : LenSel) (ps : U32) (s : State) : State :=
  { s with prices := s.prices.setLen c (countedTable ps (s.prices.len c)) }

/-- The counter is 0 after the count where it was 1 before. -/
theorem lenCount_eq (c : LenSel) (ps : U32) (s : State) : lenCount c ps s =
    if refreshDue s (lenPoint c ps.toNat) (decide (lenCounterAt (s.prices.len c) ps.toNat = 1#32)) then
      lenSetPrices c ps (countDown c ps s)
    else countDown c ps s := by
  have hzero : lenCounterAt (s.prices.len c) ps.toNat - 1#32 = 0#32 ↔
      lenCounterAt (s.prices.len c) ps.toNat = 1#32 := sub_eq_zero
  rw [← decide_eq_decide.2 hzero]
  rfl

theorem lenCount_counts {c : LenSel} (ps : U32) {s : State}
    (hp : Store.wf 0#32 (s.prices.len c).prices = true) (hc : Store.wf 0#32 (s.prices.len c).counters = true)
    (hsize : (s.prices.len c).tableSize ≤ 272#32) :
    ∃ v, lenCount c ps s = { s with prices := s.prices.setLen c v } ∧
      Counted c ps.toNat (s.prices.len c) s v := by
  rw [lenCount_eq]
  split
  · next hdue =>
    have hcount : Counted c ps.toNat (s.prices.len c) (countDown c ps s) _ := counted_of_due hp hc hsize hdue
    refine ⟨_, ?_, hcount.size, hcount.counters, hcount.prices⟩
    rw [lenSetPrices_eq, countDown, len_setLen_same, setLen_setLen]
  · next hdue => exact ⟨_, rfl, counted_of_not_due hc hdue⟩

/-! ### Coding leaves the price tables alone -/

theorem samePrices_composes : Composes fun s t : State => t.prices = s.prices where
  refl _ := rfl
  trans h h' := h'.trans h

theorem encBits_prices : ∀ ds, Keeps (fun s t => t.prices = s.prices) (encBits ds)
  | [] => .pure samePrices_composes ()
  | _ :: ds =>
    have hnormalise := keeps_encNormalise_of samePrices_composes (fun _ _ => rfl) fun _ _ => rfl
    .bind samePrices_composes (.bind samePrices_composes (.modify fun _ => rfl) fun _ => hnormalise)
      fun _ => encBits_prices ds

theorem prices_of_encBits {ds : List (CellRef × Bool)} {s u : State} (h : encBits ds s = .ok () u) :
    u.prices = s.prices := by
  have hkept := encBits_prices ds s
  rwa [h] at hkept

/-! ### O29 -/

theorem exec_lenEncCounted {c : LenSel} {k : U16} {ps : Byte} (hk : k.toNat ≤ 271) (s : State) :
    exec (.lenEncCounted c k ps) s =
      completeUnit (encBits (lengthPath c ps.toNat k.toNat) >>= fun _ =>
        modify (lenCount c (ps.setWidth 32))) s := by
  rw [← lenEnc_eq_encBits c hk ps]
  rfl

/-- A length coded to its end is counted in a table that the coding has left alone. -/
theorem exec_lenEncCounted_ok {c : LenSel} {k : U16} {ps : Byte} (hk : k.toNat ≤ 271) {s u : State}
    (hp : Store.wf 0#32 (s.prices.len c).prices = true) (hc : Store.wf 0#32 (s.prices.len c).counters = true)
    (hsize : (s.prices.len c).tableSize ≤ 272#32) (hu : encBits (lengthPath c ps.toNat k.toNat) s = .ok () u) :
    ∃ v, exec (.lenEncCounted c k ps) s = .next { u with prices := s.prices.setLen c v, ret := .none } ∧
      Counted c ps.toNat (s.prices.len c) u v := by
  rw [← prices_of_encBits hu] at hp hc hsize ⊢
  obtain ⟨v, hcount, hcounted⟩ := lenCount_counts (ps.setWidth 32) hp hc hsize
  rw [toNat_symbol] at hcounted
  have hrun : exec (.lenEncCounted c k ps) s =
      .next { lenCount c (ps.setWidth 32) u with ret := .none } :=
    (exec_lenEncCounted hk s).trans (completeUnit_ok (bind_ok hu))
  exact ⟨v, by rw [hrun, hcount], hcounted⟩

/-- Settles O29: a row is priced symbol by symbol, each at the price of its path, and a counted length codes
its path, which leaves the tables alone, before it counts. -/
theorem lengthPrices : Obligations.LengthPrices := by
  refine ⟨⟨fun c ps s _ hp hc hsize => ?_, fun c k ps s => ?_⟩, fun c k ps s hwf hp hc hsize => ?_⟩
  · rw [← toNat_symbol ps]
    exact ⟨pricedTable s c (ps.setWidth 32) (s.prices.len c), rfl, rfl,
      fun q k hk => lenPriceAt_pricedTable s c _ hp hsize q hk, lenCounterAt_pricedTable s c _ hc⟩
  · rw [← toNat_symbol ps, ← toNat_lenWord k, ← lenPrice_eq_lenPriceAt]
    rfl
  · obtain ⟨hk, -⟩ := of_decide_eq_true hwf
    refine ⟨fun u hu => exec_lenEncCounted_ok hk hp hc hsize hu, fun e u hu => ?_, fun hroom => ?_⟩
    · exact (exec_lenEncCounted hk s).trans (completeUnit_error (bind_error hu))
    · obtain ⟨u, hu, -, hne⟩ := encBits_runs (lengthPath c ps.toNat k.toNat) (k := 0) (by rwa [Nat.zero_add])
      obtain ⟨v, hexec, -⟩ := exec_lenEncCounted_ok hk hp hc hsize hu
      exact ⟨_, hexec, hne⟩

end Sys2Proof
end

section
/-! The match finder's accessors (44_match_finder R180, R185 to R187, R189): MF.INIT's values, and MATCH_LEN as
the longest agreement. -/

namespace Sys2Proof

open Machine

/-! ### MF.INIT (R180) -/

/-- The hash mask of BT4 for the dictionary sizes the core uses. -/
theorem hashMaskFor_bt4_two_pow : ∀ n ≤ 25, 16 ≤ n →
    (hashMaskFor .bt4 (BitVec.ofNat 32 (2 ^ n))).toNat = 2 ^ (max n 17 - 1) - 1 := by decide

/-- Nine bits widened keep their value, and so does half of them with 16 added. -/
theorem cutValue_toNat (fastBytes : BitVec 9) :
    (16#32 + (fastBytes >>> 1).setWidth 32).toNat = 16 + fastBytes.toNat / 2 := by
  have h := fastBytes.isLt
  rw [BitVec.toNat_add, BitVec.toNat_setWidth, BitVec.toNat_ushiftRight, Nat.shiftRight_eq_div_pow,
    show (16#32).toNat = 16 from rfl]
  omega

/-- The place in the ring moves on, and starts again at its end (R187). -/
theorem mfMovePos_cyclicBufferPos (m : MatchFinder) : (mfMovePos m).cyclicBufferPos =
    if m.cyclicBufferPos + 1#32 < m.cyclicBufferSize then m.cyclicBufferPos + 1#32 else 0#32 := by
  simp only [mfMovePos, ← BitVec.not_lt, ite_not]

/-- Settles O30: the hash mask is computed for the ten sizes; the rest is read off the definitions. -/
theorem matchFinderInitAndAccessors : Obligations.MatchFinderInitAndAccessors := by
  refine ⟨fun s => ⟨mfInit s s.mf, rfl, rfl, rfl, rfl, rfl, rfl, fun _ => rfl, cutValue_toNat _, ?_, ?_, ?_⟩,
    fun s => ⟨rfl, fun _ => rfl, ?_⟩⟩
  · exact BitVec.toNat_setWidth_of_le (by decide)
  · intro hkind
    show hashMaskFor s.encCfg.mfKind _ = _
    rw [hkind]
    rfl
  · intro n hlo hhi hsize hkind
    have hdict : s.codec.dictSize = BitVec.ofNat 32 (2 ^ n) := by
      rw [← hsize, BitVec.ofNat_toNat, BitVec.setWidth_eq]
    show (hashMaskFor s.encCfg.mfKind s.codec.dictSize).toNat = _
    rw [hkind, hdict]
    exact hashMaskFor_bt4_two_pow n hhi hlo
  · exact congrArg (fun c => Host.Outcome.next
      { s with mf := { s.mf with pos := s.mf.pos + 1#32, cyclicBufferPos := c }, ret := .none })
      (mfMovePos_cyclicBufferPos s.mf)

/-! ### MATCH_LEN (R189) -/

/-- R189's loop stops at the first difference, or after `n` bytes. -/
theorem runLength_spec (e : State) (back : Int) : ∀ (n : Nat) (p : Int),
    runLength e p back n ≤ n ∧
    (∀ i : Nat, i < runLength e p back n → e.inByte (p + i) = e.inByte (p + i - back)) ∧
    (runLength e p back n < n →
      e.inByte (p + runLength e p back n) ≠ e.inByte (p + runLength e p back n - back))
  | 0, _ => ⟨le_refl 0, fun _ h => absurd h (Nat.not_lt_zero _), fun h => absurd h (Nat.lt_irrefl 0)⟩
  | n + 1, p => by
    obtain ⟨hle, hsame, hdiff⟩ := runLength_spec e back n (p + 1)
    have hshift (i : Nat) : p + (i + 1 : Nat) = p + 1 + i := by omega
    rw [runLength]
    split
    · next hp =>
      refine ⟨Nat.succ_le_succ hle, fun i hi => ?_, fun h => ?_⟩
      · cases i with
        | zero => rwa [Int.natCast_zero, Int.add_zero]
        | succ i => rw [hshift]; exact hsame i (Nat.lt_of_succ_lt_succ hi)
      · rw [hshift]
        exact hdiff (Nat.lt_of_succ_lt_succ h)
    · next hp =>
      refine ⟨Nat.zero_le _, fun _ h => absurd h (Nat.not_lt_zero _), fun _ => ?_⟩
      rwa [Int.natCast_zero, Int.add_zero]

/-- The cap of R189: the limit, or what is left of the input. -/
theorem matchLimit_eq_min (m : MatchFinder) (k : Int) (limit : Nat) : matchLimit m k limit =
    min limit ((m.streamPos.toNat : Int) - (m.pos.toNat + k)).toNat := by
  unfold matchLimit
  split <;> omega

/-- Settles O32: R189's loop from the index of the operand, up to the cap. -/
theorem matchLenIsTheLongestAgreement : Obligations.MatchLenIsTheLongestAgreement := by
  intro k d limit s p left cap
  have hcap : matchLimit s.mf k.toInt limit.toNat = cap := matchLimit_eq_min _ _ _
  obtain ⟨hle, hsame, hdiff⟩ := runLength_spec s ((d.toNat : Int) + 1) cap p
  refine ⟨runLength s p ((d.toNat : Int) + 1) cap, hle, ?_, hsame, hdiff⟩
  rw [← hcap]
  rfl

end Sys2Proof
end

section
/-! MF.HASH (44_match_finder R183, R184): the values of the rule, and which bytes they determine. -/

namespace Sys2Proof

open Machine

/-! ### The table (R183) -/

/-- `crc` lists the table R183's loops fill. -/
theorem crc_list : (List.range 256).map (fun i => (crc (BitVec.ofNat 8 i)).toNat) = crcTable := by
  decide +kernel

theorem crc_toNat (b : Byte) : (crc b).toNat = crcTable.getD b.toNat 0 := by
  rw [← crc_list, List.getD_eq_getElem?_getD, List.getElem?_map, List.getElem?_range b.isLt]
  simp

/-! ### The values (R184) -/

/-- Bytes side by side: adding is exclusive or. -/
theorem byte_xor_mul {x : Nat} (y : Nat) (hx : x < 256) : x ^^^ (256 * y) = x + 256 * y := by
  have hmod : (x ^^^ (256 * y)) % 2 ^ 8 = x := by
    rw [Nat.xor_mod_two_pow, Nat.mul_mod_right, Nat.xor_zero, Nat.mod_eq_of_lt hx]
  have hdiv : (x ^^^ (256 * y)) / 2 ^ 8 = y := by
    rw [Nat.xor_div_two_pow, Nat.div_eq_of_lt hx, Nat.zero_xor, Nat.mul_div_cancel_left y (by decide)]
  omega

theorem byteNumber_lt (s : State) (i j : Nat) : byteNumber s i j < 256 := (s.inByte _).isLt

section

variable {s : State}

/-- `t` of R184 before `h2`, as a word. -/
theorem crc_xor_toNat (s : State) (cur : Nat) :
    (crc (s.inByte ((cur + 0 : Nat) : Int)) ^^^ (s.inByte ((cur + 1 : Nat) : Int)).setWidth 32).toNat =
      crcPair s cur := by
  rw [BitVec.toNat_xor, crc_toNat, toNat_symbol]
  rfl

/-- `t` of R184 before `h3`, as a word. -/
theorem crc_xor_xor_toNat (s : State) (cur : Nat) :
    (crc (s.inByte ((cur + 0 : Nat) : Int)) ^^^ (s.inByte ((cur + 1 : Nat) : Int)).setWidth 32 ^^^
      ((s.inByte ((cur + 2 : Nat) : Int)).setWidth 32 <<< 8)).toNat = crcTriple s cur := by
  have h := byteNumber_lt s cur 2
  rw [BitVec.toNat_xor, crc_xor_toNat, BitVec.toNat_shiftLeft, toNat_symbol, Nat.shiftLeft_eq, Nat.mul_comm,
    Nat.mod_eq_of_lt]
  · rfl
  · show 256 * byteNumber s cur 2 < 2 ^ 32
    omega

theorem mfHash_bt4 (cur : U32) (hkind : s.encCfg.mfKind = .bt4) :
    (mfHash s s.mf cur).h2.toNat = hash2Of s cur.toNat ∧ (mfHash s s.mf cur).h3.toNat = hash3Of s cur.toNat ∧
      (mfHash s s.mf cur).hv.toNat = hash4Of s cur.toNat := by
  have h2 := crc_xor_toNat s cur.toNat
  have h3 := crc_xor_xor_toNat s cur.toNat
  simp only [mfHash, hkind]
  refine ⟨?_, ?_, ?_⟩
  · rw [BitVec.toNat_and]
    exact (congrArg (· &&& 1023) h2).trans (Nat.and_two_pow_sub_one_eq_mod _ 10)
  · rw [BitVec.toNat_and]
    exact (congrArg (· &&& 65535) h3).trans (Nat.and_two_pow_sub_one_eq_mod _ 16)
  · rw [BitVec.toNat_and, BitVec.toNat_xor, BitVec.toNat_shiftLeft, crc_toNat, Nat.shiftLeft_eq,
      Nat.mul_comm _ (2 ^ 5)]
    exact congrArg (fun t => (t ^^^ _) &&& _) h3

theorem mfHash_bt2 (cur : U32) (hkind : s.encCfg.mfKind = .bt2) :
    (mfHash s s.mf cur).hv.toNat = byteNumber s cur.toNat 0 + 256 * byteNumber s cur.toNat 1 := by
  have h := byteNumber_lt s cur.toNat 1
  simp only [mfHash, hkind]
  rw [BitVec.toNat_xor, BitVec.toNat_shiftLeft, toNat_symbol, toNat_symbol, Nat.shiftLeft_eq,
    Nat.mul_comm _ (2 ^ 8), Nat.mod_eq_of_lt]
  · exact byte_xor_mul _ (byteNumber_lt s cur.toNat 0)
  · show 256 * byteNumber s cur.toNat 1 < 2 ^ 32
    omega

/-- The bucket of either kind, as `FinderInv` names it. -/
theorem mfHash_hv (s : State) (cur : U32) : (mfHash s s.mf cur).hv.toNat = bucketOf s cur.toNat := by
  unfold bucketOf
  split
  · next hkind =>
    obtain ⟨-, -, h⟩ := mfHash_bt4 cur hkind
    exact h
  · next hkind => exact mfHash_bt2 cur hkind

/-! ### What the hashes determine -/

/-- With the first byte, `h2` tells the second. -/
theorem second_byte_of_hash2 {a b : Nat} (h0 : byteNumber s a 0 = byteNumber s b 0)
    (h2 : hash2Of s a = hash2Of s b) : byteNumber s a 1 = byteNumber s b 1 := by
  have ha := byteNumber_lt s a 1
  have hb := byteNumber_lt s b 1
  simp only [hash2Of, crcPair, show 1024 = 2 ^ 10 from rfl, Nat.xor_mod_two_pow, h0, Nat.xor_right_inj] at h2
  omega

/-- With the first byte, `h3` tells the second and the third. -/
theorem next_bytes_of_hash3 {a b : Nat} (h0 : byteNumber s a 0 = byteNumber s b 0)
    (h3 : hash3Of s a = hash3Of s b) :
    byteNumber s a 1 = byteNumber s b 1 ∧ byteNumber s a 2 = byteNumber s b 2 := by
  have ha := byteNumber_lt s a 1
  have hb := byteNumber_lt s b 1
  have ha' := byteNumber_lt s a 2
  have hb' := byteNumber_lt s b 2
  simp only [hash3Of, crcTriple, crcPair, Nat.xor_assoc, byte_xor_mul _ ha, byte_xor_mul _ hb,
    show 65536 = 2 ^ 16 from rfl, Nat.xor_mod_two_pow, h0, Nat.xor_right_inj] at h3
  omega

/-! ### The instruction -/

theorem exec_mfHash (cur : U32) (s : State) :
    exec (.mfHash cur) s = .next { s with ret := hashRet s.encCfg.mfKind (mfHash s s.mf cur) } := rfl

/-- A word is the number it holds. -/
theorem word_eq {x : U32} {n : Nat} (h : x.toNat = n) : x = BitVec.ofNat 32 n := by
  rw [← h, BitVec.ofNat_toNat, BitVec.setWidth_eq]

theorem exec_mfHash_bt4 (cur : U32) (hkind : s.encCfg.mfKind = .bt4) : exec (.mfHash cur) s =
    .next { s with
      ret := .hash (some (mfHash s s.mf cur).h2) (some (mfHash s s.mf cur).h3) (mfHash s s.mf cur).hv } := by
  rw [exec_mfHash, hkind]
  rfl

theorem inByte_eq_iff (s : State) (a b : Int) :
    s.inByte a = s.inByte b ↔ (s.inByte a).toNat = (s.inByte b).toNat :=
  BitVec.toNat_inj.symm

end

/-- Settles O31: the values are R184's, and what they determine is a fact about the numbers of the bytes. -/
theorem hashesTellTheirBytes : Obligations.HashesTellTheirBytes := by
  refine ⟨fun cur s hkind => ?_, fun cur s hkind => ?_, fun a b s hkind => ?_⟩
  · rw [exec_mfHash, hkind, hashRet, word_eq (mfHash_bt2 cur hkind)]
    rfl
  · obtain ⟨h2, h3, hv⟩ := mfHash_bt4 cur hkind
    rw [exec_mfHash_bt4 cur hkind, word_eq h2, word_eq h3, word_eq hv]
  · obtain ⟨ha2, ha3, hav⟩ := mfHash_bt4 a hkind
    obtain ⟨hb2, hb3, -⟩ := mfHash_bt4 b hkind
    simp only [inByte_eq_iff]
    refine ⟨_, _, _, _, _, _, exec_mfHash_bt4 a hkind, exec_mfHash_bt4 b hkind, ?_, ?_, ?_, fun h0 h2 => ?_,
      fun h0 h3 => ?_⟩
    · rw [BitVec.lt_def, ha2]
      exact Nat.mod_lt _ (by decide)
    · rw [BitVec.lt_def, ha3]
      exact Nat.mod_lt _ (by decide)
    · apply BitVec.eq_of_toNat_eq
      rw [BitVec.toNat_and, hav, hash4Of, Nat.and_assoc, Nat.and_self]
    · exact second_byte_of_hash2 (a := a.toNat) (b := b.toNat) h0
        (ha2.symm.trans ((congrArg BitVec.toNat h2).trans hb2))
    · exact next_bytes_of_hash3 (a := a.toNat) (b := b.toNat) h0
        (ha3.symm.trans ((congrArg BitVec.toNat h3).trans hb3))

end Sys2Proof
end

section
/-! The tree walk (44_match_finder R191): what one candidate's comparison gives, one turn of the loop, and the
induction over its turns. -/

namespace Sys2Proof

open Machine

variable {e : State} {m : MatchFinder} {cur lenLimit : U32} {emit : Bool}

/-! ### Comparing a candidate -/

theorem byte_eq_iff (e : State) (a b i : Nat) :
    e.inByte ((a : Int) + i) = e.inByte ((b : Int) + i) ↔ byteNumber e a i = byteNumber e b i :=
  inByte_eq_iff e _ _

/-- The strings at `a` and `b`, compared from byte `lo` on and at most up to byte `hi`, differ first at `n`. -/
structure StopsAt (e : State) (a b lo hi n : Nat) : Prop where
  ge : lo ≤ n
  le : n ≤ hi
  same : ∀ i, lo ≤ i → i < n → byteNumber e a i = byteNumber e b i
  differ : n < hi → byteNumber e a n ≠ byteNumber e b n

theorem StopsAt.of_same {a b lo hi n : Nat} (hb : byteNumber e a lo = byteNumber e b lo)
    (h : StopsAt e a b (lo + 1) hi n) : StopsAt e a b lo hi n where
  ge := Nat.le_of_succ_le h.ge
  le := h.le
  same i hi hn := hi.eq_or_lt.elim (fun hlo => hlo ▸ hb) fun hlo => h.same i hlo hn
  differ := h.differ

theorem StopsAt.of_differ {a b lo hi : Nat} (hlo : lo ≤ hi) (hb : byteNumber e a lo ≠ byteNumber e b lo) :
    StopsAt e a b lo hi lo where
  ge := le_refl lo
  le := hlo
  same _ hi hn := absurd hn (Nat.not_lt.2 hi)
  differ _ := hb

theorem succ_toNat {x : U32} (h : x.toNat + 1 < 2 ^ 32) : (x + 1#32).toNat = x.toNat + 1 := by
  rw [BitVec.toNat_add, show (1#32).toNat = 1 from rfl, Nat.mod_eq_of_lt h]

theorem extendMatch_stopsAt (e : State) (pby1 cur : U32) : ∀ (n : Nat) (len : U32), len.toNat + n < 2 ^ 32 →
    StopsAt e pby1.toNat cur.toNat len.toNat (len.toNat + n) (extendMatch e pby1 cur n len).toNat
  | 0, _, _ =>
    ⟨le_refl _, le_refl _, fun _ hi hn => absurd hn (Nat.not_lt.2 hi), fun h => absurd h (Nat.lt_irrefl _)⟩
  | n + 1, len, h => by
    have hnext := succ_toNat (x := len) (by omega)
    have hrest := extendMatch_stopsAt e pby1 cur n (len + 1#32) (by omega)
    rw [hnext, Nat.add_assoc, Nat.add_comm 1] at hrest
    rw [extendMatch]
    split
    · next hb => exact .of_same ((byte_eq_iff ..).1 hb) hrest
    · next hb => exact .of_differ (Nat.le_add_right _ _) fun hsame => hb ((byte_eq_iff ..).2 hsame)

/-- `min len0 len1` of R191: how many bytes of a candidate are known to match. -/
def knownMatch (w : Walk) : U32 := if w.len0 ≤ w.len1 then w.len0 else w.len1

theorem candidateExtends_iff (e : State) (cur : U32) (w : Walk) : candidateExtends e cur w = true ↔
    byteNumber e (w.curMatch - 1#32).toNat (knownMatch w).toNat = byteNumber e cur.toNat (knownMatch w).toNat :=
  decide_eq_true_iff.trans (byte_eq_iff ..)

theorem candidateLength_eq (e : State) (cur lenLimit : U32) (w : Walk) : candidateLength e cur lenLimit w =
    if candidateExtends e cur w then
      extendMatch e (w.curMatch - 1#32) cur (lenLimit - (knownMatch w + 1#32)).toNat (knownMatch w + 1#32)
    else knownMatch w := by
  simp only [candidateExtends, decide_eq_true_eq]
  rfl

/-- The length matched against a candidate: the strings differ first there, unless it is `lenLimit`. -/
theorem candidateLength_stopsAt (e : State) (cur : U32) {w : Walk} (h : (knownMatch w).toNat < lenLimit.toNat) :
    StopsAt e (w.curMatch - 1#32).toNat cur.toNat (knownMatch w).toNat lenLimit.toNat
      (candidateLength e cur lenLimit w).toNat := by
  have hlimit := lenLimit.isLt
  have hnext := succ_toNat (x := knownMatch w) (by omega)
  rw [candidateLength_eq]
  split
  · next hext =>
    have hmore : (lenLimit - (knownMatch w + 1#32)).toNat = lenLimit.toNat - ((knownMatch w).toNat + 1) := by
      rw [BitVec.toNat_sub_of_le (by rw [BitVec.le_def]; omega), hnext]
    have hrest := extendMatch_stopsAt e (w.curMatch - 1#32) cur (lenLimit - (knownMatch w + 1#32)).toNat
      (knownMatch w + 1#32) (by omega)
    rw [hmore, hnext, Nat.add_sub_cancel' h] at hrest
    rw [hmore]
    exact .of_same ((candidateExtends_iff ..).1 hext) hrest
  · next hext => exact .of_differ (Nat.le_of_lt h) fun hsame => hext ((candidateExtends_iff ..).2 hsame)

/-! ### One turn of the loop -/

/-- The son slot of the candidate. -/
def candidateSlot (m : MatchFinder) (w : Walk) : U32 := sonSlot m (m.pos - w.curMatch)

/-- The walk once its candidate is compared and, if it is a longer match, appended. -/
def compared (e : State) (m : MatchFinder) (cur lenLimit : U32) (emit : Bool) (w : Walk) : Walk :=
  if candidateExtends e cur w then emitPair emit w (candidateLength e cur lenLimit w) (m.pos - w.curMatch) else w

/-- The candidate matches `lenLimit` bytes. -/
def MatchesInFull (e : State) (cur lenLimit : U32) (w : Walk) : Prop :=
  candidateExtends e cur w = true ∧ candidateLength e cur lenLimit w = lenLimit

/-- The walk at the next candidate. -/
def nextWalk (e : State) (m : MatchFinder) (cur lenLimit : U32) (emit : Bool) (w : Walk) : Walk :=
  descend e cur (candidateSlot m w) (candidateLength e cur lenLimit w) (compared e m cur lenLimit emit w)

theorem walkLoop_dead {w : Walk} (h : w.curMatch ≤ matchMinPos m) (n : Nat) :
    walkLoop e m cur lenLimit emit n w = closeWalk w := by
  cases n with
  | zero => rfl
  | succ n => exact if_pos h

theorem walkLoop_full {w : Walk} (hlive : ¬ w.curMatch ≤ matchMinPos m) (hfull : MatchesInFull e cur lenLimit w)
    (n : Nat) : walkLoop e m cur lenLimit emit (n + 1) w =
      splice (candidateSlot m w) (compared e m cur lenLimit emit w) := by
  obtain ⟨hext, hlen⟩ := hfull
  rw [walkLoop, if_neg hlive]
  simp only [hext, hlen, if_true, compared, candidateSlot]

theorem walkLoop_next {w : Walk} (hlive : ¬ w.curMatch ≤ matchMinPos m) (hfull : ¬ MatchesInFull e cur lenLimit w)
    (n : Nat) : walkLoop e m cur lenLimit emit (n + 1) w =
      walkLoop e m cur lenLimit emit n (nextWalk e m cur lenLimit emit w) := by
  rw [walkLoop, if_neg hlive, nextWalk, compared, candidateSlot]
  by_cases hext : candidateExtends e cur w = true
  · simp only [hext, if_true, if_neg fun hlen => hfull ⟨hext, hlen⟩]
  · simp only [hext, if_false, Bool.false_eq_true]

/-- What holds where the walk ends, by no candidate or by one that matches in full, and is carried back over a
turn, holds of the loop. -/
theorem walkLoop_induct {P : Nat → Walk → Walk → Prop}
    (close : ∀ n w, (w.curMatch ≤ matchMinPos m ∨ n = 0) → P n w (closeWalk w))
    (full : ∀ n w, ¬ w.curMatch ≤ matchMinPos m → MatchesInFull e cur lenLimit w →
      P (n + 1) w (splice (candidateSlot m w) (compared e m cur lenLimit emit w)))
    (next : ∀ n w r, ¬ w.curMatch ≤ matchMinPos m → ¬ MatchesInFull e cur lenLimit w →
      P n (nextWalk e m cur lenLimit emit w) r → P (n + 1) w r) :
    ∀ n w, P n w (walkLoop e m cur lenLimit emit n w)
  | 0, w => close 0 w (.inr rfl)
  | n + 1, w => by
    by_cases hdead : w.curMatch ≤ matchMinPos m
    · rw [walkLoop_dead hdead]
      exact close _ _ (.inl hdead)
    · by_cases hfull : MatchesInFull e cur lenLimit w
      · rw [walkLoop_full hdead hfull]
        exact full n w hdead hfull
      · rw [walkLoop_next hdead hfull]
        exact next n w _ hdead hfull (walkLoop_induct close full next n _)

/-! ### The pairs appended -/

/-- The cells of `D` that hold the pairs `d`. -/
def cellsOf (d : List (U32 × U32)) : List U32 := (d.map fun x => [x.1, x.2]).flatten

theorem cellsOf_append (c d : List (U32 × U32)) : cellsOf (c ++ d) = cellsOf c ++ cellsOf d := by
  rw [cellsOf, List.map_append, List.flatten_append]
  rfl

@[simp] theorem cellsOf_nil : cellsOf [] = [] := rfl

@[simp] theorem cellsOf_cons (x : U32 × U32) (d : List (U32 × U32)) :
    cellsOf (x :: d) = x.1 :: x.2 :: cellsOf d := rfl

theorem cellsOf_injective : ∀ {c d : List (U32 × U32)}, cellsOf c = cellsOf d → c = d
  | [], [], _ => rfl
  | [], _ :: _, h => nomatch h
  | _ :: _, [], h => nomatch h
  | (_, _) :: _, (_, _) :: _, h => by
    rw [cellsOf_cons, cellsOf_cons, List.cons.injEq, List.cons.injEq] at h
    obtain ⟨rfl, rfl, h⟩ := h
    rw [cellsOf_injective h]

/-- Pairs of strictly rising lengths. -/
def Rising (d : List (U32 × U32)) : Prop := (d.map fun x => x.1.toNat).Pairwise (· < ·)

/-- The pair a comparison appends. -/
def comparedPairs (e : State) (m : MatchFinder) (cur lenLimit : U32) (emit : Bool) (w : Walk) :
    List (U32 × U32) :=
  if candidateExtends e cur w = true ∧ emit = true ∧ w.maxLen < candidateLength e cur lenLimit w then
    [(candidateLength e cur lenLimit w, m.pos - w.curMatch - 1#32)]
  else []

theorem compared_eq (e : State) (m : MatchFinder) (cur lenLimit : U32) (emit : Bool) (w : Walk) :
    compared e m cur lenLimit emit w =
      if candidateExtends e cur w = true ∧ emit = true ∧ w.maxLen < candidateLength e cur lenLimit w then
        { w with
          maxLen := candidateLength e cur lenLimit w
          d := w.d ++ [candidateLength e cur lenLimit w, m.pos - w.curMatch - 1#32] }
      else w := by
  simp only [compared, emitPair, Bool.and_eq_true, decide_eq_true_eq, ite_and]

/-- A comparison appends one pair, longer than all before, or none and leaves the walk alone. -/
theorem compared_cases (e : State) (m : MatchFinder) (cur lenLimit : U32) (emit : Bool) (w : Walk) :
    (candidateExtends e cur w = true ∧ emit = true ∧ w.maxLen < candidateLength e cur lenLimit w ∧
      comparedPairs e m cur lenLimit emit w =
        [(candidateLength e cur lenLimit w, m.pos - w.curMatch - 1#32)] ∧
      (compared e m cur lenLimit emit w).maxLen = candidateLength e cur lenLimit w) ∨
    (comparedPairs e m cur lenLimit emit w = [] ∧ compared e m cur lenLimit emit w = w) := by
  rw [compared_eq, comparedPairs]
  split
  · next h =>
    obtain ⟨hext, hemit, hlen⟩ := h
    exact .inl ⟨hext, hemit, hlen, rfl, rfl⟩
  · exact .inr ⟨rfl, rfl⟩

theorem compared_d (w : Walk) : (compared e m cur lenLimit emit w).d =
    w.d ++ cellsOf (comparedPairs e m cur lenLimit emit w) := by
  rw [compared_eq, comparedPairs]
  split
  · rfl
  · exact (List.append_nil _).symm

/-- A comparison changes `D` and `maxLen` only. -/
theorem compared_frame (e : State) (m : MatchFinder) (cur lenLimit : U32) (emit : Bool) (w : Walk) :
    compared e m cur lenLimit emit w =
      { w with
        maxLen := (compared e m cur lenLimit emit w).maxLen, d := (compared e m cur lenLimit emit w).d } := by
  rw [compared_eq]
  split <;> rfl

theorem descend_d (cp len : U32) (w : Walk) :
    (descend e cur cp len w).d = w.d ∧ (descend e cur cp len w).maxLen = w.maxLen := by
  unfold descend
  split <;> exact ⟨rfl, rfl⟩

/-- What a walk appends to `D`: at most one pair for each of its `n` comparisons and none without `emit`, each
longer than those before it; and all with property `Q` where `Ok` is kept from turn to turn and gives `Q` of the
pair of a candidate that is compared. -/
theorem walkLoop_pairs {Ok : Walk → Prop} {Q : U32 × U32 → Prop}
    (hnext : ∀ w, Ok w → ¬ w.curMatch ≤ matchMinPos m → ¬ MatchesInFull e cur lenLimit w →
      Ok (nextWalk e m cur lenLimit emit w))
    (hpair : ∀ w, Ok w → ¬ w.curMatch ≤ matchMinPos m → candidateExtends e cur w = true →
      Q (candidateLength e cur lenLimit w, m.pos - w.curMatch - 1#32)) (n : Nat) (w : Walk) (hw : Ok w) :
    ∃ d, (walkLoop e m cur lenLimit emit n w).d = w.d ++ cellsOf d ∧ d.length ≤ n ∧ (emit = false → d = []) ∧
      Rising d ∧ ∀ x ∈ d, w.maxLen.toNat < x.1.toNat ∧ Q x := by
  refine walkLoop_induct
    (P := fun n w r => Ok w → ∃ d, r.d = w.d ++ cellsOf d ∧ d.length ≤ n ∧ (emit = false → d = []) ∧
      Rising d ∧ ∀ x ∈ d, w.maxLen.toNat < x.1.toNat ∧ Q x) ?_ ?_ ?_ n w hw
  · exact fun n w _ _ => ⟨[], (List.append_nil _).symm, Nat.zero_le n, fun _ => rfl, .nil, fun _ hx => nomatch hx⟩
  · intro n w hlive hfull hw
    refine ⟨comparedPairs e m cur lenLimit emit w, compared_d w, ?_⟩
    obtain ⟨hext, hemit, hlen, hpairs, -⟩ | ⟨hpairs, -⟩ := compared_cases e m cur lenLimit emit w
    · rw [hpairs]
      refine ⟨Nat.succ_le_succ (Nat.zero_le n), fun h => ?_, List.pairwise_singleton _ _, fun x hx => ?_⟩
      · exact absurd (hemit.symm.trans h) (by decide)
      · rw [List.mem_singleton.1 hx]
        exact ⟨hlen, hpair w hw hlive hext⟩
    · rw [hpairs]
      exact ⟨Nat.zero_le _, fun _ => rfl, .nil, fun _ hx => nomatch hx⟩
  · intro n w r hlive hfull ih hw
    obtain ⟨d, hd, hcount, hsilent, hrising, hall⟩ := ih (hnext w hw hlive hfull)
    obtain ⟨hkeep, hmax⟩ :=
      descend_d (e := e) (cur := cur) (candidateSlot m w) (candidateLength e cur lenLimit w)
        (compared e m cur lenLimit emit w)
    rw [nextWalk] at hd hall
    rw [hkeep, compared_d, List.append_assoc, ← cellsOf_append] at hd
    rw [hmax] at hall
    obtain ⟨hext, hemit, hlen, hpairs, hlonger⟩ | ⟨hpairs, hsame⟩ := compared_cases e m cur lenLimit emit w
    · rw [hpairs] at hd
      rw [hlonger] at hall
      refine ⟨_, hd, Nat.succ_le_succ hcount, fun h => ?_, ?_, fun x hx => ?_⟩
      · exact absurd (hemit.symm.trans h) (by decide)
      · refine List.pairwise_cons.2 ⟨fun l hl => ?_, hrising⟩
        obtain ⟨x, hx, rfl⟩ := List.mem_map.1 hl
        obtain ⟨hlonger, -⟩ := hall x hx
        exact hlonger
      · obtain rfl | hx := List.mem_cons.1 hx
        · exact ⟨hlen, hpair w hw hlive hext⟩
        · obtain ⟨hlonger, hQ⟩ := hall x hx
          exact ⟨lt_trans hlen hlonger, hQ⟩
    · rw [hpairs] at hd
      rw [hsame] at hall
      exact ⟨d, hd, Nat.le_succ_of_le hcount, hsilent, hrising, hall⟩

/-! ### TREE_WALK -/

/-- The walk R191 starts with. -/
def walkStart (e : State) (m : MatchFinder) (curMatch : U32) (d : List U32) (maxLen : U32) : Walk where
  son := m.son
  ptr0 := 2#32 * m.cyclicBufferPos + 1#32
  ptr1 := 2#32 * m.cyclicBufferPos
  len0 := e.encCfg.mfKind.directBytes
  len1 := e.encCfg.mfKind.directBytes
  curMatch := curMatch
  d := d
  maxLen := maxLen

/-- Where R191's walk ends. -/
def walkEnd (e : State) (m : MatchFinder) (curMatch lenLimit : U32) (emit : Bool) (d : List U32) (maxLen : U32) :
    Walk :=
  walkLoop e m (m.pos - 1#32) lenLimit emit m.cutValue.toNat (walkStart e m curMatch d maxLen)

theorem mfTreeWalk_eq (e : State) (m : MatchFinder) (curMatch lenLimit : U32) (emit : Bool) (d : List U32)
    (maxLen : U32) : mfTreeWalk e m curMatch lenLimit emit d maxLen =
      ({ m with son := (walkEnd e m curMatch lenLimit emit d maxLen).son },
        (walkEnd e m curMatch lenLimit emit d maxLen).d) := rfl

theorem knownMatch_walkStart (e : State) (m : MatchFinder) (curMatch : U32) (d : List U32) (maxLen : U32) :
    knownMatch (walkStart e m curMatch d maxLen) = e.encCfg.mfKind.directBytes := ite_self _

theorem directBytes_toNat (k : MfKind) : k.directBytes.toNat = if k = .bt2 then 2 else 0 := by
  cases k <;> rfl

theorem pred_toNat {x y : U32} (h : ¬ x ≤ y) : (x - 1#32).toNat = x.toNat - 1 := by
  rw [BitVec.le_def] at h
  rw [BitVec.toNat_sub_of_le (by rw [BitVec.le_def]; show 1 ≤ _; omega)]
  rfl

theorem matchesInFull_of_same {w : Walk} (h : (knownMatch w).toNat < lenLimit.toNat)
    (hsame : ∀ i, (knownMatch w).toNat ≤ i → i < lenLimit.toNat →
      byteNumber e (w.curMatch - 1#32).toNat i = byteNumber e cur.toNat i) : MatchesInFull e cur lenLimit w := by
  have hstop := candidateLength_stopsAt e cur h
  refine ⟨(candidateExtends_iff ..).2 (hsame _ (le_refl _) h), BitVec.eq_of_toNat_eq ?_⟩
  exact hstop.le.antisymm (Nat.not_lt.1 fun hlt => hstop.differ hlt (hsame _ hstop.ge hlt))

/-- With no candidate, or none allowed, the new root has no children (R191). -/
theorem walkEnd_of_none {curMatch : U32} (h : curMatch ≤ matchMinPos m ∨ m.cutValue = 0#32) (d : List U32)
    (maxLen : U32) :
    walkEnd e m curMatch lenLimit emit d maxLen = closeWalk (walkStart e m curMatch d maxLen) := by
  rw [walkEnd]
  obtain hdead | hcut := h
  · exact walkLoop_dead hdead _
  · rw [hcut]
    rfl

/-- A first candidate that matches in full is the only one compared (R191). -/
theorem walkEnd_of_full {curMatch : U32} {d : List U32} {maxLen : U32} (hlive : ¬ curMatch ≤ matchMinPos m)
    (hcut : m.cutValue ≠ 0#32)
    (hfull : MatchesInFull e (m.pos - 1#32) lenLimit (walkStart e m curMatch d maxLen)) :
    walkEnd e m curMatch lenLimit emit d maxLen =
      splice (candidateSlot m (walkStart e m curMatch d maxLen))
        (compared e m (m.pos - 1#32) lenLimit emit (walkStart e m curMatch d maxLen)) := by
  have hcount : m.cutValue.toNat = m.cutValue.toNat - 1 + 1 := by
    have : m.cutValue.toNat ≠ 0 := fun h => hcut (BitVec.eq_of_toNat_eq h)
    omega
  rw [walkEnd, hcount]
  exact walkLoop_full hlive hfull _

/-- Settles O33: the pairs of a walk in general, and its two shortest courses. -/
theorem treeWalkInsertsTheRoot : Obligations.TreeWalkInsertsTheRoot := by
  intro curMatch lenLimit emit s m minPos delta cp slot direct
  have hknown : (knownMatch (walkStart s m curMatch [] 1#32)).toNat = direct := by
    rw [knownMatch_walkStart, directBytes_toNat]
  obtain ⟨d, hd, hcount, hsilent, hrising, hlonger⟩ := walkLoop_pairs (e := s) (m := m) (cur := m.pos - 1#32)
    (lenLimit := lenLimit) (emit := emit) (Ok := fun _ => True) (Q := fun _ => True) (fun _ _ _ _ => trivial)
    (fun _ _ _ _ => trivial) m.cutValue.toNat (walkStart s m curMatch [] 1#32) trivial
  change (walkEnd s m curMatch lenLimit emit [] 1#32).d = cellsOf d at hd
  refine ⟨(walkEnd s m curMatch lenLimit emit [] 1#32).son, d, ?_, hcount, hsilent, hrising,
    fun x hx => (hlonger x hx).1, fun hnone => ?_, fun hlive hcut hlimit hsame => ?_⟩
  · show _ = Host.Outcome.next { s with mf := { m with son := _ }, ret := .cells (cellsOf d) }
    rw [← hd]
    rfl
  · have hend : walkEnd s m curMatch lenLimit emit [] 1#32 = _ := walkEnd_of_none hnone _ _
    rw [hend] at hd ⊢
    exact ⟨cellsOf_injective hd.symm, rfl⟩
  · have hnot : ¬ curMatch ≤ matchMinPos m := BitVec.not_le.2 hlive
    have hfull : MatchesInFull s (m.pos - 1#32) lenLimit (walkStart s m curMatch [] 1#32) := by
      refine matchesInFull_of_same (hknown.symm ▸ hlimit) fun i hi hlt => ?_
      rw [hknown] at hi
      refine (byte_eq_iff ..).1 ?_
      have hplace : ((curMatch - 1#32).toNat : Int) = curMatch.toNat - 1 := by
        have := pred_toNat hnot
        rw [BitVec.lt_def] at hlive
        omega
      show s.inByte (((curMatch - 1#32).toNat : Int) + i) = _
      rw [hplace]
      exact hsame i hi hlt
    have hend := walkEnd_of_full (emit := emit) hnot hcut hfull
    rw [hend] at hd ⊢
    obtain ⟨hext, hlen⟩ := hfull
    refine ⟨cellsOf_injective (hd.symm.trans ((compared_d _).trans ?_)), ?_⟩
    · rw [comparedPairs, hext, hlen]
      simp only [true_and]
      rfl
    · rintro one rfl
      rw [compared_frame]
      rfl

end Sys2Proof
end

section
/-! GET_MATCHES and SKIP in any state (44_match_finder R190, R194): the candidates found before the walk, the hash
cells written, and that SKIP leaves what GET_MATCHES leaves. -/

namespace Sys2Proof

open Machine

variable {e : State} {m : MatchFinder} {cur lenLimit : U32} {emit : Bool}

/-! ### The walk apart from its answer -/

theorem descend_withPairs (e : State) (cur cp len : U32) (w : Walk) (x : U32) (d : List U32) :
    descend e cur cp len { w with maxLen := x, d := d } = { descend e cur cp len w with maxLen := x, d := d } := by
  unfold descend
  split <;> rfl

theorem nextWalk_eq (e : State) (m : MatchFinder) (cur lenLimit : U32) (emit : Bool) (w : Walk) :
    nextWalk e m cur lenLimit emit w =
      { descend e cur (candidateSlot m w) (candidateLength e cur lenLimit w) w with
        maxLen := (compared e m cur lenLimit emit w).maxLen, d := (compared e m cur lenLimit emit w).d } := by
  rw [nextWalk, compared_frame, descend_withPairs]

/-- The tree a walk leaves does not depend on what it reports. -/
theorem walkLoop_son_eq (emit' : Bool) (n : Nat) (w : Walk) (x : U32) (d : List U32) :
    (walkLoop e m cur lenLimit emit' n { w with maxLen := x, d := d }).son =
      (walkLoop e m cur lenLimit emit n w).son := by
  refine walkLoop_induct (e := e) (m := m) (cur := cur) (lenLimit := lenLimit) (emit := emit)
    (P := fun n w r => ∀ x d, (walkLoop e m cur lenLimit emit' n { w with maxLen := x, d := d }).son = r.son)
    ?_ ?_ ?_ n w x d
  · rintro n w (hdead | rfl) x d
    · rw [walkLoop_dead (w := { w with maxLen := x, d := d }) hdead]
      rfl
    · rfl
  · intro n w hlive hfull x d
    rw [walkLoop_full (w := { w with maxLen := x, d := d }) hlive hfull, compared_frame,
      compared_frame e m cur lenLimit emit w]
    rfl
  · intro n w r hlive hfull ih x d
    rw [walkLoop_next (w := { w with maxLen := x, d := d }) hlive hfull, nextWalk_eq, descend_withPairs,
      ← ih, nextWalk_eq]
    rfl

/-- A walk depends on the `maxLen` it starts from only through its first comparison. -/
theorem walkLoop_withMaxLen {w : Walk} (hlive : ¬ w.curMatch ≤ matchMinPos m) (x : U32)
    (h : compared e m cur lenLimit emit { w with maxLen := x } = compared e m cur lenLimit emit w) (n : Nat) :
    walkLoop e m cur lenLimit emit (n + 1) { w with maxLen := x } = walkLoop e m cur lenLimit emit (n + 1) w := by
  by_cases hfull : MatchesInFull e cur lenLimit w
  · rw [walkLoop_full hlive hfull, walkLoop_full (w := { w with maxLen := x }) hlive hfull, h]
    rfl
  · rw [walkLoop_next hlive hfull, walkLoop_next (w := { w with maxLen := x }) hlive hfull, nextWalk, h]
    rfl

theorem walkLoop_withHash (e : State) (m : MatchFinder) (t : Store U32) (cur lenLimit : U32) (emit : Bool) :
    ∀ (n : Nat) (w : Walk),
      walkLoop e { m with hash := t } cur lenLimit emit n w = walkLoop e m cur lenLimit emit n w
  | 0, _ => rfl
  | n + 1, w => by
    simp only [walkLoop, walkLoop_withHash e m t cur lenLimit emit n]
    rfl

/-! ### The hash cells (R190) -/

theorem hashInsert_frame (e : State) (m : MatchFinder) (h : Hashes) :
    hashInsert e m h = { m with hash := (hashInsert e m h).hash } := by
  unfold hashInsert
  split <;> rfl

theorem hashGet_hashSet {m : MatchFinder} (hm : Store.wf 0#32 m.hash = true) (i j : Nat) (v : U32) :
    hashGet (hashSet m i v) j = if j = i then v else hashGet m j := Store.get_set hm

/-- The cells that inserting the byte at `cur` writes. -/
def insertedCells (s : State) (cur : Nat) : List Nat :=
  match s.encCfg.mfKind with
  | .bt4 => [hash2Of s cur, 1024 + hash3Of s cur, 66560 + bucketOf s cur]
  | .bt2 => [bucketOf s cur]

theorem hashGet_hashInsert {s : State} (hm : Store.wf 0#32 s.mf.hash = true) (cur : U32) (i : Nat) :
    hashGet (hashInsert s s.mf (mfHash s s.mf cur)) i =
      if i ∈ insertedCells s cur.toNat then s.mf.pos else hashGet s.mf i := by
  have hv := mfHash_hv s cur
  unfold insertedCells hashInsert
  cases hkind : s.encCfg.mfKind with
  | bt2 =>
    simp only [hashGet_hashSet hm, bucketIndex, hv, MfKind.kFix, Nat.zero_add, List.mem_singleton]
  | bt4 =>
    obtain ⟨h2, h3, -⟩ := mfHash_bt4 cur hkind
    have hm' := Store.wf_set (i := hash2Of s cur.toNat) (v := s.mf.pos) hm
    simp only [hash2Index, hash3Index, bucketIndex, h2, h3, hv, MfKind.kFix, List.mem_cons, List.not_mem_nil,
      or_false]
    rw [hashGet_hashSet (Store.wf_set hm'), hashGet_hashSet hm', hashGet_hashSet hm]
    rw [← ite_or, ← ite_or]
    exact if_congr (by tauto) rfl rfl

/-! ### The candidates found before the walk (R190) -/

/-- Tag `t` is in the window and its byte is the one at `cur`. -/
def Near (e : State) (m : MatchFinder) (cur t : U32) : Prop :=
  matchMinPos m < t ∧ e.inByte ((t.toNat : Int) - 1) = e.inByte cur.toNat

/-- The pair of `n` bytes that match at tag `t`. -/
def pairAt (m : MatchFinder) (n t : U32) : U32 × U32 := (n, m.pos - t - 1#32)

/-- BT4's candidates: of 2 and of 3 bytes, without the last one if it is the walk's first candidate. -/
theorem shortCandidates_cases (e : State) (m : MatchFinder) (cur m2 m3 curMatch : U32) :
    ∃ d x, shortCandidates e m cur m2 m3 curMatch = (cellsOf d, x) ∧
      ((d = [] ∧ x = 1#32) ∨
        (d = [pairAt m 2#32 m2] ∧ x = 2#32 ∧ Near e m cur m2) ∨
        (d = [pairAt m 3#32 m3] ∧ x = 3#32 ∧ Near e m cur m3) ∨
        (d = [pairAt m 2#32 m2, pairAt m 3#32 m3] ∧ x = 3#32 ∧ Near e m cur m2 ∧ Near e m cur m3) ∨
        (d = [pairAt m 2#32 m2] ∧ x = 1#32 ∧ Near e m cur m2 ∧ Near e m cur m3 ∧ m3 = curMatch)) := by
  simp only [shortCandidates, Bool.and_eq_true, decide_eq_true_eq]
  by_cases h2 : matchMinPos m < m2 ∧ e.inByte ((m2.toNat : Int) - 1) = e.inByte cur.toNat
  · by_cases h3 : matchMinPos m < m3 ∧ e.inByte ((m3.toNat : Int) - 1) = e.inByte cur.toNat
    · by_cases hroot : m3 = curMatch
      · subst hroot
        by_cases heq : m3 = m2
        · subst heq
          exact ⟨[], 1#32, by simp [h2], .inl ⟨rfl, rfl⟩⟩
        · exact ⟨[pairAt m 2#32 m2], 1#32, by simp [h2, h3, heq, pairAt],
            .inr (.inr (.inr (.inr ⟨rfl, rfl, h2, h3, rfl⟩)))⟩
      · by_cases heq : m3 = m2
        · subst heq
          exact ⟨[pairAt m 3#32 m3], 3#32, by simp [h2, hroot, pairAt], .inr (.inr (.inl ⟨rfl, rfl, h3⟩))⟩
        · exact ⟨[pairAt m 2#32 m2, pairAt m 3#32 m3], 3#32, by simp [h2, h3, heq, hroot, pairAt],
            .inr (.inr (.inr (.inl ⟨rfl, rfl, h2, h3⟩)))⟩
    · by_cases hroot : m2 = curMatch
      · subst hroot
        exact ⟨[], 1#32, by simp [h2, h3], .inl ⟨rfl, rfl⟩⟩
      · exact ⟨[pairAt m 2#32 m2], 2#32, by simp [h2, h3, hroot, pairAt], .inr (.inl ⟨rfl, rfl, h2⟩)⟩
  · by_cases h3 : matchMinPos m < m3 ∧ e.inByte ((m3.toNat : Int) - 1) = e.inByte cur.toNat
    · have heq : m3 ≠ m2 := fun heq => h2 (heq ▸ h3)
      by_cases hroot : m3 = curMatch
      · subst hroot
        exact ⟨[], 1#32, by simp [h2, h3, heq], .inl ⟨rfl, rfl⟩⟩
      · exact ⟨[pairAt m 3#32 m3], 3#32, by simp [h2, h3, heq, hroot, pairAt], .inr (.inr (.inl ⟨rfl, rfl, h3⟩))⟩
    · exact ⟨[], 1#32, by simp [h2, h3], .inl ⟨rfl, rfl⟩⟩

/-- BT2's candidate: of 2 bytes, if the walk's first candidate matches no more. -/
theorem directCandidates_bt2 (cur : U32) (h : Hashes) (hkind : e.encCfg.mfKind = .bt2) :
    let root := hashGet m (bucketIndex e.encCfg.mfKind h)
    ∃ d x, directCandidates e m cur h = (cellsOf d, x) ∧
      ((d = [] ∧ x = 1#32) ∨ (d = [pairAt m 2#32 root] ∧ x = 2#32 ∧ matchMinPos m < root)) := by
  intro root
  simp only [directCandidates, hkind]
  split
  · next hnear =>
    obtain ⟨hlive, -⟩ := hnear
    exact ⟨[pairAt m 2#32 root], 2#32, by simp [pairAt, root, hkind],
      .inr ⟨rfl, rfl, by simpa [root, hkind] using hlive⟩⟩
  · exact ⟨[], 1#32, rfl, .inl ⟨rfl, rfl⟩⟩

theorem directCandidates_bt4 (cur : U32) (h : Hashes) (hkind : e.encCfg.mfKind = .bt4) :
    directCandidates e m cur h = shortCandidates e m cur (hashGet m (hash2Index h)) (hashGet m (hash3Index h))
      (hashGet m (bucketIndex e.encCfg.mfKind h)) := by
  simp only [directCandidates, hkind]

/-- Candidates come in pairs. -/
theorem directCandidates_cells (e : State) (m : MatchFinder) (cur : U32) (h : Hashes) :
    ∃ d x, directCandidates e m cur h = (cellsOf d, x) := by
  cases hkind : e.encCfg.mfKind with
  | bt2 =>
    obtain ⟨d, x, hd, -⟩ := directCandidates_bt2 (m := m) cur h hkind
    exact ⟨d, x, hd⟩
  | bt4 =>
    obtain ⟨d, x, hd, -⟩ := shortCandidates_cases e m cur (hashGet m (hash2Index h)) (hashGet m (hash3Index h))
      (hashGet m (bucketIndex e.encCfg.mfKind h))
    exact ⟨d, x, (directCandidates_bt4 cur h hkind).trans hd⟩

/-! ### GET_MATCHES and SKIP -/

/-- The hashes of the byte at `pos`. -/
def hashesHere (e : State) (m : MatchFinder) : Hashes := mfHash e m (m.pos - 1#32)

/-- The first candidate of the walk at `pos`. -/
def rootHere (e : State) (m : MatchFinder) : U32 := hashGet m (bucketIndex e.encCfg.mfKind (hashesHere e m))

/-- R190's walk. -/
def walkHere (e : State) (m : MatchFinder) (lenLimit : U32) : Walk :=
  let first := directCandidates e m (m.pos - 1#32) (hashesHere e m)
  walkEnd e m (rootHere e m) lenLimit true first.1 first.2

/-- The match finder with the byte at `pos` inserted. -/
def inserted (e : State) (m : MatchFinder) (lenLimit : U32) : MatchFinder :=
  mfMovePos { m with hash := (hashInsert e m (hashesHere e m)).hash, son := (walkHere e m lenLimit).son }

theorem mfTreeWalk_hashInsert (e : State) (m : MatchFinder) (h : Hashes) (curMatch lenLimit : U32) (emit : Bool)
    (d : List U32) (x : U32) : mfTreeWalk e (hashInsert e m h) curMatch lenLimit emit d x =
      ({ m with
          hash := (hashInsert e m h).hash, son := (walkEnd e m curMatch lenLimit emit d x).son },
        (walkEnd e m curMatch lenLimit emit d x).d) := by
  rw [hashInsert_frame, mfTreeWalk_eq, walkEnd, walkLoop_withHash]
  rfl

theorem mfGetMatches_of_none (h : mfLenLimit e m = none) : mfGetMatches e m = (mfMovePos m, []) := by
  simp only [mfGetMatches, h]

theorem mfGetMatches_of_some (h : mfLenLimit e m = some lenLimit) :
    mfGetMatches e m = (inserted e m lenLimit, (walkHere e m lenLimit).d) := by
  simp only [mfGetMatches, h, mfTreeWalk_hashInsert]
  rfl

/-- SKIP of one byte leaves what GET_MATCHES leaves (R194). -/
theorem mfSkipOne_eq (e : State) (m : MatchFinder) : mfSkipOne e m = (mfGetMatches e m).1 := by
  cases h : mfLenLimit e m with
  | none => simp only [mfSkipOne, mfGetMatches, h]
  | some lenLimit =>
    have hson : (walkEnd e m (rootHere e m) lenLimit false [] 1#32).son = (walkHere e m lenLimit).son :=
      walkLoop_son_eq false m.cutValue.toNat (walkStart e m (rootHere e m) _ _) 1#32 []
    rw [mfGetMatches_of_some h]
    simp only [mfSkipOne, h, mfTreeWalk_hashInsert]
    exact congrArg (fun t => mfMovePos { m with hash := (hashInsert e m (hashesHere e m)).hash, son := t }) hson

theorem mfSkip_succ (e : State) : ∀ (n : Nat) (m : MatchFinder), mfSkip e (n + 1) m = mfSkipOne e (mfSkip e n m)
  | 0, _ => rfl
  | n + 1, m => mfSkip_succ e n (mfSkipOne e m)

/-- Bytes are compared as far as `matchMaxLen` and the input allow; with fewer than `minMatchCheck` bytes left,
none. -/
theorem mfLenLimit_cases (e : State) (m : MatchFinder) :
    (mfLenLimit e m = some m.matchMaxLen ∧ m.pos.toNat + m.matchMaxLen.toNat ≤ m.streamPos.toNat) ∨
    (mfLenLimit e m = some (m.streamPos - m.pos) ∧ m.streamPos.toNat < m.pos.toNat + m.matchMaxLen.toNat ∧
      e.encCfg.mfKind.minMatchCheck ≤ m.streamPos - m.pos) ∨
    (mfLenLimit e m = none ∧ m.streamPos.toNat < m.pos.toNat + m.matchMaxLen.toNat ∧
      m.streamPos - m.pos < e.encCfg.mfKind.minMatchCheck) := by
  unfold mfLenLimit
  split
  · next h => exact .inl ⟨rfl, h⟩
  · next h =>
    split
    · next h' => exact .inr (.inr ⟨rfl, Nat.not_le.1 h, h'⟩)
    · next h' => exact .inr (.inl ⟨rfl, Nat.not_le.1 h, BitVec.not_lt.1 h'⟩)

/-- GET_MATCHES moves on and changes the tables; nothing else. -/
theorem mfGetMatches_frame (e : State) (m : MatchFinder) : (mfGetMatches e m).1 =
    { m with
      son := (mfGetMatches e m).1.son, hash := (mfGetMatches e m).1.hash, pos := m.pos + 1#32
      cyclicBufferPos := (mfGetMatches e m).1.cyclicBufferPos } := by
  cases h : mfLenLimit e m with
  | none =>
    rw [mfGetMatches_of_none h]
    rfl
  | some lenLimit =>
    rw [mfGetMatches_of_some h]
    rfl

theorem walkHere_cells (e : State) (m : MatchFinder) (lenLimit : U32) :
    ∃ d, (walkHere e m lenLimit).d = cellsOf d := by
  obtain ⟨c, x, hc⟩ := directCandidates_cells e m (m.pos - 1#32) (hashesHere e m)
  obtain ⟨d, hd, -⟩ := walkLoop_pairs (e := e) (m := m) (cur := m.pos - 1#32)
    (lenLimit := lenLimit) (emit := true) (Ok := fun _ => True) (Q := fun _ => True) (fun _ _ _ _ => trivial)
    (fun _ _ _ _ => trivial) m.cutValue.toNat (walkStart e m (rootHere e m) (cellsOf c) x) trivial
  refine ⟨c ++ d, ?_⟩
  simp only [walkHere, hc, cellsOf_append]
  exact hd

theorem cellsOf_length (d : List (U32 × U32)) : (cellsOf d).length = 2 * d.length := by
  induction d with
  | nil => rfl
  | cons x d ih => rw [cellsOf_cons, List.length_cons, List.length_cons, ih, List.length_cons]; omega

theorem mfGetMatches_cells (e : State) (m : MatchFinder) : ∃ d, (mfGetMatches e m).2 = cellsOf d := by
  cases h : mfLenLimit e m with
  | none => exact ⟨[], by rw [mfGetMatches_of_none h]; rfl⟩
  | some lenLimit =>
    rw [mfGetMatches_of_some h]
    exact walkHere_cells e m lenLimit

/-! ### The instructions -/

theorem exec_mfGetMatches (s : State) : exec .mfGetMatches s =
    .next { s with mf := (mfGetMatches s s.mf).1, ret := .cells (mfGetMatches s s.mf).2 } := rfl

theorem exec_mfSkip (n : U32) (s : State) :
    exec (.mfSkip n) s = .next { s with mf := mfSkip s n.toNat s.mf, ret := .none } := rfl

theorem exec_mfSkip_one (s : State) :
    exec (.mfSkip 1#32) s = .next { s with mf := (mfGetMatches s s.mf).1, ret := .none } := by
  rw [← mfSkipOne_eq]
  rfl

/-- Near the end of the input both instructions move on; everywhere they change the tables and the two positions
and answer pairs. -/
theorem getMatches_and_skip (s : State) :
    (s.mf.streamPos.toNat < s.mf.pos.toNat + s.mf.matchMaxLen.toNat →
      s.mf.streamPos - s.mf.pos < (if s.encCfg.mfKind = .bt2 then 3#32 else 4#32) →
      ∃ t, exec .mfMovePos s = .next t ∧ exec .mfGetMatches s = .next { t with ret := .cells [] } ∧
        exec (.mfSkip 1#32) s = .next t) ∧
    ∃ (d : List U32) (t : State), exec .mfGetMatches s = .next { t with ret := .cells d } ∧
      exec (.mfSkip 1#32) s = .next { t with ret := .none } ∧
      t = { s with
        mf := { s.mf with
          son := t.mf.son, hash := t.mf.hash, pos := s.mf.pos + 1#32
          cyclicBufferPos := t.mf.cyclicBufferPos }
        ret := t.ret } ∧
      d.length % 2 = 0 := by
  refine ⟨fun hend hfew => ?_, ?_⟩
  · have hcheck : s.encCfg.mfKind.minMatchCheck = if s.encCfg.mfKind = .bt2 then 3#32 else 4#32 := by
      cases s.encCfg.mfKind <;> rfl
    have hnone : mfLenLimit s s.mf = none := by
      rw [mfLenLimit, if_neg (Nat.not_le.2 hend), if_pos (hcheck ▸ hfew)]
    refine ⟨{ s with mf := mfMovePos s.mf, ret := .none }, rfl, ?_, ?_⟩
    · rw [exec_mfGetMatches, mfGetMatches_of_none hnone]
    · rw [exec_mfSkip_one, mfGetMatches_of_none hnone]
  · obtain ⟨d, hd⟩ := mfGetMatches_cells s s.mf
    refine ⟨_, { s with mf := (mfGetMatches s s.mf).1 }, exec_mfGetMatches s, exec_mfSkip_one s, ?_, ?_⟩
    · exact congrArg (fun m => { s with mf := m }) (mfGetMatches_frame s s.mf)
    · rw [hd, cellsOf_length]
      omega

theorem skip_succ (n : U32) (s : State) (hn : n.toNat < 2 ^ 32 - 1) :
    ∃ t, exec (.mfSkip n) s = .next t ∧ exec (.mfSkip (n + 1#32)) s = exec (.mfSkip 1#32) t := by
  refine ⟨_, exec_mfSkip n s, ?_⟩
  rw [exec_mfSkip (n + 1#32), succ_toNat (x := n) (by omega), mfSkip_succ]
  exact congrArg (fun m => Host.Outcome.next { s with mf := m, ret := .none })
    (mfSkipOne_same (e := s) (f := { s with mf := mfSkip s n.toNat s.mf, ret := .none }) ⟨fun _ => rfl, rfl⟩ _)

/-- Where a byte is inserted, just its hash cells become `pos`. -/
theorem getMatches_hash (s : State) (hm : Store.wf 0#32 s.mf.hash = true)
    (hsome : s.mf.pos.toNat + s.mf.matchMaxLen.toNat ≤ s.mf.streamPos.toNat ∨
      s.encCfg.mfKind.minMatchCheck ≤ s.mf.streamPos - s.mf.pos) (i : Nat) :
    hashGet (mfGetMatches s s.mf).1 i =
      if i ∈ insertedCells s (s.mf.pos - 1#32).toNat then s.mf.pos else hashGet s.mf i := by
  have hinsert {lenLimit : U32} (h : mfLenLimit s s.mf = some lenLimit) :
      hashGet (mfGetMatches s s.mf).1 i = hashGet (hashInsert s s.mf (hashesHere s s.mf)) i := by
    rw [mfGetMatches_of_some h]
    rfl
  rw [← hashGet_hashInsert hm]
  obtain ⟨h, -⟩ | ⟨h, -, -⟩ | ⟨-, hend, hfew⟩ := mfLenLimit_cases s s.mf
  · exact hinsert h
  · exact hinsert h
  · obtain hroom | henough := hsome
    · exact absurd hend (Nat.not_lt.2 hroom)
    · exact absurd hfew (BitVec.not_lt.2 henough)

end Sys2Proof
end

section
/-! Strings of IN as numbers, and the trees of the match finder (44_match_finder R182, R191): the order of
strings, the ring of son slots, and subtrees. -/

namespace Sys2Proof

open Machine

/-! ### Strings -/

section

variable {s : State} {a b m n : Nat}

theorem byteNumber_succ (s : State) (i j : Nat) : byteNumber s (i + 1) j = byteNumber s i (j + 1) := by
  rw [byteNumber, byteNumber, Nat.add_right_comm, Nat.add_assoc]

/-- A string's number by its last byte. -/
theorem stringNumber_succ (s : State) : ∀ n i : Nat,
    stringNumber s (n + 1) i = stringNumber s n i * 256 + byteNumber s i n
  | 0, i => by simp [stringNumber]
  | n + 1, i => by
    rw [stringNumber, stringNumber_succ s n (i + 1), byteNumber_succ, stringNumber, Nat.pow_succ]
    ring

theorem stringNumber_take_le (hmn : m ≤ n) (h : stringNumber s n a ≤ stringNumber s n b) :
    stringNumber s m a ≤ stringNumber s m b := by
  induction n, hmn using Nat.le_induction with
  | base => exact h
  | succ n _ ih =>
    rw [stringNumber_succ, stringNumber_succ] at h
    have hb := byteNumber_lt s b n
    exact ih (by omega)

theorem stringNumber_eq_iff (s : State) (a b : Nat) : ∀ n : Nat,
    stringNumber s n a = stringNumber s n b ↔ ∀ j < n, byteNumber s a j = byteNumber s b j
  | 0 => ⟨fun _ _ hj => absurd hj (Nat.not_lt_zero _), fun _ => rfl⟩
  | n + 1 => by
    have ha := byteNumber_lt s a n
    have hb := byteNumber_lt s b n
    rw [stringNumber_succ, stringNumber_succ, Nat.forall_lt_succ_right, ← stringNumber_eq_iff s a b n]
    omega

/-- The first byte that differs decides. -/
theorem stringNumber_lt (hmn : m < n) (hsame : ∀ j < m, byteNumber s a j = byteNumber s b j)
    (hlt : byteNumber s a m < byteNumber s b m) : stringNumber s n a < stringNumber s n b := by
  by_contra hle
  have h := stringNumber_take_le (Nat.succ_le_of_lt hmn) (Nat.not_lt.1 hle)
  rw [stringNumber_succ, stringNumber_succ, (stringNumber_eq_iff s a b m).2 hsame] at h
  omega

/-- `a` lies on one side of `b`: on side `false` it is no greater, on side `true` no smaller. -/
def Beside : Bool → Nat → Nat → Prop
  | false, a, b => a ≤ b
  | true, a, b => b ≤ a

theorem Beside.of_eq (h : a = b) : ∀ k, Beside k a b
  | false => le_of_eq h
  | true => ge_of_eq h

theorem Beside.trans {c : Nat} : ∀ {k}, Beside k a b → Beside k b c → Beside k a c
  | false, h, h' => Nat.le_trans h h'
  | true, h, h' => Nat.le_trans h' h

theorem Beside.flip : ∀ {k}, Beside k a b → Beside (!k) b a
  | false, h => h
  | true, h => h

theorem eq_of_beside (h : ∀ k, Beside k a b) : a = b := Nat.le_antisymm (h false) (h true)

theorem Beside.take (hmn : m ≤ n) : ∀ {k}, Beside k (stringNumber s n a) (stringNumber s n b) →
    Beside k (stringNumber s m a) (stringNumber s m b)
  | false, h => stringNumber_take_le hmn h
  | true, h => stringNumber_take_le hmn h

end

/-! ### The ring of son slots (R182) -/

section

variable {m : MatchFinder} {t u : Nat} {j k : Bool}

/-- The place of a child of tag `t` in `son`. -/
def tagSlot (m : MatchFinder) (t : Nat) (k : Bool) : Nat :=
  2 * ((t - 1) % m.cyclicBufferSize.toNat) + k.toNat

theorem childOf_eq (m : MatchFinder) (t : Nat) (k : Bool) :
    childOf m t k.toNat = (Store.get 0#32 m.son (tagSlot m t k)).toNat := rfl

theorem Live.pos (h : Live m t) : 0 < t := Nat.zero_lt_of_lt h.1

theorem not_live_zero : ¬ Live m 0 := fun h => absurd h.pos (Nat.lt_irrefl 0)

/-- The tags that have slots of their own: the live ones and `pos`. -/
def InRing (m : MatchFinder) (t : Nat) : Prop :=
  0 < t ∧ t ≤ m.pos.toNat ∧ m.pos.toNat < t + m.cyclicBufferSize.toNat

theorem Live.inRing (h : Live m t) : InRing m t := by
  have hpos := h.pos
  obtain ⟨hlo, hhi⟩ := h
  exact ⟨hpos, hhi.le, by omega⟩

theorem tagSlot_inj (ht : InRing m t) (hu : InRing m u) (h : tagSlot m t j = tagSlot m u k) : t = u ∧ j = k := by
  obtain ⟨ht0, htp, htc⟩ := ht
  obtain ⟨hu0, hup, huc⟩ := hu
  have hj := Bool.toNat_lt j
  have hk := Bool.toNat_lt k
  unfold tagSlot at h
  refine ⟨?_, (by decide : ∀ j k : Bool, j.toNat = k.toNat → j = k) j k (by omega)⟩
  have hmod : (t - 1) % m.cyclicBufferSize.toNat = (u - 1) % m.cyclicBufferSize.toNat := by omega
  have heq : t - 1 = u - 1 := Nat.ModEq.eq_of_abs_lt hmod (by rw [abs_lt]; omega)
  omega

/-- A ring place `d` before place `p % n`. -/
theorem sub_mod_ring {p n d : Nat} (hd : d < n) (hp : d ≤ p) :
    (p - d) % n = if d ≤ p % n then p % n - d else p % n + n - d := by
  have hdiv := Nat.div_add_mod p n
  have hlt := Nat.mod_lt p (Nat.zero_lt_of_lt hd)
  split
  · next h =>
    rw [show p - d = (p % n - d) + n * (p / n) by omega, Nat.add_mul_mod_self_left, Nat.mod_eq_of_lt (by omega)]
  · next h =>
    obtain ⟨q, hq⟩ : ∃ q, p / n = q + 1 := Nat.exists_eq_succ_of_ne_zero fun h0 => by
      rw [h0, Nat.mul_zero] at hdiv
      omega
    rw [hq, Nat.mul_succ] at hdiv
    rw [show p - d = (p % n + n - d) + n * q by omega, Nat.add_mul_mod_self_left, Nat.mod_eq_of_lt (by omega)]

end

/-! ### Subtrees -/

section

variable {m : MatchFinder} {a b c t u : Nat}

theorem under_iff : Under m t u ↔ Live m t ∧ (u = t ∨ ∃ k : Bool, Under m (childOf m t k.toNat) u) := by
  constructor
  · intro h
    cases h with
    | root hlive => exact ⟨hlive, .inl rfl⟩
    | child side hside hlive h =>
      obtain rfl | rfl : side = 0 ∨ side = 1 := by omega
      · exact ⟨hlive, .inr ⟨false, h⟩⟩
      · exact ⟨hlive, .inr ⟨true, h⟩⟩
  · rintro ⟨hlive, rfl | ⟨k, h⟩⟩
    · exact .root hlive
    · exact .child k.toNat k.toNat_lt hlive h

theorem Under.live_root (h : Under m t u) : Live m t := by
  obtain ⟨hlive, -⟩ := under_iff.1 h
  exact hlive

theorem Under.live (h : Under m t u) : Live m u := by
  induction h with
  | root hlive => exact hlive
  | child _ _ _ _ ih => exact ih

theorem Under.trans (h : Under m a b) (h' : Under m b c) : Under m a c := by
  induction h with
  | root _ => exact h'
  | child side hside hlive _ ih => exact .child side hside hlive (ih h')

/-- The tree at `a` is a part of the tree at `b`, and no newer. -/
structure Below (m : MatchFinder) (a b : Nat) : Prop where
  le : a ≤ b
  sub : ∀ u, Under m a u → Under m b u

theorem Below.refl (m : MatchFinder) (a : Nat) : Below m a a := ⟨le_refl a, fun _ h => h⟩

theorem Below.trans (h : Below m a b) (h' : Below m b c) : Below m a c :=
  ⟨h.le.trans h'.le, fun u hu => h'.sub u (h.sub u hu)⟩

theorem Below.zero (m : MatchFinder) (b : Nat) : Below m 0 b :=
  ⟨Nat.zero_le b, fun _ h => absurd h.live_root not_live_zero⟩

theorem Below.under (h : Below m a b) (ha : Live m a) : Under m b a := h.sub a (.root ha)

end

end Sys2Proof
end

section
/-! The walk in a match finder of an ENCODE session (44_match_finder R191): what is known of the candidate at each
turn, and that the walk splits its tree between the new root's children. -/

namespace Sys2Proof

open Machine

/-! ### The ordered trees of `FinderInv` -/

/-- The string at a tag, as a number, as far as bytes are compared. -/
def tagString (s : State) (t : Nat) : Nat := stringNumber s (bytesCompared s.mf) (t - 1)

/-- Every child in the tree at `r` is older than its parent, and the strings under it lie on its side. -/
def Ordered (s : State) (r : Nat) : Prop :=
  ∀ t k, Under s.mf r t → childOf s.mf t k.toNat < t ∧ ∀ u, Under s.mf (childOf s.mf t k.toNat) u →
    Beside k (tagString s u) (tagString s t)

/-- R182's test. -/
theorem live_iff {m : MatchFinder} {t : U32} (ht : t.toNat < m.pos.toNat) :
    ¬ t ≤ matchMinPos m ↔ Live m t.toNat := by
  have hmin : (matchMinPos m).toNat = m.pos.toNat - m.cyclicBufferSize.toNat := by
    unfold matchMinPos
    split
    · next h => exact BitVec.toNat_sub_of_le (BitVec.le_of_lt h)
    · next h =>
      rw [BitVec.lt_def] at h
      show 0 = _
      omega
  rw [BitVec.not_le, BitVec.lt_def, hmin, Live]
  exact (and_iff_left ht).symm

theorem Ordered.below {s : State} {r t : Nat} (hr : Ordered s r) (ht : Under s.mf r t) (k : Bool) :
    Below s.mf (childOf s.mf t k.toNat) t :=
  ⟨(hr t k ht).1.le, fun _ hu => under_iff.2 ⟨ht.live, .inr ⟨k, hu⟩⟩⟩

section

variable {s : State} (hs : FinderInv s)

include hs

theorem FinderInv.ordered (h : Nat) : Ordered s (rootOf s h) := by
  intro t k ht
  obtain ⟨hlt0, hlt1, hle, hge⟩ := hs.trees h t ht
  cases k with
  | false => exact ⟨hlt0, hle⟩
  | true => exact ⟨hlt1, hge⟩

theorem FinderInv.pos_inRing : InRing s.mf s.mf.pos.toNat := by
  obtain ⟨hpos, -, -⟩ := hs.positions
  obtain ⟨hdict, hsize, -, -⟩ := hs.window
  exact ⟨hpos, le_refl _, by omega⟩

/-- The son slot of a live tag (R182) is its place in the ring. -/
theorem FinderInv.sonSlot_toNat {t : U32} (ht : Live s.mf t.toNat) :
    (sonSlot s.mf (s.mf.pos - t)).toNat = tagSlot s.mf t.toNat false := by
  have ht0 := ht.pos
  obtain ⟨-, -, htc⟩ := ht.inRing
  obtain ⟨-, htp⟩ := ht
  obtain ⟨hdict, hsize, hbound, hplace⟩ := hs.window
  have hdelta : (s.mf.pos - t).toNat = s.mf.pos.toNat - t.toNat :=
    BitVec.toNat_sub_of_le (by rw [BitVec.le_def]; omega)
  have hring := sub_mod_ring (p := s.mf.pos.toNat - 1) (n := s.mf.cyclicBufferSize.toNat)
    (d := s.mf.pos.toNat - t.toNat) (by omega) (by omega)
  rw [show s.mf.pos.toNat - 1 - (s.mf.pos.toNat - t.toNat) = t.toNat - 1 by omega, ← hplace] at hring
  have hlt := Nat.mod_lt (t.toNat - 1) (Nat.zero_lt_of_lt (by omega : 0 < s.mf.cyclicBufferSize.toNat))
  rw [tagSlot, sonSlot, BitVec.toNat_mul, show (2#32).toNat = 2 from rfl]
  suffices hslot : (if s.mf.pos - t ≤ s.mf.cyclicBufferPos then s.mf.cyclicBufferPos - (s.mf.pos - t)
      else s.mf.cyclicBufferPos - (s.mf.pos - t) + s.mf.cyclicBufferSize).toNat =
        (t.toNat - 1) % s.mf.cyclicBufferSize.toNat by
    rw [hslot, Nat.mod_eq_of_lt (by omega)]
    rfl
  split
  · next h =>
    rw [BitVec.toNat_sub_of_le h]
    rw [BitVec.le_def] at h
    rw [hdelta] at h ⊢
    rw [hring, if_pos h]
  · next h =>
    rw [BitVec.le_def] at h
    rw [hdelta] at h
    rw [hring, if_neg h] at hlt ⊢
    rw [BitVec.toNat_add, BitVec.toNat_sub, hdelta]
    omega

end

/-! ### The parts of a walk by their side -/

/-- The slot of `son` where the walk will put the next tag on one side of the new string's path. -/
def pendingSlot (w : Walk) : Bool → Nat
  | false => w.ptr0.toNat
  | true => w.ptr1.toNat

/-- How many bytes the strings on one side are known to match. -/
def knownLen (w : Walk) : Bool → Nat
  | false => w.len0.toNat
  | true => w.len1.toNat

/-- A child's slot of the candidate whose slots begin at `cp`. -/
def childSlot (cp : U32) : Bool → U32
  | false => cp
  | true => cp + 1#32

theorem knownMatch_toNat (w : Walk) : (knownMatch w).toNat = min (knownLen w false) (knownLen w true) := by
  unfold knownMatch
  split
  · next h => exact (Nat.min_eq_left h).symm
  · next h => exact (Nat.min_eq_right (BitVec.le_of_lt (BitVec.not_le.1 h))).symm

theorem knownMatch_le (w : Walk) (k : Bool) : (knownMatch w).toNat ≤ knownLen w k := by
  rw [knownMatch_toNat]
  cases k with
  | false => exact Nat.min_le_left _ _
  | true => exact Nat.min_le_right _ _

/-- From `w` the walk goes on to `v`, at the candidate's child on side `k`; `len` bytes matched. -/
structure Descends (cp len : U32) (k : Bool) (w v : Walk) : Prop where
  son : v.son = Store.set 0#32 w.son (pendingSlot w k) w.curMatch
  curMatch : v.curMatch = Store.get 0#32 v.son (childSlot cp k).toNat
  taken : pendingSlot v k = (childSlot cp k).toNat ∧ knownLen v k = len.toNat
  other : pendingSlot v (!k) = pendingSlot w (!k) ∧ knownLen v (!k) = knownLen w (!k)

theorem descend_descends (e : State) (cur cp len : U32) (w : Walk) :
    Descends cp len
      (decide (byteNumber e (w.curMatch - 1#32).toNat len.toNat < byteNumber e cur.toNat len.toNat)) w
      (descend e cur cp len w) := by
  have hlt : e.inByte ((w.curMatch - 1#32).toNat + len.toNat) < e.inByte (cur.toNat + len.toNat) ↔
    byteNumber e (w.curMatch - 1#32).toNat len.toNat < byteNumber e cur.toNat len.toNat := BitVec.lt_def
  unfold descend
  split
  · next h =>
    rw [decide_eq_true (hlt.1 h)]
    exact ⟨rfl, rfl, ⟨rfl, rfl⟩, rfl, rfl⟩
  · next h =>
    rw [decide_eq_false fun h' => h (hlt.2 h')]
    exact ⟨rfl, rfl, ⟨rfl, rfl⟩, rfl, rfl⟩

theorem nextWalk_descends (e : State) (m : MatchFinder) (cur lenLimit : U32) (emit : Bool) (w : Walk) :
    Descends (candidateSlot m w) (candidateLength e cur lenLimit w)
      (decide (byteNumber e (w.curMatch - 1#32).toNat (candidateLength e cur lenLimit w).toNat <
        byteNumber e cur.toNat (candidateLength e cur lenLimit w).toNat)) w
      (nextWalk e m cur lenLimit emit w) := by
  obtain ⟨hson, hcur, htaken, hother⟩ :=
    descend_descends e cur (candidateSlot m w) (candidateLength e cur lenLimit w) w
  rw [nextWalk_eq]
  exact ⟨hson, hcur, htaken, hother⟩

/-! ### What holds at each turn -/

/-- The strings under the candidate are those between the strings met so far on each side, which match the new
string in `knownLen` bytes; the tree below the candidate is as it was; and the slots still to be written are
no slots of it. -/
structure WalkOk (s : State) (r : Nat) (w : Walk) : Prop where
  canonical : Store.wf 0#32 w.son = true
  below : Below s.mf w.curMatch.toNat r
  fresh : ∀ t k, Live s.mf t → t ≤ w.curMatch.toNat →
    Store.get 0#32 w.son (tagSlot s.mf t k) = Store.get 0#32 s.mf.son (tagSlot s.mf t k)
  pending : ∀ j t k, Live s.mf t → t ≤ w.curMatch.toNat → tagSlot s.mf t k ≠ pendingSlot w j
  distinct : ∀ k, pendingSlot w k ≠ pendingSlot w (!k)
  short : ∀ k, knownLen w k < bytesCompared s.mf
  between : ∀ k u, Under s.mf w.curMatch.toNat u →
    Beside k (stringNumber s (knownLen w k) (u - 1)) (stringNumber s (knownLen w k) (s.mf.pos.toNat - 1))

/-- What holds on a side and on the other one holds on each. -/
theorem forall_side {p : Bool → Prop} : ∀ k, p k → p (!k) → ∀ j, p j
  | false, h, _, false => h
  | false, _, h, true => h
  | true, _, h, false => h
  | true, h, _, true => h

section

variable {s : State} (hs : FinderInv s) {r : Nat} {w v : Walk} (hw : WalkOk s r w) {lenLimit : U32}
  (hlimit : lenLimit.toNat = bytesCompared s.mf)

theorem FinderInv.pred_pos_toNat (hs : FinderInv s) : (s.mf.pos - 1#32).toNat = s.mf.pos.toNat - 1 := by
  obtain ⟨hpos, -, -⟩ := hs.positions
  exact BitVec.toNat_sub_of_le hpos

theorem FinderInv.childSlot_toNat (hs : FinderInv s) (hlive : Live s.mf w.curMatch.toNat) (k : Bool) :
    (childSlot (candidateSlot s.mf w) k).toNat = tagSlot s.mf w.curMatch.toNat k := by
  have h : (candidateSlot s.mf w).toNat = tagSlot s.mf w.curMatch.toNat false := hs.sonSlot_toNat hlive
  cases k with
  | false => exact h
  | true =>
    obtain ⟨hdict, hsize, hbound, -⟩ := hs.window
    have hlt := Nat.mod_lt (w.curMatch.toNat - 1) (by omega : 0 < s.mf.cyclicBufferSize.toNat)
    rw [tagSlot] at h ⊢
    show (candidateSlot s.mf w + 1#32).toNat = _
    rw [succ_toNat (by rw [h, Bool.toNat_false]; omega), h]
    rfl

variable (hlive : Live s.mf w.curMatch.toNat)

include hs hw hlimit hlive

/-- The candidate's string and the new one: they agree as far as is known, and differ first where R191's
comparison stops. -/
theorem WalkOk.stopsAt : StopsAt s (w.curMatch.toNat - 1) (s.mf.pos.toNat - 1) 0 (bytesCompared s.mf)
    (candidateLength s (s.mf.pos - 1#32) lenLimit w).toNat := by
  have hcand : (w.curMatch - 1#32).toNat = w.curMatch.toNat - 1 := BitVec.toNat_sub_of_le hlive.pos
  have hknown : (knownMatch w).toNat < lenLimit.toNat :=
    hlimit ▸ (knownMatch_le w false).trans_lt (hw.short false)
  have hstop := candidateLength_stopsAt s (s.mf.pos - 1#32) hknown
  rw [hs.pred_pos_toNat, hcand, hlimit] at hstop
  have hsame := (stringNumber_eq_iff s _ _ _).1 <| eq_of_beside fun k =>
    (hw.between k _ (.root hlive)).take (knownMatch_le w k)
  exact
    { ge := Nat.zero_le _
      le := hstop.le
      same := fun i _ hi => (lt_or_ge i (knownMatch w).toNat).elim (hsame i) fun hlo => hstop.same i hlo hi
      differ := hstop.differ }

theorem WalkOk.stringNumber_eq {n : Nat} (hn : n ≤ (candidateLength s (s.mf.pos - 1#32) lenLimit w).toNat) :
    stringNumber s n (w.curMatch.toNat - 1) = stringNumber s n (s.mf.pos.toNat - 1) :=
  (stringNumber_eq_iff s _ _ n).2 fun j hj =>
    (hw.stopsAt hs hlimit hlive).same j (Nat.zero_le j) (lt_of_lt_of_le hj hn)

theorem WalkOk.length_lt (hfull : ¬ MatchesInFull s (s.mf.pos - 1#32) lenLimit w) :
    (candidateLength s (s.mf.pos - 1#32) lenLimit w).toNat < bytesCompared s.mf := by
  refine lt_of_le_of_ne (hw.stopsAt hs hlimit hlive).le fun heq => ?_
  by_cases hext : candidateExtends s (s.mf.pos - 1#32) w = true
  · exact hfull ⟨hext, BitVec.eq_of_toNat_eq (heq.trans hlimit.symm)⟩
  · rw [candidateLength_eq, if_neg hext] at heq
    exact absurd heq ((knownMatch_le w false).trans_lt (hw.short false)).ne

/-- The walk goes on to the side of the candidate on which the new string lies. -/
theorem WalkOk.descends (hfull : ¬ MatchesInFull s (s.mf.pos - 1#32) lenLimit w) (emit : Bool) :
    ∃ k, Descends (candidateSlot s.mf w) (candidateLength s (s.mf.pos - 1#32) lenLimit w) k w
        (nextWalk s s.mf (s.mf.pos - 1#32) lenLimit emit w) ∧
      Beside k (tagString s s.mf.pos.toNat) (tagString s w.curMatch.toNat) := by
  have hstop := hw.stopsAt hs hlimit hlive
  have hlt := hw.length_lt hs hlimit hlive hfull
  have hcand : (w.curMatch - 1#32).toNat = w.curMatch.toNat - 1 := BitVec.toNat_sub_of_le hlive.pos
  refine ⟨_, nextWalk_descends .., ?_⟩
  rw [hs.pred_pos_toNat, hcand]
  by_cases h : byteNumber s (w.curMatch.toNat - 1) (candidateLength s (s.mf.pos - 1#32) lenLimit w).toNat <
      byteNumber s (s.mf.pos.toNat - 1) (candidateLength s (s.mf.pos - 1#32) lenLimit w).toNat
  · rw [decide_eq_true h]
    exact (stringNumber_lt hlt (fun j => hstop.same j (Nat.zero_le j)) h).le
  · rw [decide_eq_false h]
    exact (stringNumber_lt hlt (fun j hj => (hstop.same j (Nat.zero_le j) hj).symm)
      (lt_of_le_of_ne (Nat.not_lt.1 h) (hstop.differ hlt).symm)).le

variable {k : Bool} (hr : Ordered s r)
  (hd : Descends (candidateSlot s.mf w) (candidateLength s (s.mf.pos - 1#32) lenLimit w) k w v)

omit hs hlimit hlive in
include hd in
/-- The one cell of `son` that a turn writes. -/
theorem WalkOk.get_son (i : Nat) : Store.get 0#32 v.son i =
    if i = pendingSlot w k then w.curMatch else Store.get 0#32 w.son i := by
  rw [hd.son, Store.get_set hw.canonical]

omit hlimit in
include hd in
theorem WalkOk.curMatch_next : v.curMatch.toNat = childOf s.mf w.curMatch.toNat k.toNat := by
  rw [hd.curMatch, hs.childSlot_toNat hlive, hw.get_son hd, if_neg (hw.pending k _ k hlive (le_refl _)),
    hw.fresh _ _ hlive (le_refl _), childOf_eq]

include hr hd in
/-- A turn keeps what is known: the candidate has become the string met last on its side. -/
theorem WalkOk.next (hfull : ¬ MatchesInFull s (s.mf.pos - 1#32) lenLimit w) : WalkOk s r v := by
  have hunder := hw.below.under hlive
  obtain ⟨hlt, hside⟩ := hr _ k hunder
  have hchild := hr.below hunder k
  have hcur := hw.curMatch_next hs hlive hd
  have hlen := hw.length_lt hs hlimit hlive hfull
  obtain ⟨hslot, hknown⟩ := hd.taken
  obtain ⟨hslot', hknown'⟩ := hd.other
  rw [hs.childSlot_toNat hlive] at hslot
  have hpending : ∀ j t i, Live s.mf t → t < w.curMatch.toNat → tagSlot s.mf t i ≠ pendingSlot v j := by
    intro j t i ht htw
    refine forall_side (p := fun j => tagSlot s.mf t i ≠ pendingSlot v j) k ?_ ?_ j
    · rw [hslot]
      exact fun heq => htw.ne (tagSlot_inj ht.inRing hlive.inRing heq).1
    · rw [hslot']
      exact hw.pending _ _ _ ht htw.le
  have hdistinct : pendingSlot v k ≠ pendingSlot v (!k) := by
    rw [hslot, hslot']
    exact hw.pending _ _ _ hlive (le_refl _)
  refine ⟨hd.son ▸ Store.wf_set hw.canonical, hcur ▸ hchild.trans hw.below, fun t i ht htv => ?_,
    fun j t i ht htv => ?_, forall_side k hdistinct ?_, forall_side k ?_ ?_,
    forall_side k (fun u hu => ?_) fun u hu => ?_⟩
  · have htw : t < w.curMatch.toNat := lt_of_le_of_lt (hcur ▸ htv) hlt
    rw [hw.get_son hd, if_neg (hw.pending k t i ht htw.le), hw.fresh t i ht htw.le]
  · exact hpending j t i ht (lt_of_le_of_lt (hcur ▸ htv) hlt)
  · rw [Bool.not_not]
    exact hdistinct.symm
  · rw [hknown]
    exact hlen
  · rw [hknown']
    exact hw.short _
  · rw [hknown]
    rw [hcur] at hu
    exact ((hside u hu).take hlen.le).trans (.of_eq (hw.stringNumber_eq hs hlimit hlive (le_refl _)) k)
  · rw [hknown']
    rw [hcur] at hu
    exact hw.between _ u (hchild.sub u hu)

end

end Sys2Proof
end

section
/-! The walk splits its tree (44_match_finder R191): the new root's children hold the strings on either side, and
every other subtree has only lost tags. -/

namespace Sys2Proof

open Machine

section

variable {s : State} {m' : MatchFinder} {r x : Nat} {w : Walk}

/-- `m'` is a match finder after `m`: one byte on, with the same ring. -/
structure MovedOn (m m' : MatchFinder) : Prop where
  pos : m'.pos.toNat = m.pos.toNat + 1
  size : m'.cyclicBufferSize = m.cyclicBufferSize

theorem MovedOn.live {m : MatchFinder} {t : Nat} (hf : MovedOn m m') (h : Live m' t) (ht : t < m.pos.toNat) :
    Live m t := by
  obtain ⟨hlo, -⟩ := h
  rw [hf.pos, hf.size] at hlo
  exact ⟨by omega, ht⟩

theorem MovedOn.childOf {m : MatchFinder} (hf : MovedOn m m') (t : Nat) (k : Bool) :
    childOf m' t k.toNat = (Store.get 0#32 m'.son (tagSlot m t k)).toNat := by
  rw [childOf_eq, tagSlot, hf.size, ← tagSlot]

theorem side_eq_toNat {side : Nat} (h : side < 2) : ∃ k : Bool, side = k.toNat := by
  obtain rfl | rfl : side = 0 ∨ side = 1 := by omega
  · exact ⟨false, rfl⟩
  · exact ⟨true, rfl⟩

theorem Ordered.of_below {a : Nat} (hr : Ordered s r) (ha : Below s.mf a r) : Ordered s a :=
  fun t k ht => hr t k (ha.sub t ht)

/-- The root is the newest tag of its tree. -/
theorem Ordered.le {t u : Nat} (hr : Ordered s t) (h : Under s.mf t u) : u ≤ t := by
  induction h with
  | root _ => exact le_refl _
  | @child t u side hside hlive _ ih =>
    obtain ⟨k, rfl⟩ := side_eq_toNat hside
    have hchild := hr.below (.root hlive) k
    exact (ih (hr.of_below hchild)).trans hchild.le

theorem Ordered.below_root {t : Nat} (hr : Ordered s r) (ht : Under s.mf r t) : Below s.mf t r :=
  ⟨hr.le ht, fun _ hu => ht.trans hu⟩

/-- A tag of the tree at `x` has in `m'` a part of each of its subtrees. -/
def Pruned (m m' : MatchFinder) (x : Nat) : Prop :=
  ∀ (t : Nat) (k : Bool), Under m x t → Below m (childOf m' t k.toNat) (childOf m t k.toNat)

/-- Where the subtrees have only lost tags, so has every tree. -/
theorem under_of_pruned (hf : MovedOn s.mf m') (hr : Ordered s x) (hx : x < s.mf.pos.toNat)
    (hpruned : Pruned s.mf m' x) {a u : Nat} (ha : Below s.mf a x) (h : Under m' a u) : Under s.mf a u := by
  induction h with
  | root hlive => exact .root (hf.live hlive (lt_of_le_of_lt ha.le hx))
  | @child t u side hside hlive _ ih =>
    have ht := hf.live hlive (lt_of_le_of_lt ha.le hx)
    obtain ⟨k, rfl⟩ := side_eq_toNat hside
    have hchild := hpruned t k (ha.under ht)
    have hu := ih (hchild.trans ((hr.below (ha.under ht) k).trans ha))
    exact under_iff.2 ⟨ht, .inr ⟨k, hchild.sub u hu⟩⟩

/-- What the rest of a walk from `w` makes of the tree at its candidate, `m'` being the match finder at the end:
it writes the pending slots and slots of the tree; the tree's own subtrees only lose tags; and the trees put into
the pending slots are parts of it with the strings on their side. -/
structure Walked (s : State) (m' : MatchFinder) (w : Walk) : Prop where
  kept : ∀ i, (∀ k, i ≠ pendingSlot w k) → (∀ t k, Under s.mf w.curMatch.toNat t → i ≠ tagSlot s.mf t k) →
    Store.get 0#32 m'.son i = Store.get 0#32 w.son i
  pruned : Pruned s.mf m' w.curMatch.toNat
  parts : ∀ k, Below s.mf (Store.get 0#32 m'.son (pendingSlot w (!k))).toNat w.curMatch.toNat
  sides : ∀ k u, Under m' (Store.get 0#32 m'.son (pendingSlot w (!k))).toNat u →
    Beside k (tagString s u) (tagString s s.mf.pos.toNat)

variable (hf : MovedOn s.mf m') (hr : Ordered s r) (hrp : r < s.mf.pos.toNat) (hw : WalkOk s r w)

include hf hr hrp hw

theorem WalkOk.under_of_pruned (hpruned : Pruned s.mf m' w.curMatch.toNat) {a u : Nat}
    (ha : Below s.mf a w.curMatch.toNat) (h : Under m' a u) : Under s.mf a u :=
  Sys2Proof.under_of_pruned hf (hr.of_below hw.below) (lt_of_le_of_lt hw.below.le hrp) hpruned ha h

/-- A walk that ends by writing the two pending slots. -/
theorem walked_of_ends (v : Bool → U32) (hv : ∀ k, Store.get 0#32 m'.son (pendingSlot w (!k)) = v k)
    (hkept : ∀ i, (∀ k, i ≠ pendingSlot w k) → Store.get 0#32 m'.son i = Store.get 0#32 w.son i)
    (hparts : ∀ k, Below s.mf (v k).toNat w.curMatch.toNat)
    (hsides : ∀ k u, Under s.mf (v k).toNat u → Beside k (tagString s u) (tagString s s.mf.pos.toNat)) : Walked s m' w := by
  have hpruned : Pruned s.mf m' w.curMatch.toNat := by
    intro t k ht
    have hle : t ≤ w.curMatch.toNat := (hr.of_below hw.below).le ht
    rw [hf.childOf, hkept _ fun j => hw.pending j t k ht.live hle, hw.fresh t k ht.live hle, ← childOf_eq]
    exact .refl _ _
  refine ⟨fun i hi _ => hkept i hi, hpruned, fun k => hv k ▸ hparts k, fun k u hu => ?_⟩
  rw [hv] at hu
  exact hsides k u (hw.under_of_pruned hf hr hrp hpruned (hparts k) hu)

/-- The walk ends with no candidate left. -/
theorem walked_close (hend : (closeWalk w).son = m'.son) : Walked s m' w := by
  have hget (i : Nat) : Store.get 0#32 m'.son i =
      if i = pendingSlot w true then 0#32 else if i = pendingSlot w false then 0#32
      else Store.get 0#32 w.son i := by
    rw [← hend, closeWalk, sonSet, sonSet, Store.get_set (Store.wf_set hw.canonical), Store.get_set hw.canonical]
    rfl
  refine walked_of_ends hf hr hrp hw (fun _ => 0#32) (fun k => ?_) (fun i hi => ?_) (fun _ => .zero _ _)
    fun _ u hu => absurd hu.live_root not_live_zero
  · rw [hget]
    cases k with
    | false => rw [Bool.not_false, if_pos rfl]
    | true => rw [Bool.not_true, if_pos rfl, ite_self]
  · rw [hget, if_neg (hi true), if_neg (hi false)]

variable (hs : FinderInv s) {lenLimit : U32} (hlimit : lenLimit.toNat = bytesCompared s.mf)
  (hlive : Live s.mf w.curMatch.toNat)

include hs hlimit hlive

/-- The walk ends at a candidate that matches in full, whose children the new root takes. -/
theorem walked_full {w' : Walk} (hfull : MatchesInFull s (s.mf.pos - 1#32) lenLimit w) (hson : w'.son = w.son)
    (hpend : ∀ k, pendingSlot w' k = pendingSlot w k)
    (hend : (splice (candidateSlot s.mf w) w').son = m'.son) : Walked s m' w := by
  have hunder := hw.below.under hlive
  obtain ⟨-, hlen⟩ := hfull
  have hslot : (candidateSlot s.mf w).toNat = tagSlot s.mf w.curMatch.toNat false :=
    hs.childSlot_toNat hlive false
  have hslot' : (candidateSlot s.mf w + 1#32).toNat = tagSlot s.mf w.curMatch.toNat true :=
    hs.childSlot_toNat hlive true
  have hne : pendingSlot w true ≠ pendingSlot w false := hw.distinct true
  have hfree (j k : Bool) := hw.pending j _ k hlive (le_refl _)
  have hget (i : Nat) : Store.get 0#32 m'.son i =
      if i = pendingSlot w false then Store.get 0#32 s.mf.son (tagSlot s.mf w.curMatch.toNat true)
      else if i = pendingSlot w true then Store.get 0#32 s.mf.son (tagSlot s.mf w.curMatch.toNat false)
      else Store.get 0#32 w.son i := by
    have htrue : w'.ptr1.toNat = pendingSlot w true := hpend true
    have hfalse : w'.ptr0.toNat = pendingSlot w false := hpend false
    rw [← hend, splice]
    simp only [sonSet, sonGet, hson, htrue, hfalse, hslot, hslot', Store.get_set (Store.wf_set hw.canonical),
      Store.get_set hw.canonical, if_neg (hfree _ _), hw.fresh _ _ hlive (le_refl _)]
  have hequal : tagString s w.curMatch.toNat = tagString s s.mf.pos.toNat :=
    hw.stringNumber_eq hs hlimit hlive (by rw [hlen, hlimit])
  refine walked_of_ends hf hr hrp hw (fun k => Store.get 0#32 s.mf.son (tagSlot s.mf w.curMatch.toNat k))
    (fun k => ?_) (fun i hi => ?_) (fun k => hr.below hunder k) fun k u hu => ?_
  · rw [hget]
    cases k with
    | false => rw [Bool.not_false, if_neg hne, if_pos rfl]
    | true => rw [Bool.not_true, if_pos rfl]
  · rw [hget, if_neg (hi false), if_neg (hi true)]
  · rw [← hequal]
    exact (hr _ k hunder).2 u hu

omit hlimit in
/-- A turn of the walk, from what the rest of the walk does. -/
theorem walked_next {v : Walk} {k : Bool}
    (hd : Descends (candidateSlot s.mf w) (candidateLength s (s.mf.pos - 1#32) lenLimit w) k w v)
    (hside : Beside k (tagString s s.mf.pos.toNat)
      (tagString s w.curMatch.toNat)) (h : Walked s m' v) : Walked s m' w := by
  have hunder := hw.below.under hlive
  have hord := hr.of_below hw.below
  obtain ⟨hslot, -⟩ := hd.taken
  obtain ⟨hslot', -⟩ := hd.other
  rw [hs.childSlot_toNat hlive] at hslot
  have hcur := hw.curMatch_next hs hlive hd
  have hchild := hord.below (.root hlive) k
  obtain ⟨hkept, hpruned, hparts, hsides⟩ := h
  rw [hcur] at hkept hpruned hparts
  -- the cells that the rest of the walk leaves as they are after this turn
  have hfar (i : Nat) (htaken : i ≠ tagSlot s.mf w.curMatch.toNat k) (hother : i ≠ pendingSlot w (!k))
      (htree : ∀ t j, Under s.mf (childOf s.mf w.curMatch.toNat k.toNat) t → i ≠ tagSlot s.mf t j) :
      Store.get 0#32 m'.son i = if i = pendingSlot w k then w.curMatch else Store.get 0#32 w.son i := by
    rw [hkept i (forall_side k (hslot ▸ htaken) (hslot' ▸ hother)) htree, hw.get_son hd]
  have hput : Store.get 0#32 m'.son (pendingSlot w k) = w.curMatch := by
    rw [hfar _ (hw.pending k _ k hlive (le_refl _)).symm (hw.distinct k) fun t j ht =>
      (hw.pending k t j ht.live (hord.le (hchild.sub t ht))).symm, if_pos rfl]
  have hpruned' : Pruned s.mf m' w.curMatch.toNat := by
    intro t j ht
    by_cases htree : Under s.mf (childOf s.mf w.curMatch.toNat k.toNat) t
    · exact hpruned t j htree
    · by_cases htaken : t = w.curMatch.toNat ∧ j = k
      · obtain ⟨rfl, rfl⟩ := htaken
        have hpart := hparts (!j)
        rw [Bool.not_not, hslot, ← hf.childOf] at hpart
        exact hpart
      · have hle := hord.le ht
        rw [hf.childOf, hfar, if_neg (hw.pending _ _ _ ht.live hle), hw.fresh t j ht.live hle, ← childOf_eq]
        · exact .refl _ _
        · exact fun heq => htaken (tagSlot_inj ht.live.inRing hlive.inRing heq)
        · exact hw.pending _ _ _ ht.live hle
        · exact fun u i hu heq => htree ((tagSlot_inj ht.live.inRing hu.live.inRing heq).1 ▸ hu)
  have hnew : ∀ u, Under m' w.curMatch.toNat u →
      Beside (!k) (tagString s u) (tagString s s.mf.pos.toNat) := by
    intro u hu
    obtain ⟨-, rfl | ⟨j, hu⟩⟩ := under_iff.1 hu
    · exact hside.flip
    · revert hu
      refine forall_side (p := fun j => Under m' (childOf m' w.curMatch.toNat j.toNat) u → _) k (fun hu => ?_)
        (fun hu => ?_) j
      · rw [hf.childOf, ← hslot] at hu
        exact hsides (!k) u (by rwa [Bool.not_not])
      · have hpart := hpruned' _ (!k) (.root hlive)
        have hold := hw.under_of_pruned hf hr hrp hpruned' (hpart.trans (hord.below (.root hlive) _)) hu
        exact ((hr _ (!k) hunder).2 u (hpart.sub u hold)).trans hside.flip
  refine ⟨fun i hi hit => ?_, hpruned', ?_, ?_⟩
  · rw [hfar i (hit _ k (.root hlive)) (hi _) fun t j ht => hit t j (hchild.sub t ht), if_neg (hi k)]
  · refine forall_side k ?_ ?_
    · have hpart := hparts k
      rw [hslot'] at hpart
      exact hpart.trans hchild
    · rw [Bool.not_not, hput]
      exact .refl _ _
  · refine forall_side k ?_ ?_
    · have hs' := hsides k
      rwa [hslot'] at hs'
    · rw [Bool.not_not, hput]
      exact hnew

end

end Sys2Proof
end

section
/-! GET_MATCHES in a match finder of an ENCODE session (44_match_finder R190 to R192): its walk starts well, and
its candidates are matches in IN. -/

namespace Sys2Proof

open Machine

section

variable {s : State} (hs : FinderInv s) {lenLimit : U32} {d : List U32} {x : U32} {w : Walk}

/-! ### Where a byte is inserted -/

/-- `minMatchCheck` bytes are left. -/
def Room (s : State) : Prop := s.mf.pos.toNat + s.encCfg.mfKind.minMatchCheck.toNat ≤ s.mf.streamPos.toNat

/-- The bucket of the byte at `pos`. -/
def bucketHere (s : State) : Nat := bucketOf s (s.mf.pos.toNat - 1)

theorem directBytes_lt_minMatchCheck (k : MfKind) : k.directBytes.toNat < k.minMatchCheck.toNat := by
  cases k <;> decide

include hs

/-- R190's `lenLimit`. -/
theorem FinderInv.lenLimit_toNat (h : mfLenLimit s s.mf = some lenLimit) :
    lenLimit.toNat = bytesCompared s.mf ∧ Room s := by
  obtain ⟨-, hstream, -⟩ := hs.positions
  obtain ⟨hcheck, -, -⟩ := hs.limits
  have hleft : (s.mf.streamPos - s.mf.pos).toNat = s.mf.streamPos.toNat - s.mf.pos.toNat :=
    BitVec.toNat_sub_of_le hstream
  rw [bytesCompared, Room]
  obtain ⟨h', hroom⟩ | ⟨h', hend, henough⟩ | ⟨h', -, -⟩ := mfLenLimit_cases s s.mf
  · obtain rfl := Option.some.inj (h.symm.trans h')
    omega
  · obtain rfl := Option.some.inj (h.symm.trans h')
    rw [BitVec.le_def, hleft] at henough
    omega
  · exact absurd (h.symm.trans h') nofun

theorem FinderInv.minMatchCheck_le (hroom : Room s) :
    s.encCfg.mfKind.minMatchCheck.toNat ≤ bytesCompared s.mf := by
  obtain ⟨hcheck, -, -⟩ := hs.limits
  rw [Room] at hroom
  rw [bytesCompared]
  omega

theorem FinderInv.hashesHere_hv : (hashesHere s s.mf).hv.toNat = bucketHere s := by
  rw [hashesHere, mfHash_hv, hs.pred_pos_toNat, bucketHere]

theorem FinderInv.rootHere_toNat : (rootHere s s.mf).toNat = rootOf s (bucketHere s) := by
  rw [rootHere, bucketIndex, hs.hashesHere_hv, rootOf]

theorem FinderInv.root_lt (h : Nat) : rootOf s h < s.mf.pos.toNat := hs.heads _

/-! ### The walk's start -/

/-- The walk starts with the two slots of `pos`. -/
theorem FinderInv.pendingSlot_walkStart (k : Bool) :
    pendingSlot (walkStart s s.mf (rootHere s s.mf) d x) k = tagSlot s.mf s.mf.pos.toNat (!k) := by
  obtain ⟨hdict, hsize, hbound, hplace⟩ := hs.window
  have hlt := Nat.mod_lt (s.mf.pos.toNat - 1) (by omega : 0 < s.mf.cyclicBufferSize.toNat)
  have hdouble : (2#32 * s.mf.cyclicBufferPos).toNat =
      2 * ((s.mf.pos.toNat - 1) % s.mf.cyclicBufferSize.toNat) := by
    rw [BitVec.toNat_mul, hplace, show (2#32).toNat = 2 from rfl]
    omega
  cases k with
  | false =>
    show (2#32 * s.mf.cyclicBufferPos + 1#32).toNat = _
    rw [succ_toNat (by omega), hdouble]
    rfl
  | true => exact hdouble

theorem FinderInv.curMatch_walkStart : (walkStart s s.mf (rootHere s s.mf) d x).curMatch.toNat =
    rootOf s (bucketHere s) := hs.rootHere_toNat

/-- BT2's bucket holds the two bytes, so every string in it agrees so far (R184). -/
theorem FinderInv.directBytes_agree {u : Nat} (hu : Under s.mf (rootOf s (bucketHere s)) u) :
    stringNumber s s.encCfg.mfKind.directBytes.toNat (u - 1) =
      stringNumber s s.encCfg.mfKind.directBytes.toNat (s.mf.pos.toNat - 1) := by
  obtain ⟨hbucket, -⟩ := hs.buckets _ u hu
  cases hkind : s.encCfg.mfKind with
  | bt4 => rfl
  | bt2 =>
    have h0 := byteNumber_lt s (u - 1) 0
    have h0' := byteNumber_lt s (s.mf.pos.toNat - 1) 0
    simp only [bucketHere, bucketOf, hkind] at hbucket
    refine (stringNumber_eq_iff s _ _ 2).2 fun j hj => ?_
    obtain rfl | rfl : j = 0 ∨ j = 1 := by omega
    · omega
    · omega

/-- The walk starts with the whole tree of the bucket below it, and nothing written. -/
theorem FinderInv.walkStart_ok (hroom : Room s) :
    WalkOk s (rootOf s (bucketHere s)) (walkStart s s.mf (rootHere s s.mf) d x) := by
  have hroot := hs.curMatch_walkStart (d := d) (x := x)
  have hknown (k : Bool) : knownLen (walkStart s s.mf (rootHere s s.mf) d x) k =
      s.encCfg.mfKind.directBytes.toNat := by
    cases k <;> rfl
  have hslot (k : Bool) := hs.pendingSlot_walkStart (d := d) (x := x) k
  obtain ⟨-, hson⟩ := hs.canonical
  refine ⟨hson, hroot ▸ .refl _ _, fun _ _ _ _ => rfl, fun j t k ht _ heq => ?_, fun k heq => ?_, fun k => ?_,
    fun k u hu => ?_⟩
  · rw [hslot] at heq
    exact absurd (tagSlot_inj ht.inRing hs.pos_inRing heq).1 ht.2.ne
  · rw [hslot, hslot] at heq
    obtain ⟨-, hk⟩ := tagSlot_inj hs.pos_inRing hs.pos_inRing heq
    exact absurd hk (Bool.not_ne_self _).symm
  · rw [hknown]
    exact (directBytes_lt_minMatchCheck _).trans_le (hs.minMatchCheck_le hroom)
  · rw [hknown]
    exact .of_eq (hs.directBytes_agree (hroot ▸ hu)) k

/-! ### The walk's course -/

variable {r : Nat} (hr : Ordered s r) (hrp : r < s.mf.pos.toNat) (hlimit : lenLimit.toNat = bytesCompared s.mf)

include hr hrp hlimit

theorem FinderInv.nextWalk_ok (emit : Bool) (w : Walk) (hw : WalkOk s r w)
    (hlive : ¬ w.curMatch ≤ matchMinPos s.mf) (hfull : ¬ MatchesInFull s (s.mf.pos - 1#32) lenLimit w) :
    WalkOk s r (nextWalk s s.mf (s.mf.pos - 1#32) lenLimit emit w) := by
  have hlive := (live_iff (lt_of_le_of_lt hw.below.le hrp)).1 hlive
  obtain ⟨k, hd, -⟩ := hw.descends hs hlimit hlive hfull emit
  exact hw.next hs hlimit hlive hr hd hfull

/-- The whole walk splits the tree it starts from. -/
theorem FinderInv.walkLoop_walked {m' : MatchFinder} (hf : MovedOn s.mf m') (emit : Bool) (n : Nat) (w : Walk) :
    WalkOk s r w → (walkLoop s s.mf (s.mf.pos - 1#32) lenLimit emit n w).son = m'.son → Walked s m' w := by
  refine walkLoop_induct (P := fun _ w v => WalkOk s r w → v.son = m'.son → Walked s m' w) ?_ ?_ ?_ n w
  · exact fun _ _ _ hw hend => walked_close hf hr hrp hw hend
  · intro _ w hlive hfull hw hend
    have hlive := (live_iff (lt_of_le_of_lt hw.below.le hrp)).1 hlive
    refine walked_full hf hr hrp hw hs hlimit hlive hfull ?_ ?_ hend
    · rw [compared_frame]
    · intro k
      rw [compared_frame]
      cases k <;> rfl
  · intro _ w _ hlive hfull ih hw hend
    have hnext := hs.nextWalk_ok hr hrp hlimit emit w hw hlive hfull
    have hlive := (live_iff (lt_of_le_of_lt hw.below.le hrp)).1 hlive
    obtain ⟨k, hd, hside⟩ := hw.descends hs hlimit hlive hfull emit
    exact walked_next hf hr hrp hw hs hlive hd hside (ih hnext hend)

end

/-! ### Real matches (R192) -/

section

variable {s : State} (hs : FinderInv s) {lenLimit : U32}

/-- The pair `x` names a match of the bytes at `pos`, inside the dictionary (R192). -/
structure RealPair (s : State) (x : U32 × U32) : Prop where
  le : x.1.toNat ≤ bytesCompared s.mf
  near : x.2.toNat < min s.codec.dictSize.toNat (s.mf.pos.toNat - 1)
  agree : ∀ j < x.1.toNat,
    byteNumber s (s.mf.pos.toNat - 1) j = byteNumber s (s.mf.pos.toNat - 1 - (x.2.toNat + 1)) j

include hs

theorem FinderInv.realPair {t n : U32} (hlive : Live s.mf t.toNat) (hn : n.toNat ≤ bytesCompared s.mf)
    (hsame : ∀ j < n.toNat, byteNumber s (t.toNat - 1) j = byteNumber s (s.mf.pos.toNat - 1) j) :
    RealPair s (pairAt s.mf n t) := by
  obtain ⟨ht0, -, htc⟩ := hlive.inRing
  obtain ⟨-, htp⟩ := hlive
  obtain ⟨hdict, hsize, -, -⟩ := hs.window
  have hdelta : (s.mf.pos - t).toNat = s.mf.pos.toNat - t.toNat :=
    BitVec.toNat_sub_of_le (by rw [BitVec.le_def]; omega)
  have hdist : (s.mf.pos - t - 1#32).toNat = s.mf.pos.toNat - t.toNat - 1 := by
    rw [BitVec.toNat_sub_of_le (by rw [BitVec.le_def, hdelta]; show 1 ≤ _; omega), hdelta]
    rfl
  refine ⟨hn, ?_, fun j hj => ?_⟩
  · show (s.mf.pos - t - 1#32).toNat < _
    omega
  · show _ = byteNumber s (_ - ((s.mf.pos - t - 1#32).toNat + 1)) j
    rw [hdist, ← hsame j hj]
    congr 1
    omega

theorem FinderInv.comparedPair {r : Nat} (hrp : r < s.mf.pos.toNat) (hlimit : lenLimit.toNat = bytesCompared s.mf)
    (w : Walk) (hw : WalkOk s r w) (hlive : ¬ w.curMatch ≤ matchMinPos s.mf) :
    RealPair s (candidateLength s (s.mf.pos - 1#32) lenLimit w, s.mf.pos - w.curMatch - 1#32) := by
  have hlive := (live_iff (lt_of_le_of_lt hw.below.le hrp)).1 hlive
  have hstop := hw.stopsAt hs hlimit hlive
  exact hs.realPair hlive hstop.le fun j => hstop.same j (Nat.zero_le j)

/-! ### The candidates before the walk (R190) -/

/-- A candidate that is near agrees in its first byte. -/
theorem FinderInv.near {t : U32} (ht : t.toNat < s.mf.pos.toNat) (h : Near s s.mf (s.mf.pos - 1#32) t) :
    Live s.mf t.toNat ∧ byteNumber s (t.toNat - 1) 0 = byteNumber s (s.mf.pos.toNat - 1) 0 := by
  obtain ⟨hmin, hbyte⟩ := h
  have hlive := (live_iff ht).1 (BitVec.not_le.2 hmin)
  have hplace : (t.toNat : Int) - 1 = ((t.toNat - 1 : Nat) : Int) := by
    have := hlive.pos
    omega
  rw [hplace, hs.pred_pos_toNat] at hbyte
  exact ⟨hlive, congrArg BitVec.toNat hbyte⟩

/-- BT4's candidate for `h2` matches 2 bytes. -/
theorem FinderInv.near_hash2 (hkind : s.encCfg.mfKind = .bt4)
    (h : Near s s.mf (s.mf.pos - 1#32) (hashGet s.mf (hash2Index (hashesHere s s.mf)))) :
    Live s.mf (hashGet s.mf (hash2Index (hashesHere s s.mf))).toNat ∧ ∀ j < 2,
      byteNumber s ((hashGet s.mf (hash2Index (hashesHere s s.mf))).toNat - 1) j =
        byteNumber s (s.mf.pos.toNat - 1) j := by
  obtain ⟨hlive, h0⟩ := hs.near (hs.heads _) h
  obtain ⟨hindex, -, -⟩ := mfHash_bt4 (s.mf.pos - 1#32) hkind
  rw [hs.pred_pos_toNat] at hindex
  have hlt : hash2Of s (s.mf.pos.toNat - 1) < 1024 := Nat.mod_lt _ (by decide)
  have hhash := (hs.short hkind _).1 (lt_of_eq_of_lt hindex hlt) hlive
  refine ⟨hlive, fun j hj => ?_⟩
  obtain rfl | rfl : j = 0 ∨ j = 1 := by omega
  · exact h0
  · exact second_byte_of_hash2 h0 (hhash.trans hindex)

/-- BT4's candidate for `h3` matches 3 bytes. -/
theorem FinderInv.near_hash3 (hkind : s.encCfg.mfKind = .bt4)
    (h : Near s s.mf (s.mf.pos - 1#32) (hashGet s.mf (hash3Index (hashesHere s s.mf)))) :
    Live s.mf (hashGet s.mf (hash3Index (hashesHere s s.mf))).toNat ∧ ∀ j < 3,
      byteNumber s ((hashGet s.mf (hash3Index (hashesHere s s.mf))).toNat - 1) j =
        byteNumber s (s.mf.pos.toNat - 1) j := by
  obtain ⟨hlive, h0⟩ := hs.near (hs.heads _) h
  obtain ⟨-, hindex, -⟩ := mfHash_bt4 (s.mf.pos - 1#32) hkind
  rw [hs.pred_pos_toNat] at hindex
  have hlt : hash3Of s (s.mf.pos.toNat - 1) < 65536 := Nat.mod_lt _ (by decide)
  have hhash := (hs.short hkind _).2 (lt_of_eq_of_lt hindex hlt) hlive
  obtain ⟨h1, h2⟩ := next_bytes_of_hash3 h0 (hhash.trans hindex)
  refine ⟨hlive, fun j hj => ?_⟩
  obtain rfl | rfl | rfl : j = 0 ∨ j = 1 ∨ j = 2 := by omega
  · exact h0
  · exact h1
  · exact h2

omit hs

/-- `d` holds real matches of rising lengths from 2 up to at most `y`. -/
structure Candidates (s : State) (d : List (U32 × U32)) (y : U32) : Prop where
  rising : Rising d
  pairs : ∀ p ∈ d, 2 ≤ p.1.toNat ∧ p.1.toNat ≤ y.toNat ∧ RealPair s p
  one_le : 1 ≤ y.toNat

theorem Candidates.nil (s : State) : Candidates s [] 1#32 := ⟨.nil, fun _ hp => (nomatch hp), le_refl 1⟩

theorem Candidates.singleton {n t : U32} (hn : 2 ≤ n.toNat) (h : RealPair s (pairAt s.mf n t)) :
    Candidates s [pairAt s.mf n t] n := by
  refine ⟨List.pairwise_singleton _ _, fun p hp => ?_, Nat.le_of_succ_le hn⟩
  rw [List.mem_singleton.1 hp]
  exact ⟨hn, le_refl _, h⟩

theorem Candidates.pair {t u : U32} (h2 : RealPair s (pairAt s.mf 2#32 t)) (h3 : RealPair s (pairAt s.mf 3#32 u)) :
    Candidates s [pairAt s.mf 2#32 t, pairAt s.mf 3#32 u] 3#32 := by
  refine ⟨List.pairwise_pair.2 (Nat.lt_succ_self 2), fun p hp => ?_, by decide⟩
  obtain rfl | hp := List.mem_cons.1 hp
  · exact ⟨le_refl 2, Nat.le_succ 2, h2⟩
  · rw [List.mem_singleton.1 hp]
    exact ⟨Nat.le_succ 2, le_refl 3, h3⟩

theorem Candidates.append {c d : List (U32 × U32)} {y : U32} (hc : Candidates s c y) (hd : Rising d)
    (hlonger : ∀ p ∈ d, y.toNat < p.1.toNat ∧ RealPair s p) : Rising (c ++ d) ∧
      ∀ p ∈ c ++ d, 2 ≤ p.1.toNat ∧ RealPair s p := by
  refine ⟨?_, fun p hp => ?_⟩
  · rw [Rising, List.map_append]
    refine List.pairwise_append.2 ⟨hc.rising, hd, fun a ha b hb => ?_⟩
    obtain ⟨p, hp, rfl⟩ := List.mem_map.1 ha
    obtain ⟨q, hq, rfl⟩ := List.mem_map.1 hb
    obtain ⟨-, hle, -⟩ := hc.pairs p hp
    exact lt_of_le_of_lt hle (hlonger q hq).1
  · obtain hp | hp := List.mem_append.1 hp
    · obtain ⟨htwo, -, hreal⟩ := hc.pairs p hp
      exact ⟨htwo, hreal⟩
    · obtain ⟨hlt, hreal⟩ := hlonger p hp
      exact ⟨lt_of_le_of_lt hc.one_le hlt, hreal⟩

/-- The walk's first candidate matches more than `y` bytes, so that it does not matter whether the walk starts
from `maxLen` `x` or `y`. -/
structure FirstLonger (s : State) (x y : U32) : Prop where
  kind : s.encCfg.mfKind = .bt4
  le : x.toNat ≤ y.toNat
  lt : y.toNat < bytesCompared s.mf
  live : Live s.mf (rootHere s s.mf).toNat
  same : ∀ j ≤ y.toNat, byteNumber s ((rootHere s s.mf).toNat - 1) j = byteNumber s (s.mf.pos.toNat - 1) j

include hs

/-- The candidates `c`, cells and `maxLen`, are real and shorter than those of the walk: where the longest was
taken away again, the walk's first candidate is that match. -/
def RealBeforeWalk (s : State) (c : List U32 × U32) : Prop :=
  ∃ d x y, c = (cellsOf d, x) ∧ Candidates s d y ∧ (x = y ∨ FirstLonger s x y)

theorem FinderInv.candidates_real_bt2 (hroom : Room s) (hkind : s.encCfg.mfKind = .bt2) :
    RealBeforeWalk s (directCandidates s s.mf (s.mf.pos - 1#32) (hashesHere s s.mf)) := by
  have htwo : 3 ≤ bytesCompared s.mf := by
    have hcheck := hs.minMatchCheck_le hroom
    rwa [hkind] at hcheck
  obtain ⟨d, x, hd, ⟨rfl, rfl⟩ | ⟨rfl, rfl, hmin⟩⟩ :=
    directCandidates_bt2 (m := s.mf) (s.mf.pos - 1#32) (hashesHere s s.mf) hkind
  · exact ⟨_, _, _, hd, .nil s, .inl rfl⟩
  · have hlive := (live_iff (hs.heads _)).1 (BitVec.not_le.2 hmin)
    have hagree := hs.directBytes_agree (u := (rootHere s s.mf).toNat) (hs.rootHere_toNat ▸ .root hlive)
    rw [hkind] at hagree
    have hreal := hs.realPair (n := 2#32) hlive (Nat.le_of_succ_le htwo) ((stringNumber_eq_iff s _ _ 2).1 hagree)
    exact ⟨_, _, _, hd, .singleton (le_refl 2) hreal, .inl rfl⟩

theorem FinderInv.candidates_real_bt4 (hroom : Room s) (hkind : s.encCfg.mfKind = .bt4) :
    RealBeforeWalk s (directCandidates s s.mf (s.mf.pos - 1#32) (hashesHere s s.mf)) := by
  have hfour : 4 ≤ bytesCompared s.mf := by
    have hcheck := hs.minMatchCheck_le hroom
    rwa [hkind] at hcheck
  have hreal2 h2 : RealPair s (pairAt s.mf 2#32 _) :=
    hs.realPair (hs.near_hash2 hkind h2).1 (Nat.le_trans (by decide) hfour) (hs.near_hash2 hkind h2).2
  have hreal3 h3 : RealPair s (pairAt s.mf 3#32 _) :=
    hs.realPair (hs.near_hash3 hkind h3).1 (Nat.le_trans (by decide) hfour) (hs.near_hash3 hkind h3).2
  rw [directCandidates_bt4 _ _ hkind]
  obtain ⟨d, x, hd, ⟨rfl, rfl⟩ | ⟨rfl, rfl, h2⟩ | ⟨rfl, rfl, h3⟩ | ⟨rfl, rfl, h2, h3⟩ |
      ⟨rfl, rfl, h2, h3, hroot⟩⟩ :=
    shortCandidates_cases s s.mf (s.mf.pos - 1#32) (hashGet s.mf (hash2Index (hashesHere s s.mf)))
      (hashGet s.mf (hash3Index (hashesHere s s.mf))) (rootHere s s.mf)
  · exact ⟨_, _, _, hd, .nil s, .inl rfl⟩
  · exact ⟨_, _, _, hd, .singleton (le_refl 2) (hreal2 h2), .inl rfl⟩
  · exact ⟨_, _, _, hd, .singleton (by decide) (hreal3 h3), .inl rfl⟩
  · exact ⟨_, _, _, hd, .pair (hreal2 h2) (hreal3 h3), .inl rfl⟩
  · obtain ⟨hlive, hsame⟩ := hs.near_hash3 hkind h3
    rw [hroot] at hlive hsame
    have hlonger : FirstLonger s 1#32 2#32 :=
      ⟨hkind, by decide, lt_of_lt_of_le (by decide) hfour, hlive, fun j hj => hsame j (Nat.lt_succ_of_le hj)⟩
    exact ⟨_, _, _, hd, .singleton (le_refl 2) (hreal2 h2), .inr hlonger⟩

theorem FinderInv.candidates_real (hroom : Room s) :
    RealBeforeWalk s (directCandidates s s.mf (s.mf.pos - 1#32) (hashesHere s s.mf)) := by
  cases hkind : s.encCfg.mfKind with
  | bt2 => exact hs.candidates_real_bt2 hroom hkind
  | bt4 => exact hs.candidates_real_bt4 hroom hkind

/-- The walk from either `maxLen` takes the first candidate. -/
theorem FinderInv.walkEnd_maxLen {d : List U32} {x y : U32} (hroom : Room s)
    (hlimit : lenLimit.toNat = bytesCompared s.mf) (h : FirstLonger s x y) :
    walkEnd s s.mf (rootHere s s.mf) lenLimit true d x = walkEnd s s.mf (rootHere s s.mf) lenLimit true d y := by
  have hw (x : U32) := hs.walkStart_ok (d := d) (x := x) hroom
  have hlive : Live s.mf (walkStart s s.mf (rootHere s s.mf) d x).curMatch.toNat := h.live
  have hnot : ¬ (walkStart s s.mf (rootHere s s.mf) d x).curMatch ≤ matchMinPos s.mf :=
    (live_iff (hs.rootHere_toNat ▸ hs.root_lt _)).2 hlive
  have hlen : y.toNat <
      (candidateLength s (s.mf.pos - 1#32) lenLimit (walkStart s s.mf (rootHere s s.mf) d x)).toNat := by
    have hstop := (hw x).stopsAt hs hlimit hlive
    by_contra hle
    exact hstop.differ (lt_of_le_of_lt (Nat.not_lt.1 hle) h.lt) (h.same _ (Nat.not_lt.1 hle))
  have hext : candidateExtends s (s.mf.pos - 1#32) (walkStart s s.mf (rootHere s s.mf) d x) = true := by
    have hroot : (rootHere s s.mf - 1#32).toNat = (rootHere s s.mf).toNat - 1 := BitVec.toNat_sub_of_le h.live.pos
    refine (candidateExtends_iff ..).2 ?_
    rw [knownMatch_walkStart, h.kind, hs.pred_pos_toNat]
    exact hroot ▸ h.same 0 (Nat.zero_le _)
  obtain ⟨n, hn⟩ : ∃ n, s.mf.cutValue.toNat = n + 1 := by
    obtain ⟨-, -, hcut⟩ := hs.limits
    exact Nat.exists_eq_succ_of_ne_zero (Nat.ne_of_gt hcut)
  rw [walkEnd, walkEnd, hn]
  refine (walkLoop_withMaxLen hnot y ?_ n).symm
  rw [compared_eq s s.mf _ _ _ (walkStart s s.mf (rootHere s s.mf) d x),
    if_pos ⟨hext, rfl, lt_of_le_of_lt h.le hlen⟩]
  exact (compared_eq ..).trans (if_pos ⟨hext, rfl, hlen⟩)

/-- What GET_MATCHES answers where it inserts a byte. -/
theorem FinderInv.walkHere_real (h : mfLenLimit s s.mf = some lenLimit) :
    ∃ d, (walkHere s s.mf lenLimit).d = cellsOf d ∧ RealMatches s d := by
  obtain ⟨hlimit, hroom⟩ := hs.lenLimit_toNat h
  obtain ⟨c, x, y, hc, hcand, hxy⟩ := hs.candidates_real hroom
  have hend : walkHere s s.mf lenLimit = walkEnd s s.mf (rootHere s s.mf) lenLimit true (cellsOf c) y := by
    simp only [walkHere, hc]
    obtain rfl | hlonger := hxy
    · rfl
    · exact hs.walkEnd_maxLen hroom hlimit hlonger
  have hr := hs.ordered (bucketHere s)
  have hrp := hs.root_lt (bucketHere s)
  obtain ⟨d, hd, -, -, hrising, hall⟩ := walkLoop_pairs (hs.nextWalk_ok hr hrp hlimit true)
    (fun w hw hlive _ => hs.comparedPair hrp hlimit w hw hlive) s.mf.cutValue.toNat
    (walkStart s s.mf (rootHere s s.mf) (cellsOf c) y) (hs.walkStart_ok hroom)
  obtain ⟨hrising', hall'⟩ := hcand.append hrising hall
  refine ⟨c ++ d, ?_, hrising', fun p hp => ?_, fun p hp => ?_, fun p hp => ?_⟩
  · rw [hend, cellsOf_append]
    exact hd
  · obtain ⟨htwo, hreal⟩ := hall' p hp
    exact ⟨htwo, hreal.le⟩
  · obtain ⟨-, hreal⟩ := hall' p hp
    exact hreal.near
  · obtain ⟨-, hreal⟩ := hall' p hp
    exact hreal.agree

end

end Sys2Proof
end

section
/-! The match finder's invariant (44_match_finder R180 to R182, R188, R190 to R194): one byte inserted or passed
over keeps `FinderInv`, and ENCODE's session start establishes it. -/

namespace Sys2Proof

open Machine

/-! ### The state with another match finder -/

section

variable {s : State} {m' : MatchFinder} {ret : Ret}

/-- `s` with the match finder `m'` and the answer `ret`. -/
def withFinder (s : State) (m' : MatchFinder) (ret : Ret) : State := { s with mf := m', ret := ret }

theorem stringNumber_withFinder : ∀ n i : Nat, stringNumber (withFinder s m' ret) n i = stringNumber s n i
  | 0, _ => rfl
  | n + 1, i => by
    rw [stringNumber, stringNumber, stringNumber_withFinder n (i + 1)]
    rfl

theorem tagString_withFinder (t : Nat) :
    tagString (withFinder s m' ret) t = stringNumber s (bytesCompared m') (t - 1) := stringNumber_withFinder _ _

theorem bucketOf_withFinder (h : m'.hashMask = s.mf.hashMask) (i : Nat) :
    bucketOf (withFinder s m' ret) i = bucketOf s i := by
  have h4 : hash4Of (withFinder s m' ret) i = hash4Of s i :=
    congrArg (fun x : U32 => (crcTriple s i ^^^ (32 * crcTable.getD (byteNumber s i 3) 0 % 2 ^ 32)) &&& x.toNat) h
  unfold bucketOf
  rw [h4]
  rfl

/-! ### One byte -/

/-- The byte at `pos` is the root of its bucket's tree in `m'`: the old tree is split between its children. -/
structure NewRoot (s : State) (m' : MatchFinder) : Prop where
  room : Room s
  parts : ∀ k : Bool, Below s.mf (childOf m' s.mf.pos.toNat k.toNat) (rootOf s (bucketHere s))
  sides : ∀ (k : Bool) (u : Nat), Under m' (childOf m' s.mf.pos.toNat k.toNat) u →
    Beside k (tagString s u) (tagString s s.mf.pos.toNat)

/-- `m'` is the match finder one byte on: a hash cell is as it was, or it is one of the byte's and holds `pos`; and
every old tree has only lost tags. -/
structure OneByteOn (s : State) (m' : MatchFinder) : Prop where
  frame : m' = { s.mf with
    son := m'.son, hash := m'.hash, pos := s.mf.pos + 1#32, cyclicBufferPos := (mfMovePos s.mf).cyclicBufferPos }
  canonical : FinderOk m'
  cells : ∀ i, hashGet m' i = hashGet s.mf i ∨
    (hashGet m' i = s.mf.pos ∧ i ∈ insertedCells s (s.mf.pos.toNat - 1) ∧ NewRoot s m')
  pruned : ∀ h, Pruned s.mf m' (rootOf s h)

theorem insertedCells_bucket {h i : Nat} (hi : s.encCfg.mfKind.kFix + h ∈ insertedCells s i) :
    h = bucketOf s i := by
  have h2 : hash2Of s i < 1024 := Nat.mod_lt _ (by decide)
  have h3 : hash3Of s i < 65536 := Nat.mod_lt _ (by decide)
  unfold insertedCells at hi
  cases hkind : s.encCfg.mfKind with
  | bt2 =>
    simp only [hkind, MfKind.kFix, List.mem_singleton] at hi
    omega
  | bt4 =>
    simp only [hkind, MfKind.kFix, List.mem_cons, List.not_mem_nil, or_false] at hi
    omega

theorem insertedCells_short {i j : Nat} (hkind : s.encCfg.mfKind = .bt4) (hi : j ∈ insertedCells s i) :
    (j < 1024 → hash2Of s i = j) ∧ ∀ l, j = 1024 + l → l < 65536 → hash3Of s i = l := by
  have h2 : hash2Of s i < 1024 := Nat.mod_lt _ (by decide)
  have h3 : hash3Of s i < 65536 := Nat.mod_lt _ (by decide)
  simp only [insertedCells, hkind, List.mem_cons, List.not_mem_nil, or_false] at hi
  exact ⟨fun _ => by omega, fun _ _ _ => by omega⟩

variable (hs : FinderInv s) (hlt : s.mf.pos.toNat < s.mf.streamPos.toNat) (h : OneByteOn s m')

theorem pos_succ_toNat (hlt : s.mf.pos.toNat < s.mf.streamPos.toNat) :
    (s.mf.pos + 1#32).toNat = s.mf.pos.toNat + 1 :=
  succ_toNat (lt_of_le_of_lt (Nat.succ_le_of_lt hlt) s.mf.streamPos.isLt)

/-- The ring's place goes on with `pos` (R187). -/
theorem FinderInv.place_mfMovePos (hs : FinderInv s) : (mfMovePos s.mf).cyclicBufferPos.toNat =
    s.mf.pos.toNat % s.mf.cyclicBufferSize.toNat := by
  obtain ⟨hpos, -, -⟩ := hs.positions
  obtain ⟨hdict, hsize, hbound, hplace⟩ := hs.window
  have hmod := Nat.mod_lt (s.mf.pos.toNat - 1) (by omega : 0 < s.mf.cyclicBufferSize.toNat)
  have hnext : (s.mf.cyclicBufferPos + 1#32).toNat = s.mf.cyclicBufferPos.toNat + 1 := succ_toNat (by omega)
  have hpred : s.mf.pos.toNat = s.mf.pos.toNat - 1 + 1 := by omega
  rw [mfMovePos_cyclicBufferPos]
  conv_rhs => rw [hpred, Nat.add_mod, ← hplace, Nat.mod_eq_of_lt (by omega : 1 < s.mf.cyclicBufferSize.toNat)]
  split
  · next hin =>
    rw [BitVec.lt_def, hnext] at hin
    rw [hnext, Nat.mod_eq_of_lt hin]
  · next hin =>
    rw [BitVec.lt_def, hnext] at hin
    rw [show s.mf.cyclicBufferPos.toNat + 1 = s.mf.cyclicBufferSize.toNat by omega, Nat.mod_self]
    rfl

include hlt h

theorem OneByteOn.movedOn : MovedOn s.mf m' := by
  rw [h.frame]
  exact ⟨pos_succ_toNat hlt, rfl⟩

theorem OneByteOn.bytesCompared_le : bytesCompared m' ≤ bytesCompared s.mf := by
  rw [h.frame]
  show min s.mf.matchMaxLen.toNat (s.mf.streamPos.toNat - (s.mf.pos + 1#32).toNat) ≤ _
  rw [pos_succ_toNat hlt, bytesCompared]
  omega

include hs

/-- A part of an old tree has in `m'` only tags it had. -/
theorem OneByteOn.under_old {b a u : Nat} (ha : Below s.mf a (rootOf s b)) (hu : Under m' a u) : Under s.mf a u :=
  under_of_pruned (h.movedOn hlt) (hs.ordered b) (hs.root_lt b) (h.pruned b) ha hu

/-- A tag under a root is an old one of that tree or the byte at `pos`. -/
theorem OneByteOn.under_root {b u : Nat} (hu : Under m' (rootOf (withFinder s m' ret) b) u) :
    Under s.mf (rootOf s b) u ∨ (u = s.mf.pos.toNat ∧ b = bucketHere s ∧ NewRoot s m') := by
  change Under m' (hashGet m' (s.encCfg.mfKind.kFix + b)).toNat u at hu
  obtain hold | ⟨hnew, hcell, hroot⟩ := h.cells (s.encCfg.mfKind.kFix + b)
  · rw [hold] at hu
    exact .inl (h.under_old hs hlt (.refl _ _) hu)
  · have hb : b = bucketHere s := insertedCells_bucket hcell
    rw [hnew] at hu
    obtain ⟨-, rfl | ⟨k, hu⟩⟩ := under_iff.1 hu
    · exact .inr ⟨rfl, hb, hroot⟩
    · have hpart := hroot.parts k
      rw [← hb] at hpart
      exact .inl (hpart.sub u (h.under_old hs hlt hpart hu))

/-- The trees stay ordered, also as fewer bytes are compared. -/
theorem OneByteOn.ordered (b : Nat) : Ordered (withFinder s m' ret) (rootOf (withFinder s m' ret) b) := by
  intro t k ht
  have hle := h.bytesCompared_le hlt
  simp only [tagString_withFinder]
  obtain hold | ⟨rfl, -, hroot⟩ := h.under_root hs hlt ht
  · obtain ⟨hchild, hside⟩ := hs.ordered b t k hold
    have hpart := h.pruned b t k hold
    have hroot := (hpart.trans ((hs.ordered b).below hold k)).trans ((hs.ordered b).below_root hold)
    exact ⟨lt_of_le_of_lt hpart.le hchild,
      fun u hu => (hside u (hpart.sub u (h.under_old hs hlt hroot hu))).take hle⟩
  · exact ⟨lt_of_le_of_lt (hroot.parts k).le (hs.root_lt _), fun u hu => (hroot.sides k u hu).take hle⟩

/-- One byte on, the invariant holds again. -/
theorem OneByteOn.finderInv : FinderInv (withFinder s m' ret) := by
  have hmoved := h.movedOn hlt
  have hpos' : m'.pos.toNat = s.mf.pos.toNat + 1 := hmoved.pos
  have hstream : m'.streamPos = s.mf.streamPos := by rw [h.frame]
  have hmask : m'.hashMask = s.mf.hashMask := by rw [h.frame]
  have hmax : m'.matchMaxLen = s.mf.matchMaxLen := by rw [h.frame]
  have hcut : m'.cutValue = s.mf.cutValue := by rw [h.frame]
  have hring : m'.cyclicBufferPos = (mfMovePos s.mf).cyclicBufferPos := by rw [h.frame]
  obtain ⟨hone, -, hinput⟩ := hs.positions
  obtain ⟨hdict, hsize, hbound, -⟩ := hs.window
  have hheads (i : Nat) : (hashGet m' i).toNat < m'.pos.toNat := by
    rw [hpos']
    obtain hold | ⟨hnew, -, -⟩ := h.cells i
    · rw [hold]
      exact Nat.lt_succ_of_lt (hs.heads i)
    · rw [hnew]
      exact Nat.lt_succ_self _
  exact
    { canonical := ⟨h.canonical.hash, h.canonical.son⟩
      input := hs.input
      positions := by
        show 1 ≤ m'.pos.toNat ∧ m'.pos.toNat ≤ m'.streamPos.toNat ∧ m'.streamPos.toNat = s.host.inLen.toNat + 1
        rw [hpos', hstream]
        omega
      window := by
        refine ⟨hdict, hmoved.size ▸ hsize, hmoved.size ▸ hbound, ?_⟩
        show m'.cyclicBufferPos.toNat = (m'.pos.toNat - 1) % m'.cyclicBufferSize.toNat
        rw [hmoved.size, hring, hs.place_mfMovePos, hpos', Nat.add_sub_cancel]
      limits := by
        obtain ⟨hcheck, hbytes, hcount⟩ := hs.limits
        exact ⟨hmax ▸ hcheck, hmax ▸ hbytes, hcut ▸ hcount⟩
      heads := hheads
      short := fun hkind i => by
        obtain ⟨hshort2, -⟩ := hs.short hkind i
        obtain ⟨-, hshort3⟩ := hs.short hkind i
        refine ⟨fun hi hl => ?_, fun hi hl => ?_⟩
        · change Live m' (hashGet m' i).toNat at hl
          show hash2Of s ((hashGet m' i).toNat - 1) = i
          obtain hold | ⟨hnew, hcell, -⟩ := h.cells i
          · rw [hold] at hl ⊢
            exact hshort2 hi (hmoved.live hl (hs.heads _))
          · rw [hnew]
            exact (insertedCells_short (s := s) hkind hcell).1 hi
        · change Live m' (hashGet m' (1024 + i)).toNat at hl
          show hash3Of s ((hashGet m' (1024 + i)).toNat - 1) = i
          obtain hold | ⟨hnew, hcell, -⟩ := h.cells (1024 + i)
          · rw [hold] at hl ⊢
            exact hshort3 hi (hmoved.live hl (hs.heads _))
          · rw [hnew]
            exact (insertedCells_short (s := s) hkind hcell).2 i rfl hi
      buckets := fun b t ht => by
        rw [bucketOf_withFinder hmask]
        show _ ∧ t + s.encCfg.mfKind.minMatchCheck.toNat ≤ m'.streamPos.toNat
        rw [hstream]
        obtain hold | ⟨rfl, hb, hroot⟩ := h.under_root hs hlt ht
        · exact hs.buckets b t hold
        · exact ⟨hb.symm, hroot.room⟩
      trees := fun b t ht => by
        have hord := h.ordered hs hlt (ret := ret) b
        obtain ⟨hlt0, hside0⟩ := hord t false ht
        obtain ⟨hlt1, hside1⟩ := hord t true ht
        exact ⟨hlt0, hlt1, hside0, hside1⟩ }

end

/-! ### The two courses of GET_MATCHES -/

section

variable {s : State} (hs : FinderInv s)

include hs

theorem FinderInv.finderOk : FinderOk s.mf := by
  obtain ⟨hhash, hson⟩ := hs.canonical
  exact ⟨hson, hhash⟩

/-- MOVE_POS passes over a byte. -/
theorem FinderInv.oneByteOn_mfMovePos : OneByteOn s (mfMovePos s.mf) where
  frame := rfl
  canonical := hs.finderOk.mfMovePos
  cells _ := .inl rfl
  pruned _ _ _ _ := .refl _ _

/-- The walk puts the byte at `pos` at the root of its bucket. -/
theorem FinderInv.oneByteOn_inserted (hlt : s.mf.pos.toNat < s.mf.streamPos.toNat) {lenLimit : U32}
    (h : mfLenLimit s s.mf = some lenLimit) : OneByteOn s (inserted s s.mf lenLimit) := by
  obtain ⟨hlimit, hroom⟩ := hs.lenLimit_toNat h
  have hmoved : MovedOn s.mf (inserted s s.mf lenLimit) := ⟨pos_succ_toNat hlt, rfl⟩
  obtain ⟨hkept, hpruned, hparts, hsides⟩ := hs.walkLoop_walked (hs.ordered (bucketHere s)) (hs.root_lt _) hlimit
    hmoved true s.mf.cutValue.toNat _ (hs.walkStart_ok hroom) rfl
  rw [hs.curMatch_walkStart] at hkept hpruned hparts
  have hnew : NewRoot s (inserted s s.mf lenLimit) := by
    refine ⟨hroom, fun k => ?_, fun k u hu => ?_⟩
    · have hpart := hparts k
      rw [hs.pendingSlot_walkStart, Bool.not_not, ← hmoved.childOf] at hpart
      exact hpart
    · have hside := hsides k u
      rw [hs.pendingSlot_walkStart, Bool.not_not, ← hmoved.childOf] at hside
      exact hside hu
  refine ⟨rfl, ?_, fun i => ?_, fun b t k ht => ?_⟩
  · have hok := hs.finderOk.mfGetMatches s
    rwa [mfGetMatches_of_some h] at hok
  · have hcell : hashGet (inserted s s.mf lenLimit) i = _ :=
      hashGet_hashInsert hs.finderOk.hash (s.mf.pos - 1#32) i
    rw [hs.pred_pos_toNat] at hcell
    rw [hcell]
    split
    · next hi => exact .inr ⟨rfl, hi, hnew⟩
    · exact .inl rfl
  · by_cases htree : Under s.mf (rootOf s (bucketHere s)) t
    · exact hpruned t k htree
    · have hsame := hkept (tagSlot s.mf t k) (fun j heq => ?_) fun u j hu heq =>
        htree ((tagSlot_inj ht.live.inRing hu.live.inRing heq).1 ▸ hu)
      · rw [hmoved.childOf, hsame]
        exact .refl _ _
      · rw [hs.pendingSlot_walkStart] at heq
        exact absurd (tagSlot_inj ht.live.inRing hs.pos_inRing heq).1 ht.live.2.ne

/-- GET_MATCHES answers real matches and goes one byte on. -/
theorem FinderInv.getMatches (hlt : s.mf.pos.toNat < s.mf.streamPos.toNat) :
    OneByteOn s (mfGetMatches s s.mf).1 ∧ ∃ d, (mfGetMatches s s.mf).2 = cellsOf d ∧ RealMatches s d := by
  cases h : mfLenLimit s s.mf with
  | none =>
    rw [mfGetMatches_of_none h]
    exact ⟨hs.oneByteOn_mfMovePos, [], rfl, .nil, fun _ hx => (nomatch hx), fun _ hx => (nomatch hx),
      fun _ hx => (nomatch hx)⟩
  | some lenLimit =>
    rw [mfGetMatches_of_some h]
    exact ⟨hs.oneByteOn_inserted hlt h, hs.walkHere_real h⟩

end

/-! ### The session's start -/

/-- The match finder that ENCODE's session start leaves has no tags yet. -/
theorem EncodeStarted.finderInv {row : LevelRow} {irqEn marker : Bool} {s t : State}
    (hrow : levelRow s.host.level = some row) (hlen : s.host.inLen.toNat ≤ s.maxInLen)
    (h : EncodeStarted row irqEn marker s t) (ht : FinderOk t.mf) : FinderInv t := by
  obtain ⟨hparams, -, hin, -, -, -⟩ := h.kept
  obtain ⟨hdict, -, hcfg⟩ := h.latched
  obtain ⟨⟨hpos, hstream, hplace⟩, hsize, ⟨hcut, hmax⟩, -, hhash⟩ := h.finder
  obtain ⟨⟨-, hdepth⟩, hfast, hfast'⟩ := levelRow_bounds hrow
  rw [BitVec.le_def] at hfast hfast'
  have hin' : t.maxInLen = s.maxInLen := by rw [State.maxInLen, hparams, State.maxInLen]
  have hpow := Nat.pow_le_pow_right (by decide : 0 < 2) hdepth
  have hone := Nat.two_pow_pos row.searchDepth
  have hzero (i : Nat) : (hashGet t.mf i).toNat = 0 := by rw [hhash]; rfl
  have hdead (i : Nat) : ¬ Live t.mf (hashGet t.mf i).toNat := by rw [hzero]; exact not_live_zero
  have hempty (b u : Nat) : ¬ Under t.mf (rootOf t b) u := fun hu => hdead _ hu.live_root
  have hend : t.mf.streamPos.toNat = s.host.inLen.toNat + 1 := by
    rw [hstream]
    refine succ_toNat ?_
    rw [State.maxInLen] at hlen
    omega
  have hcheck : t.encCfg.mfKind.minMatchCheck.toNat ≤ 4 := by cases t.encCfg.mfKind <;> decide
  exact
    { canonical := ⟨ht.hash, ht.son⟩
      input := by rwa [hin, hin']
      positions := by
        rw [hpos, hend, hin]
        exact ⟨le_refl 1, Nat.le_add_left 1 _, rfl⟩
      window := by
        rw [hdict, hsize, hplace, hpos]
        exact ⟨hone, rfl, by omega, (Nat.zero_mod _).symm⟩
      limits := by
        rw [hcut, hmax]
        have h64 : 64 ≤ row.fastBytes.toNat := hfast
        have h255 : row.fastBytes.toNat ≤ 255 := hfast'
        omega
      heads := fun i => by rw [hzero, hpos]; exact Nat.one_pos
      short := fun _ i => ⟨fun _ hl => absurd hl (hdead i), fun _ hl => absurd hl (hdead (1024 + i))⟩
      buckets := fun b u hu => absurd hu (hempty b u)
      trees := fun b u hu => absurd hu (hempty b u) }

/-- Settles O34: GET_MATCHES in any state, and the invariant's two ways one byte on. -/
theorem getMatchesFindsMatches : Obligations.GetMatchesFindsMatches := by
  refine ⟨getMatches_and_skip, fun n s _ hn => skip_succ n s hn, fun s hm hsome => ?_, fun s hs hlt => ?_, ?_⟩
  · exact ⟨_, exec_mfGetMatches s, getMatches_hash s hm hsome⟩
  · obtain ⟨hone, d, hd, hreal⟩ := hs.getMatches hlt
    refine ⟨d, _, exec_mfGetMatches s, exec_mfSkip_one s, congrArg Ret.cells hd, hreal, ?_, ?_⟩
    · exact OneByteOn.finderInv (s := s) hs hlt hone
    · exact OneByteOn.finderInv (s := s) hs hlt hone
  · intro row irqEn marker s hinv hbusy hrow hlen hroom
    obtain ⟨-, -, hstart⟩ := encodeChecksThenStartsTheSession
    obtain ⟨-, hstart, -⟩ := hstart irqEn marker s hbusy hinv.outCanonical
    obtain ⟨t, ht, hstarted⟩ := hstart row hrow hlen hroom
    exact ⟨t, ht, hstarted.finderInv hrow hlen (exec_inv _ hinv ht).inStage.base.finder⟩

end Sys2Proof
end

section
/-! The prices of the parser's tokens (45_optimal_parser R230 to R233): each is the sum along the decisions that
code the token, and the rows of the distance tables. -/

namespace Sys2Proof

open Machine

/-! ### Paths of a few decisions -/

theorem pathPrice_nil (s : State) : pathPrice s [] = 0#32 := rfl

/-- What names rep `i` costs (R231), the long and the short rep 0 (R230) among it. -/
theorem repLen1Price_eq (s : State) (st : U4) (ps : U32) :
    repLen1Price s st ps = pathPrice s (repNaming st.toNat ps.toNat 0 true) := by
  simp only [repLen1Price, repNaming, isRepG0Cell_eq, isRep0LongCell_eq, pathPrice_cons, pathPrice_nil,
    BitVec.add_zero, Bool.not_true]

theorem pureRepPrice_eq (s : State) (st : U4) (ps : U32) {i : Nat} (hi : i < 4) :
    pureRepPrice s i st ps = pathPrice s (repNaming st.toNat ps.toNat i false) := by
  match i, hi with
  | 0, _ | 1, _ | 2, _ | 3, _ =>
    simp [pureRepPrice, repNaming, isRepG0Cell_eq, isRepG1Cell_eq, isRepG2Cell_eq, isRep0LongCell_eq,
      pathPrice_cons, pathPrice_nil, BitVec.add_assoc]

/-! ### Literals, at any block -/

theorem literalPath_eq_blockSteps (c : U32) (sym : Byte) :
    literalPath c.toNat sym = treeSteps (blockTree c) (sym.setWidth 32) 8 1#32 := by
  rw [← treePath_eq_treeSteps (by rw [toNat_symbol]; exact sym.isLt), toNat_symbol, blockTree, block_index]
  rfl

theorem litPrice_eq_blockPrice (s : State) (c : U32) (matchMode : Bool) (m sym : Byte) :
    litPrice s c matchMode m sym =
      pathPrice s (if matchMode then matchedPath c.toNat m sym else literalPath c.toNat sym) := by
  cases matchMode
  · rw [if_neg Bool.false_ne_true, literalPath_eq_blockSteps]
    exact litPriceFrom_eq_pathPrice s c sym 8 _
  · rw [if_pos rfl, matchedPath_eq_matchedSteps]
    exact litPriceMatchedFrom_eq_pathPrice s c m sym 8 _

/-! ### Rows of the tables (46_codec R255) -/

theorem lenToPosStateOf_toNat {len : U32} (h : 2 ≤ len.toNat) :
    (lenToPosStateOf len).toNat = min (len.toNat - 2) 3 := by
  have hsub : (len - 2#32).toNat = len.toNat - 2 := BitVec.toNat_sub_of_le h
  unfold lenToPosStateOf
  split
  · next hlt =>
    rw [BitVec.lt_def, hsub] at hlt
    exact hsub.trans (Nat.min_eq_left (Nat.le_of_lt hlt)).symm
  · next hge =>
    rw [BitVec.lt_def, hsub] at hge
    exact (Nat.min_eq_right (Nat.le_of_not_lt hge)).symm

/-- The price of the distance `d` after a length of row `row` (R233). -/
def distanceCost (p : Prices) (row : Nat) (d : U32) : U32 :=
  if d.toNat < 128 then Store.get 0#32 p.distancesPrices (128 * row + d.toNat)
  else Store.get 0#32 p.posSlotPrices (64 * row + (posSlot2Of d).toNat) +
    Store.get 0#32 p.alignPrices (d.toNat % 16)

theorem posLenPrice_eq (s : State) (d ps : U32) {len : U32} (h : 2 ≤ len.toNat) :
    posLenPrice s d len ps = distanceCost s.prices (min (len.toNat - 2) 3) d +
      lenPriceAt s.prices.matchLen ps.toNat (len.toNat - 2) := by
  have hsub : (len - 2#32).toNat = len.toNat - 2 := BitVec.toNat_sub_of_le h
  have halign : (d &&& 15#32).toNat = d.toNat % 16 := by
    rw [BitVec.toNat_and]
    exact Nat.and_two_pow_sub_one_eq_mod d.toNat 4
  simp only [posLenPrice, distanceCost, lenPrice_eq_lenPriceAt, hsub, distancePrice, slotPrice, alignPrice,
    lenToPosStateOf_toNat h, halign, Nat.mul_comm _ 128, Nat.mul_comm _ 64]
  rfl

theorem repPrice_eq (s : State) (st : U4) (ps : U32) {i : Nat} (hi : i < 4) {len : U32} (h : 2 ≤ len.toNat) :
    repPrice s i len st ps = lenPriceAt s.prices.repLen ps.toNat (len.toNat - 2) +
      pathPrice s (repNaming st.toNat ps.toNat i false) := by
  rw [repPrice, lenPrice_eq_lenPriceAt, pureRepPrice_eq s st ps hi, BitVec.toNat_sub_of_le h]
  rfl

/-! ### O36 -/

theorem toNat_setWidth_four {st : Byte} (h : st.toNat ≤ 11) : (st.setWidth 4).toNat = st.toNat := by
  rw [BitVec.toNat_setWidth]
  exact Nat.mod_eq_of_lt (by omega)

/-- A length of 2 to 273 bytes, as the helpers take it. -/
theorem toNat_lenOperand (len : U16) : (len.setWidth 32).toNat = len.toNat :=
  BitVec.toNat_setWidth_of_le (by decide)

theorem byte_le_three {i : Byte} (h : i.toNat ≤ 3) : i = 0#8 ∨ i = 1#8 ∨ i = 2#8 ∨ i = 3#8 := by
  bv_omega

/-- Settles O36: each helper is the sum along the decisions it prices. -/
theorem priceHelpers : Obligations.PriceHelpers := by
  intro st ps s hst hps price x cs pure
  have hnaming (i : Byte) (hi : i.toNat ≤ 3) :
      pathPrice s (repNaming x ps.toNat i.toNat false) = pure i := by
    obtain rfl | rfl | rfl | rfl := byte_le_three hi <;>
      simp [repNaming, pathPrice_cons, pathPrice_nil, pure, price, cs, x, State.cellPrice, BitVec.add_assoc]
  have hps' : (ps.setWidth 32).toNat = ps.toNat := toNat_symbol ps
  have hst' : (st.setWidth 4).toNat = x := toNat_setWidth_four hst
  have hword {v w : U32} (h : v = w) : answer (.word v) s = .next { s with ret := .word w } := by rw [h]; rfl
  refine ⟨hword ?_, fun i hi => hword ?_, fun i len hi hlen => hword ?_, fun d len hlen => hword ?_⟩
  · rw [repLen1Price_eq, hst', hps']
    simp only [repNaming, pathPrice_cons, pathPrice_nil, BitVec.add_zero]
    rfl
  · rw [pureRepPrice_eq s _ _ (Nat.lt_succ_of_le hi), hst', hps', hnaming i hi]
  · have h := ((lenWf_iff len).1 hlen).1
    rw [← toNat_lenOperand] at h ⊢
    rw [repPrice_eq s _ _ (Nat.lt_succ_of_le hi) h, hst', hps', hnaming i hi]
  · have h := ((lenWf_iff len).1 hlen).1
    rw [← toNat_lenOperand] at h ⊢
    rw [posLenPrice_eq s _ _ h, hps']
    rfl

end Sys2Proof
end

section
/-! The distance and alignment price tables (45_optimal_parser R240, R241): what FILL_DIST and FILL_ALIGN write
in tables of any contents, each entry being the price of its path. -/

namespace Sys2Proof

open Machine

variable {s : State}

/-! ### Rows written -/

/-- In a canonical table `fillTable` writes its `n` entries and no other. -/
theorem get_fillTable_of_wf (f : Nat → U32) (base : Nat) {t : Store U32} (ht : Store.wf 0#32 t = true) (j : Nat) :
    ∀ n : Nat, Store.get 0#32 (fillTable f base n t) j =
      if base ≤ j ∧ j < base + n then f (j - base) else Store.get 0#32 t j
  | 0 => by rw [if_neg (by omega)]; rfl
  | n + 1 => by
    rw [fillTable, Store.get_set (fillTable_wf f base ht n), get_fillTable_of_wf f base ht j n]
    by_cases hj : j = base + n
    · rw [if_pos hj, if_pos (by omega), hj, Nat.add_sub_cancel_left]
    · rw [if_neg hj]
      congr 1
      exact propext (by omega)

theorem get_fillSlotRows_of_wf {size : Nat} (hs : size ≤ 64) {t : Store U32} (ht : Store.wf 0#32 t = true)
    (l : Nat) {n : Nat} (hn : n < 64) : ∀ m, Store.get 0#32 (fillSlotRows s size m t) (64 * l + n) =
      if l < m ∧ n < size then posSlotPriceOf s l n else Store.get 0#32 t (64 * l + n)
  | 0 => by rw [if_neg (by omega)]; rfl
  | m + 1 => by
    rw [fillSlotRows, get_fillTable_of_wf _ _ (fillSlotRows_wf s size ht m), get_fillSlotRows_of_wf hs ht l hn m]
    by_cases hrow : l = m ∧ n < size
    · obtain ⟨rfl, hlt⟩ := hrow
      rw [if_pos (by omega), if_pos (by omega), show 64 * l + n - l * 64 = n by omega]
    · rw [if_neg (by omega)]
      congr 1
      exact propext (by omega)

theorem get_fillDistanceRows_of_wf (slots : Store U32) {t : Store U32} (ht : Store.wf 0#32 t = true)
    (l : Nat) {i : Nat} (hi : i < 128) : ∀ m, Store.get 0#32 (fillDistanceRows s slots m t) (128 * l + i) =
      if l < m then distancePriceOf s slots l i else Store.get 0#32 t (128 * l + i)
  | 0 => by rw [if_neg (by omega)]; rfl
  | m + 1 => by
    rw [fillDistanceRows, get_fillTable_of_wf _ _ (fillDistanceRows_wf s slots ht m),
      get_fillDistanceRows_of_wf slots ht l hi m]
    by_cases hrow : l = m
    · subst hrow
      rw [if_pos (by omega), if_pos (by omega), show 128 * l + i - l * 128 = i by omega]
    · rw [if_neg (by omega)]
      congr 1
      exact propext (by omega)

/-! ### Entries -/

theorem posSlotTree_row (l : Nat) : posSlotTree (BitVec.ofNat 32 l) = cellOf .posSlot (64 * l) := by
  have hidx : BitVec.ofNat 32 l <<< 6 = BitVec.ofNat 32 (64 * l) := by
    apply BitVec.eq_of_toNat_eq
    rw [BitVec.toNat_shiftLeft, Nat.shiftLeft_eq, BitVec.toNat_ofNat, BitVec.toNat_ofNat]
    omega
  exact congrArg (CellRef.mk .posSlot) hidx

/-- A slot's price is that of its path and of its direct bits, 64 each. -/
theorem posSlotPriceOf_eq (l : Nat) {n : Nat} (hn : n < 64) : posSlotPriceOf s l n =
    pathPrice s (treePath (cellOf .posSlot (64 * l)) 6 n) +
      BitVec.ofNat 32 (if n < 14 then 0 else 64 * (n / 2 - 5)) := by
  have hw : (BitVec.ofNat 32 n).toNat = n := Nat.mod_eq_of_lt (by omega)
  have htree : btPrice s (posSlotTree (BitVec.ofNat 32 l)) 6 (BitVec.ofNat 32 n) =
      pathPrice s (treePath (cellOf .posSlot (64 * l)) 6 n) := by
    rw [btPrice_eq_pathPrice s _ (hw.symm ▸ hn), hw, posSlotTree_row]
  rw [posSlotPriceOf, htree]
  split
  · exact (BitVec.add_zero _).symm
  · rw [show n / 2 - 1 - 4 = n / 2 - 5 by omega, Nat.mul_comm (n / 2 - 5)]

/-- The footer of a distance below 128 is priced along its reverse path. -/
theorem footerPrice_eq {i : Nat} (h4 : 4 ≤ i) (hi : i < 128) : footerPrice s i =
    pathPrice s (reversePath ⟨.posModels, BitVec.ofInt 32 ((baseOf (slotOf i) : Int) - slotOf i - 1)⟩
      (slotOf i / 2 - 1) (i - baseOf (slotOf i))) := by
  have hw : (BitVec.ofNat 32 i).toNat = i := Nat.mod_eq_of_lt (by omega)
  have hslot : (posSlotOf (BitVec.ofNat 32 i)).toNat = slotOf i := by rw [toNat_posSlotOf, hw]
  have hfooter : (BitVec.ofNat 32 i - slotBase (posSlotOf (BitVec.ofNat 32 i))).toNat = i - baseOf (slotOf i) := by
    have hsum := baseOf_add_footer h4
    rw [toNat_sub_slotBase (hw.symm ▸ h4), footerBits_eq, hslot, hw]
    omega
  rw [footerPrice, btRprice_eq_pathPrice, hfooter, posModelsTree_eq, footerBits_eq, hslot]

theorem distancePriceOf_eq (slots : Store U32) (l : Nat) {i : Nat} (hi : i < 128) : distancePriceOf s slots l i =
    Store.get 0#32 slots (64 * l + slotOf i) + if i < 4 then 0#32 else
      pathPrice s (reversePath ⟨.posModels, BitVec.ofInt 32 ((baseOf (slotOf i) : Int) - slotOf i - 1)⟩
        (slotOf i / 2 - 1) (i - baseOf (slotOf i))) := by
  have hslot : (posSlotOf (BitVec.ofNat 32 i)).toNat = slotOf i := by
    rw [toNat_posSlotOf, BitVec.toNat_ofNat, Nat.mod_eq_of_lt (by omega)]
  rw [distancePriceOf, hslot, Nat.mul_comm l 64]
  split
  · next h => rw [slotOf_of_lt_four h, BitVec.add_zero]
  · next h => rw [footerPrice_eq (by omega) hi]

/-! ### O37 -/

theorem exec_optFillDist (s : State) : exec .optFillDist s =
    .next { s with prices := (fillDist s).prices, ret := .none } := by
  show answer .none (fillDist s) = _
  rw [fillDist_prices s]
  rfl

theorem exec_optFillAlign (s : State) : exec .optFillAlign s =
    .next { s with prices := (fillAlign s).prices, ret := .none } := by
  show answer .none (fillAlign s) = _
  rw [fillAlign_prices s]
  rfl

theorem fillDist_kept (s : State) : (fillDist s).prices = { s.prices with
    posSlotPrices := (fillDist s).prices.posSlotPrices
    distancesPrices := (fillDist s).prices.distancesPrices
    matchPriceCount := 0#32 } := by simp only [fillDist]

theorem fillAlign_kept (s : State) : (fillAlign s).prices = { s.prices with
    alignPrices := (fillAlign s).prices.alignPrices, alignPriceCount := 0#32 } := by simp only [fillAlign]

/-- Settles O37: each table row by row, the distances from the slots just written. -/
theorem distanceAndAlignTables : Obligations.DistanceAndAlignTables := by
  refine ⟨fun s hslots hdist hsize => ⟨_, exec_optFillDist s, fillDist_kept s, fun l n hl hn => ?_,
      fun l i hl hi => ?_⟩,
    fun s halign => ⟨_, exec_optFillAlign s, fillAlign_kept s, fun i hi => ?_⟩⟩
  · rw [fillDist_slots, get_fillSlotRows_of_wf hsize hslots l hn, ← posSlotPriceOf_eq l hn]
    exact if_congr (and_iff_right hl) rfl rfl
  · rw [fillDist_distances, get_fillDistanceRows_of_wf _ hdist l hi, if_pos hl, distancePriceOf_eq _ l hi]
    rfl
  · have hw : (BitVec.ofNat 32 i).toNat = i := Nat.mod_eq_of_lt (by omega)
    rw [fillAlign_align, get_fillTable_of_wf _ _ halign, if_pos (by omega), btRprice_eq_pathPrice, Nat.sub_zero, hw]
    rfl

end Sys2Proof
end

section
/-! Around the parser's lattice: the candidates it takes (45_optimal_parser R212, R213), and what GET_OPTIMUM and
BACKWARD leave unchanged (R210, R227). -/

namespace Sys2Proof

open Machine

/-! ### Candidates (R212) -/

/-- The buffer holds the list as a prefix; past it each cell keeps its value (log 22). -/
theorem distAt_readMatchDistances (e : State) (x : PM) (h : Store.wf 0#32 x.p.matchDistances = true) (k : Nat) :
    distAt (readMatchDistances e x).2.p k = ((mfGetMatches e x.m).2[k]?).getD (distAt x.p k) := by
  refine (get_writeCells _ 0 k h).trans ?_
  rw [if_pos (Nat.zero_le k), Nat.sub_zero]
  rfl

theorem numDistancePairs_readMatchDistances (e : State) (x : PM) :
    (readMatchDistances e x).2.p.numDistancePairs = BitVec.ofNat 32 (mfGetMatches e x.m).2.length := rfl

theorem longestLength_of_no_pairs (e : State) {x : PM} (h : x.p.numDistancePairs = 0#32) :
    longestLength e x = 0#32 := by
  rw [longestLength, h]
  rfl

/-- With pairs, the last one's length, and what agrees beyond it if it is `fastBytes`. -/
theorem longestLength_of_last (e : State) {x : PM} {n : Nat} {len dist : U32}
    (hn : x.p.numDistancePairs.toNat = n + 2) (hlen : distAt x.p n = len) (hdist : distAt x.p (n + 1) = dist) :
    longestLength e x = if len = e.fastBytes then
      len + BitVec.ofNat 32 (mfMatchLen e x.m ((len.toNat : Int) - 1) dist (273 - len.toNat)) else len := by
  rw [longestLength, hn, if_neg (by omega), show n + 2 - 2 = n by omega, show n + 2 - 1 = n + 1 by omega, hlen, hdist]

theorem readMatchDistances_of_nil (e : State) (x : PM) (h : (mfGetMatches e x.m).2 = []) :
    (readMatchDistances e x).1 = 0#32 := by
  refine longestLength_of_no_pairs e (x := (readMatchDistances e x).2) ?_
  rw [numDistancePairs_readMatchDistances, h]
  rfl

/-- READ_MATCH_DISTANCES on a list that ends in the pair `len`, `dist`. -/
theorem readMatchDistances_of_last (e : State) (x : PM) (h : Store.wf 0#32 x.p.matchDistances = true)
    {ds : List U32} {len dist : U32} (hd : (mfGetMatches e x.m).2 = ds ++ [len, dist])
    (hn : (mfGetMatches e x.m).2.length ≤ 548) :
    (readMatchDistances e x).1 = if len = e.fastBytes then
      len + BitVec.ofNat 32
        (mfMatchLen e (mfGetMatches e x.m).1 ((len.toNat : Int) - 1) dist (273 - len.toNat)) else len := by
  have hlength : (mfGetMatches e x.m).2.length = ds.length + 2 := by rw [hd, List.length_append]; rfl
  have hcount : (readMatchDistances e x).2.p.numDistancePairs.toNat = ds.length + 2 := by
    rw [numDistancePairs_readMatchDistances, BitVec.toNat_ofNat, hlength, Nat.mod_eq_of_lt (by omega)]
  have hlen : distAt (readMatchDistances e x).2.p ds.length = len := by
    rw [distAt_readMatchDistances e x h, hd]
    simp
  have hdist : distAt (readMatchDistances e x).2.p (ds.length + 1) = dist := by
    rw [distAt_readMatchDistances e x h, hd]
    simp
  exact longestLength_of_last e hcount hlen hdist

/-- The operand `len - 1` of MATCH_LEN, read as an i32. -/
theorem toInt_sub_one {len : U32} (h : len.toNat ≤ 273) : (len - 1#32).toInt = (len.toNat : Int) - 1 := by
  rw [BitVec.toInt_sub, BitVec.toInt_eq_toNat_of_lt (by omega), show (1#32).toInt = 1 from rfl]
  exact Int.bmod_eq_of_le (by omega) (by omega)

/-! ### MOVE_POS (R213) -/

theorem exec_optMovePos (n : U32) (s : State) : exec (.optMovePos n) s =
    .next { s with
      parser := { s.parser with additionalOffset := s.parser.additionalOffset + n }
      mf := mfSkip s n.toNat s.mf
      ret := .none } := rfl

theorem exec_optReadMatchDistances (s : State) : exec .optReadMatchDistances s =
    .next { s with
      parser := (readMatchDistances s s.pm).2.p
      mf := (mfGetMatches s s.mf).1
      ret := .word (readMatchDistances s s.pm).1 } := rfl

/-- Settles O35: the last pair of the list stands in the last two cells written. -/
theorem candidatePipeline : Obligations.CandidatePipeline := by
  refine ⟨fun s hwf => ⟨_, _, _, _, exec_mfGetMatches s, rfl, exec_optReadMatchDistances s, rfl,
    distAt_readMatchDistances s s.pm hwf, fun hnil => ?_, fun ds len dist hd hn => ⟨fun hne => ?_, fun heq hle => ?_⟩⟩,
    fun s => ?_, fun n s _ => ⟨_, exec_mfSkip n s, exec_optMovePos n s⟩⟩
  · exact readMatchDistances_of_nil s s.pm hnil
  · rw [readMatchDistances_of_last s s.pm hwf hd hn]
    exact if_neg hne
  · refine ⟨_, _, rfl, rfl, ?_⟩
    rw [readMatchDistances_of_last s s.pm hwf hd hn, toInt_sub_one hle, BitVec.toNat_sub_of_le hle]
    rw [if_pos (show len = s.fastBytes from heq)]
    refine congrArg (fun n => len + BitVec.ofNat 32 n) (mfMatchLen_same ?_ ..)
    exact ⟨fun _ => rfl, rfl⟩
  · rw [exec_optMovePos, BitVec.add_zero]
    rfl

/-! ### Frames (R210, R227) -/

/-- `m'` is `m` but for its positions and its two tables. -/
def FinderMoved (m m' : MatchFinder) : Prop :=
  m' = { m with pos := m'.pos, cyclicBufferPos := m'.cyclicBufferPos, son := m'.son, hash := m'.hash }

theorem FinderMoved.refl (m : MatchFinder) : FinderMoved m m := rfl

theorem FinderMoved.trans {m m' m'' : MatchFinder} (h : FinderMoved m m') (k : FinderMoved m' m'') :
    FinderMoved m m'' := by
  unfold FinderMoved at *
  rw [k, h]

theorem finderMoved_mfGetMatches (e : State) (m : MatchFinder) : FinderMoved m (mfGetMatches e m).1 := by
  unfold FinderMoved
  rw [mfGetMatches_frame]

theorem finderMoved_mfSkip (e : State) : ∀ (n : Nat) (m : MatchFinder), FinderMoved m (mfSkip e n m)
  | 0, m => .refl m
  | n + 1, m => by
    have hone : FinderMoved m (mfSkipOne e m) := mfSkipOne_eq e m ▸ finderMoved_mfGetMatches e m
    exact hone.trans (finderMoved_mfSkip e n _)

theorem finderMoved_readMatchDistances (e : State) (x : PM) : FinderMoved x.m (readMatchDistances e x).2.m :=
  finderMoved_mfGetMatches e x.m

theorem finderMoved_movePos (e : State) (n : U32) (x : PM) : FinderMoved x.m (movePos e n x).m :=
  finderMoved_mfSkip e _ x.m

theorem cutPairs_m {v : Visit} {newLen : U32} {x : PM} {r : PM × U32 × Nat} (h : cutPairs v newLen x = some r) :
    r.1.m = x.m := by
  unfold cutPairs at h
  dsimp only at h
  split at h
  · split at h
    · exact nomatch h
    · cases h
      rfl
  · cases h
    rfl

theorem tryMatches_m {e : State} {x : PM} {v : Visit} {newLen : U32} {startLen : Nat} {l : Machine.Lat}
    {r : PM × Machine.Lat} (h : tryMatches e x v newLen startLen l = some r) : r.1.m = x.m := by
  unfold tryMatches at h
  split at h
  · exact nomatch h
  · next y newLen' numPairs hc =>
    have hy : y.m = x.m := cutPairs_m hc
    split at h
    · cases h
      exact hy
    · split at h
      · exact nomatch h
      · split at h
        · exact nomatch h
        · cases h
          exact hy

/-- A visited node's offers leave the match finder alone. -/
theorem visit_m {e : State} {x : PM} {cur lenEnd : Nat} {position newLen : U32} {r : PM × Nat}
    (h : visit e x cur lenEnd position newLen = some r) : r.1.m = x.m := by
  unfold visit at h
  dsimp only at h
  split at h
  · cases h
    rfl
  · split at h
    · exact nomatch h
    · next y l hm =>
      cases h
      exact tryMatches_m hm

theorem finishSweep_m {cur : Nat} {x : PM} {r : U32 × PM} (h : finishSweep cur x = some r) : r.2.m = x.m := by
  unfold finishSweep at h
  split at h
  · exact nomatch h
  · cases h
    rfl

theorem finderMoved_sweep (e : State) : ∀ (fuel cur lenEnd : Nat) (position : U32) {x : PM} {r : U32 × PM},
    sweep e fuel cur lenEnd position x = some r → FinderMoved x.m r.2.m
  | 0, _, _, _, _, _, h => nomatch h
  | fuel + 1, cur, lenEnd, position, x, r, h => by
    have hread := finderMoved_readMatchDistances e x
    unfold sweep at h
    dsimp only at h
    split at h
    · rw [finishSweep_m h]
      exact .refl _
    · split at h
      · rw [finishSweep_m h]
        exact hread
      · split at h
        · exact nomatch h
        · next z lenEnd' hv =>
          rw [← visit_m hv] at hread
          exact hread.trans (finderMoved_sweep e fuel _ _ _ h)

theorem decided_m {len : U32} {back : I32} {x : PM} {r : U32 × PM} (h : decided len back x = some r) :
    r.2.m = x.m := by
  cases h
  rfl

theorem finderMoved_seedAndSweep {e : State} {position lenMain : U32} {repMax : Nat} {curByte matchByte : Byte}
    {x : PM} {r : U32 × PM} (h : seedAndSweep e position lenMain repMax curByte matchByte x = some r) :
    FinderMoved x.m r.2.m := by
  unfold seedAndSweep at h
  dsimp only at h
  split at h
  · rw [decided_m h]
    exact .refl _
  · split at h
    · exact nomatch h
    · have hm := finderMoved_sweep e _ _ _ _ h
      exact hm

theorem finderMoved_chooseToken {e : State} {position lenMain : U32} {x : PM} {r : U32 × PM}
    (h : chooseToken e position lenMain x = some r) : FinderMoved x.m r.2.m := by
  unfold chooseToken at h
  dsimp only at h
  split at h
  · rw [decided_m h]
    exact finderMoved_movePos ..
  · split at h
    · rw [decided_m h]
      exact finderMoved_movePos ..
    · split at h
      · rw [decided_m h]
        exact .refl _
      · have hm := finderMoved_seedAndSweep h
        exact hm

theorem finderMoved_mainLength (e : State) (x : PM) : FinderMoved x.m (mainLength e x).2.m := by
  unfold mainLength
  dsimp only
  split
  · exact .refl _
  · exact finderMoved_readMatchDistances ..

theorem finderMoved_getOptimum {e : State} {position : U32} {x : PM} {r : U32 × PM}
    (h : getOptimum e position x = some r) : FinderMoved x.m r.2.m := by
  have hmain := finderMoved_mainLength e x
  unfold getOptimum at h
  dsimp only at h
  split at h
  · cases h
    exact .refl _
  · split at h
    · rwa [decided_m h]
    · exact hmain.trans (finderMoved_chooseToken h)

theorem backward_frame {cur len : U32} {p q : Parser} (h : backward cur p = some (len, q)) :
    q = { p with
      optimum := q.optimum, optimumEndIndex := cur, optimumCurrentIndex := q.optimumCurrentIndex
      backRes := q.backRes } ∧ len = q.optimumCurrentIndex := by
  unfold backward at h
  dsimp only at h
  split at h
  · exact nomatch h
  · cases h
    exact ⟨rfl, rfl⟩

/-- Settles O60: the match finder's frame along the phases, and BACKWARD's read off its end. -/
theorem parserFrames : Obligations.ParserFrames := by
  refine fun s t => ⟨fun position h => ?_, fun cur h => ?_⟩
  · rw [show exec (.optGetOptimum position) s = execOptGetOptimum position s from rfl, execOptGetOptimum] at h
    split at h
    · next len x hx =>
      cases h
      exact congrArg (fun m => { s with parser := x.p, mf := m, ret := .word len }) (finderMoved_getOptimum hx)
    · exact nomatch h
  · rw [show exec (.optBackward cur) s = execOptBackward cur s from rfl, execOptBackward] at h
    split at h
    · next len p hp =>
      obtain ⟨hframe, hlen⟩ := backward_frame hp
      subst hlen
      cases h
      exact congrArg (fun q => { s with parser := q, ret := .word p.optimumCurrentIndex }) hframe
    · exact nomatch h

end Sys2Proof
end

section
/-! BACKWARD (45_optimal_parser R227): the loop against the chain of tokens it reverses. One pass links the last
token of the chain; what is left is the chain, one token shorter, of the lattice in which a hop at that node is
written out as tokens of its own. -/

namespace Sys2Proof

open Machine

variable {o v w : Store Node}

/-! ### The chain -/

/-- The tokens of the chain that ends at node `i`, last first. -/
def chain (v : Store Node) (i : Nat) : List (Nat × Nat × U32) := chainTokens v i i

theorem ChainDown.mono {i j : Nat} (h : ChainDown v j) (hi : i ≤ j) : ChainDown v i :=
  fun k hk hki => h k hk (hki.trans hi)

theorem ChainDown.tokensFrom_lt {i : Nat} (h : ChainDown v i) (hi : 0 < i) : tokensFrom (node v i) < i := by
  obtain ⟨hprev, hhop⟩ := h i hi le_rfl
  unfold tokensFrom
  split
  · next h1 =>
    obtain ⟨-, h2⟩ := hhop h1
    split
    · next hp2 => have := h2 hp2; omega
    · omega
  · exact hprev

theorem chainTokens_zero (v : Store Node) (fuel : Nat) : chainTokens v fuel 0 = [] := by
  cases fuel <;> rfl

/-- Fuel of at least `i` is enough, and only the nodes up to `i` matter. -/
theorem chainTokens_congr : ∀ (f f' i : Nat), i ≤ f → i ≤ f' → ChainDown v i →
    (∀ j ≤ i, node v j = node w j) → chainTokens v f i = chainTokens w f' i
  | f, f', 0, _, _, _, _ => by rw [chainTokens_zero, chainTokens_zero]
  | f + 1, f' + 1, i + 1, hf, hf', hd, hvw => by
    have hlt := hd.tokensFrom_lt (Nat.succ_pos i)
    rw [chainTokens, chainTokens, if_neg (Nat.succ_ne_zero i), if_neg (Nat.succ_ne_zero i), ← hvw _ le_rfl,
      chainTokens_congr f f' _ (by omega) (by omega) (hd.mono hlt.le) fun j hj => hvw j (by omega)]

theorem chain_congr {i : Nat} (hd : ChainDown v i) (h : ∀ j ≤ i, node v j = node w j) : chain v i = chain w i :=
  chainTokens_congr i i i le_rfl le_rfl hd h

theorem chain_of_pos {i : Nat} (hd : ChainDown v i) (hi : 0 < i) :
    chain v i = tokensInto (node v i) i ++ chain v (tokensFrom (node v i)) := by
  have hlt := hd.tokensFrom_lt hi
  obtain ⟨k, rfl⟩ := Nat.exists_eq_add_one_of_ne_zero (Nat.pos_iff_ne_zero.1 hi)
  rw [chain, chainTokens, if_neg (Nat.succ_ne_zero k),
    chainTokens_congr k _ _ (by omega) le_rfl (hd.mono hlt.le) fun _ _ => rfl]
  rfl

/-- A node that a token alone reaches. -/
theorem chain_of_token {i : Nat} (hd : ChainDown v i) (hi : 0 < i) (h1 : (node v i).prev1IsChar = false) :
    chain v i = ((node v i).posPrev.toNat, i, (node v i).backPrev) :: chain v (node v i).posPrev.toNat := by
  rw [chain_of_pos hd hi, tokensInto, tokensFrom, h1]
  rfl

/-! ### One pass of the loop -/

/-- The record of the literal that ends at `p`. -/
def literalRecord (p : U32) (n : Node) : Node := { makeAsChar n with posPrev := p - 1#32 }

/-- The record of a token `back` from `start`. -/
def tokenRecord (start : U32) (back : I32) (n : Node) : Node :=
  { n with prev1IsChar := false, posPrev := start, backPrev := back }

theorem expandHop_of_hop {c p : U32} (h1 : (node v c.toNat).prev1IsChar = true) : expandHop v c p =
    let w := setNode v p.toNat (literalRecord p (node v p.toNat))
    if (node w c.toNat).prev2 then
      setNode w (p - 1#32).toNat (tokenRecord (node w c.toNat).posPrev2 (node w c.toNat).backPrev2
        (node w (p - 1#32).toNat))
    else w := if_pos h1

theorem expandHop_of_token {c p : U32} (h1 : (node v c.toNat).prev1IsChar = false) : expandHop v c p = v := by
  rw [expandHop, h1]
  rfl

/-- The nodes after the expansion of a hop at `c`: the literal before its rep, and the token before that, get a
record of their own. -/
theorem node_expandHop (hv : Store.wf Node.blank v = true) {c p : U32} (hpc : p.toNat < c.toNat)
    (h1 : (node v c.toNat).prev1IsChar = true) (hp : 0 < p.toNat) (j : Nat) :
    node (expandHop v c p) j =
      if j = p.toNat then literalRecord p (node v j)
      else if j = p.toNat - 1 ∧ (node v c.toNat).prev2 = true then
        tokenRecord (node v c.toNat).posPrev2 (node v c.toNat).backPrev2 (node v j)
      else node v j := by
  have hsub : (p - 1#32).toNat = p.toNat - 1 := BitVec.toNat_sub_of_le hp
  have hset := setNode_wf hv p.toNat (literalRecord p (node v p.toNat))
  have hw (k : Nat) (hk : k ≠ p.toNat) :
      node (setNode v p.toNat (literalRecord p (node v p.toNat))) k = node v k := by
    rw [node_setNode hv, if_neg hk]
  rw [expandHop_of_hop h1]
  dsimp only
  rw [hw c.toNat (by omega), hsub, hw (p.toNat - 1) (by omega)]
  by_cases hj : j = p.toNat
  · subst hj
    rw [if_pos rfl]
    split
    · rw [node_setNode hset, if_neg (by omega), node_setNode hv, if_pos rfl]
    · rw [node_setNode hv, if_pos rfl]
  · rw [if_neg hj]
    cases (node v c.toNat).prev2
    · rw [if_neg Bool.false_ne_true, hw j hj, if_neg (by simp)]
    · rw [if_pos rfl, node_setNode hset, hw j hj]
      by_cases hj1 : j = p.toNat - 1
      · rw [if_pos hj1, if_pos ⟨hj1, rfl⟩, hj1]
      · rw [if_neg hj1, if_neg fun h => hj1 h.1]

/-- A chain is its last token and then the chain of the lattice with a hop there written out. -/
theorem chain_expandHop (hv : Store.wf Node.blank v = true) {c p : U32} (hc : 0 < c.toNat)
    (hd : ChainDown v c.toNat) (hp : (node v c.toNat).posPrev = p) :
    ChainDown (expandHop v c p) p.toNat ∧
      chain v c.toNat = (p.toNat, c.toNat, (node v c.toNat).backPrev) :: chain (expandHop v c p) p.toNat ∧
      ((node v c.toNat).prev1IsChar = true → ∃ b, (p.toNat - 1, b) ∈ chain (expandHop v c p) p.toNat) := by
  obtain ⟨hpc, hhop⟩ := hd c.toNat hc le_rfl
  rw [hp] at hpc hhop
  have hdown := hd.mono hpc.le
  cases h1 : (node v c.toNat).prev1IsChar with
  | false =>
    rw [expandHop_of_token h1]
    exact ⟨hdown, hp ▸ chain_of_token hd hc h1, nofun⟩
  | true =>
    obtain ⟨hp0, hhop2⟩ := hhop h1
    have hsub : (p - 1#32).toNat = p.toNat - 1 := BitVec.toNat_sub_of_le hp0
    have hnode := node_expandHop hv hpc h1 hp0
    have hlit : node (expandHop v c p) p.toNat = literalRecord p (node v p.toNat) := by rw [hnode, if_pos rfl]
    have hd' : ChainDown (expandHop v c p) p.toNat := by
      intro i hi hip
      rw [hnode]
      split
      · exact ⟨by show (p - 1#32).toNat < i; omega, nofun⟩
      · split
        · next h =>
          have := hhop2 h.2
          exact ⟨by show (node v c.toNat).posPrev2.toNat < i; omega, nofun⟩
        · exact hdown i hi hip
    have hfirst : chain (expandHop v c p) p.toNat =
        (p.toNat - 1, p.toNat, 0xFFFFFFFF#32) :: chain (expandHop v c p) (p.toNat - 1) := by
      rw [chain_of_token hd' hp0 (by rw [hlit]; rfl), hlit, ← hsub]
      rfl
    refine ⟨hd', ?_, fun _ => ⟨_, by rw [hfirst]; exact List.mem_cons_self⟩⟩
    rw [hfirst, chain_of_pos hd hc, tokensInto, tokensFrom, h1, hp, if_pos rfl, if_pos rfl]
    cases h2 : (node v c.toNat).prev2 with
    | false =>
      have hsame (j : Nat) (hj : j ≤ p.toNat - 1) : node v j = node (expandHop v c p) j := by
        rw [hnode, if_neg (by omega), h2, if_neg (by simp)]
      rw [if_neg Bool.false_ne_true, if_neg Bool.false_ne_true]
      exact congrArg (fun t => _ :: _ :: t) (chain_congr (hdown.mono (by omega)) hsame)
    | true =>
      have hpp2 : (node v c.toNat).posPrev2.toNat + 1 < p.toNat := hhop2 h2
      have htoken : node (expandHop v c p) (p.toNat - 1) =
          tokenRecord (node v c.toNat).posPrev2 (node v c.toNat).backPrev2 (node v (p.toNat - 1)) := by
        rw [hnode, if_neg (by omega), if_pos ⟨rfl, h2⟩]
      have hsame (j : Nat) (hj : j ≤ (node v c.toNat).posPrev2.toNat) : node v j = node (expandHop v c p) j := by
        rw [hnode, if_neg (by omega), if_neg (by omega)]
      rw [chain_of_token (hd'.mono (Nat.sub_le _ _)) (by omega) (by rw [htoken]; rfl), htoken, if_pos rfl, if_pos rfl]
      exact congrArg (fun t => _ :: _ :: _ :: t) (chain_congr (hdown.mono (by omega)) hsame)

/-- Each of the tokens into a node starts below it. -/
theorem ChainDown.start_lt {i : Nat} (h : ChainDown v i) (hi : 0 < i) : ∀ x ∈ tokensInto (node v i) i, x.1 < i := by
  obtain ⟨hprev, hhop⟩ := h i hi le_rfl
  unfold tokensInto
  cases h1 : (node v i).prev1IsChar with
  | false => simpa using hprev
  | true =>
    obtain ⟨-, hhop2⟩ := hhop h1
    cases h2 : (node v i).prev2 with
    | false =>
      simp only [if_true, Bool.false_eq_true, if_false, List.forall_mem_cons, List.not_mem_nil, false_imp_iff,
        implies_true, and_true]
      omega
    | true =>
      have hfrom := hhop2 h2
      simp only [if_true, List.forall_mem_cons, List.not_mem_nil, false_imp_iff, implies_true, and_true]
      omega

theorem chain_starts_lt : ∀ {i : Nat}, ChainDown v i → ∀ x ∈ chain v i, x.1 < i := by
  intro i
  induction i using Nat.strong_induction_on with
  | _ i ih =>
    intro hd x hx
    rcases Nat.eq_zero_or_pos i with rfl | hi
    · exact absurd hx List.not_mem_nil
    · rw [chain_of_pos hd hi] at hx
      have hlt := hd.tokensFrom_lt hi
      rcases List.mem_append.1 hx with hx | hx
      · exact hd.start_lt hi x hx
      · exact (ih _ hlt (hd.mono hlt.le) x hx).trans hlt

/-! ### The lattice the loop works on -/

/-- `b` is `a` with other links, and no longer marked as a hop's end. -/
def Relinked (a b : Node) : Prop :=
  b = { a with posPrev := b.posPrev, backPrev := b.backPrev, prev1IsChar := b.prev1IsChar } ∧
    (b.prev1IsChar = true → a.prev1IsChar = true)

theorem Relinked.refl (a : Node) : Relinked a a := ⟨rfl, id⟩

theorem Relinked.trans {a b c : Node} (h : Relinked a b) (k : Relinked b c) : Relinked a c := by
  obtain ⟨hb, hmark⟩ := h
  obtain ⟨hc, hmark'⟩ := k
  exact ⟨by rw [hc, hb], fun h => hmark (hmark' h)⟩

theorem relinked_expandHop (hv : Store.wf Node.blank v = true) {c p : U32} (hpc : p.toNat < c.toNat)
    (hp : (node v c.toNat).prev1IsChar = true → 0 < p.toNat) (j : Nat) :
    Relinked (node v j) (node (expandHop v c p) j) := by
  cases h1 : (node v c.toNat).prev1IsChar with
  | false => rw [expandHop_of_token h1]; exact .refl _
  | true =>
    rw [node_expandHop hv hpc h1 (hp h1)]
    split
    · exact ⟨rfl, nofun⟩
    · split
      · exact ⟨rfl, nofun⟩
      · exact .refl _

/-- While the loop stands at node `c`, the lattice `o` shows below `c` what is left of the chain in `v`, and has
lost of node `c` just the links, which are in the loop's hands. -/
structure Shadows (o v : Store Node) (c : Nat) : Prop where
  below : ∀ i < c, node o i = node v i
  here : node o c = { node v c with posPrev := (node o c).posPrev, backPrev := (node o c).backPrev }

theorem Shadows.refl (v : Store Node) (c : Nat) : Shadows v v c := ⟨fun _ _ => rfl, rfl⟩

/-- One pass of the loop at node `c`: the lattice it goes on with. -/
def linkLast (o : Store Node) (c p : U32) (back : I32) : Store Node :=
  setNode (expandHop o c p) p.toNat { node (expandHop o c p) p.toNat with backPrev := back, posPrev := c }

theorem node_linkLast (ho : Store.wf Node.blank o = true) (c p : U32) (back : I32) (j : Nat) :
    node (linkLast o c p back) j = if j = p.toNat then
      { node (expandHop o c p) p.toNat with backPrev := back, posPrev := c } else node (expandHop o c p) j :=
  node_setNode (expandHop_wf ho c p) ..

theorem relinked_linkLast (ho : Store.wf Node.blank o = true) {c p : U32} (hpc : p.toNat < c.toNat)
    (hp : (node o c.toNat).prev1IsChar = true → 0 < p.toNat) (back : I32) (i : Nat) :
    Relinked (node o i) (node (linkLast o c p back) i) := by
  refine (relinked_expandHop ho hpc hp i).trans ?_
  rw [node_linkLast ho]
  split
  · next hi => subst hi; exact ⟨rfl, id⟩
  · exact .refl _

theorem backwardLoop_succ (n : Nat) (c p : U32) (back : I32) (o : Store Node) :
    backwardLoop (n + 1) c p back o = if 0#32 < p then
      backwardLoop n p (node (expandHop o c p) p.toNat).posPrev (node (expandHop o c p) p.toNat).backPrev
        (linkLast o c p back)
    else some (linkLast o c p back) := rfl

theorem Shadows.expandHop (h : Shadows o v c.toNat) (ho : Store.wf Node.blank o = true)
    (hv : Store.wf Node.blank v = true) {p : U32} (hpc : p.toNat < c.toNat)
    (hp : (node v c.toNat).prev1IsChar = true → 0 < p.toNat) :
    ∀ i < c.toNat, node (expandHop o c p) i = node (expandHop v c p) i := by
  intro i hi
  have hmark : (node o c.toNat).prev1IsChar = (node v c.toNat).prev1IsChar := by rw [h.here]
  cases h1 : (node v c.toNat).prev1IsChar with
  | false => rw [expandHop_of_token h1, expandHop_of_token (hmark.trans h1), h.below i hi]
  | true =>
    rw [node_expandHop hv hpc h1 (hp h1), node_expandHop ho hpc (hmark.trans h1) (hp h1), h.below i hi, h.here]

/-- R227's loop links every token of the chain, and touches no node but those they start from. -/
theorem backwardLoop_spec : ∀ (n : Nat) {c : U32} {o v : Store Node}, 0 < c.toNat → c.toNat < n →
    Store.wf Node.blank o = true → Store.wf Node.blank v = true → ChainDown v c.toNat → Shadows o v c.toNat →
    ∃ o', backwardLoop n c (node v c.toNat).posPrev (node v c.toNat).backPrev o = some o' ∧
      (∀ x ∈ chain v c.toNat, (node o' x.1).posPrev.toNat = x.2.1 ∧ (node o' x.1).backPrev = x.2.2) ∧
      (∀ i, (∀ x ∈ chain v c.toNat, x.1 ≠ i) → node o' i = node o i) ∧
      ∀ i, Relinked (node o i) (node o' i)
  | 0, _, _, _, _, hn, _, _, _, _ => absurd hn (Nat.not_lt_zero _)
  | n + 1, c, o, v, hc, hn, ho, hv, hd, hs => by
    obtain ⟨hpc, hhop⟩ := hd c.toNat hc le_rfl
    have hp0 := fun h1 => (hhop h1).1
    obtain ⟨hd', hchain, hlit⟩ := chain_expandHop hv hc hd rfl
    generalize (node v c.toNat).posPrev = p at *
    generalize (node v c.toNat).backPrev = back at *
    have hmark : (node o c.toNat).prev1IsChar = (node v c.toNat).prev1IsChar := by rw [hs.here]
    have hbelow := hs.expandHop ho hv hpc hp0
    have hlink := node_linkLast ho c p back
    have hrelinked := relinked_linkLast ho hpc (fun h => hp0 (hmark ▸ h)) back
    have hkept (i : Nat) (hi : ∀ x ∈ chain v c.toNat, x.1 ≠ i) : node (linkLast o c p back) i = node o i := by
      rw [hchain] at hi
      rw [hlink, if_neg fun h => hi _ List.mem_cons_self h.symm]
      cases h1 : (node o c.toNat).prev1IsChar with
      | false => rw [expandHop_of_token h1]
      | true =>
        obtain ⟨b, hb⟩ := hlit (hmark ▸ h1)
        rw [node_expandHop ho hpc h1 (hp0 (hmark ▸ h1)), if_neg fun h => hi _ List.mem_cons_self h.symm,
          if_neg fun h => hi _ (List.mem_cons_of_mem _ hb) h.1.symm]
    have hlast : (node (linkLast o c p back) p.toNat).posPrev = c ∧
        (node (linkLast o c p back) p.toNat).backPrev = back := by
      rw [hlink, if_pos rfl]
      exact ⟨rfl, rfl⟩
    have hshadow : Shadows (linkLast o c p back) (expandHop v c p) p.toNat := by
      refine ⟨fun i hi => by rw [hlink, if_neg hi.ne, hbelow i (hi.trans hpc)], ?_⟩
      rw [hlink, if_pos rfl, hbelow _ hpc]
    obtain ⟨o', ho', htokens, hother, hre⟩ : ∃ o', backwardLoop (n + 1) c p back o = some o' ∧
        (∀ x ∈ chain (expandHop v c p) p.toNat,
          (node o' x.1).posPrev.toNat = x.2.1 ∧ (node o' x.1).backPrev = x.2.2) ∧
        (∀ i, (∀ x ∈ chain (expandHop v c p) p.toNat, x.1 ≠ i) → node o' i = node (linkLast o c p back) i) ∧
        ∀ i, Relinked (node (linkLast o c p back) i) (node o' i) := by
      rw [backwardLoop_succ, hbelow _ hpc]
      rcases Nat.eq_zero_or_pos p.toNat with hzero | hpos
      · rw [if_neg (by rw [BitVec.lt_def, hzero]; decide), hzero]
        exact ⟨_, rfl, fun x hx => absurd hx List.not_mem_nil, fun _ _ => rfl, fun _ => .refl _⟩
      · rw [if_pos (show 0#32 < p from hpos)]
        exact backwardLoop_spec n hpos (by omega) (setNode_wf (expandHop_wf ho c p) ..) (expandHop_wf hv c p) hd' hshadow
    have hp : node o' p.toNat = node (linkLast o c p back) p.toNat :=
      hother _ fun x hx => (chain_starts_lt hd' x hx).ne
    refine ⟨o', ho', fun x hx => ?_, fun i hi => ?_, fun i => (hrelinked i).trans (hre i)⟩
    · rw [hchain] at hx
      rcases List.mem_cons.1 hx with rfl | hx
      · dsimp only
        rw [hp, hlast.1, hlast.2]
        exact ⟨rfl, rfl⟩
      · exact htokens x hx
    · rw [hother i fun x hx => hi x (hchain ▸ List.mem_cons_of_mem _ hx), hkept i hi]

/-- Settles O39: the loop's lattice is the parser's own at the start, where it shadows itself. -/
theorem backwardReversesTheChain : Obligations.BackwardReversesTheChain := by
  intro cur s hpos hle hwf hd
  obtain ⟨o, ho, htokens, hother, hre⟩ :=
    backwardLoop_spec chainBound hpos (by unfold chainBound; omega) hwf hwf hd (.refl _ _)
  refine ⟨o, ?_, htokens, hother, hre⟩
  show execOptBackward cur s = _
  simp only [execOptBackward, backward, ho]
  rfl

end Sys2Proof
end

section
/-! Offers (45_optimal_parser R214, R219, R222 to R225): what a node holds once offers have been made to it in
order, and a lattice that offers extend. -/

namespace Sys2Proof

open Machine

/-! ### Costs of the tokens -/

/-- The price of a literal (R218, R222) is that of its decisions. -/
theorem litCost_eq (e : State) (st : U4) (position : U32) (prev m b : Byte) :
    isMatchPrice e st (posStateAt e position) false +
      litPrice e (litSelect e (position.setWidth 64) prev) (!stIsChar st) m b = litCost e st position prev m b := by
  rw [litPrice_eq_blockPrice, litCost, pathPrice_cons, isMatchPrice, isMatchCell_eq]
  by_cases h : st.toNat < 7
  · rw [(stIsChar_iff st).2 h, if_pos h]
    rfl
  · rw [Bool.eq_false_iff.2 (mt (stIsChar_iff st).1 h), if_neg h]
    rfl

/-- What leads to a rep: the decisions up to its length (R219, R224), or those of a short rep (R218, R222). -/
theorem repHeadCost_eq (e : State) (st : U4) (position : U32) (i : Nat) (short : Bool) :
    isMatchPrice e st (posStateAt e position) true + e.cellPrice (isRepCell st) true +
      pathPrice e (repNaming st.toNat (posStateAt e position).toNat i short) =
      repHeadCost e st position i short := by
  rw [repHeadCost, pathPrice_cons, pathPrice_cons, isMatchPrice, isMatchCell_eq, isRepCell_eq, BitVec.add_assoc]

theorem matchCost_eq (e : State) (st : U4) (position : U32) {len : Nat} (h2 : 2 ≤ len) (hlen : len < 2 ^ 32)
    (d : U32) : isMatchPrice e st (posStateAt e position) true + e.cellPrice (isRepCell st) false +
      posLenPrice e d (BitVec.ofNat 32 len) (posStateAt e position) = matchCost e st position len d := by
  have hw : (BitVec.ofNat 32 len).toNat = len := Nat.mod_eq_of_lt hlen
  rw [posLenPrice_eq e d _ (hw.symm ▸ h2), hw, matchCost, pathPrice_cons, pathPrice_cons, pathPrice_nil, isMatchPrice,
    isMatchCell_eq, isRepCell_eq, BitVec.add_zero, ← BitVec.add_assoc]
  rfl

/-- A rep's price is its head's and its length's, whichever is added first. -/
theorem repCost_eq (e : State) (st : U4) (position : U32) {i : Nat} (hi : i < 4) {len : Nat} (h2 : 2 ≤ len)
    (hlen : len < 2 ^ 32) : isMatchPrice e st (posStateAt e position) true + e.cellPrice (isRepCell st) true +
      pureRepPrice e i st (posStateAt e position) +
      lenPrice e .repLen (BitVec.ofNat 32 len - 2#32) (posStateAt e position) = repCost e st position i len := by
  have hword : (BitVec.ofNat 32 len).toNat = len := Nat.mod_eq_of_lt hlen
  have hw : (BitVec.ofNat 32 len - 2#32).toNat = len - 2 := by
    rw [BitVec.toNat_sub_of_le (hword.symm ▸ h2 : 2 ≤ (BitVec.ofNat 32 len).toNat), hword]
    rfl
  rw [pureRepPrice_eq e st _ hi, repHeadCost_eq, lenPrice_eq_lenPriceAt, hw]
  rfl

theorem repPrice_eq_add (e : State) (i : Nat) (len : U32) (st : U4) (ps : U32) :
    repPrice e i len st ps = pureRepPrice e i st ps + lenPrice e .repLen (len - 2#32) ps := BitVec.add_comm ..

/-! ### A node and the offers made to it -/

/-- The node that takes an offer, but for its price. -/
def Offer.place (f : Offer) (n : Node) : Node :=
  match f.lead with
  | .none => byToken f.start f.code n
  | .literal => byCharRep0 f.start n
  | .token start code => byHop f.start start code n

/-- The node that takes an offer. -/
def Offer.taken (f : Offer) (n : Node) : Node := f.place { n with price := f.price }

theorem Offer.place_kept (f : Offer) (n : Node) :
    (f.place n).price = n.price ∧ (f.place n).state = n.state ∧ (f.place n).backs = n.backs := by
  unfold Offer.place
  split <;> exact ⟨rfl, rfl, rfl⟩

/-- An offer as the phases make them: a token of at least two bytes that ends in the lattice, a hop's last token
being rep 0. -/
def Offer.Sound (f : Offer) : Prop :=
  f.target ≤ 4095 ∧ f.start + 1 < f.target ∧
    match f.lead with
    | .none => f.code.toNat < 2 ^ 31
    | .literal => 0 < f.start ∧ f.code = 0#32
    | .token start code => start + 2 < f.start ∧ f.code = 0#32 ∧ code.toNat < 2 ^ 31

theorem Offer.Sound.heldBy {f : Offer} (hf : f.Sound) (n : Node) : f.heldBy (f.taken n) = true := by
  obtain ⟨target, price, start, code, lead⟩ := f
  obtain ⟨hin, hlong, hlead⟩ := hf
  dsimp only at hin hlong hlead
  have hstart : (BitVec.ofNat 32 start).toNat = start := Nat.mod_eq_of_lt (by omega)
  cases lead with
  | none => simp [Offer.heldBy, Offer.taken, Offer.place, byToken, hstart]
  | literal =>
    obtain ⟨-, hcode⟩ := hlead
    simp [Offer.heldBy, Offer.taken, Offer.place, byCharRep0, hstart, hcode]
  | token from_ back =>
    obtain ⟨hfrom, hcode, -⟩ := hlead
    have hfrom' : (BitVec.ofNat 32 from_).toNat = from_ := Nat.mod_eq_of_lt (by omega)
    simp [Offer.heldBy, Offer.taken, Offer.place, byHop, hstart, hcode, hfrom']

theorem Offer.Sound.recordOk {f : Offer} (hf : f.Sound) (n : Node) : RecordOk (f.taken n) f.target := by
  obtain ⟨target, price, start, code, lead⟩ := f
  obtain ⟨hin, hlong, hlead⟩ := hf
  dsimp only at hin hlong hlead
  have hstart : (BitVec.ofNat 32 start).toNat = start := Nat.mod_eq_of_lt (by omega)
  cases lead with
  | none =>
    refine ⟨by show (BitVec.ofNat 32 start).toNat < target; omega, fun _ _ => hlead, nofun⟩
  | literal =>
    obtain ⟨h0, -⟩ := hlead
    refine ⟨?_, nofun, fun _ => ⟨?_, ?_, rfl, nofun⟩⟩
    · show (BitVec.ofNat 32 start).toNat < target; omega
    · show 0 < (BitVec.ofNat 32 start).toNat; omega
    · show (BitVec.ofNat 32 start).toNat + 1 < target; omega
  | token from_ back =>
    obtain ⟨hfrom, -, hback⟩ := hlead
    have hfrom' : (BitVec.ofNat 32 from_).toNat = from_ := Nat.mod_eq_of_lt (by omega)
    refine ⟨?_, nofun, fun _ => ⟨?_, ?_, rfl, fun _ => ⟨?_, hback⟩⟩⟩
    · show (BitVec.ofNat 32 start).toNat < target; omega
    · show 0 < (BitVec.ofNat 32 start).toNat; omega
    · show (BitVec.ofNat 32 start).toNat + 1 < target; omega
    · show (BitVec.ofNat 32 from_).toNat + 2 < (BitVec.ofNat 32 start).toNat; omega

/-- The node after the offers `fs`, each taken where it is strictly cheaper. -/
def settle (n : Node) : List Offer → Node
  | [] => n
  | f :: fs => settle (if f.price < n.price then f.taken n else n) fs

theorem settle_append (n : Node) (fs gs : List Offer) : settle n (fs ++ gs) = settle (settle n fs) gs := by
  induction fs generalizing n with
  | nil => rfl
  | cons f fs ih => exact ih _

theorem settle_rest (n : Node) (fs : List Offer) :
    (settle n fs).state = n.state ∧ (settle n fs).backs = n.backs := by
  induction fs generalizing n with
  | nil => exact ⟨rfl, rfl⟩
  | cons f fs ih =>
    obtain ⟨hstate, hbacks⟩ := ih (if f.price < n.price then f.taken n else n)
    obtain ⟨-, hs, hb⟩ := f.place_kept { n with price := f.price }
    rw [settle, hstate, hbacks]
    split
    · exact ⟨hs, hb⟩
    · exact ⟨rfl, rfl⟩

theorem settle_untaken {n : Node} {fs : List Offer} (h : ∀ f ∈ fs, n.price ≤ f.price) : settle n fs = n := by
  induction fs with
  | nil => rfl
  | cons f fs ih =>
    rw [settle, if_neg (BitVec.not_lt.2 (h f List.mem_cons_self))]
    exact ih fun g hg => h g (List.mem_cons_of_mem _ hg)

/-- The first of the cheapest offers stands. -/
theorem settle_taken {f : Offer} {after : List Offer} (hafter : ∀ g ∈ after, f.price ≤ g.price) :
    ∀ {before : List Offer} {n : Node}, f.price < n.price → (∀ g ∈ before, f.price < g.price) →
      ∃ m, settle n (before ++ f :: after) = f.taken m
  | [], n, hn, _ => by
    refine ⟨n, ?_⟩
    rw [List.nil_append, settle, if_pos hn]
    refine settle_untaken fun g hg => ?_
    rw [Offer.taken, (f.place_kept _).1]
    exact hafter g hg
  | g :: before, n, hn, hbefore => by
    rw [List.cons_append, settle]
    refine settle_taken hafter ?_ fun k hk => hbefore k (List.mem_cons_of_mem _ hk)
    split
    · rw [Offer.taken, (g.place_kept _).1]
      exact hbefore g List.mem_cons_self
    · exact hn

theorem settles_settle (base : U32) (old : Node) {fs : List Offer} (hs : ∀ f ∈ fs, f.Sound) :
    Settles base old (settle { old with price := base } fs) fs where
  rest := settle_rest _ fs
  untaken h := settle_untaken h
  taken f before after hfs hlt hbefore hafter := by
    subst hfs
    obtain ⟨m, hm⟩ := settle_taken hafter (n := { old with price := base }) hlt hbefore
    rw [hm]
    exact (hs f (List.mem_append_right _ List.mem_cons_self)).heldBy m

/-- A node with a finite price has a record in order, if it had one before the offers. -/
theorem recordOk_settle {i : Nat} : ∀ {fs : List Offer} {n : Node},
    (∀ f ∈ fs, f.Sound ∧ f.target = i) → (n.price < kInfinityPrice → RecordOk n i) →
      (settle n fs).price < kInfinityPrice → RecordOk (settle n fs) i
  | [], _, _, hn, h => hn h
  | f :: fs, n, hs, hn, h => by
    obtain ⟨hf, hi⟩ := hs f List.mem_cons_self
    rw [settle] at h ⊢
    refine recordOk_settle (fun g hg => hs g (List.mem_cons_of_mem _ hg)) (fun hlt => ?_) h
    split
    · exact hi ▸ hf.recordOk n
    · next hle => exact hn (by rwa [if_neg hle] at hlt)

/-! ### A lattice and the offers made to its nodes -/

/-- The end of the lattice after the offers `fs`: it grows to the farthest. -/
def reach (n : Nat) (fs : List Offer) : Nat := fs.foldl (fun n f => max n f.target) n

theorem reach_append (n : Nat) (fs gs : List Offer) : reach n (fs ++ gs) = reach (reach n fs) gs :=
  List.foldl_append

theorem reach_le_iff {n m : Nat} {fs : List Offer} : reach n fs ≤ m ↔ n ≤ m ∧ ∀ f ∈ fs, f.target ≤ m := by
  induction fs generalizing n with
  | nil => simp [reach]
  | cons f fs ih =>
    rw [reach, List.foldl_cons, ← reach, ih, max_le_iff, List.forall_mem_cons, and_assoc]

theorem le_reach (n : Nat) (fs : List Offer) : n ≤ reach n fs := (reach_le_iff.1 le_rfl).1

theorem target_le_reach {f : Offer} (n : Nat) {fs : List Offer} (h : f ∈ fs) : f.target ≤ reach n fs :=
  (reach_le_iff.1 le_rfl).2 f h

theorem reach_max (n m : Nat) (fs : List Offer) : reach (max n m) fs = max (reach n fs) m := by
  induction fs generalizing n with
  | nil => rfl
  | cons f fs ih =>
    rw [reach, List.foldl_cons, ← reach, max_right_comm, ih]
    rfl

theorem reach_of_within {n : Nat} {fs : List Offer} (h : ∀ f ∈ fs, f.target ≤ n) : reach n fs = n :=
  le_antisymm (reach_le_iff.2 ⟨le_rfl, h⟩) (le_reach n fs)

/-- The offers for node `i`. -/
def offersAt (i : Nat) (fs : List Offer) : List Offer := fs.filter fun f => decide (f.target = i)

theorem mem_offersAt {i : Nat} {fs : List Offer} {f : Offer} : f ∈ offersAt i fs ↔ f ∈ fs ∧ f.target = i := by
  rw [offersAt, List.mem_filter, decide_eq_true_iff]

theorem offersAt_append (i : Nat) (fs gs : List Offer) : offersAt i (fs ++ gs) = offersAt i fs ++ offersAt i gs :=
  List.filter_append ..

theorem offersAt_of_reach_lt {i n : Nat} {fs : List Offer} (h : reach n fs < i) : offersAt i fs = [] := by
  refine List.eq_nil_iff_forall_not_mem.2 fun f hf => ?_
  obtain ⟨hmem, rfl⟩ := mem_offersAt.1 hf
  exact absurd (target_le_reach n hmem) (Nat.not_le.2 h)

/-- A node once the lattice that ended at `lenEnd` ends at `newEnd`: the nodes it grows by are open. -/
def opened (lenEnd newEnd i : Nat) (n : Node) : Node :=
  if lenEnd < i ∧ i ≤ newEnd then { n with price := kInfinityPrice } else n

/-- `l'` is the lattice `l` after the offers `fs`, in order. -/
structure Made (fs : List Offer) (l l' : Machine.Lat) : Prop where
  ok : LatOk l'
  lenEnd : l'.lenEnd = reach l.lenEnd fs
  nodes : ∀ i, node l'.o i = settle (opened l.lenEnd l'.lenEnd i (node l.o i)) (offersAt i fs)

variable {l l' l'' : Machine.Lat} {fs gs : List Offer}

theorem extend_lenEnd (l : Machine.Lat) (target : Nat) : (l.extend target).lenEnd = max l.lenEnd target := by
  unfold Machine.Lat.extend
  split
  · next h => exact (max_eq_right h.le).symm
  · next h => exact (max_eq_left (Nat.le_of_not_lt h)).symm

theorem node_extend (h : LatOk l) (target i : Nat) :
    node (l.extend target).o i = opened l.lenEnd target i (node l.o i) := by
  unfold Machine.Lat.extend opened
  split
  · next ht =>
    rw [node_openNodes _ _ _ h]
    exact if_congr (and_congr_right' (by omega)) rfl rfl
  · next ht => rw [if_neg (by omega)]

theorem Made.nil (h : LatOk l) : Made [] l l := by
  refine ⟨h, rfl, fun i => ?_⟩
  rw [opened, if_neg (by omega)]
  rfl

/-- One offer, the lattice growing to its node first. -/
theorem Made.one (h : LatOk l) (f : Offer) :
    Made [f] l ((l.extend f.target).relax f.target f.price f.place) := by
  refine ⟨(h.extend _).relax _ _ _, extend_lenEnd l f.target, fun i => ?_⟩
  have hend : ((l.extend f.target).relax f.target f.price f.place).lenEnd = max l.lenEnd f.target :=
    extend_lenEnd l f.target
  have hopen : opened l.lenEnd (max l.lenEnd f.target) i (node l.o i) =
      opened l.lenEnd f.target i (node l.o i) := if_congr (by omega) rfl rfl
  have hrelax : node ((l.extend f.target).relax f.target f.price f.place).o i = _ :=
    node_relax (h.extend f.target) f.target i f.price f.place
  rw [hrelax, hend, hopen, ← node_extend h]
  by_cases hi : i = f.target
  · subst hi
    rw [offersAt, List.filter_cons_of_pos (by simp)]
    exact if_congr (and_iff_right rfl) rfl rfl
  · rw [if_neg fun hc => hi hc.1, offersAt, List.filter_cons_of_neg (by simpa using Ne.symm hi)]
    rfl

/-- One offer inside the lattice. -/
theorem Made.within (h : LatOk l) (f : Offer) (hf : f.target ≤ l.lenEnd) :
    Made [f] l (l.relax f.target f.price f.place) := by
  have hsame : l.extend f.target = l := if_neg (Nat.not_lt.2 hf)
  have hmade := Made.one h f
  rwa [hsame] at hmade

theorem Made.append (h : Made fs l l') (k : Made gs l' l'') : Made (fs ++ gs) l l'' := by
  refine ⟨k.ok, ?_, fun i => ?_⟩
  · rw [k.lenEnd, h.lenEnd, reach_append]
  · have hle : l'.lenEnd ≤ l''.lenEnd := k.lenEnd ▸ le_reach ..
    rw [k.nodes, h.nodes, offersAt_append, settle_append]
    congr 1
    rcases Nat.lt_or_ge l'.lenEnd i with hi | hi
    · have hnone : offersAt i fs = [] := offersAt_of_reach_lt (h.lenEnd ▸ hi)
      have hll : l.lenEnd ≤ l'.lenEnd := h.lenEnd ▸ le_reach ..
      rw [hnone]
      simp only [settle, opened, if_neg (show ¬(l.lenEnd < i ∧ i ≤ l'.lenEnd) by omega)]
      exact if_congr (by omega) rfl rfl
    · rw [opened, if_neg (by omega), opened, opened]
      exact congrArg (settle · _) (if_congr (by omega) rfl rfl)

/-- Opening nodes first that some offer opens anyway makes no difference. -/
theorem Made.of_extend (hl : LatOk l) {target : Nat} (h : Made fs (l.extend target) l')
    (ht : target ≤ reach l.lenEnd fs) : Made fs l l' := by
  have hend : l'.lenEnd = reach l.lenEnd fs := by rw [h.lenEnd, extend_lenEnd, reach_max, max_eq_left ht]
  refine ⟨h.ok, hend, fun i => ?_⟩
  rw [h.nodes, node_extend hl, extend_lenEnd]
  congr 1
  unfold opened
  have hle := le_reach l.lenEnd fs
  by_cases hi : l.lenEnd < i ∧ i ≤ target
  · rw [if_neg (by omega), if_pos hi, if_pos (by omega)]
  · rw [if_neg hi]
    exact if_congr (by omega) rfl rfl

end Sys2Proof
end

section
/-! The loops over the match candidates (45_optimal_parser R219, R225): one length after another, each at the
nearest candidate that has it. -/

namespace Sys2Proof

open Machine

/-! ### Candidates in the buffer -/

/-- The buffer's first cells hold the candidates `d`, lengths rising. -/
structure PairsAre (p : Parser) (d : List (Nat × U32)) : Prop where
  cells : ∀ k (h : k < d.length), distAt p (2 * k) = BitVec.ofNat 32 d[k].1 ∧ distAt p (2 * k + 1) = d[k].2
  rising : (d.map Prod.fst).Pairwise (· < ·)
  short : ∀ x ∈ d, x.1 ≤ 273
  near : ∀ x ∈ d, x.2.toNat < 2 ^ 31 - 4

theorem CandidatesAre.pairs {p : Parser} {d : List (Nat × U32)} {longest : U32} (h : CandidatesAre p d longest) :
    PairsAre p d := ⟨h.cells, h.rising, fun x hx => (h.lengths x hx).2, h.near⟩

/-- The longest candidate's length, 0 without candidates. -/
def longestOf (d : List (Nat × U32)) : Nat := (d.getLast?.map Prod.fst).getD 0

theorem longestOf_append (d : List (Nat × U32)) (x : Nat × U32) : longestOf (d ++ [x]) = x.1 := by
  simp [longestOf]

variable {p : Parser} {d before after : List (Nat × U32)} {m len : Nat} {dist : U32}

theorem PairsAre.pair (h : PairsAre p d) (hd : d = before ++ (m, dist) :: after) :
    distAt p (2 * before.length) = BitVec.ofNat 32 m ∧ distAt p (2 * before.length + 1) = dist := by
  subst hd
  have hcells := h.cells before.length (by simp)
  simpa using hcells

theorem PairsAre.rising_at (h : PairsAre p d) (hd : d = before ++ (m, dist) :: after) :
    (∀ x ∈ before, x.1 < m) ∧ ∀ x ∈ after, m < x.1 := by
  subst hd
  have hrising := h.rising
  rw [List.map_append, List.map_cons, List.pairwise_append, List.pairwise_cons] at hrising
  obtain ⟨-, ⟨hafter, -⟩, hbefore⟩ := hrising
  exact ⟨fun x hx => hbefore x.1 (List.mem_map_of_mem hx) m List.mem_cons_self,
    fun x hx => hafter x.1 (List.mem_map_of_mem hx)⟩

theorem longestOf_mem (h : d ≠ []) : ∃ x ∈ d, x.1 = longestOf d :=
  ⟨_, List.getLast_mem h, by rw [longestOf, List.getLast?_eq_some_getLast h]; rfl⟩

theorem PairsAre.le_longest (h : PairsAre p d) {x : Nat × U32} (hx : x ∈ d) : x.1 ≤ longestOf d := by
  obtain ⟨before, after, hd⟩ := List.append_of_mem hx
  obtain ⟨-, hafter⟩ := h.rising_at hd
  rcases List.eq_nil_or_concat after with rfl | ⟨after', y, rfl⟩
  · rw [hd, longestOf_append]
  · rw [List.concat_eq_append] at hd hafter
    rw [hd, ← List.cons_append, ← List.append_assoc, longestOf_append]
    exact (hafter y (List.mem_append_right _ List.mem_cons_self)).le

/-- The candidates up to the first of at least `len` bytes, if one has as many. -/
theorem exists_split (hne : d ≠ []) (h : len ≤ longestOf d) : ∃ before m dist after,
    d = before ++ (m, dist) :: after ∧ (∀ x ∈ before, x.1 < len) ∧ len ≤ m := by
  obtain ⟨x, hx, hlong⟩ := longestOf_mem hne
  have hdrop : d.dropWhile (fun x => decide (x.1 < len)) ≠ [] := by
    rw [Ne, List.dropWhile_eq_nil_iff]
    intro hall
    have := of_decide_eq_true (hall x hx)
    omega
  obtain ⟨y, ys, hy⟩ := List.exists_cons_of_ne_nil hdrop
  refine ⟨d.takeWhile fun x => decide (x.1 < len), y.1, y.2, ys, ?_, fun x hx => ?_, ?_⟩
  · rw [← hy, List.takeWhile_append_dropWhile]
  · simpa using List.mem_takeWhile_imp hx
  · have hhead := List.head_dropWhile_not (fun x : Nat × U32 => decide (x.1 < len)) hdrop
    simp only [hy, List.head_cons, decide_eq_false_iff_not, Nat.not_lt] at hhead
    exact hhead

theorem find?_split (hbefore : ∀ x ∈ before, x.1 < len) (hm : len ≤ m) :
    (before ++ (m, dist) :: after).find? (fun x => decide (len ≤ x.1)) = some (m, dist) := by
  rw [List.find?_append, List.find?_eq_none.2, List.find?_cons_of_pos (by simpa using hm)]
  · rfl
  · intro x hx
    simpa using hbefore x hx

theorem distanceFor_split (hd : d = before ++ (m, dist) :: after) (hbefore : ∀ x ∈ before, x.1 < len)
    (hm : len ≤ m) : distanceFor d len = dist := by
  rw [hd, distanceFor, find?_split hbefore hm]
  rfl

theorem takeWhile_split (hbefore : ∀ x ∈ before, x.1 < len) (hm : len ≤ m) :
    (before ++ (m, dist) :: after).takeWhile (fun x => decide (x.1 < len)) = before := by
  rw [List.takeWhile_append_of_pos fun x hx => decide_eq_true (hbefore x hx),
    List.takeWhile_cons_of_neg (by simpa using hm), List.append_nil]

theorem ofNat_inj_of_short {a b : Nat} (ha : a ≤ 273) (hb : b ≤ 273) :
    BitVec.ofNat 32 a = BitVec.ofNat 32 b ↔ a = b := by
  refine ⟨fun h => ?_, congrArg _⟩
  have h' := congrArg BitVec.toNat h
  rwa [BitVec.toNat_ofNat, BitVec.toNat_ofNat, Nat.mod_eq_of_lt (by omega), Nat.mod_eq_of_lt (by omega)] at h'

/-! ### Skipping to a length -/

/-- `while len > D[offs]: offs <- offs + 2`. -/
theorem skipPairs_eq (h : PairsAre p d) {w : U32} (hm : w.toNat ≤ m) : ∀ {skipped rest : List (Nat × U32)} {fuel : Nat},
    d = skipped ++ (rest ++ (m, dist) :: after) → (∀ x ∈ rest, x.1 < w.toNat) → rest.length < fuel →
      skipPairs p w fuel (2 * skipped.length) = some (2 * (skipped.length + rest.length))
  | _, _, 0, _, _, hf => absurd hf (Nat.not_lt_zero _)
  | skipped, [], fuel + 1, hd, _, _ => by
    have hshort : m ≤ 273 := h.short (m, dist) (by rw [hd]; simp)
    rw [skipPairs, (h.pair hd).1, if_neg]
    · rfl
    · rw [BitVec.lt_def, BitVec.toNat_ofNat, Nat.mod_eq_of_lt (by omega)]
      exact Nat.not_lt.2 hm
  | skipped, x :: rest, fuel + 1, hd, hrest, hf => by
    obtain ⟨hx, hrest⟩ := List.forall_mem_cons.1 hrest
    have hshort : x.1 ≤ 273 := h.short x (by rw [hd]; simp)
    have hnext := skipPairs_eq h hm (skipped := skipped ++ [x]) (rest := rest) (fuel := fuel) (by rw [hd]; simp) hrest
      (Nat.lt_of_succ_lt_succ hf)
    rw [List.length_append, List.length_singleton, Nat.mul_add] at hnext
    rw [skipPairs, (h.pair hd).1, if_pos, hnext, List.length_cons, Nat.add_assoc, Nat.add_comm 1]
    rw [BitVec.lt_def, BitVec.toNat_ofNat, Nat.mod_eq_of_lt (by omega)]
    exact hx

/-- As lengths rise, there are fewer candidates than the buffer has pairs. -/
theorem PairsAre.length_lt (h : PairsAre p d) : d.length < pairBound := by
  have hnodup : (d.map Prod.fst).Nodup := h.rising.imp Nat.ne_of_lt
  have hsub : d.map Prod.fst ⊆ List.range 274 := fun a ha => by
    obtain ⟨x, hx, rfl⟩ := List.mem_map.1 ha
    exact List.mem_range.2 (Nat.lt_succ_of_le (h.short x hx))
  have hle := (hnodup.subperm hsub).length_le
  rw [List.length_map, List.length_range] at hle
  exact Nat.lt_succ_of_le hle

theorem PairsAre.skipPairs (h : PairsAre p d) {w : U32} (hd : d = before ++ (m, dist) :: after)
    (hbefore : ∀ x ∈ before, x.1 < w.toNat) (hm : w.toNat ≤ m) :
    skipPairs p w pairBound 0 = some (2 * before.length) := by
  have hlen := h.length_lt
  have hskip := skipPairs_eq h hm (skipped := []) (rest := before) (fuel := pairBound) hd hbefore
    (by rw [hd, List.length_append] at hlen; omega)
  rwa [List.length_nil, Nat.zero_add] at hskip

/-! ### The loop over the lengths -/

/-- The loop of R219 and of R225: `offer` at each length and its distance, and `hop` at the lengths the candidates
end at. -/
def scanPairs (p : Parser) (offer hop : Nat → U32 → Machine.Lat → Machine.Lat) (numPairs : Nat) :
    Nat → Nat → Nat → Machine.Lat → Option Machine.Lat
  | 0, _, _, _ => none
  | fuel + 1, len, offs, l =>
    let dist := distAt p (offs + 1)
    let l := offer len dist l
    if BitVec.ofNat 32 len = distAt p offs then
      if offs + 2 = numPairs then some (hop len dist l)
      else scanPairs p offer hop numPairs fuel (len + 1) (offs + 2) (hop len dist l)
    else scanPairs p offer hop numPairs fuel (len + 1) offs l

/-- What the loop does at one length. -/
def scanStep (d : List (Nat × U32)) (offer hop : Nat → U32 → Machine.Lat → Machine.Lat) (l : Machine.Lat)
    (len : Nat) : Machine.Lat :=
  let l := offer len (distanceFor d len) l
  if d.any fun x => decide (x.1 = len) then hop len (distanceFor d len) l else l

theorem any_length_split (h : PairsAre p d) (hd : d = before ++ (m, dist) :: after)
    (hbefore : ∀ x ∈ before, x.1 < len) (hm : len ≤ m) : (d.any fun x => decide (x.1 = len)) = decide (m = len) := by
  obtain ⟨-, hafter⟩ := h.rising_at hd
  rw [Bool.eq_iff_iff, List.any_eq_true]
  simp only [decide_eq_true_iff]
  constructor
  · rintro ⟨x, hx, rfl⟩
    rw [hd] at hx
    rcases List.mem_append.1 hx with hx | hx
    · exact absurd (hbefore x hx) (Nat.lt_irrefl _)
    · rcases List.mem_cons.1 hx with rfl | hx
      · rfl
      · have := hafter x hx
        omega
  · rintro rfl
    exact ⟨(m, dist), by rw [hd]; simp, rfl⟩

theorem scanPairs_eq (h : PairsAre p d) (offer hop : Nat → U32 → Machine.Lat → Machine.Lat) :
    ∀ {fuel len m : Nat} {dist : U32} {before after : List (Nat × U32)} (l : Machine.Lat),
      d = before ++ (m, dist) :: after → (∀ x ∈ before, x.1 < len) → len ≤ m → longestOf d < fuel + len →
      scanPairs p offer hop (2 * d.length) fuel len (2 * before.length) l =
        some ((List.range' len (longestOf d + 1 - len)).foldl (scanStep d offer hop) l)
  | 0, len, m, dist, before, after, l, hd, _, hm, hf => by
    have hlong := h.le_longest (x := (m, dist)) (by rw [hd]; simp)
    omega
  | fuel + 1, len, m, dist, before, after, l, hd, hbefore, hm, hf => by
    have hmem : (m, dist) ∈ d := by rw [hd]; simp
    have hlong : m ≤ longestOf d := h.le_longest hmem
    have hshort : m ≤ 273 := h.short _ hmem
    obtain ⟨hcell, hdist⟩ := h.pair hd
    obtain ⟨hbelow, habove⟩ := h.rising_at hd
    have hstep : scanStep d offer hop l len =
        if m = len then hop len dist (offer len dist l) else offer len dist l := by
      rw [scanStep, distanceFor_split hd hbefore hm, any_length_split h hd hbefore hm]
      simp only [decide_eq_true_iff]
    rw [show longestOf d + 1 - len = (longestOf d - len) + 1 by omega, List.range'_succ, List.foldl_cons, hstep,
      scanPairs, hdist, hcell]
    by_cases heq : m = len
    · subst heq
      rw [if_pos rfl, if_pos rfl]
      cases after with
      | nil =>
        have hlast : longestOf d = m := by rw [hd, longestOf_append]
        rw [if_pos (by rw [hd]; simp; omega), hlast, Nat.sub_self]
        rfl
      | cons x after =>
        rw [if_neg (by rw [hd]; simp; omega)]
        have hnext := scanPairs_eq h offer hop (fuel := fuel) (len := m + 1) (before := before ++ [(m, dist)])
          (hop m dist (offer m dist l)) (by rw [hd, List.append_assoc]; rfl)
          (fun y hy => by
            rcases List.mem_append.1 hy with hy | hy
            · exact Nat.lt_succ_of_lt (hbelow y hy)
            · rw [List.mem_singleton.1 hy]; exact Nat.lt_succ_self m)
          (habove x List.mem_cons_self) (by omega)
        rw [List.length_append, List.length_singleton, Nat.mul_add] at hnext
        rw [hnext, show longestOf d + 1 - (m + 1) = longestOf d - m by omega]
    · rw [if_neg (mt (ofNat_inj_of_short (by omega) hshort).1 (Ne.symm heq)), if_neg heq,
        scanPairs_eq h offer hop (fuel := fuel) (len := len + 1) _ hd (fun x hx => Nat.lt_succ_of_lt (hbefore x hx))
          (by omega) (by omega), show longestOf d + 1 - (len + 1) = longestOf d - len by omega]

end Sys2Proof
end

section
/-! The phases' offers (45_optimal_parser R219, R223 to R225): each loop of a phase makes its offers to the lattice,
in order. -/

namespace Sys2Proof

open Machine

variable {e : State} {x : PM} {v : Visit} {l l' : Machine.Lat} {st : U4} {position price : U32} {cur : Nat}

/-! ### Reps of falling length (R219, R224) -/

theorem repOffers_succ (e : State) (st : U4) (position price : U32) (cur i : Nat) {len : Nat} (h : 1 ≤ len) :
    repOffers e st position price cur i (len + 1) =
      ⟨cur + (len + 1), price + repCost e st position i (len + 1), cur, BitVec.ofNat 32 i, .none⟩ ::
        repOffers e st position price cur i len := by
  obtain ⟨k, rfl⟩ := Nat.exists_eq_add_of_le' h
  simp only [repOffers, Nat.add_sub_cancel, List.range_succ_eq_map, List.map_cons, List.map_map, Nat.sub_zero]
  refine congrArg _ (List.map_congr_left fun j _ => ?_)
  simp only [Function.comp_apply, Nat.succ_eq_add_one, Nat.add_sub_add_right]

theorem repOffers_of_lt (e : State) (st : U4) (position price : U32) (cur i : Nat) {len : Nat} (h : len < 2) :
    repOffers e st position price cur i len = [] := by
  rw [repOffers, Nat.sub_eq_zero_of_le (by omega)]
  rfl

/-- `relaxReps` inside the lattice, `p` being what the rep costs before its length. -/
theorem made_relaxReps {i : Nat} {p ps : U32} : ∀ {len : Nat} {l : Machine.Lat}, LatOk l → cur + len ≤ l.lenEnd →
    (∀ n, 2 ≤ n → n ≤ len →
      p + lenPrice e .repLen (BitVec.ofNat 32 n - 2#32) ps = price + repCost e st position i n) →
    Made (repOffers e st position price cur i len) l { l with o := relaxReps e i p ps cur len l.o }
  | 0, l, hl, _, _ => by
    rw [repOffers_of_lt e st position price cur i (by decide)]
    exact .nil hl
  | len + 1, l, hl, hin, hp => by
    rw [relaxReps]
    split
    · next h =>
      rw [repOffers_of_lt e st position price cur i h]
      exact .nil hl
    · next h =>
      rw [repOffers_succ e st position price cur i (by omega), hp (len + 1) (by omega) le_rfl]
      have hfirst := Made.within hl
        ⟨cur + (len + 1), price + repCost e st position i (len + 1), cur, BitVec.ofNat 32 i, .none⟩ hin
      exact hfirst.append (made_relaxReps hfirst.ok (show cur + len ≤ l.lenEnd by omega)
        fun n h2 hn => hp n h2 (Nat.le_succ_of_le hn))

/-! ### The matches -/

theorem Made.foldl {step : Machine.Lat → Nat → Machine.Lat} {g : Nat → List Offer} {target : Nat} :
    ∀ {ks : List Nat} {l : Machine.Lat}, LatOk l → target ≤ l.lenEnd →
      (∀ k ∈ ks, ∀ l, LatOk l → target ≤ l.lenEnd → Made (g k) l (step l k)) →
      Made (ks.flatMap g) l (ks.foldl step l)
  | [], _, hl, _, _ => .nil hl
  | k :: ks, l, hl, ht, hg => by
    obtain ⟨hk, hks⟩ := List.forall_mem_cons.1 hg
    have hfirst := hk l hl ht
    exact hfirst.append (Made.foldl hfirst.ok (hfirst.lenEnd ▸ ht.trans (le_reach ..)) hks)

/-- What the matches offer at one length. -/
def lengthOffers (e : State) (st : U4) (position price : U32) (cur : Nat) (d : List (Nat × U32))
    (hop : Nat → U32 → U32 → List Offer) (len : Nat) : List Offer :=
  let dist := distanceFor d len
  let cost := price + matchCost e st position len dist
  ⟨cur + len, cost, cur, dist + 4#32, .none⟩ :: if d.any fun x => decide (x.1 = len) then hop len dist cost else []

theorem matchOffers_eq (e : State) (st : U4) (position price : U32) (cur : Nat) (d : List (Nat × U32))
    (first most : Nat) (hop : Nat → U32 → U32 → List Offer) :
    matchOffers e st position price cur d first most hop =
      (List.range' first (most + 1 - first)).flatMap (lengthOffers e st position price cur d hop) := by
  rw [List.range'_eq_map_range, List.flatMap_map]
  rfl

/-- The match of `len` bytes at `dist`, as both loops offer it; `p` is what a match costs before its fields. -/
def offerMatch (e : State) (p ps : U32) (cur len : Nat) (dist : U32) (l : Machine.Lat) : Machine.Lat :=
  l.relax (cur + len) (p + posLenPrice e dist (BitVec.ofNat 32 len) ps) (byToken cur (dist + 4#32))

theorem matchLoop_eq_scanPairs (e : State) (x : PM) (v : Visit) (p : U32) (numPairs : Nat) :
    ∀ (fuel len offs : Nat) (l : Machine.Lat), matchLoop e x v p numPairs fuel len offs l =
      scanPairs x.p (offerMatch e p v.ps v.cur)
        (fun len dist l => tryHop e x v len dist (dist + 4#32) (p + posLenPrice e dist (BitVec.ofNat 32 len) v.ps)
          (stMatch v.st) l) numPairs fuel len offs l
  | 0, _, _, _ => rfl
  | fuel + 1, len, offs, l => by
    simp only [matchLoop, scanPairs, matchLoop_eq_scanPairs e x v p numPairs fuel]
    rfl

/-- The loop of phase E is that of phase F6 without hops (R219). -/
theorem seedLoop_eq_scanPairs (e : State) (q : Parser) (p ps : U32) (numPairs : Nat) :
    ∀ (fuel len offs : Nat) (l : Machine.Lat), seedLoop e q p ps numPairs fuel len offs l.o =
      (scanPairs q (offerMatch e p ps 0) (fun _ _ l => l) numPairs fuel len offs l).map Machine.Lat.o
  | 0, _, _, _ => rfl
  | fuel + 1, len, offs, l => by
    have hrelax : relax l.o len (p + posLenPrice e (distAt q (offs + 1)) (BitVec.ofNat 32 len) ps)
        (byToken 0 (distAt q (offs + 1) + 4#32)) = (offerMatch e p ps 0 len (distAt q (offs + 1)) l).o := by
      rw [offerMatch, Nat.zero_add]
      rfl
    simp only [seedLoop, scanPairs, hrelax, seedLoop_eq_scanPairs e q p ps numPairs fuel, apply_ite (Option.map _)]
    rfl

variable {p ps : U32} {q : Parser} {d before after : List (Nat × U32)} {first m : Nat} {dist : U32}
  {hop : Nat → U32 → U32 → List Offer} {hopStep : Nat → U32 → U32 → Machine.Lat → Machine.Lat}

/-- The loop over the candidates from length `first` on, `hopStep` making the offers `hop` after a match. -/
theorem made_scanPairs (h : PairsAre q d) (hl : LatOk l) (hin : cur + longestOf d ≤ l.lenEnd)
    (hp : ∀ n d, 2 ≤ n → n ≤ 273 →
      p + posLenPrice e d (BitVec.ofNat 32 n) ps = price + matchCost e st position n d)
    (hhop : ∀ len dist cost l, LatOk l → Made (hop len dist cost) l (hopStep len dist cost l))
    (hd : d = before ++ (m, dist) :: after) (hbefore : ∀ x ∈ before, x.1 < first) (h2 : 2 ≤ first) (hm : first ≤ m) :
    ∃ l', scanPairs q (offerMatch e p ps cur)
        (fun len dist l => hopStep len dist (p + posLenPrice e dist (BitVec.ofNat 32 len) ps) l) (2 * d.length)
        lengthBound first (2 * before.length) l = some l' ∧
      Made (matchOffers e st position price cur d first (longestOf d) hop) l l' := by
  have hlong : longestOf d ≤ 273 := by
    obtain ⟨y, hy, hlast⟩ := longestOf_mem (d := d) (by rw [hd]; simp)
    exact hlast ▸ h.short y hy
  refine ⟨_, scanPairs_eq h _ _ l hd hbefore hm (by unfold lengthBound; omega), ?_⟩
  rw [matchOffers_eq]
  refine Made.foldl (target := cur + longestOf d) hl hin fun len hlen l hl hin => ?_
  obtain ⟨hlo, hhi⟩ := List.mem_range'_1.1 hlen
  have hoffer := Made.within hl
    ⟨cur + len, price + matchCost e st position len (distanceFor d len), cur, distanceFor d len + 4#32, .none⟩
    (show cur + len ≤ l.lenEnd by omega)
  rw [lengthOffers, scanStep, offerMatch, hp len _ (by omega) (by omega)]
  split
  · exact hoffer.append (hhop _ _ _ _ hoffer.ok)
  · exact hoffer.append (.nil hoffer.ok)

end Sys2Proof
end

section
/-! The offers made at a node of the walk (45_optimal_parser R223 to R225): literal and rep 0, the reps, the matches,
each with its hop. -/

namespace Sys2Proof

open Machine

/-! ### States and lengths -/

theorem toNat_fastBytes (e : State) : e.fastBytes.toNat = e.encCfg.fastBytes.toNat :=
  BitVec.toNat_setWidth_of_le (by decide)

theorem mfMatchLen_le (e : State) (m : MatchFinder) (k : Int) (d : U32) (limit : Nat) :
    mfMatchLen e m k d limit ≤ limit := by
  obtain ⟨hle, -, -⟩ := runLength_spec e ((d.toNat : Int) + 1) (matchLimit m k limit) (mfIndex m k)
  exact hle.trans (matchLimit_eq_min m k limit ▸ Nat.min_le_left ..)

theorem seven_le_stRep (st : U4) : 7 ≤ (stRep st).toNat := by
  unfold stRep
  split <;> decide

theorem seven_le_stMatch (st : U4) : 7 ≤ (stMatch st).toNat := by
  unfold stMatch
  split <;> decide

/-- What F3 and F4 know of the node visited, at which the sweep has arrived for `price` (R222, R223). -/
structure VisitOf (e : State) (x : PM) (price : U32) (v : Visit) : Prop where
  posState : v.ps = posStateAt e v.position
  literal : v.literalPrice = price + litCost e v.st v.position (byteAt e x (-2#32)) v.matchByte v.curByte
  match_ : v.matchPrice = price + isMatchPrice e v.st (posStateAt e v.position) true
  rep : v.repMatchPrice = price + isMatchPrice e v.st (posStateAt e v.position) true + e.cellPrice (isRepCell v.st) true
  room : v.cur + v.availFull ≤ 4095
  avail : v.avail = min v.availFull e.encCfg.fastBytes.toNat

theorem visitNode_visitOf (e : State) (x : PM) {cur : Nat} (hc : cur ≤ 4095) (position : U32) (st : U4) (reps : Quad) :
    VisitOf e x (node x.p.optimum cur).price (visitNode e x cur position st reps) where
  posState := rfl
  literal := by
    rw [← litCost_eq, ← BitVec.add_assoc]
    rfl
  match_ := rfl
  rep := rfl
  room := by
    show cur + min (4095 - cur) _ ≤ 4095
    omega
  avail := by rw [← toNat_fastBytes]; rfl

variable {e : State} {x : PM} {v : Visit} {l : Machine.Lat} {price : U32}

/-! ### Costs -/

theorem VisitOf.repTotal (hv : VisitOf e x price v) {i : Nat} (hi : i < 4) {len : Nat} (h2 : 2 ≤ len)
    (hlen : len < 2 ^ 32) :
    v.repMatchPrice + pureRepPrice e i v.st v.ps + lenPrice e .repLen (BitVec.ofNat 32 len - 2#32) v.ps =
      price + repCost e v.st v.position i len := by
  rw [hv.rep, hv.posState, ← repCost_eq e v.st v.position hi h2 hlen]
  simp only [BitVec.add_assoc]

theorem VisitOf.matchTotal (hv : VisitOf e x price v) {len : Nat} (h2 : 2 ≤ len) (hlen : len < 2 ^ 32) (d : U32) :
    v.matchPrice + e.cellPrice (isRepCell v.st) false + posLenPrice e d (BitVec.ofNat 32 len) v.ps =
      price + matchCost e v.st v.position len d := by
  rw [hv.match_, hv.posState, ← matchCost_eq e v.st v.position h2 hlen]
  simp only [BitVec.add_assoc]

theorem rep0After_eq (e : State) (price : U32) (st : U4) (position : U32) {len : Nat} (h2 : 2 ≤ len)
    (hlen : len < 2 ^ 32) : rep0After e price st position len = price + repCost e st position 0 len := by
  rw [rep0After, repPrice_eq_add, ← repCost_eq e st position (by decide) h2 hlen]
  simp only [BitVec.add_assoc]

/-! ### A literal and then rep 0 (R223) -/

/-- How many bytes agree at rep 0 after a literal. -/
def lengthAfterLiteral (e : State) (x : PM) (v : Visit) : Nat :=
  mfMatchLen e x.m 0 v.reps.r0 (min (v.availFull - 1) e.encCfg.fastBytes.toNat)

def literalOffers (e : State) (x : PM) (v : Visit) (lit : U32) (nextIsChar : Bool) : List Offer :=
  let len := lengthAfterLiteral e x v
  if nextIsChar = false ∧ v.matchByte ≠ v.curByte ∧ 2 ≤ len then
    [⟨v.cur + 1 + len, lit + repCost e (stChar v.st) (v.position + 1#32) 0 len, v.cur + 1, 0#32, .literal⟩]
  else []

theorem lengthAfterLiteral_lt (e : State) (x : PM) (v : Visit) :
    lengthAfterLiteral e x v ≤ v.availFull - 1 ∧ lengthAfterLiteral e x v < 2 ^ 32 := by
  have hle := mfMatchLen_le e x.m 0 v.reps.r0 (min (v.availFull - 1) e.encCfg.fastBytes.toNat)
  have hfast := e.encCfg.fastBytes.isLt
  unfold lengthAfterLiteral
  omega

theorem tryCharRep0_eq (e : State) (x : PM) (v : Visit) (nextIsChar : Bool) (l : Machine.Lat) :
    tryCharRep0 e x v nextIsChar l =
      let len := lengthAfterLiteral e x v
      if nextIsChar = false ∧ v.matchByte ≠ v.curByte ∧ 2 ≤ len then
        (l.extend (v.cur + 1 + len)).relax (v.cur + 1 + len)
          (rep0After e v.literalPrice (stChar v.st) (v.position + 1#32) len) (byCharRep0 (v.cur + 1))
      else l := by
  have hlen : mfMatchLen e x.m 0 v.reps.r0 (min (v.availFull - 1) e.fastBytes.toNat) = lengthAfterLiteral e x v := by
    rw [toNat_fastBytes]; rfl
  simp only [tryCharRep0, hlen, Bool.and_eq_true, Bool.not_eq_true', decide_eq_true_eq, ← and_assoc]
  exact (ite_and ..).symm

theorem made_tryCharRep0 (hl : LatOk l) (nextIsChar : Bool) :
    Made (literalOffers e x v v.literalPrice nextIsChar) l (tryCharRep0 e x v nextIsChar l) := by
  obtain ⟨-, hlt⟩ := lengthAfterLiteral_lt e x v
  rw [tryCharRep0_eq, literalOffers]
  dsimp only
  split
  · next h =>
    rw [rep0After_eq e _ _ _ h.2.2 hlt]
    exact .one hl _
  · exact .nil hl

theorem literalOffers_sound (hroom : v.cur + v.availFull ≤ 4095) (lit : U32) (nextIsChar : Bool) :
    ∀ f ∈ literalOffers e x v lit nextIsChar, f.Sound ∧ v.cur < f.start := by
  obtain ⟨hle, -⟩ := lengthAfterLiteral_lt e x v
  intro f hf
  unfold literalOffers at hf
  dsimp only at hf
  split at hf
  · next h =>
    obtain ⟨-, -, h2⟩ := h
    rw [List.mem_singleton.1 hf]
    exact ⟨⟨by dsimp only; omega, by dsimp only; omega, by dsimp only; omega, rfl⟩, by dsimp only; omega⟩
  · exact absurd hf List.not_mem_nil

/-! ### A token, a literal and then rep 0 (R224, R225) -/

theorem hopLength_le (e : State) (x : PM) (availFull len : Nat) (dist : U32) :
    let len2 := mfMatchLen e x.m len dist (min (availFull - 1 - len) e.encCfg.fastBytes.toNat)
    len2 ≤ availFull - 1 - len ∧ len2 < 2 ^ 32 := by
  have hle := mfMatchLen_le e x.m len dist (min (availFull - 1 - len) e.encCfg.fastBytes.toNat)
  have hfast := e.encCfg.fastBytes.isLt
  dsimp only
  omega

/-- After a match or a rep the literal is priced in matched mode. -/
theorem tryHop_eq (e : State) (x : PM) (v : Visit) (len : Nat) (dist back cost : U32) {st : U4}
    (hst : 7 ≤ st.toNat) (l : Machine.Lat) : tryHop e x v len dist back cost st l =
      let n := BitVec.ofNat 32 len
      let len2 := mfMatchLen e x.m len dist (min (v.availFull - 1 - len) e.encCfg.fastBytes.toNat)
      let literal := cost + litCost e st (v.position + n) (byteAt e x (n - 2#32))
        (byteAt e x (n - 1#32 - (dist + 1#32))) (byteAt e x (n - 1#32))
      if len < v.availFull ∧ 2 ≤ len2 then
        (l.extend (v.cur + len + 1 + len2)).relax (v.cur + len + 1 + len2)
          (rep0After e literal (stChar st) (v.position + n + 1#32) len2) (byHop (v.cur + len + 1) v.cur back)
      else l := by
  have hmode : (!stIsChar st) = true := by
    rw [Bool.not_eq_true', Bool.eq_false_iff]
    exact fun h => absurd ((stIsChar_iff st).1 h) (Nat.not_lt.2 hst)
  rw [tryHop, toNat_fastBytes, ← hmode]
  dsimp only
  rw [BitVec.add_assoc cost, litCost_eq]
  exact (ite_and ..).symm

theorem made_tryHop (hl : LatOk l) {st : U4} (hst : 7 ≤ st.toNat) (len : Nat) (dist back cost : U32) :
    Made (hopOffers e x v.cur v.position v.availFull st back len dist cost) l
      (tryHop e x v len dist back cost st l) := by
  obtain ⟨-, hlt⟩ := hopLength_le e x v.availFull len dist
  rw [tryHop_eq e x v len dist back cost hst, hopOffers]
  dsimp only at hlt ⊢
  split
  · next h =>
    rw [rep0After_eq e _ _ _ h.2 hlt]
    exact .one hl _
  · exact .nil hl

theorem hopOffers_sound {availFull cur len : Nat} (hroom : cur + availFull ≤ 4095) {position dist cost code : U32}
    {st : U4} (hlen : 2 ≤ len) (hcode : code.toNat < 2 ^ 31) :
    ∀ f ∈ hopOffers e x cur position availFull st code len dist cost, f.Sound ∧ cur < f.start := by
  obtain ⟨hle, -⟩ := hopLength_le e x availFull len dist
  intro f hf
  unfold hopOffers at hf
  dsimp only at hf hle
  split at hf
  · next h =>
    obtain ⟨hl, h2⟩ := h
    rw [List.mem_singleton.1 hf]
    exact ⟨⟨by dsimp only; omega, by dsimp only; omega, by dsimp only; omega, rfl, hcode⟩, by dsimp only; omega⟩
  · exact absurd hf List.not_mem_nil

/-! ### The reps (R224) -/

/-- How many bytes agree at rep `i`. -/
def repLength (e : State) (x : PM) (v : Visit) (i : Nat) : Nat := mfMatchLen e x.m (-1) (v.reps.get i) v.avail

def repOffersAt (e : State) (x : PM) (v : Visit) (price : U32) (i : Nat) : List Offer :=
  if 2 ≤ repLength e x v i then
    repOffers e v.st v.position price v.cur i (repLength e x v i) ++
      hopOffers e x v.cur v.position v.availFull (stRep v.st) (BitVec.ofNat 32 i) (repLength e x v i) (v.reps.get i)
        (price + repCost e v.st v.position i (repLength e x v i))
  else []

theorem VisitOf.repLength_le (hv : VisitOf e x price v) (i : Nat) :
    repLength e x v i ≤ v.availFull ∧ repLength e x v i < 2 ^ 32 := by
  have hle : repLength e x v i ≤ v.avail := mfMatchLen_le ..
  have hroom := hv.room
  rw [hv.avail] at hle
  omega

theorem tryRep_eq (e : State) (x : PM) (v : Visit) (i : Nat) (r : Machine.Lat × Nat) : tryRep e x v i r =
    let len := repLength e x v i
    let lat := r.1.extend (v.cur + len)
    if 2 ≤ len then
      (tryHop e x v len (v.reps.get i) (BitVec.ofNat 32 i)
          (v.repMatchPrice + repPrice e i (BitVec.ofNat 32 len) v.st v.ps) (stRep v.st)
          { lat with o := relaxReps e i (v.repMatchPrice + pureRepPrice e i v.st v.ps) v.ps v.cur len lat.o },
        if i = 0 then len + 1 else r.2)
    else r := by
  dsimp only
  split
  · next h => exact if_neg (Nat.not_lt.2 h)
  · next h => exact if_pos (Nat.lt_of_not_le h)

theorem VisitOf.made_tryRep (hv : VisitOf e x price v) {i : Nat} (hi : i < 4) {r : Machine.Lat × Nat}
    (hr : LatOk r.1) : Made (repOffersAt e x v price i) r.1 (tryRep e x v i r).1 := by
  obtain ⟨-, hlt⟩ := hv.repLength_le i
  rw [tryRep_eq, repOffersAt]
  dsimp only
  split
  · next h2 =>
    have hreps : Made (repOffers e v.st v.position price v.cur i (repLength e x v i))
        (r.1.extend (v.cur + repLength e x v i)) _ :=
      made_relaxReps (hr.extend _) (by rw [extend_lenEnd]; omega)
        fun n hn hle => hv.repTotal hi hn (by omega)
    have hfar : v.cur + repLength e x v i ≤
        reach r.1.lenEnd (repOffers e v.st v.position price v.cur i (repLength e x v i)) := by
      obtain ⟨k, hk⟩ := Nat.exists_eq_add_of_le' (show 1 ≤ repLength e x v i by omega)
      rw [hk, repOffers_succ _ _ _ _ _ _ (by omega)]
      exact target_le_reach (f := ⟨v.cur + (k + 1), _, _, _, _⟩) _ List.mem_cons_self
    have hcost : v.repMatchPrice + repPrice e i (BitVec.ofNat 32 (repLength e x v i)) v.st v.ps =
        price + repCost e v.st v.position i (repLength e x v i) := by
      rw [repPrice_eq_add, ← BitVec.add_assoc, hv.repTotal hi h2 hlt]
    rw [← hcost]
    exact (hreps.of_extend hr hfar).append (made_tryHop hreps.ok (seven_le_stRep _) _ _ _ _)
  · exact .nil hr

/-- F6 starts past the lengths of rep 0 (R224). -/
def firstMatch (repLen0 : Nat) : Nat := if 2 ≤ repLen0 then repLen0 + 1 else 2

theorem tryRep_snd (e : State) (x : PM) (v : Visit) (i : Nat) (r : Machine.Lat × Nat) :
    (tryRep e x v i r).2 = if 2 ≤ repLength e x v i ∧ i = 0 then repLength e x v i + 1 else r.2 := by
  rw [tryRep_eq, ite_and]
  dsimp only
  split <;> rfl

theorem tryReps_snd (e : State) (x : PM) (v : Visit) (l : Machine.Lat) :
    (tryReps e x v l).2 = firstMatch (repLength e x v 0) := by
  rw [tryReps, tryRep_snd, if_neg (by omega), tryRep_snd, if_neg (by omega), tryRep_snd, if_neg (by omega), tryRep_snd]
  exact if_congr (by simp) rfl rfl

theorem VisitOf.made_tryReps (hv : VisitOf e x price v) (hl : LatOk l) :
    Made ((List.range 4).flatMap (repOffersAt e x v price)) l (tryReps e x v l).1 := by
  have h0 := hv.made_tryRep (i := 0) (by decide) (r := (l, 2)) hl
  have h1 := hv.made_tryRep (i := 1) (by decide) h0.ok
  have h2 := hv.made_tryRep (i := 2) (by decide) h1.ok
  have h3 := hv.made_tryRep (i := 3) (by decide) h2.ok
  have hall := h0.append (h1.append (h2.append (h3.append (.nil h3.ok))))
  exact hall

theorem repOffers_sound {st : U4} {position : U32} {cur i most : Nat} (hi : i < 4) (hin : cur + most ≤ 4095) :
    ∀ f ∈ repOffers e st position price cur i most, f.Sound ∧ cur ≤ f.start := by
  intro f hf
  obtain ⟨k, hk, rfl⟩ := List.mem_map.1 hf
  rw [List.mem_range] at hk
  have hcode : (BitVec.ofNat 32 i).toNat < 2 ^ 31 := by rw [BitVec.toNat_ofNat]; omega
  exact ⟨⟨by dsimp only; omega, by dsimp only; omega, hcode⟩, le_rfl⟩

theorem VisitOf.repOffersAt_sound (hv : VisitOf e x price v) {i : Nat} (hi : i < 4) :
    ∀ f ∈ repOffersAt e x v price i, f.Sound ∧ v.cur ≤ f.start := by
  obtain ⟨hle, -⟩ := hv.repLength_le i
  have hroom := hv.room
  have hcode : (BitVec.ofNat 32 i).toNat < 2 ^ 31 := by rw [BitVec.toNat_ofNat]; omega
  intro f hf
  unfold repOffersAt at hf
  split at hf
  · next h2 =>
    rcases List.mem_append.1 hf with hf | hf
    · exact repOffers_sound hi (by omega) f hf
    · obtain ⟨hs, hstart⟩ := hopOffers_sound hroom h2 hcode f hf
      exact ⟨hs, hstart.le⟩
  · exact absurd hf List.not_mem_nil

end Sys2Proof
end

section
/-! Phase F6 (45_optimal_parser R225): the candidates cut to the bytes available, and the matches offered from what is
left of them. -/

namespace Sys2Proof

open Machine

variable {e : State} {x : PM} {v : Visit} {l : Machine.Lat} {price newLen : U32} {d before after : List (Nat × U32)}
  {m avail : Nat} {dist : U32} {p q : Parser}

/-! ### The cut -/

/-- The candidates of F6: those of at least `avail` bytes cut to the first of them. -/
def candidatesWithin (d : List (Nat × U32)) (newLen avail : Nat) : List (Nat × U32) :=
  if avail < newLen then cutCandidates d avail else d

theorem cutCandidates_split (hd : d = before ++ (m, dist) :: after) (hbefore : ∀ x ∈ before, x.1 < avail)
    (hm : avail ≤ m) : cutCandidates d avail = before ++ [(avail, dist)] := by
  rw [cutCandidates, hd, find?_split hbefore hm]
  dsimp only
  rw [takeWhile_split hbefore hm]

/-- `q` is the parser `p` with its candidates `d` cut. -/
structure CutTo (d : List (Nat × U32)) (newLen avail : Nat) (p q : Parser) : Prop where
  frame : q = { p with matchDistances := q.matchDistances }
  pairs : PairsAre q (candidatesWithin d newLen avail)
  longest : longestOf (candidatesWithin d newLen avail) = min newLen avail
  cells : ∀ k, distAt q k =
    if avail < newLen ∧ k = 2 * (d.takeWhile fun x => decide (x.1 < avail)).length then BitVec.ofNat 32 avail
    else distAt p k

theorem PairsAre.cut (h : PairsAre p d) (hwf : Store.wf 0#32 p.matchDistances = true)
    (hd : d = before ++ (m, dist) :: after) (hbefore : ∀ x ∈ before, x.1 < avail) (hm : avail ≤ m) :
    PairsAre { p with matchDistances := Store.set 0#32 p.matchDistances (2 * before.length) (BitVec.ofNat 32 avail) }
      (before ++ [(avail, dist)]) := by
  obtain ⟨-, hdist⟩ := h.pair hd
  have hmem {P : Nat × U32 → Prop} (hP : ∀ x ∈ d, P x) (hcut : P (avail, dist)) :
      ∀ x ∈ before ++ [(avail, dist)], P x := fun x hx => by
    rcases List.mem_append.1 hx with hx | hx
    · exact hP x (by rw [hd]; exact List.mem_append_left _ hx)
    · rwa [List.mem_singleton.1 hx]
  have hlast : (m, dist) ∈ d := by rw [hd]; simp
  refine ⟨fun k hk => ?_, ?_, hmem h.short (hm.trans (h.short _ hlast)), hmem h.near (h.near (m, dist) hlast :)⟩
  · have hset (j : Nat) : distAt
        { p with matchDistances := Store.set 0#32 p.matchDistances (2 * before.length) (BitVec.ofNat 32 avail) } j =
          if j = 2 * before.length then BitVec.ofNat 32 avail else distAt p j := Store.get_set hwf
    rw [List.length_append, List.length_singleton] at hk
    rw [hset, hset, if_neg (by omega : ¬ 2 * k + 1 = 2 * before.length)]
    rcases Nat.lt_or_ge k before.length with hk' | hk'
    · have hcell := h.cells k (by rw [hd, List.length_append]; omega)
      simp only [hd, List.getElem_append_left hk'] at hcell
      rw [if_neg (by omega), List.getElem_append_left hk']
      exact hcell
    · obtain rfl : k = before.length := by omega
      rw [if_pos rfl, List.getElem_concat_length rfl, hdist]
      exact ⟨rfl, rfl⟩
  · have hrising := h.rising
    rw [hd, List.map_append, List.pairwise_append] at hrising
    rw [List.map_append, List.pairwise_append]
    refine ⟨hrising.1, List.pairwise_singleton _ _, fun a ha b hb => ?_⟩
    obtain ⟨x, hx, rfl⟩ := List.mem_map.1 ha
    rw [List.map_singleton, List.mem_singleton] at hb
    exact hb ▸ hbefore x hx

theorem ofNat_lt_iff {n : Nat} (hn : n < 2 ^ 32) {w : U32} : BitVec.ofNat 32 n < w ↔ n < w.toNat := by
  rw [BitVec.lt_def, BitVec.toNat_ofNat, Nat.mod_eq_of_lt hn]

theorem cutPairs_spec (h : CandidatesAre x.p d newLen) (hwf : Store.wf 0#32 x.p.matchDistances = true)
    (havail : v.avail < 2 ^ 32) : ∃ q, CutTo d newLen.toNat v.avail x.p q ∧
      cutPairs v newLen x = some ({ x with p := q }, BitVec.ofNat 32 (min newLen.toNat v.avail),
        2 * (candidatesWithin d newLen.toNat v.avail).length) := by
  have hlong : newLen.toNat = longestOf d := h.last
  rw [cutPairs]
  dsimp only
  simp only [ofNat_lt_iff havail]
  by_cases hlt : v.avail < newLen.toNat
  · have hne : d ≠ [] := by
      rintro rfl
      rw [hlong] at hlt
      exact absurd hlt (Nat.not_lt_zero _)
    obtain ⟨before, m, dist, after, hd, hbefore, hm⟩ := exists_split hne (hlong ▸ hlt.le)
    have hw : (BitVec.ofNat 32 v.avail).toNat = v.avail := Nat.mod_eq_of_lt havail
    have hskip := h.pairs.skipPairs (w := BitVec.ofNat 32 v.avail) hd (hw.symm ▸ hbefore) (hw.symm ▸ hm)
    have hcut := cutCandidates_split hd hbefore hm
    rw [if_pos hlt, hskip]
    refine ⟨{ x.p with
        matchDistances := Store.set 0#32 x.p.matchDistances (2 * before.length) (BitVec.ofNat 32 v.avail) },
      ⟨rfl, ?_, ?_, fun k => ?_⟩, ?_⟩
    · rw [candidatesWithin, if_pos hlt, hcut]
      exact h.pairs.cut hwf hd hbefore hm
    · rw [candidatesWithin, if_pos hlt, hcut, longestOf_append, min_eq_right hlt.le]
    · rw [hd, takeWhile_split hbefore hm]
      exact (Store.get_set hwf).trans (if_congr (and_iff_right hlt).symm rfl rfl)
    · rw [candidatesWithin, if_pos hlt, hcut, min_eq_right hlt.le, List.length_append, Nat.mul_add]
      rfl
  · have hmin : min newLen.toNat v.avail = newLen.toNat := min_eq_left (Nat.le_of_not_lt hlt)
    have hsame : candidatesWithin d newLen.toNat v.avail = d := if_neg hlt
    rw [if_neg hlt]
    refine ⟨x.p, ⟨rfl, by rw [hsame]; exact h.pairs, by rw [hsame, hmin, hlong],
      fun k => (if_neg fun hk => hlt hk.1).symm⟩, ?_⟩
    rw [hmin, hsame, h.count, BitVec.ofNat_toNat, BitVec.setWidth_eq]

/-! ### The matches -/

/-- What F6 offers, `first` being the least length it tries. -/
def matchOffersAt (e : State) (x : PM) (v : Visit) (price : U32) (d : List (Nat × U32)) (newLen first : Nat) :
    List Offer :=
  matchOffers e v.st v.position price v.cur (candidatesWithin d newLen v.avail) first (min newLen v.avail)
    fun len dist cost => hopOffers e x v.cur v.position v.availFull (stMatch v.st) (dist + 4#32) len dist cost

theorem matchOffers_of_lt {st : U4} {position : U32} {cur first most : Nat} {hop : Nat → U32 → U32 → List Offer}
    (h : most < first) : matchOffers e st position price cur d first most hop = [] := by
  rw [matchOffers, Nat.sub_eq_zero_of_le (by omega)]
  rfl

/-- The longest match reaches `most` bytes on. -/
theorem le_reach_matchOffers {st : U4} {position : U32} {cur first most n : Nat}
    {hop : Nat → U32 → U32 → List Offer} (h : first ≤ most) :
    cur + most ≤ reach n (matchOffers e st position price cur d first most hop) := by
  have hmem : (⟨cur + most, price + matchCost e st position most (distanceFor d most), cur,
      distanceFor d most + 4#32, .none⟩ : Offer) ∈ lengthOffers e st position price cur d hop most :=
    List.mem_cons_self
  rw [matchOffers_eq]
  exact target_le_reach n (List.mem_flatMap.2 ⟨most, List.mem_range'_1.2 (by omega), hmem⟩)

theorem VisitOf.tryMatches_spec (hv : VisitOf e x price v) (h : CandidatesAre x.p d newLen)
    (hwf : Store.wf 0#32 x.p.matchDistances = true) (hl : LatOk l) {first : Nat} (h2 : 2 ≤ first) :
    ∃ q l', tryMatches e x v newLen first l = some ({ x with p := q }, l') ∧ CutTo d newLen.toNat v.avail x.p q ∧
      Made (matchOffersAt e x v price d newLen.toNat first) l l' := by
  have havail : v.avail < 2 ^ 32 := by
    have hroom := hv.room
    rw [hv.avail]
    omega
  obtain ⟨q, hcut, hq⟩ := cutPairs_spec (v := v) h hwf havail
  have hmost : (BitVec.ofNat 32 (min newLen.toNat v.avail)).toNat = min newLen.toNat v.avail :=
    Nat.mod_eq_of_lt (by omega)
  have hlong := hcut.longest
  have hpairs := hcut.pairs
  rw [tryMatches, hq, matchOffersAt]
  dsimp only
  rw [hmost]
  generalize candidatesWithin d newLen.toNat v.avail = cut at *
  by_cases hlt : min newLen.toNat v.avail < first
  · rw [if_pos hlt, matchOffers_of_lt hlt]
    exact ⟨q, l, rfl, hcut, .nil hl⟩
  · have hle : first ≤ min newLen.toNat v.avail := Nat.le_of_not_lt hlt
    have hne : cut ≠ [] := by
      rintro rfl
      have hzero : longestOf [] = 0 := rfl
      omega
    obtain ⟨before, m, dist, after, hd, hbefore, hm⟩ := exists_split hne (hlong.symm ▸ hle)
    have hw : (BitVec.ofNat 32 first).toNat = first := Nat.mod_eq_of_lt (by omega)
    rw [if_neg hlt, hpairs.skipPairs (w := BitVec.ofNat 32 first) hd (hw.symm ▸ hbefore) (hw.symm ▸ hm)]
    dsimp only
    obtain ⟨l', hl', hmade⟩ := made_scanPairs (e := e) (st := v.st) (position := v.position) (price := price)
      (cur := v.cur) (l := l.extend (v.cur + min newLen.toNat v.avail)) hpairs (hl.extend _)
      (by rw [extend_lenEnd, hlong]; exact le_max_right ..)
      (fun n dist hn hn' => hv.matchTotal hn (by omega) dist)
      (hopStep := fun len dist cost l => tryHop e { x with p := q } v len dist (dist + 4#32) cost (stMatch v.st) l)
      (fun len dist cost l hl => made_tryHop hl (seven_le_stMatch _) len dist (dist + 4#32) cost) hd hbefore h2 hm
    rw [matchLoop_eq_scanPairs, hl']
    rw [hlong] at hmade
    exact ⟨q, l', rfl, hcut, hmade.of_extend hl (le_reach_matchOffers hle)⟩

/-! ### The offers in order -/

theorem distanceFor_near {len : Nat} (h : ∀ x ∈ d, x.2.toNat < 2 ^ 31 - 4) :
    (distanceFor d len).toNat < 2 ^ 31 - 4 := by
  unfold distanceFor
  cases hfind : d.find? fun x => decide (len ≤ x.1) with
  | none => decide
  | some x => exact h x (List.mem_of_find?_eq_some hfind)

theorem matchOffers_sound {st : U4} {position : U32} {cur first most : Nat} {hop : Nat → U32 → U32 → List Offer}
    (h2 : 2 ≤ first) (hin : cur + most ≤ 4095) (hnear : ∀ x ∈ d, x.2.toNat < 2 ^ 31 - 4)
    (hhop : ∀ len dist cost, 2 ≤ len → (dist + 4#32).toNat < 2 ^ 31 →
      ∀ f ∈ hop len dist cost, f.Sound ∧ cur ≤ f.start) :
    ∀ f ∈ matchOffers e st position price cur d first most hop, f.Sound ∧ cur ≤ f.start := by
  intro f hf
  rw [matchOffers_eq] at hf
  obtain ⟨len, hlen, hf⟩ := List.mem_flatMap.1 hf
  obtain ⟨hlo, hhi⟩ := List.mem_range'_1.1 hlen
  have hcode : (distanceFor d len + 4#32).toNat < 2 ^ 31 := by
    have hdist := distanceFor_near (len := len) hnear
    rw [BitVec.toNat_add, show (4#32).toNat = 4 from rfl]
    omega
  rcases List.mem_cons.1 hf with rfl | hf
  · exact ⟨⟨by dsimp only; omega, by dsimp only; omega, hcode⟩, le_rfl⟩
  · split at hf
    · exact hhop len _ _ (by omega) hcode f hf
    · exact absurd hf List.not_mem_nil

theorem VisitOf.matchOffersAt_sound (hv : VisitOf e x price v) (hcut : CutTo d newLen.toNat v.avail p q)
    {first : Nat} (h2 : 2 ≤ first) :
    ∀ f ∈ matchOffersAt e x v price d newLen.toNat first, f.Sound ∧ v.cur ≤ f.start := by
  have hroom := hv.room
  have hfull : v.avail ≤ v.availFull := hv.avail ▸ Nat.min_le_left ..
  refine matchOffers_sound h2 (by omega) hcut.pairs.near fun len dist cost hlen hcode f hf => ?_
  obtain ⟨hs, hstart⟩ := hopOffers_sound hroom hlen hcode f hf
  exact ⟨hs, hstart.le⟩

end Sys2Proof
end

section
/-! A node of the walk (45_optimal_parser R221, R222, R226): its state and reps from the tokens that reach it, the next
node, and all it offers. -/

namespace Sys2Proof

open Machine

variable {e : State} {x y : PM} {v : Visit} {l : Machine.Lat} {o : Store Node} {price newLen position : U32}
  {d : List (Nat × U32)} {cur lenEnd : Nat}

/-! ### F2: the tokens that reach the node (R221) -/

theorem isRepCode_iff {back : I32} (h : back.toNat < 2 ^ 31) : isRepCode back = true ↔ back.toNat < 4 := by
  rw [isRepCode, BitVec.slt_iff_toInt_lt, BitVec.toInt_eq_toNat_of_lt (by omega)]
  exact Int.ofNat_lt (n := back.toNat) (m := 4)

theorem repsAfter_eq (b : Quad) (back : I32) : repsAfter b back =
    if back.toNat < 4 then repsPromote b back.toNat else repsPush b (back - 4#32) := by
  unfold repsAfter
  split
  · next h => subst h; rfl
  · split
    · next h => subst h; rfl
    · split
      · next h => subst h; rfl
      · split
        · next h => subst h; rfl
        · rw [if_neg (by bv_omega)]
          rfl

/-- A token of more than one byte. -/
theorem tokenEffect_of_long {back : I32} (h : back.toNat < 2 ^ 31) {len : Nat} (hlen : len ≠ 1) (x : U4 × Quad) :
    tokenEffect back len x = (if isRepCode back = true then stRep x.1 else stMatch x.1, repsAfter x.2 back) := by
  rw [tokenEffect, if_neg hlen, repsAfter_eq]
  simp only [isRepCode_iff h]
  split <;> rfl

/-- A token of one byte: a short rep or a literal. -/
theorem tokenEffect_of_byte (back : I32) (x : U4 × Quad) :
    tokenEffect back 1 x = (if back = 0#32 then stShortrep x.1 else stChar x.1, x.2) := if_pos rfl

/-- R221 finds the state and the reps that the tokens into the node lead to. -/
theorem deriveNode_eq_stateInto (hc : cur ≤ 4095) (h : RecordOk (node o cur) cur) :
    deriveNode o cur = stateInto o cur := by
  obtain ⟨hprev, hplain, hhop⟩ := h
  have hcur : (BitVec.ofNat 32 (cur - 1)).toNat = cur - 1 := Nat.mod_eq_of_lt (by omega)
  unfold deriveNode deriveStart stateInto tokensInto tokensFrom
  generalize node o cur = n at *
  cases h1 : n.prev1IsChar with
  | false =>
    by_cases hone : n.posPrev.toNat = cur - 1
    · have heq : n.posPrev = BitVec.ofNat 32 (cur - 1) := BitVec.eq_of_toNat_eq (hone.trans hcur.symm)
      have hlen : cur - (cur - 1) = 1 := by omega
      simp [h1, heq, hcur, hlen, tokenEffect_of_byte, isShortRep]
    · have hne : n.posPrev ≠ BitVec.ofNat 32 (cur - 1) := fun heq => hone (heq ▸ hcur)
      have heffect := tokenEffect_of_long (hplain h1 (by omega)) (len := cur - n.posPrev.toNat) (by omega)
      simp [h1, hne, heffect]
  | true =>
    obtain ⟨h0, hlong, hback, htoken⟩ := hhop h1
    have hsub : (n.posPrev - 1#32).toNat = n.posPrev.toNat - 1 := BitVec.toNat_sub_of_le h0
    have hne : n.posPrev - 1#32 ≠ BitVec.ofNat 32 (cur - 1) := fun heq => by
      have h' := hsub.symm.trans ((congrArg BitVec.toNat heq).trans hcur)
      omega
    have hlit : n.posPrev.toNat - (n.posPrev.toNat - 1) = 1 := by omega
    have hrep := tokenEffect_of_long (back := 0#32) (by decide) (len := cur - n.posPrev.toNat) (by omega)
    cases h2 : n.prev2 with
    | false => simp [h1, h2, hne, hsub, hback, hlit, hrep, tokenEffect_of_byte, repsAfter]
    | true =>
      obtain ⟨hfrom, hcode⟩ := htoken h2
      have hfirst := tokenEffect_of_long hcode (len := n.posPrev.toNat - 1 - n.posPrev2.toNat) (by omega)
      simp [h1, h2, hne, hback, hlit, hrep, hfirst, tokenEffect_of_byte, repsAfter, isRepCode]

/-! ### F3: the next node (R222) -/

/-- What a short rep costs at the node visited. -/
theorem VisitOf.shortTotal (hv : VisitOf e x price v) :
    v.repMatchPrice + repLen1Price e v.st v.ps = price + repHeadCost e v.st v.position 0 true := by
  rw [hv.rep, hv.posState, repLen1Price_eq, ← repHeadCost_eq e v.st v.position 0 true]
  simp only [BitVec.add_assoc]

/-- The next node after F3, by `nextNode` of the rule. -/
def nextOf (e : State) (v : Visit) (n : Node) : Node :=
  nextNode v.cur v.literalPrice (v.repMatchPrice + repLen1Price e v.st v.ps) (decide (v.matchByte = v.curByte)) n

/-- The next node once a literal is offered to it. -/
def withLiteral (v : Visit) (n : Node) : Node :=
  if v.literalPrice < n.price then
    { n with
      price := v.literalPrice, posPrev := BitVec.ofNat 32 v.cur, backPrev := 0xFFFFFFFF#32, prev1IsChar := false }
  else n

/-- A short rep is offered to the next node `n`: the bytes are equal, and `n` does not end a rep already. -/
def ShortOffered (e : State) (v : Visit) (n : Node) : Prop :=
  v.matchByte = v.curByte ∧ ¬ (n.posPrev < BitVec.ofNat 32 v.cur ∧ n.backPrev = 0#32) ∧
    v.repMatchPrice + repLen1Price e v.st v.ps ≤ n.price

def withShortRep (e : State) (v : Visit) (n : Node) : Node :=
  { n with
    price := v.repMatchPrice + repLen1Price e v.st v.ps, posPrev := BitVec.ofNat 32 v.cur, backPrev := 0#32
    prev1IsChar := false }

theorem nextOf_eq (hc : v.cur < 2 ^ 32) (n : Node) :
    (ShortOffered e v (withLiteral v n) → nextOf e v n = withShortRep e v (withLiteral v n)) ∧
      (¬ ShortOffered e v (withLiteral v n) → nextOf e v n = withLiteral v n) := by
  have hcur : (BitVec.ofNat 32 v.cur).toNat = v.cur := Nat.mod_eq_of_lt hc
  have hiff : ShortOffered e v (withLiteral v n) ↔ decide (v.matchByte = v.curByte) = true ∧
      ¬ ((withLiteral v n).posPrev.toNat < v.cur ∧ (withLiteral v n).backPrev = 0#32) ∧
      v.repMatchPrice + repLen1Price e v.st v.ps ≤ (withLiteral v n).price := by
    rw [ShortOffered, BitVec.lt_def, hcur, decide_eq_true_iff]
  rw [hiff]
  exact ⟨fun h => if_pos h, fun h => if_neg h⟩

/-- The lattice with the literal offered, and what F3 leaves of it. -/
def offerLiteral (v : Visit) (l : Machine.Lat) : Machine.Lat :=
  l.relax (v.cur + 1) v.literalPrice fun n => makeAsChar { n with posPrev := BitVec.ofNat 32 v.cur }

theorem node_offerLiteral (hl : LatOk l) (i : Nat) :
    node (offerLiteral v l).o i = if i = v.cur + 1 then withLiteral v (node l.o i) else node l.o i := by
  have hrelax : (offerLiteral v l).o = relax l.o (v.cur + 1) v.literalPrice
      fun n => makeAsChar { n with posPrev := BitVec.ofNat 32 v.cur } := rfl
  rw [hrelax, node_relax hl]
  by_cases hi : i = v.cur + 1
  · subst hi
    rw [if_pos rfl]
    exact if_congr (and_iff_right rfl) rfl rfl
  · rw [if_neg hi, if_neg fun h => hi h.1]

theorem tryOneByte_cases (hl : LatOk l) : let n := withLiteral v (node l.o (v.cur + 1))
    (ShortOffered e v n → tryOneByte e v l =
      ({ offerLiteral v l with o := setNode (offerLiteral v l).o (v.cur + 1) (withShortRep e v n) }, true)) ∧
    (¬ ShortOffered e v n →
      tryOneByte e v l = (offerLiteral v l, decide (v.literalPrice < (node l.o (v.cur + 1)).price))) := by
  have hnode : node (offerLiteral v l).o (v.cur + 1) = withLiteral v (node l.o (v.cur + 1)) := by
    rw [node_offerLiteral hl, if_pos rfl]
  dsimp only
  rw [← hnode]
  exact ⟨fun h => if_pos h, fun h => if_neg h⟩

theorem tryOneByte_fst (hl : LatOk l) (hc : v.cur < 2 ^ 32) :
    LatOk (tryOneByte e v l).1 ∧ (tryOneByte e v l).1.lenEnd = l.lenEnd ∧
      ∀ i, node (tryOneByte e v l).1.o i = if i = v.cur + 1 then nextOf e v (node l.o i) else node l.o i := by
  obtain ⟨hshort, hnot⟩ := tryOneByte_cases (e := e) (v := v) hl
  obtain ⟨hshort', hnot'⟩ := nextOf_eq (e := e) hc (node l.o (v.cur + 1))
  have hok : LatOk (offerLiteral v l) := hl.relax _ _ _
  refine ⟨hl.tryOneByte e v, ?_, fun i => ?_⟩
  · by_cases h : ShortOffered e v (withLiteral v (node l.o (v.cur + 1)))
    · rw [hshort h]; rfl
    · rw [hnot h]; rfl
  · by_cases h : ShortOffered e v (withLiteral v (node l.o (v.cur + 1)))
    · rw [hshort h, node_setNode hok, node_offerLiteral hl]
      by_cases hi : i = v.cur + 1
      · rw [if_pos hi, if_pos hi, hi, hshort' h]
      · rw [if_neg hi, if_neg hi, if_neg hi]
    · rw [hnot h, node_offerLiteral hl]
      refine ite_congr rfl (fun hi => ?_) fun _ => rfl
      rw [hi, hnot' h]

/-- If the bytes differ, F3 tells whether the literal was taken. -/
theorem tryOneByte_snd (hl : LatOk l) (hc : v.cur < 2 ^ 32) (hne : v.matchByte ≠ v.curByte) :
    (tryOneByte e v l).2 = false ↔ nextOf e v (node l.o (v.cur + 1)) = node l.o (v.cur + 1) := by
  have hoff : ¬ ShortOffered e v (withLiteral v (node l.o (v.cur + 1))) := fun h => hne h.1
  rw [(tryOneByte_cases hl).2 hoff, (nextOf_eq hc _).2 hoff, withLiteral]
  by_cases hlt : v.literalPrice < (node l.o (v.cur + 1)).price
  · rw [if_pos hlt]
    refine iff_of_false (by simpa using hlt) fun h => ?_
    have hprice : v.literalPrice = (node l.o (v.cur + 1)).price := congrArg Node.price h
    exact absurd hlt (hprice ▸ BitVec.lt_irrefl _)
  · rw [if_neg hlt]
    exact iff_of_true (decide_eq_false hlt) rfl

/-- The next node keeps a record in order: a token of one byte from the node visited, or its own. -/
theorem recordOk_nextOf (hc : v.cur < 2 ^ 32) {n : Node}
    (hn : n.price < kInfinityPrice → RecordOk n (v.cur + 1)) (h : (nextOf e v n).price < kInfinityPrice) :
    RecordOk (nextOf e v n) (v.cur + 1) := by
  have hcur : (BitVec.ofNat 32 v.cur).toNat = v.cur := Nat.mod_eq_of_lt hc
  have hbyte {m : Node} (hp : m.posPrev = BitVec.ofNat 32 v.cur) (h1 : m.prev1IsChar = false) :
      RecordOk m (v.cur + 1) := by
    refine ⟨by rw [hp, hcur]; exact Nat.lt_succ_self _, fun _ hlt => ?_, fun h => absurd (h1.symm.trans h) nofun⟩
    rw [hp, hcur] at hlt
    exact absurd hlt (Nat.lt_irrefl _)
  obtain ⟨hshort, hnot⟩ := nextOf_eq (e := e) hc n
  by_cases hoff : ShortOffered e v (withLiteral v n)
  · rw [hshort hoff]
    exact hbyte rfl rfl
  · rw [hnot hoff] at h ⊢
    unfold withLiteral at h ⊢
    split
    · exact hbyte rfl rfl
    · next hlt => exact hn (by rwa [if_neg hlt] at h)

/-! ### All phases at the node (R221 to R225) -/

/-- What the node visited offers to those after the next. -/
def visitOffers (e : State) (x : PM) (v : Visit) (price : U32) (nextIsChar : Bool) (d : List (Nat × U32))
    (newLen : Nat) : List Offer :=
  if v.availFull < 2 then []
  else literalOffers e x v v.literalPrice nextIsChar ++ (List.range 4).flatMap (repOffersAt e x v price) ++
    matchOffersAt e x v price d newLen (firstMatch (repLength e x v 0))

theorem two_le_firstMatch (n : Nat) : 2 ≤ firstMatch n := by
  unfold firstMatch
  split <;> omega

/-- F4 to F6 on the lattice that F3 leaves. -/
def afterNext (e : State) (x : PM) (v : Visit) (newLen : U32) (l : Machine.Lat) (nextIsChar : Bool) :
    Option (PM × Machine.Lat) :=
  if v.availFull < 2 then some (x, l)
  else
    let f5 := tryReps e x v (tryCharRep0 e x v nextIsChar l)
    tryMatches e x v newLen f5.2 f5.1

theorem visit_eq (e : State) (x : PM) (cur lenEnd : Nat) (position newLen : U32) :
    visit e x cur lenEnd position newLen =
      let z := (placeNode x cur).1
      let v := visitNode e z cur position (placeNode x cur).2.1 (placeNode x cur).2.2
      let f3 := tryOneByte e v { o := z.p.optimum, lenEnd := lenEnd }
      (afterNext e z v newLen f3.1 f3.2).map fun r => (r.1.setOptimum r.2.o, r.2.lenEnd) := by
  rw [visit]
  dsimp only
  unfold afterNext
  split
  · rfl
  · generalize tryMatches _ _ _ _ _ _ = r
    cases r <;> rfl

/-- `q` is `p` with its candidates cut, where F6 comes to cut them. -/
structure CutIf (availFull : Nat) (d : List (Nat × U32)) (newLen avail : Nat) (p q : Parser) : Prop where
  frame : q = { p with matchDistances := q.matchDistances }
  cells : ∀ k, distAt q k =
    if 2 ≤ availFull ∧ avail < newLen ∧ k = 2 * (d.takeWhile fun x => decide (x.1 < avail)).length then
      BitVec.ofNat 32 avail
    else distAt p k

/-- F4 to F6 make the node's offers, in order. -/
theorem VisitOf.afterNext_made (hv : VisitOf e x price v) (h : CandidatesAre x.p d newLen)
    (hwf : Store.wf 0#32 x.p.matchDistances = true) (hl : LatOk l) (nextIsChar : Bool) :
    ∃ q l', afterNext e x v newLen l nextIsChar = some ({ x with p := q }, l') ∧
      CutIf v.availFull d newLen.toNat v.avail x.p q ∧
      Made (visitOffers e x v price nextIsChar d newLen.toNat) l l' ∧
      ∀ f ∈ visitOffers e x v price nextIsChar d newLen.toNat, f.Sound ∧ v.cur ≤ f.start := by
  unfold visitOffers afterNext
  by_cases hfull : v.availFull < 2
  · rw [if_pos hfull, if_pos hfull]
    exact ⟨x.p, l, rfl, ⟨rfl, fun k => (if_neg fun hk => absurd hk.1 (Nat.not_le.2 hfull)).symm⟩, .nil hl,
      fun f hf => absurd hf List.not_mem_nil⟩
  · rw [if_neg hfull, if_neg hfull]
    have hlit := made_tryCharRep0 (e := e) (x := x) (v := v) hl nextIsChar
    have hreps := hv.made_tryReps hlit.ok
    obtain ⟨q, l', hl', hcut, hmatches⟩ := hv.tryMatches_spec h hwf hreps.ok (two_le_firstMatch (repLength e x v 0))
    refine ⟨q, l', ?_, ⟨hcut.frame, fun k => ?_⟩, (hlit.append hreps).append hmatches, fun f hf => ?_⟩
    · dsimp only
      rw [tryReps_snd, hl']
    · rw [hcut.cells]
      exact if_congr (and_iff_right (Nat.le_of_not_lt hfull)).symm rfl rfl
    · rcases List.mem_append.1 hf with hf | hf
      · rcases List.mem_append.1 hf with hf | hf
        · obtain ⟨hs, hstart⟩ := literalOffers_sound hv.room _ _ f hf
          exact ⟨hs, hstart.le⟩
        · obtain ⟨i, hi, hf⟩ := List.mem_flatMap.1 hf
          exact hv.repOffersAt_sound (List.mem_range.1 hi) f hf
      · exact hv.matchOffersAt_sound hcut (two_le_firstMatch _) f hf

end Sys2Proof
end

section
/-! A visit of the walk (45_optimal_parser R221 to R226): the offers of F2 to F6 settle the nodes after the one visited,
and every node of the lattice keeps a record in order. -/

namespace Sys2Proof

open Machine

variable {e : State} {x : PM} {l l' : Machine.Lat} {fs : List Offer} {newLen position : U32}
  {d : List (Nat × U32)} {cur lenEnd : Nat}

/-! ### What offers leave of a lattice's nodes -/

theorem Made.settles (h : Made fs l l') (hs : ∀ f ∈ fs, f.Sound) {i : Nat} (hi : i ≤ l'.lenEnd) :
    Settles (if i ≤ l.lenEnd then (node l.o i).price else kInfinityPrice) (node l.o i) (node l'.o i)
      (offersAt i fs) := by
  have hopen : opened l.lenEnd l'.lenEnd i (node l.o i) =
      { node l.o i with price := if i ≤ l.lenEnd then (node l.o i).price else kInfinityPrice } := by
    unfold opened
    by_cases hin : i ≤ l.lenEnd
    · rw [if_pos hin, if_neg fun hk => absurd hk.1 (Nat.not_lt.2 hin)]
    · rw [if_neg hin, if_pos ⟨Nat.lt_of_not_le hin, hi⟩]
  rw [h.nodes, hopen]
  exact settles_settle _ _ fun f hf => hs f (mem_offersAt.1 hf).1

/-- A node of the old lattice, or one past the new, keeps its value if no offer is for it. -/
theorem Made.node_same (h : Made fs l l') {i : Nat} (hi : i ≤ l.lenEnd ∨ l'.lenEnd < i)
    (hno : ∀ f ∈ fs, f.target ≠ i) : node l'.o i = node l.o i := by
  have hnone : offersAt i fs = [] :=
    List.eq_nil_iff_forall_not_mem.2 fun f hf => hno f (mem_offersAt.1 hf).1 (mem_offersAt.1 hf).2
  rw [h.nodes, hnone, opened, if_neg (by omega)]
  rfl

theorem Made.node_beyond (h : Made fs l l') {i : Nat} (hi : l'.lenEnd < i) : node l'.o i = node l.o i :=
  h.node_same (.inr hi) fun f hf heq => absurd (target_le_reach l.lenEnd hf) (by rw [← h.lenEnd]; omega)

theorem Made.records (h : Made fs l l') (hs : ∀ f ∈ fs, f.Sound) {i : Nat} (hi : i ≤ l'.lenEnd)
    (hold : i ≤ l.lenEnd → (node l.o i).price < kInfinityPrice → RecordOk (node l.o i) i)
    (hlt : (node l'.o i).price < kInfinityPrice) : RecordOk (node l'.o i) i := by
  rw [h.nodes] at hlt ⊢
  refine recordOk_settle (fun f hf => ⟨hs f (mem_offersAt.1 hf).1, (mem_offersAt.1 hf).2⟩) (fun hp => ?_) hlt
  unfold opened at hp ⊢
  split
  · next hopen =>
    rw [if_pos hopen] at hp
    exact absurd hp (BitVec.lt_irrefl _)
  · next hopen =>
    rw [if_neg hopen] at hp
    exact hold (by omega) hp

/-! ### F2 on the whole parser -/

/-- What F2 leaves: the node has its state and reps. -/
def placed (x : PM) (cur : Nat) : PM :=
  { x with p := { x.p with
    optimum := setNode x.p.optimum cur { node x.p.optimum cur with
      state := (stateInto x.p.optimum cur).1, backs := (stateInto x.p.optimum cur).2 }
    sweepReps := (stateInto x.p.optimum cur).2 } }

theorem placeNode_eq (hc : cur ≤ 4095) (h : RecordOk (node x.p.optimum cur) cur) :
    placeNode x cur = (placed x cur, stateInto x.p.optimum cur) := by
  rw [placeNode, deriveNode_eq_stateInto hc h]
  rfl

theorem node_placed (h : Store.wf Node.blank x.p.optimum = true) (i : Nat) :
    node (placed x cur).p.optimum i =
      if i = cur then { node x.p.optimum cur with
        state := (stateInto x.p.optimum cur).1, backs := (stateInto x.p.optimum cur).2 }
      else node x.p.optimum i := node_setNode h ..

/-- The node visited, with the state and the reps of its tokens. -/
def visitAt (e : State) (x : PM) (cur : Nat) (position : U32) : Visit :=
  visitNode e (placed x cur) cur position (stateInto x.p.optimum cur).1 (stateInto x.p.optimum cur).2

theorem visitOf_visitAt (e : State) (h : Store.wf Node.blank x.p.optimum = true) (hc : cur ≤ 4095) (position : U32) :
    VisitOf e (placed x cur) (node x.p.optimum cur).price (visitAt e x cur position) := by
  have hv := visitNode_visitOf e (placed x cur) hc position (stateInto x.p.optimum cur).1 (stateInto x.p.optimum cur).2
  rwa [node_placed h, if_pos rfl] at hv

theorem CandidatesAre.placed (h : CandidatesAre x.p d newLen) (cur : Nat) :
    CandidatesAre (placed x cur).p d newLen :=
  ⟨h.count, h.cells, h.rising, h.lengths, h.near, h.last⟩

/-! ### The visit -/

/-- The lattice after F3. -/
def afterByte (e : State) (x : PM) (cur lenEnd : Nat) (position : U32) : Machine.Lat × Bool :=
  tryOneByte e (visitAt e x cur position) { o := (placed x cur).p.optimum, lenEnd := lenEnd }

theorem node_afterByte (h : Store.wf Node.blank x.p.optimum = true) (hc : cur ≤ 4095) (i : Nat) :
    node (afterByte e x cur lenEnd position).1.o i =
      if i = cur + 1 then nextOf e (visitAt e x cur position) (node x.p.optimum (cur + 1))
      else node (placed x cur).p.optimum i := by
  have hl : LatOk { o := (placed x cur).p.optimum, lenEnd := lenEnd } := setNode_wf h ..
  obtain ⟨-, -, hnodes⟩ := tryOneByte_fst (e := e) (v := visitAt e x cur position) hl
    (show cur < 2 ^ 32 by omega)
  refine (hnodes i).trans (ite_congr rfl (fun hi => ?_) fun _ => rfl)
  rw [hi]
  exact congrArg _ ((node_placed h _).trans (if_neg (Nat.succ_ne_self cur)))

/-- What a visit leaves, in terms of the offers it makes. -/
theorem visit_made (h : CandidatesAre x.p d newLen) (ho : Store.wf Node.blank x.p.optimum = true)
    (hm : Store.wf 0#32 x.p.matchDistances = true) (hc : cur ≤ 4095) (hr : RecordOk (node x.p.optimum cur) cur)
    (lenEnd : Nat) (position : U32) :
    let v := visitAt e x cur position
    let f3 := afterByte e x cur lenEnd position
    let fs := visitOffers e (placed x cur) v (node x.p.optimum cur).price f3.2 d newLen.toNat
    ∃ q l', visit e x cur lenEnd position newLen =
        some (PM.setOptimum { placed x cur with p := q } l'.o, l'.lenEnd) ∧
      CutIf v.availFull d newLen.toNat v.avail (placed x cur).p q ∧ Made fs f3.1 l' ∧
      (∀ f ∈ fs, f.Sound) ∧ ∀ f ∈ fs, cur + 2 ≤ f.target := by
  have hv := visitOf_visitAt e ho hc position
  have hl : LatOk { o := (placed x cur).p.optimum, lenEnd := lenEnd } := setNode_wf ho ..
  obtain ⟨q, l', hafter, hcut, hmade, hsound⟩ :=
    hv.afterNext_made (h.placed cur) hm (hl.tryOneByte e (visitAt e x cur position))
      (afterByte e x cur lenEnd position).2
  refine ⟨q, l', ?_, hcut, hmade, fun f hf => (hsound f hf).1, fun f hf => ?_⟩
  · rw [visit_eq, placeNode_eq hc hr]
    exact congrArg (Option.map _) hafter
  · obtain ⟨⟨-, hlong, -⟩, hstart⟩ := hsound f hf
    exact (Nat.add_le_add_right hstart 2).trans hlong

/-- The next node after the visit, by the rule's own costs. -/
theorem nextOf_visitAt (ho : Store.wf Node.blank x.p.optimum = true) (hc : cur ≤ 4095) (n : Node) :
    nextOf e (visitAt e x cur position) n =
      nextNode cur
        ((node x.p.optimum cur).price + litCost e (stateInto x.p.optimum cur).1 position (byteAt e x (-2#32))
          (byteAt e x (-(stateInto x.p.optimum cur).2.r0 - 2#32)) (byteAt e x (-1#32)))
        ((node x.p.optimum cur).price + repHeadCost e (stateInto x.p.optimum cur).1 position 0 true)
        (decide (byteAt e x (-(stateInto x.p.optimum cur).2.r0 - 2#32) = byteAt e x (-1#32))) n := by
  have hv := visitOf_visitAt e ho hc position
  rw [nextOf, hv.shortTotal, hv.literal]
  rfl

/-- The visit's offers to the nodes after the next. -/
theorem visitOffers_visitAt (ho : Store.wf Node.blank x.p.optimum = true) (hc : cur ≤ 4095) (lenEnd : Nat)
    (position : U32) (d : List (Nat × U32)) (newLen : Nat) :
    let v := visitAt e x cur position
    let price := (node x.p.optimum cur).price
    let old := node x.p.optimum (cur + 1)
    visitOffers e (placed x cur) v price (afterByte e x cur lenEnd position).2 d newLen =
      if v.availFull < 2 then []
      else
        (if nextOf e v old = old ∧ v.matchByte ≠ v.curByte ∧ 2 ≤ lengthAfterLiteral e x v then
            [⟨cur + 1 + lengthAfterLiteral e x v, v.literalPrice +
              repCost e (stChar v.st) (position + 1#32) 0 (lengthAfterLiteral e x v), cur + 1, 0#32, .literal⟩]
          else []) ++ (List.range 4).flatMap (repOffersAt e x v price) ++
          matchOffersAt e x v price d newLen (firstMatch (repLength e x v 0)) := by
  have hl : LatOk { o := (placed x cur).p.optimum, lenEnd := lenEnd } := setNode_wf ho ..
  have hold : node (placed x cur).p.optimum (cur + 1) = node x.p.optimum (cur + 1) :=
    (node_placed ho _).trans (if_neg (Nat.succ_ne_self cur))
  refine ite_congr rfl (fun _ => rfl) fun _ => congrArg (· ++ _ ++ _) ?_
  refine if_congr ⟨?_, ?_⟩ rfl rfl
  · rintro ⟨hsnd, hne, h2⟩
    have hsame := (tryOneByte_snd hl (show cur < 2 ^ 32 by omega) hne).1 hsnd
    exact ⟨hold ▸ hsame, hne, h2⟩
  · rintro ⟨hsame, hne, h2⟩
    exact ⟨(tryOneByte_snd hl (show cur < 2 ^ 32 by omega) hne).2 (hold.symm ▸ hsame), hne, h2⟩

/-- Third part of O38: a visit does what phases F2 to F6 say. -/
theorem visit_visited (ho : Store.wf Node.blank x.p.optimum = true) (hm : Store.wf 0#32 x.p.matchDistances = true)
    (h : CandidatesAre x.p d newLen) (hcur : cur < lenEnd) (hend : lenEnd ≤ 4095)
    (hr : RecordOk (node x.p.optimum cur) cur) :
    ∃ y newEnd, visit e x cur lenEnd position newLen = some (y, newEnd) ∧
      Visited e x cur lenEnd position d newLen.toNat y newEnd := by
  have hc : cur ≤ 4095 := by omega
  have hc32 : (visitAt e x cur position).cur < 2 ^ 32 := show cur < 2 ^ 32 by omega
  obtain ⟨q, l', hvisit, hcut, hmade, hsound, hfar⟩ := visit_made (e := e) h ho hm hc hr lenEnd position
  have hl : LatOk { o := (placed x cur).p.optimum, lenEnd := lenEnd } := setNode_wf ho ..
  obtain ⟨-, hlen : (afterByte e x cur lenEnd position).1.lenEnd = lenEnd, -⟩ :=
    tryOneByte_fst (e := e) (v := visitAt e x cur position) hl hc32
  have hnear {i : Nat} (hi : i ≤ cur + 1) : node l'.o i = node (afterByte e x cur lenEnd position).1.o i :=
    hmade.node_same (.inl (by omega)) fun f hf heq => by have := hfar f hf; omega
  have hbyte (i : Nat) (hi : i ≠ cur + 1) (hi' : i ≠ cur) :
      node (afterByte e x cur lenEnd position).1.o i = node x.p.optimum i := by
    rw [node_afterByte ho hc, if_neg hi, node_placed ho, if_neg hi']
  have hnext : node l'.o (cur + 1) =
      nextOf e (visitAt e x cur position) (node x.p.optimum (cur + 1)) := by
    rw [hnear le_rfl, node_afterByte ho hc, if_pos rfl]
  have hreach := hmade.lenEnd
  rw [hlen] at hreach
  refine ⟨_, _, hvisit, ?_, fun i hi => ?_, ⟨?_, ?_⟩, fun hold i hlo hhi => ?_, ?_, ?_⟩
  · rw [hcut.frame]
    rfl
  · exact (hnear (by omega)).trans (hbyte i (by omega) (by omega))
  · exact hreach ▸ le_reach ..
  · exact hreach ▸ reach_le_iff.2 ⟨hend, fun f hf => (hsound f hf).1⟩
  · show (node l'.o i).price < kInfinityPrice → RecordOk (node l'.o i) i
    by_cases hi : i = cur + 1
    · subst hi
      rw [hnext]
      exact recordOk_nextOf hc32 (hold _ (Nat.lt_succ_self cur) hcur)
    · refine hmade.records hsound hhi fun hin => ?_
      rw [hbyte i hi (by omega)]
      exact hold i hlo (hlen ▸ hin)
  · exact (hnear (Nat.le_succ cur)).trans (by
      rw [node_afterByte ho hc, if_neg (by omega), node_placed ho, if_pos rfl])
  · have hoffers := visitOffers_visitAt (e := e) ho hc lenEnd position d newLen.toNat
    have hlit := (visitOf_visitAt e ho hc position).literal
    dsimp only at hoffers
    rw [nextOf_visitAt ho hc, hlit] at hoffers
    rw [hoffers] at hmade hreach hsound
    refine ⟨hcut.cells, hnext.trans (nextOf_visitAt ho hc _), hreach, fun i hlo hhi => ?_, fun i hi => ?_⟩
    · have hsettles := hmade.settles hsound hhi
      rw [hlen, hbyte i (by omega) (by omega)] at hsettles
      exact hsettles
    · have hbeyond := hmade.node_beyond hi
      have hle : lenEnd ≤ l'.lenEnd := hreach ▸ le_reach ..
      rw [hbyte i (by omega) (by omega)] at hbeyond
      exact hbeyond

end Sys2Proof
end

section
/-! Phases D and E (45_optimal_parser R218, R219): node 0 and node 1, and what node 0 offers to the lattice's other
nodes. -/

namespace Sys2Proof

open Machine

variable {e : State} {q : Parser} {l : Machine.Lat} {o : Store Node} {position lenMain : U32} {m b : Byte}
  {d : List (Nat × U32)} {reps repLens : Quad} {lenEnd : Nat}

/-! ### Nodes 0 and 1 (R218) -/

/-- The lattice once node 0 has its state and node 1 its price. -/
def firstLattice (e : State) (position : U32) (m b : Byte) (o : Store Node) : Store Node :=
  let o := setNode o 0 { node o 0 with state := e.codec.state }
  let o := setNode o 1
    (makeAsChar { node o 1 with price := litCost e e.codec.state position e.codec.prevByte m b })
  if m = b then relax o 1 (repHeadCost e e.codec.state position 0 true) makeAsShortRep else o

theorem firstLattice_spec (h : Store.wf Node.blank o = true) : let o' := firstLattice e position m b o
    Store.wf Node.blank o' = true ∧ node o' 0 = { node o 0 with state := e.codec.state } ∧
      node o' 1 = firstNode e position m b (node o 1) ∧ ∀ i, 2 ≤ i → node o' i = node o i := by
  unfold firstLattice firstNode
  dsimp only
  have h0 : Store.wf Node.blank (setNode o 0 { node o 0 with state := e.codec.state }) = true := setNode_wf h ..
  rw [show node (setNode o 0 { node o 0 with state := e.codec.state }) 1 = node o 1 from node_setNode h ..]
  generalize hlit : makeAsChar { node o 1 with price := litCost e e.codec.state position e.codec.prevByte m b } = first
  have h1 : Store.wf Node.blank (setNode (setNode o 0 { node o 0 with state := e.codec.state }) 1 first) = true :=
    setNode_wf h0 ..
  have hset (i : Nat) : node (setNode (setNode o 0 { node o 0 with state := e.codec.state }) 1 first) i =
      if i = 1 then first else if i = 0 then { node o 0 with state := e.codec.state } else node o i := by
    rw [node_setNode h0, node_setNode h]
  generalize setNode (setNode o 0 { node o 0 with state := e.codec.state }) 1 first = o' at *
  by_cases hmb : m = b
  · rw [if_pos hmb]
    have hrelax (i : Nat) := node_relax h1 1 i (repHeadCost e e.codec.state position 0 true) makeAsShortRep
    refine ⟨relax_wf h1 .., ?_, ?_, fun i hi => ?_⟩
    · rw [hrelax, if_neg fun hk => absurd hk.1 (by decide), hset, if_neg (by decide), if_pos rfl]
    · rw [hrelax, hset, if_pos rfl, ← hlit]
      exact if_congr (and_congr_left' (iff_of_true rfl hmb)) rfl rfl
    · rw [hrelax, if_neg fun hk => absurd hk.1 (by omega), hset, if_neg (by omega), if_neg (by omega)]
  · rw [if_neg hmb, if_neg fun hk => hmb hk.1]
    refine ⟨h1, ?_, ?_, fun i hi => ?_⟩
    · rw [hset, if_neg (by decide), if_pos rfl]
    · rw [hset, if_pos rfl, ← hlit]
      rfl
    · rw [hset, if_neg (by omega), if_neg (by omega)]

/-! ### The open lattice (R219) -/

/-- The lattice of two nodes from which phase E starts. -/
def seedBase (e : State) (position : U32) (m b : Byte) (reps : Quad) (o : Store Node) : Store Node :=
  let o := firstLattice e position m b o
  let o := setNode o 1 { node o 1 with posPrev := 0#32 }
  setNode o 0 { node o 0 with backs := reps }

theorem seedBase_spec (h : Store.wf Node.blank o = true) : let o' := seedBase e position m b reps o
    Store.wf Node.blank o' = true ∧ node o' 0 = { node o 0 with state := e.codec.state, backs := reps } ∧
      node o' 1 = { firstNode e position m b (node o 1) with posPrev := 0#32 } ∧
      ∀ i, 2 ≤ i → node o' i = node o i := by
  obtain ⟨hf, h0, h1, hrest⟩ := firstLattice_spec (e := e) (position := position) (m := m) (b := b) h
  unfold seedBase
  dsimp only
  generalize firstLattice e position m b o = f at *
  have hf1 : Store.wf Node.blank (setNode f 1 { node f 1 with posPrev := 0#32 }) = true := setNode_wf hf ..
  refine ⟨setNode_wf hf1 .., ?_, ?_, fun i hi => ?_⟩
  · rw [node_setNode hf1, if_pos rfl, node_setNode hf, if_neg (by decide), h0]
  · rw [node_setNode hf1, if_neg (by decide), node_setNode hf, if_pos rfl, h1]
  · rw [node_setNode hf1, if_neg (by omega), node_setNode hf, if_neg (by omega), hrest i hi]

/-- The lattice that the seeds are offered to. -/
def seedLattice (e : State) (position : U32) (m b : Byte) (reps : Quad) (lenEnd : Nat) (o : Store Node) : Machine.Lat :=
  { o := openNodes (lenEnd - 1) 1 (seedBase e position m b reps o), lenEnd := lenEnd }

theorem seedLattice_ok (h : Store.wf Node.blank o = true) : LatOk (seedLattice e position m b reps lenEnd o) :=
  openNodes_wf _ _ (seedBase_spec h).1

theorem node_seedLattice (h : Store.wf Node.blank o = true) (h2 : 2 ≤ lenEnd) (i : Nat) :
    node (seedLattice e position m b reps lenEnd o).o i =
      opened 1 lenEnd i (node (seedBase e position m b reps o) i) := by
  rw [seedLattice, node_openNodes _ _ _ (seedBase_spec h).1, opened]
  exact if_congr (and_congr_right' (by omega)) rfl rfl

theorem recordOk_firstNode (n : Node) : RecordOk { firstNode e position m b n with posPrev := 0#32 } 1 := by
  refine ⟨Nat.zero_lt_one, fun _ h => absurd h (Nat.lt_irrefl 1), fun h => ?_⟩
  unfold firstNode at h
  dsimp only at h
  split at h <;> exact nomatch h

/-! ### The reps -/

/-- What a rep costs in phase E before what names it. -/
def seedRepPrice (e : State) (position : U32) : U32 :=
  isMatchPrice e e.codec.state (posStateAt e position) true + e.cellPrice (isRepCell e.codec.state) true

/-- All four reps of phase E. -/
def seedReps (e : State) (position : U32) (repLens : Quad) (o : Store Node) : Store Node :=
  let seed := seedRep e (seedRepPrice e position) e.codec.state (posStateAt e position) repLens
  seed 3 (seed 2 (seed 1 (seed 0 o)))

def seedRepOffers (e : State) (position : U32) (repLens : Quad) (i : Nat) : List Offer :=
  repOffers e e.codec.state position 0#32 0 i (repLens.get i).toNat

theorem made_seedRep {i : Nat} (hi : i < 4) (hl : LatOk l) (hin : (repLens.get i).toNat ≤ l.lenEnd) :
    Made (seedRepOffers e position repLens i) l { l with
      o := seedRep e (seedRepPrice e position) e.codec.state (posStateAt e position) repLens i l.o } := by
  refine made_relaxReps hl (by omega) fun n h2 hn => ?_
  rw [BitVec.zero_add, ← repCost_eq e _ _ hi h2 (by omega)]
  rfl

theorem made_seedReps (hl : LatOk l) (hin : ∀ i, i < 4 → (repLens.get i).toNat ≤ l.lenEnd) :
    Made ((List.range 4).flatMap (seedRepOffers e position repLens)) l
      { l with o := seedReps e position repLens l.o } := by
  have h0 := made_seedRep (e := e) (position := position) (i := 0) (by decide) hl (hin 0 (by decide))
  have h1 := made_seedRep (e := e) (position := position) (i := 1) (by decide) h0.ok (hin 1 (by decide))
  have h2 := made_seedRep (e := e) (position := position) (i := 2) (by decide) h1.ok (hin 2 (by decide))
  have h3 := made_seedRep (e := e) (position := position) (i := 3) (by decide) h2.ok (hin 3 (by decide))
  have hall := h0.append (h1.append (h2.append (h3.append (.nil h3.ok))))
  exact hall

/-! ### The matches -/

/-- What a match costs in phase E before its length and distance. -/
def seedMatchPrice (e : State) (position : U32) : U32 :=
  isMatchPrice e e.codec.state (posStateAt e position) true + e.cellPrice (isRepCell e.codec.state) false

/-- The least length the matches of phase E try, past those of rep 0. -/
theorem toNat_seedStart {n : U32} (h : n.toNat ≤ 273) :
    (if 2#32 ≤ n then n + 1#32 else 2#32).toNat = firstMatch n.toNat := by
  unfold firstMatch
  by_cases h2 : 2 ≤ n.toNat
  · rw [if_pos h2, if_pos (show 2#32 ≤ n from h2)]
    exact BitVec.toNat_add_of_lt (show n.toNat + 1 < 2 ^ 32 by omega)
  · rw [if_neg h2, if_neg (show ¬ 2#32 ≤ n from h2)]
    rfl

theorem longest_le {p : Parser} {longest : U32} (h : CandidatesAre p d longest) : longest.toNat ≤ 273 := by
  have hlast : longest.toNat = longestOf d := h.last
  rcases List.eq_nil_or_concat d with rfl | ⟨d', x, rfl⟩
  · exact hlast ▸ Nat.zero_le _
  · obtain ⟨y, hy, hlong⟩ := longestOf_mem (d := d'.concat x) (by simp)
    rw [hlast, ← hlong]
    exact (h.lengths y hy).2

theorem seedMatches_spec (h : CandidatesAre q d lenMain) {rep0 : U32} (hrep : rep0.toNat ≤ 273) (hl : LatOk l)
    (hin : lenMain.toNat ≤ l.lenEnd) : ∃ l' : Machine.Lat,
      seedMatches e q (seedMatchPrice e position) (posStateAt e position) lenMain rep0 l.o = some l'.o ∧
      Made (matchOffers e e.codec.state position 0#32 0 d (firstMatch rep0.toNat) lenMain.toNat fun _ _ _ => [])
        l l' := by
  have hstart := toNat_seedStart hrep
  have hlong : lenMain.toNat = longestOf d := h.last
  rw [seedMatches]
  generalize (if 2#32 ≤ rep0 then rep0 + 1#32 else 2#32) = start at *
  rw [← hstart]
  by_cases hlt : lenMain < start
  · rw [if_pos hlt, matchOffers_of_lt hlt]
    exact ⟨l, rfl, .nil hl⟩
  · have hle : start.toNat ≤ longestOf d := hlong ▸ Nat.le_of_not_lt hlt
    have h2 : 2 ≤ start.toNat := hstart ▸ two_le_firstMatch _
    have hne : d ≠ [] := by
      rintro rfl
      have hzero : longestOf [] = 0 := rfl
      omega
    obtain ⟨before, m, dist, after, hd, hbefore, hm⟩ := exists_split hne hle
    rw [if_neg hlt, h.pairs.skipPairs hd hbefore hm]
    dsimp only
    obtain ⟨l', hl', hmade⟩ := made_scanPairs (e := e) (st := e.codec.state) (position := position) (price := 0#32)
      (cur := 0) (l := l) (p := seedMatchPrice e position) (ps := posStateAt e position) h.pairs hl (by omega)
      (fun n dist hn hn' => by
        rw [BitVec.zero_add, ← matchCost_eq e _ _ hn (by omega)]
        rfl)
      (hop := fun _ _ _ => []) (hopStep := fun _ _ _ l => l) (fun _ _ _ _ hl => .nil hl) hd hbefore h2 hm
    rw [seedLoop_eq_scanPairs, h.count, hl', hlong]
    exact ⟨l', rfl, hmade⟩

/-! ### The seeded lattice -/

theorem seedOffers_eq (e : State) (position : U32) (repLens : Quad) (d : List (Nat × U32)) (longest : Nat) :
    seedOffers e position ((List.range 4).map fun i => (repLens.get i).toNat) d longest =
      (List.range 4).flatMap (seedRepOffers e position repLens) ++
        matchOffers e e.codec.state position 0#32 0 d (firstMatch (repLens.get 0).toNat) longest fun _ _ _ => [] := rfl

theorem seedOffers_sound {p : Parser} (h : CandidatesAre p d lenMain)
    (hlens : ∀ i, i < 4 → (repLens.get i).toNat ≤ 273) :
    ∀ f ∈ seedOffers e position ((List.range 4).map fun i => (repLens.get i).toNat) d lenMain.toNat, f.Sound := by
  have hlong := longest_le h
  intro f hf
  rw [seedOffers_eq] at hf
  rcases List.mem_append.1 hf with hf | hf
  · obtain ⟨i, hi, hf⟩ := List.mem_flatMap.1 hf
    have hi := List.mem_range.1 hi
    have hlen := hlens i hi
    exact (repOffers_sound hi (by omega) f hf).1
  · exact (matchOffers_sound (two_le_firstMatch _) (by omega) h.near
      (fun _ _ _ _ _ f hf => absurd hf List.not_mem_nil) f hf).1

theorem seedOffers_target (hlong : lenMain.toNat ≤ lenEnd) (hlens : ∀ i, i < 4 → (repLens.get i).toNat ≤ lenEnd) :
    ∀ f ∈ seedOffers e position ((List.range 4).map fun i => (repLens.get i).toNat) d lenMain.toNat,
      f.target ≤ lenEnd := by
  intro f hf
  rw [seedOffers_eq] at hf
  rcases List.mem_append.1 hf with hf | hf
  · obtain ⟨i, hi, hf⟩ := List.mem_flatMap.1 hf
    have hlen := hlens i (List.mem_range.1 hi)
    obtain ⟨k, hk, rfl⟩ := List.mem_map.1 hf
    dsimp only
    omega
  · rw [matchOffers_eq] at hf
    obtain ⟨len, hlen, hf⟩ := List.mem_flatMap.1 hf
    obtain ⟨hlo, hhi⟩ := List.mem_range'_1.1 hlen
    rcases List.mem_cons.1 hf with rfl | hf
    · dsimp only
      omega
    · split at hf <;> exact absurd hf List.not_mem_nil

/-- Phases D and E seed the lattice. -/
theorem seeded {p : Parser} (h : CandidatesAre p d lenMain) (ho : Store.wf Node.blank o = true)
    (hlong : lenMain.toNat ≤ lenEnd) (hlens : ∀ i, i < 4 → (repLens.get i).toNat ≤ 273 ∧ (repLens.get i).toNat ≤ lenEnd)
    (h2 : 2 ≤ lenEnd) : ∃ o',
      seedMatches e p (seedMatchPrice e position) (posStateAt e position) lenMain (repLens.get 0)
        (seedReps e position repLens (seedLattice e position m b reps lenEnd o).o) = some o' ∧
      Seeded e position reps m b
        (seedOffers e position ((List.range 4).map fun i => (repLens.get i).toNat) d lenMain.toNat) lenEnd o o' := by
  have hext := seedLattice_ok (e := e) (position := position) (m := m) (b := b) (reps := reps) (lenEnd := lenEnd) ho
  have hnodes := node_seedLattice (e := e) (position := position) (m := m) (b := b) (reps := reps) ho h2
  have hreps := made_seedReps (e := e) (position := position) hext fun i hi => (hlens i hi).2
  obtain ⟨l', hl', hmatches⟩ := seedMatches_spec (e := e) (position := position) h
    (hlens 0 (by decide)).1 hreps.ok hlong
  have hsound := seedOffers_sound (e := e) (position := position) h fun i hi => (hlens i hi).1
  have hwithin := seedOffers_target (e := e) (position := position) (d := d) hlong fun i hi => (hlens i hi).2
  have hmade := hreps.append hmatches
  rw [← seedOffers_eq] at hmade
  have hend : l'.lenEnd = lenEnd := hmade.lenEnd.trans (reach_of_within hwithin)
  have hnear {i : Nat} (hi : i ≤ 1) : node l'.o i = node (seedBase e position m b reps o) i := by
    refine (hmade.node_same (.inl (show i ≤ lenEnd by omega)) fun f hf heq => ?_).trans ?_
    · obtain ⟨-, hlong, -⟩ := hsound f hf
      omega
    · rw [hnodes, opened, if_neg (by omega)]
  obtain ⟨-, h0, h1, hrest⟩ := seedBase_spec (e := e) (position := position) (m := m) (b := b) (reps := reps) ho
  have hopen {i : Nat} (hlo : 2 ≤ i) (hhi : i ≤ lenEnd) :
      node (seedLattice e position m b reps lenEnd o).o i = { node o i with price := kInfinityPrice } := by
    rw [hnodes, hrest i hlo, opened, if_pos (by omega)]
  refine ⟨l'.o, hl', (hnear (Nat.zero_le 1)).trans h0, (hnear le_rfl).trans h1, fun i hlo hhi => ?_, fun i hi => ?_,
    fun i hlo hhi hlt => ?_⟩
  · have hsettles := hmade.settles hsound (hend.symm ▸ hhi)
    simp only [hopen hlo hhi, ite_self] at hsettles
    exact ⟨hsettles.rest, hsettles.untaken, hsettles.taken⟩
  · rw [hmade.node_beyond (hend.symm ▸ hi), hnodes, opened, if_neg (by omega), hrest i (by omega)]
  · rcases Nat.lt_or_ge 1 i with hi | hi
    · refine hmade.records hsound (hend.symm ▸ hhi) (fun _ hlt => ?_) hlt
      rw [hopen hi hhi] at hlt
      exact absurd hlt (BitVec.lt_irrefl _)
    · obtain rfl : i = 1 := by omega
      rw [hnear le_rfl, h1]
      exact recordOk_firstNode _

end Sys2Proof
end

section
/-! GET_OPTIMUM (45_optimal_parser R215 to R220): its phases and the steps of its walk. -/

namespace Sys2Proof

open Machine

variable {s u : State} {x : PM} {position lenMain : U32} {m : Nat} {q : Quad}

/-! ### The longest rep (R216) -/

/-- Index `m` holds the first longest of the first `k` lengths. -/
structure FirstMax (q : Quad) (k m : Nat) : Prop where
  lt : m < k
  le : ∀ j, j < k → q.get j ≤ q.get m
  first : ∀ j, j < m → q.get j < q.get m

theorem FirstMax.step {k : Nat} (h : FirstMax q k m) : FirstMax q (k + 1) (if q.get m < q.get k then k else m) := by
  split
  · next hlt =>
    have hbelow (j : Nat) (hj : j < k) : q.get j < q.get k := Nat.lt_of_le_of_lt (h.le j hj) hlt
    refine ⟨Nat.lt_succ_self k, fun j hj => ?_, hbelow⟩
    rcases Nat.lt_succ_iff_lt_or_eq.1 hj with hj | rfl
    · exact BitVec.le_of_lt (hbelow j hj)
    · exact BitVec.le_refl _
  · next hle =>
    refine ⟨Nat.lt_succ_of_lt h.lt, fun j hj => ?_, h.first⟩
    rcases Nat.lt_succ_iff_lt_or_eq.1 hj with hj | rfl
    · exact h.le j hj
    · exact BitVec.not_lt.1 hle

theorem repMaxIndex_firstMax (q : Quad) : FirstMax q 4 (repMaxIndex q) := by
  have hzero : FirstMax q 1 0 :=
    ⟨Nat.zero_lt_one, fun j hj => Nat.lt_one_iff.1 hj ▸ BitVec.le_refl _, fun j hj => absurd hj (Nat.not_lt_zero j)⟩
  have hmax := hzero.step.step.step
  exact hmax

theorem FirstMax.unique {k m' : Nat} (h : FirstMax q k m) (h' : FirstMax q k m') : m = m' := by
  refine Nat.le_antisymm (Nat.le_of_not_lt fun hlt => ?_) (Nat.le_of_not_lt fun hlt => ?_)
  · exact absurd (h.first m' hlt) (BitVec.not_lt.2 (h'.le m h.lt))
  · exact absurd (h'.first m hlt) (BitVec.not_lt.2 (h.le m' h'.lt))

theorem FirstMax.toNat_get (h : FirstMax q 4 m) :
    (q.get m).toNat = max (max (q.get 0).toNat (q.get 1).toNat) (max (q.get 2).toNat (q.get 3).toNat) := by
  obtain ⟨hlt, hle, -⟩ := h
  have hle' (j : Nat) (hj : j < 4) : (q.get j).toNat ≤ (q.get m).toNat := hle j hj
  have h0 := hle' 0 (by decide)
  have h1 := hle' 1 (by decide)
  have h2 := hle' 2 (by decide)
  have h3 := hle' 3 (by decide)
  obtain rfl | rfl | rfl | rfl : m = 0 ∨ m = 1 ∨ m = 2 ∨ m = 3 := by omega
  all_goals omega

theorem get_measureReps (e : State) (f : MatchFinder) (q : Quad) (i : Nat) :
    (measureReps e f q).get i = BitVec.ofNat 32 (mfMatchLen e f (-1) (q.get i) 273) :=
  match i with
  | 0 | 1 | 2 | _ + 3 => rfl

theorem toNat_maxU32 (a b : U32) : (maxU32 a b).toNat = max a.toNat b.toNat := by
  unfold maxU32
  by_cases h : a.toNat < b.toNat
  · rw [if_pos (show a < b from h), max_eq_right h.le]
  · rw [if_neg (show ¬ a < b from h), max_eq_left (Nat.le_of_not_lt h)]

/-! ### Phases A to D (R215 to R218) -/

/-- What an answer of the parser makes of the state. -/
def outcomeOf (s : State) : Option (U32 × PM) → Host.Outcome State Fault Refusal
  | some (len, x) => answer (.word len) (s.setPm x)
  | none => .fault .parserHang

theorem exec_optGetOptimum (position : U32) (s : State) :
    exec (.optGetOptimum position) s = outcomeOf s (getOptimum s position s.pm) := by
  show execOptGetOptimum position s = _
  rw [execOptGetOptimum]
  cases getOptimum s position s.pm <;> rfl

theorem getOptimum_of_pending (h : x.p.optimumEndIndex ≠ x.p.optimumCurrentIndex) :
    getOptimum s position x = some (replay x) := if_pos h

theorem getOptimum_of_last {y : PM} (h : x.p.optimumEndIndex = x.p.optimumCurrentIndex)
    (hmain : mainLength s x = (lenMain, y)) (hlast : mfAvail y.m = 0#32) :
    getOptimum s position x = decided 1#32 0xFFFFFFFF#32 y := by
  rw [getOptimum, if_neg (not_not_intro h), hmain]
  exact if_pos (by show mfAvail y.m + 1#32 < 2#32; rw [hlast]; decide)

theorem getOptimum_of_more {y : PM} (h : x.p.optimumEndIndex = x.p.optimumCurrentIndex)
    (hmain : mainLength s x = (lenMain, y)) (hmore : mfAvail y.m ≠ 0#32) (hwrap : mfAvail y.m ≠ 0xFFFFFFFF#32) :
    getOptimum s position x = chooseToken s position lenMain y := by
  rw [getOptimum, if_neg (not_not_intro h), hmain]
  exact if_neg (by show ¬ (mfAvail y.m + 1#32 < 2#32); bv_omega)

/-- How many bytes agree at each rep (R216). -/
def repLensOf (s : State) (x : PM) : Quad := measureReps s x.m s.codec.reps

/-- The parser once it has measured the reps. -/
def measured (s : State) (x : PM) : PM :=
  { x with p := { x.p with sweepReps := s.codec.reps, sweepRepLens := repLensOf s x } }

theorem sweepRepLens_measured (s : State) (x : PM) : (measured s x).p.sweepRepLens = repLensOf s x := rfl

theorem CandidatesAre.measured {d : List (Nat × U32)} (h : CandidatesAre x.p d lenMain) :
    CandidatesAre (measured s x).p d lenMain :=
  ⟨h.count, h.cells, h.rising, h.lengths, h.near, h.last⟩

theorem chooseToken_of_rep {i : Nat} (h : FirstMax (repLensOf s x) 4 i) (hfast : s.fastBytes ≤ (repLensOf s x).get i) :
    chooseToken s position lenMain x = decided ((repLensOf s x).get i) (BitVec.ofNat 32 i)
      (movePos s ((repLensOf s x).get i - 1#32) (measured s x)) := by
  obtain rfl := h.unique (repMaxIndex_firstMax _)
  exact if_pos hfast

section
variable (h : ∀ i, i < 4 → (repLensOf s x).get i < s.fastBytes)
include h

theorem chooseToken_of_match (hfast : s.fastBytes ≤ lenMain) : chooseToken s position lenMain x =
    decided lenMain (lastDistance x.p + 4#32) (movePos s (lenMain - 1#32) (measured s x)) := by
  have hmax := h _ (repMaxIndex_firstMax (repLensOf s x)).lt
  exact (if_neg (BitVec.not_le.2 hmax)).trans (if_pos hfast)

theorem chooseToken_of_literal (hfast : lenMain < s.fastBytes) (hrep : ∀ i, i < 4 → (repLensOf s x).get i < 2#32)
    (hmain : lenMain < 2#32) (hne : byteAt s x (-1#32) ≠ byteAt s x (-s.codec.reps.r0 - 2#32)) :
    chooseToken s position lenMain x = decided 1#32 0xFFFFFFFF#32 (measured s x) := by
  have hlt := (repMaxIndex_firstMax (repLensOf s x)).lt
  exact (if_neg (BitVec.not_le.2 (h _ hlt))).trans
    ((if_neg (BitVec.not_le.2 hfast)).trans (if_pos ⟨hmain, hne, hrep _ hlt⟩))

/-- Phase D is reached where the bytes agree or a token of two bytes is possible. -/
theorem chooseToken_of_lattice (hfast : lenMain < s.fastBytes)
    (hmore : byteAt s x (-1#32) = byteAt s x (-s.codec.reps.r0 - 2#32) ∨
      2#32 ≤ maxU32 lenMain ((repLensOf s x).get (repMaxIndex (repLensOf s x)))) :
    chooseToken s position lenMain x = seedAndSweep s position lenMain (repMaxIndex (repLensOf s x))
      (byteAt s x (-1#32)) (byteAt s x (-s.codec.reps.r0 - 2#32)) (measured s x) := by
  have hlt := (repMaxIndex_firstMax (repLensOf s x)).lt
  refine (if_neg (BitVec.not_le.2 (h _ hlt))).trans ((if_neg (BitVec.not_le.2 hfast)).trans (if_neg ?_))
  rintro ⟨hmain, hne, hrep⟩
  rcases hmore with heq | h2
  · exact hne heq
  · have h2' : 2 ≤ _ := h2
    rw [toNat_maxU32] at h2'
    have hmain' : lenMain.toNat < 2 := hmain
    have hrep' : ((repLensOf s x).get (repMaxIndex (repLensOf s x))).toNat < 2 := hrep
    omega

end

/-! ### Phases D and E (R218, R219) -/

theorem seedAndSweep_eq (e : State) (position lenMain : U32) (repMax : Nat) (b m : Byte) (x : PM) :
    seedAndSweep e position lenMain repMax b m x =
      let lens := x.p.sweepRepLens
      let lenEnd := maxU32 lenMain (lens.get repMax)
      let first := firstLattice e position m b x.p.optimum
      if lenEnd < 2#32 then decided 1#32 (node first 1).backPrev (x.setOptimum first)
      else
        (seedMatches e x.p (seedMatchPrice e position) (posStateAt e position) lenMain (lens.get 0)
          (seedReps e position lens
            (seedLattice e position m b x.p.sweepReps lenEnd.toNat x.p.optimum).o)).bind
          fun o => sweep e sweepBound 0 lenEnd.toNat position (x.setOptimum o) := by
  unfold seedAndSweep
  dsimp only
  rw [litCost_eq, repLen1Price_eq, repHeadCost_eq]
  refine ite_congr rfl (fun _ => rfl) fun _ => ?_
  unfold seedReps seedRepPrice seedMatchPrice seedLattice seedBase firstLattice
  dsimp only
  rcases seedMatches _ _ _ _ _ _ _ with _ | o <;> rfl

/-- The byte at rep 0 (R217). -/
def repByte (s : State) (x : PM) : Byte := byteAt s x (-s.codec.reps.r0 - 2#32)

/-- Without a token of two bytes the lattice has node 1 alone. -/
theorem chooseToken_of_byte (h : ∀ i, i < 4 → (repLensOf s x).get i < s.fastBytes) (hfast : lenMain < s.fastBytes)
    (hrep : ∀ i, i < 4 → (repLensOf s x).get i < 2#32) (hmain : lenMain < 2#32)
    (heq : byteAt s x (-1#32) = repByte s x) :
    let o := firstLattice s position (repByte s x) (byteAt s x (-1#32)) x.p.optimum
    chooseToken s position lenMain x = decided 1#32 (node o 1).backPrev ((measured s x).setOptimum o) := by
  have hrep' : _ < 2 := hrep _ (repMaxIndex_firstMax (repLensOf s x)).lt
  have hmain' : lenMain.toNat < 2 := hmain
  rw [chooseToken_of_lattice h hfast (.inl heq), seedAndSweep_eq]
  refine if_pos (show _ < 2 from ?_)
  rw [toNat_maxU32]
  exact max_lt hmain' hrep'

theorem repLensOf_le (s : State) (x : PM) (i : Nat) : ((repLensOf s x).get i).toNat ≤ 273 := by
  rw [repLensOf, get_measureReps, BitVec.toNat_ofNat]
  exact (Nat.mod_le ..).trans (mfMatchLen_le ..)

/-- With one, phase E seeds the lattice and the walk starts. -/
theorem chooseToken_of_sweep {d : List (Nat × U32)} {lenEnd : Nat}
    (h : ∀ i, i < 4 → (repLensOf s x).get i < s.fastBytes) (hfast : lenMain < s.fastBytes)
    (ho : Store.wf Node.blank x.p.optimum = true) (hd : CandidatesAre x.p d lenMain)
    (hend : lenEnd = max lenMain.toNat
      (max (max ((repLensOf s x).get 0).toNat ((repLensOf s x).get 1).toNat)
        (max ((repLensOf s x).get 2).toNat ((repLensOf s x).get 3).toNat)))
    (h2 : 2 ≤ lenEnd) : ∃ o,
      Seeded s position s.codec.reps (repByte s x) (byteAt s x (-1#32))
        (seedOffers s position ((List.range 4).map fun i => ((repLensOf s x).get i).toNat) d lenMain.toNat) lenEnd
        x.p.optimum o ∧
      chooseToken s position lenMain x = sweep s sweepBound 0 lenEnd position ((measured s x).setOptimum o) := by
  have hmax := repMaxIndex_firstMax (repLensOf s x)
  have hnat : (maxU32 lenMain ((repLensOf s x).get (repMaxIndex (repLensOf s x)))).toNat = lenEnd := by
    rw [toNat_maxU32, hmax.toNat_get, hend]
  have hlens (i : Nat) (hi : i < 4) :
      ((repLensOf s x).get i).toNat ≤ 273 ∧ ((repLensOf s x).get i).toNat ≤ lenEnd := by
    have hle : ((repLensOf s x).get i).toNat ≤ _ := hmax.le i hi
    rw [hmax.toNat_get] at hle
    exact ⟨repLensOf_le s x i, hend ▸ hle.trans (le_max_right ..)⟩
  obtain ⟨o, hseed, hseeded⟩ := seeded (e := s) (position := position) (m := repByte s x) (b := byteAt s x (-1#32))
    (reps := s.codec.reps) hd.measured ho (hend ▸ le_max_left ..) hlens h2
  refine ⟨o, hseeded, ?_⟩
  have h2' : ¬ maxU32 lenMain ((repLensOf s x).get (repMaxIndex (repLensOf s x))) < 2#32 :=
    Nat.not_lt.2 (show 2 ≤ _ from hnat.symm ▸ h2)
  rw [chooseToken_of_lattice h hfast (.inr (BitVec.not_lt.1 h2')), seedAndSweep_eq]
  dsimp only
  rw [sweepRepLens_measured, if_neg h2', hnat]
  exact congrArg (Option.bind · _) hseed

/-! ### The length that starts a sweep (R215) -/

/-- `s` with the parser's part `x` and the answer `r`. -/
def withPm (s : State) (x : PM) (r : Ret) : State := { s with parser := x.p, mf := x.m, ret := r }

/-- The parser as a sweep begins. -/
def resetIndices (s : State) : State :=
  { s with parser := { s.parser with optimumCurrentIndex := 0#32, optimumEndIndex := 0#32 } }

/-- What READ_MATCH_DISTANCES answers and leaves is what the parser takes inside GET_OPTIMUM. -/
theorem readMatchDistances_of_exec {v w : State} {n : U32} (hsame : SameInput v s)
    (hexec : exec .optReadMatchDistances v = .next w) (hn : w.ret = .word n) :
    readMatchDistances s v.pm = (n, w.pm) ∧ w = withPm v w.pm w.ret := by
  rw [exec_optReadMatchDistances] at hexec
  cases hexec
  rw [← readMatchDistances_same hsame, ← Ret.word.inj hn]
  exact ⟨rfl, rfl⟩

theorem mainLength_spec
    (hkept : s.parser.longestMatchWasFound = true → lenMain = s.parser.longestMatchLength ∧
      u = { resetIndices s with parser := { (resetIndices s).parser with longestMatchWasFound := false } })
    (hread : s.parser.longestMatchWasFound = false →
      exec .optReadMatchDistances (resetIndices s) = .next u ∧ u.ret = .word lenMain) :
    ∃ x r, u = withPm s x r ∧ mainLength s s.pm = (lenMain, x) := by
  cases hfound : s.parser.longestMatchWasFound with
  | true =>
    obtain ⟨rfl, rfl⟩ := hkept hfound
    exact ⟨_, _, rfl, if_pos hfound⟩
  | false =>
    obtain ⟨hexec, hlen⟩ := hread hfound
    obtain ⟨hlong, hu⟩ := readMatchDistances_of_exec (s := s) (v := resetIndices s) ⟨fun _ => rfl, rfl⟩ hexec hlen
    refine ⟨u.pm, u.ret, hu, ?_⟩
    rw [← hlong]
    exact if_neg (by rw [show s.pm.p.longestMatchWasFound = false from hfound]; decide)

/-! ### The steps of the walk (R220) -/

theorem finishSweep_of_exec {v t : State} {i : Nat} {len : U32}
    (hexec : exec (.optBackward (BitVec.ofNat 32 i)) v = .next t) (hlen : t.ret = .word len) :
    finishSweep i v.pm = some (len, t.pm) := by
  rw [show exec (.optBackward (BitVec.ofNat 32 i)) v = execOptBackward (BitVec.ofNat 32 i) v from rfl,
    execOptBackward] at hexec
  rw [finishSweep, show v.pm.p = v.parser from rfl]
  split at hexec
  · next hback =>
    cases hexec
    rw [hback, ← Ret.word.inj hlen]
    rfl
  · exact nomatch hexec

theorem sweep_of_end {fuel cur lenEnd : Nat} (h : cur + 1 = lenEnd) :
    sweep s (fuel + 1) cur lenEnd position x = finishSweep (cur + 1) x := if_pos h

section
variable {y : PM} {newLen : U32} {fuel cur lenEnd : Nat} (h : cur + 1 ≠ lenEnd)
  (hread : readMatchDistances s x = (newLen, y))
include h hread

theorem sweep_of_long (hlong : s.fastBytes ≤ newLen) :
    sweep s (fuel + 1) cur lenEnd position x = finishSweep (cur + 1)
      { y with p := { y.p with longestMatchLength := newLen, longestMatchWasFound := true } } := by
  rw [sweep, if_neg h, hread]
  exact if_pos hlong

theorem sweep_of_visit (hlong : newLen < s.fastBytes) {z : PM} {newEnd : Nat}
    (hvisit : visit s y (cur + 1) lenEnd (position + 1#32) newLen = some (z, newEnd)) :
    sweep s (fuel + 1) cur lenEnd position x = sweep s fuel (cur + 1) newEnd (position + 1#32) z := by
  rw [sweep, if_neg h, hread]
  refine (if_neg (BitVec.not_le.2 hlong)).trans ?_
  dsimp only
  rw [hvisit]

end

/-! ### O38 -/

theorem SameInput.withPm (s : State) (x : PM) (r : Ret) : SameInput (withPm s x r) s := ⟨fun _ => rfl, rfl⟩

theorem exec_optMovePos_withPm (s : State) (x : PM) (r : Ret) (n : U32) :
    exec (.optMovePos n) (withPm s x r) = .next (withPm s (movePos s n x) .none) := by
  rw [exec_optMovePos, mfSkip_same (SameInput.withPm s x r)]
  rfl

/-- The lengths measured with MATCH_LEN, whatever the parser holds. -/
theorem repLensOf_withPm (s : State) (x : PM) (r : Ret) (i : Nat) :
    BitVec.ofNat 32 (mfMatchLen (withPm s x r) x.m (-1) (s.codec.reps.get i) 273) = (repLensOf s x).get i := by
  rw [repLensOf, get_measureReps, mfMatchLen_same (SameInput.withPm s x r)]

/-- Settles O38: the phases one by one, the steps of the walk, and the visit of a node. -/
theorem getOptimumFollowsItsPhases : Obligations.GetOptimumFollowsItsPhases := by
  refine ⟨fun position s => ⟨fun hpend => ?_, fun lenMain u hnone hkept hread => ?_⟩,
    fun s fuel cur lenEnd position x => ⟨fun hend t len hexec hlen => ?_, fun hend w newLen hexec hn =>
      ⟨fun hlong t len hback hlen => ?_, fun hlong y newEnd hvisit => ?_⟩⟩,
    fun s x cur lenEnd position newLen d ho hm hd _ hcur hend hr => visit_visited ho hm hd hcur hend hr⟩
  · rw [exec_optGetOptimum, getOptimum_of_pending (x := s.pm) hpend]
    rfl
  · obtain ⟨x, r, rfl, hmain⟩ := mainLength_spec hkept hread
    intro repLen measured'
    have hrep : repLen = fun i => (repLensOf s x).get i := funext (repLensOf_withPm s x r)
    have hmeasured : measured' = withPm s (measured s x) r := by
      show withPm s { x with p := { x.p with
        sweepReps := s.codec.reps, sweepRepLens := ⟨repLen 0, repLen 1, repLen 2, repLen 3⟩ } } r = _
      rw [hrep]
      rfl
    clear_value measured' repLen
    subst hrep hmeasured
    have hexec (hmore : mfAvail x.m ≠ 0#32) (hwrap : mfAvail x.m ≠ 0xFFFFFFFF#32) :
        exec (.optGetOptimum position) s = outcomeOf s (chooseToken s position lenMain x) := by
      rw [exec_optGetOptimum, getOptimum_of_more (x := s.pm) hnone hmain hmore hwrap]
    refine ⟨fun hlast => ?_, fun hmore hwrap => ⟨fun i hi hle hfirst hfast => ?_, fun hreps hfast => ?_,
      fun hreps hfast h2 hne => ?_, fun ho hreps hfast => ⟨fun hshort h2 heq => ?_, fun d lenEnd hd hend h2 => ?_⟩⟩⟩
    · rw [exec_optGetOptimum, getOptimum_of_last (x := s.pm) hnone hmain hlast]
      rfl
    · rw [hexec hmore hwrap, chooseToken_of_rep ⟨hi, hle, hfirst⟩ hfast]
      exact ⟨_, exec_optMovePos_withPm .., rfl⟩
    · rw [hexec hmore hwrap, chooseToken_of_match hreps hfast]
      exact ⟨_, exec_optMovePos_withPm .., rfl⟩
    · rw [hexec hmore hwrap,
        chooseToken_of_literal (fun i hi => (hreps i hi).1) hfast (fun i hi => (hreps i hi).2) h2 hne]
      rfl
    · obtain ⟨-, h0, h1, hrest⟩ :=
        firstLattice_spec (e := s) (position := position) (m := repByte s x) (b := byteAt s x (-1#32)) ho
      rw [hexec hmore hwrap, chooseToken_of_byte hreps hfast hshort h2 heq]
      exact ⟨_, rfl, h0, h1, hrest⟩
    · obtain ⟨o, hseeded, hsweep⟩ := chooseToken_of_sweep hreps hfast ho hd hend h2
      rw [hexec hmore hwrap, hsweep]
      exact ⟨o, hseeded, rfl⟩
  · rw [sweep_of_end hend, hend]
    exact finishSweep_of_exec hexec hlen
  · obtain ⟨hread, -⟩ := readMatchDistances_of_exec (SameInput.setPm s x) hexec hn
    exact (sweep_of_long hend hread hlong (x := x)).trans (finishSweep_of_exec hback hlen)
  · obtain ⟨hread, -⟩ := readMatchDistances_of_exec (SameInput.setPm s x) hexec hn
    exact sweep_of_visit hend hread hlong hvisit

end Sys2Proof
end

section
/-! The state automaton, the rep register and the distance slots (46_codec R250 to R265): the rows of R254's
table, and each distance in the range of its slot. -/

namespace Sys2Proof

open Machine

/-! ### O40 -/

/-- The rows of R254's table are the values of the four operations. -/
theorem transitionTable_row : ∀ st : U4, st ≤ 11#4 → transitionTable[st.toNat]? =
    some ((stChar st).toNat, (stMatch st).toNat, (stRep st).toNat, (stShortrep st).toNat) := by decide

/-- The answer of an operation of the automaton. -/
theorem answer_state (st : U4) (s : State) :
    answer (stateRet st) s = .next { s with ret := .word (BitVec.ofNat 32 st.toNat) } := by
  rw [BitVec.ofNat_toNat]
  rfl

/-- Settles O40: each operation answers its column of the table's row; the register's rules are PUSH's and
PROMOTE's own definitions. -/
theorem automatonAndReps : Obligations.AutomatonAndReps := by
  refine ⟨fun v s hv => ?_, fun s => ⟨fun _ => rfl, rfl, rfl, rfl⟩⟩
  have hst : (v.setWidth 4).toNat = v.toNat := toNat_setWidth_four hv
  have hrow := transitionTable_row (v.setWidth 4) (by rw [BitVec.le_def, hst]; exact hv)
  have hchar : stIsChar (v.setWidth 4) = decide (v.toNat < 7) :=
    decide_eq_decide.2 (by rw [BitVec.lt_def, hst]; rfl)
  rw [hst] at hrow
  refine ⟨_, _, _, _, hrow, answer_state _ s, answer_state _ s, answer_state _ s, answer_state _ s, ?_,
    stChar_le _, stMatch_le _, stRep_le _, stShortrep_le _⟩
  rw [← hchar]
  rfl

/-! ### O41 -/

theorem lenToPosStateOf_eq {len : U32} (h : 2 ≤ len.toNat) :
    lenToPosStateOf len = BitVec.ofNat 32 (min (len.toNat - 2) 3) := by
  rw [← lenToPosStateOf_toNat h, BitVec.ofNat_toNat, BitVec.setWidth_eq]

/-- A distance of `k` bits has one of the first `2 * k` slots. -/
theorem slotOf_lt_two_mul {d k : Nat} (hk : 1 ≤ k) (h : d < 2 ^ k) : slotOf d < 2 * k := by
  by_cases hd : d < 2
  · rw [slotOf_of_lt_four (by omega)]
    omega
  · have hlog : Nat.log 2 d < k := Nat.log_lt_of_lt_pow (by omega) h
    rw [slotOf_of_two_le (by omega)]
    omega

/-- Past the fast table's distances a shift by `n` takes `2 * n` slots off (R263, R264). -/
theorem fastPos_ushiftRight {d : U32} (n : Nat) (h : 2 ≤ d.toNat / 2 ^ n) :
    BitVec.ofNat 32 (fastPos (d >>> n).toNat) + BitVec.ofNat 32 (2 * n) = BitVec.ofNat 32 (slotOf d.toNat) := by
  rw [fastPos, BitVec.toNat_ushiftRight, Nat.shiftRight_eq_div_pow, ← BitVec.ofNat_add, slotOf_div_pow h]

/-- R264's three ranges give, from 128 on, the slot of R263. -/
theorem posSlot2Of_eq {d : U32} (h : 128 ≤ d.toNat) : posSlot2Of d = BitVec.ofNat 32 (slotOf d.toNat) := by
  unfold posSlot2Of
  split
  · exact fastPos_ushiftRight 6 (by omega)
  split
  · exact fastPos_ushiftRight 16 (by bv_omega)
  · exact fastPos_ushiftRight 26 (by bv_omega)

/-- Where POS_SLOT2 reads the fast table (R264). -/
theorem posSlot2Of_table (d : U32) : posSlot2Of d = BitVec.ofNat 32
    (if d.toNat < 2 ^ 17 then fastPos (d.toNat / 64) + 12
      else if d.toNat < 2 ^ 27 then fastPos (d.toNat / 65536) + 32
      else fastPos (d.toNat / 67108864) + 52) := by
  simp only [posSlot2Of, BitVec.lt_def, BitVec.toNat_ushiftRight, Nat.shiftRight_eq_div_pow,
    apply_ite (BitVec.ofNat 32), BitVec.ofNat_add]
  rfl

/-- Settles O41: the fast table is `fastPos` value by value, a slot is the place of a distance's two leading
bits, and both tables' shifts leave those. -/
theorem distanceSlots : Obligations.DistanceSlots := by
  refine ⟨fun len s h => ?_, ?_, fun i hi => ?_, fun d s hd => ?_, fun d s => ?_⟩
  · rw [← lenToPosStateOf_eq h]
    rfl
  · rw [← fastPos_list, List.length_map, List.length_range]
  · rw [← fastPos_list, List.getElem?_map, List.getElem?_range hi]
    rfl
  · refine ⟨slotOf d.toNat, ?_, slotOf_lt_two_mul (k := 31) (by decide) hd, fun h => ?_, fun h => ?_,
      fun k hk h => slotOf_lt_two_mul hk h, fun h => ?_⟩
    · rw [← posSlotOf_eq]
      rfl
    · exact (slotOf_of_lt_four (slotOf_lt_four_iff.1 h)).symm
    · have hsplit := baseOf_add_footer (Nat.le_of_not_lt (mt slotOf_lt_four_iff.2 (Nat.not_lt.2 h)))
      have hfooter := Nat.mod_lt d.toNat (Nat.two_pow_pos (slotOf d.toNat / 2 - 1))
      unfold baseOf at hsplit
      omega
    · show answer (.word (posSlot2Of d)) s = answer (.word (posSlotOf d)) s
      rw [posSlot2Of_eq h, posSlotOf_eq]
  · rw [← posSlot2Of_table]
    rfl

end Sys2Proof
end

section
/-! CODEC.ENC_HEADER where OUT may be too small for its 13 bytes (46_codec R270): as many bytes as fit are
written, and the first that does not fit ends it. -/

namespace Sys2Proof

open Machine

variable {s : State}

theorem outWriteAll_append : ∀ (as bs : List Byte) (s : State),
    outWriteAll (as ++ bs) s = (outWriteAll as >>= fun _ => outWriteAll bs) s
  | [], _, _ => rfl
  | a :: as, bs, s => by
    rw [List.cons_append, outWriteAll, outWriteAll, bind_assoc, bind_run, bind_run]
    cases outWrite a s with
    | ok _ t => exact outWriteAll_append as bs t
    | error _ _ => rfl

/-- Without room for all the bytes, those that fit are written. -/
theorem outWriteAll_full {bs : List Byte} (h : s.host.outLen.toNat ≤ s.outCap)
    (hfull : s.outCap < s.host.outLen.toNat + bs.length) : outWriteAll bs s =
      .error .resourceExhausted (appendAll s (bs.take (s.outCap - s.host.outLen.toNat))) := by
  obtain ⟨b, rest, hb⟩ := List.exists_cons_of_ne_nil (l := bs.drop (s.outCap - s.host.outLen.toNat))
    (by rw [Ne, List.drop_eq_nil_iff]; omega)
  have htake : (bs.take (s.outCap - s.host.outLen.toNat)).length = s.outCap - s.host.outLen.toNat :=
    List.length_take_of_le (by omega)
  have hroom : s.host.outLen.toNat + (bs.take (s.outCap - s.host.outLen.toNat)).length ≤ s.outCap := by omega
  have hlen : (appendAll s (bs.take (s.outCap - s.host.outLen.toNat))).host.outLen.toNat = _ :=
    appendAll_outLen hroom
  conv_lhs => rw [← List.take_append_drop (s.outCap - s.host.outLen.toNat) bs]
  rw [outWriteAll_append, bind_ok (outWriteAll_ok _ hroom), hb, outWriteAll, bind_error (outWrite_full b _)]
  show s.outCap ≤ _
  omega

theorem headerBytes_length (d n : U32) : (headerBytes d n).length = 13 := rfl

/-- ENC_HEADER once its first byte is out. -/
theorem encHeader_of_room (h : s.host.outLen.toNat < s.outCap) : encHeader s =
    (outWriteAll (leBytes 4 s.codec.dictSize.toNat ++ leBytes 8 s.host.inLen.toNat) >>= fun _ =>
      modify fun s => { s with host := { s.host with size := s.host.inLen.setWidth 64 } })
    (withEncProps (appendAll s [encProps])) := by
  refine (bind_ok (outWrite_ok encProps h)).trans ?_
  rw [bind_run (outWriteAll _), outWriteAll_append, ← bind_run, bind_assoc]
  rfl

theorem encHeader_full (h : s.host.outLen.toNat ≤ s.outCap) (hfull : s.outCap < s.host.outLen.toNat + 13) :
    ∃ c, encHeader s = .error .resourceExhausted
      { appendAll s ((headerBytes s.codec.dictSize s.host.inLen).take (s.outCap - s.host.outLen.toNat)) with
        codec := c } := by
  rcases Nat.eq_or_lt_of_le h with hnone | hsome
  · refine ⟨s.codec, (bind_error (outWrite_full encProps (Nat.le_of_eq hnone.symm))).trans ?_⟩
    rw [hnone, Nat.sub_self, List.take_zero]
    simp [appendAll, writeBytes]
  · have hone : s.host.outLen.toNat + [encProps].length ≤ s.outCap := hsome
    have hlen : (withEncProps (appendAll s [encProps])).host.outLen.toNat = s.host.outLen.toNat + 1 :=
      appendAll_outLen hone
    have hcap : (withEncProps (appendAll s [encProps])).outCap = s.outCap := rfl
    have htake : (headerBytes s.codec.dictSize s.host.inLen).take (s.outCap - s.host.outLen.toNat) =
        [encProps] ++ (leBytes 4 s.codec.dictSize.toNat ++ leBytes 8 s.host.inLen.toNat).take
          (s.outCap - (s.host.outLen.toNat + 1)) := by
      rw [headerBytes_eq, List.append_assoc, List.singleton_append, List.singleton_append,
        show s.outCap - s.host.outLen.toNat = s.outCap - (s.host.outLen.toNat + 1) + 1 by omega,
        List.take_succ_cons]
    refine ⟨s.codec.withProps encProps, ?_⟩
    rw [encHeader_of_room hsome, bind_error (outWriteAll_full _ _), hlen, hcap, htake, ← appendAll_appendAll hone]
    · rfl
    · omega
    · simp only [List.length_append, leBytes_length]
      omega

/-- What ENC_HEADER leaves, whether its bytes fit or not. -/
theorem exec_codecEncHeader (h : s.host.outLen.toNat ≤ s.outCap) :
    ∃ t, exec .codecEncHeader s = .next t ∧
      t.outMem = writeBytes
        ((headerBytes s.codec.dictSize s.host.inLen).take (s.outCap - s.host.outLen.toNat))
        s.host.outLen.toNat s.outMem ∧
      t.host.outLen.toNat = s.host.outLen.toNat + min 13 (s.outCap - s.host.outLen.toNat) ∧
      (13 ≤ s.outCap - s.host.outLen.toNat → t = { headerWritten s with ret := .none }) ∧
      (s.outCap - s.host.outLen.toNat < 13 →
        t.host.seq = .error ∧ t.host.errCode = 5#4 ∧ t.host.size = s.host.size) := by
  by_cases hfits : 13 ≤ s.outCap - s.host.outLen.toNat
  · have hlen : (appendAll s (headerBytes s.codec.dictSize s.host.inLen)).host.outLen.toNat = _ :=
      appendAll_outLen (by rw [headerBytes_length]; omega)
    refine ⟨_, completeUnit_ok (encHeader_ok (by omega)), ?_, ?_, fun _ => rfl, fun hlt => absurd hlt (by omega)⟩
    · rw [List.take_of_length_le (by rwa [headerBytes_length])]
      rfl
    · rw [Nat.min_eq_left hfits]
      exact hlen
  · obtain ⟨c, hrun⟩ := encHeader_full h (by omega)
    have htake : ((headerBytes s.codec.dictSize s.host.inLen).take (s.outCap - s.host.outLen.toNat)).length =
        s.outCap - s.host.outLen.toNat := List.length_take_of_le (by rw [headerBytes_length]; omega)
    refine ⟨_, completeUnit_error hrun, rfl, ?_, fun hge => absurd hge hfits, fun _ => ⟨rfl, rfl, rfl⟩⟩
    rw [Nat.min_eq_right (by omega)]
    refine (appendAll_outLen ?_).trans (by rw [htake])
    omega

/-- Settles O42: the bytes that fit are the header's first, and past the thirteenth nothing is written. -/
theorem encHeaderWritesThirteenBytes : Obligations.EncHeaderWritesThirteenBytes := by
  intro s hm h bytes free
  have hbytes : bytes.length = 13 := headerBytes_length _ _
  obtain ⟨t, hexec, hmem, hlen, hok, hfull⟩ := exec_codecEncHeader h
  have hread (a : Nat) := read_writeBytes (bytes.take free) s.host.outLen.toNat a hm
  rw [← hmem] at hread
  refine ⟨t, hexec, fun k hk => ?_, fun a ha => ?_, hlen, fun hge => ?_, hfull⟩
  · have hk13 : k < bytes.length := by omega
    rw [hread, if_pos (Nat.le_add_right _ k), Nat.add_sub_cancel_left, List.getElem?_take_of_lt (by omega),
      List.getElem?_eq_getElem hk13, Option.getD_some]
  · rw [hread]
    split
    · rw [List.getElem?_eq_none (by rw [List.length_take]; omega), Option.getD_none]
    · rfl
  · rw [hok hge]
    rfl

end Sys2Proof
end

section
/-! CODEC.DEC_HEADER (46_codec R271) and the start of a DECODE session (R290, R299): the checks in order, what
each leaves where it fails, and the registers of a good header and of the session started. -/

namespace Sys2Proof

open Machine

variable {s : State}

/-! ### Little-endian numbers of IN -/

theorem leNat_succ (f : Nat → Byte) (n i : Nat) : leNat f (n + 1) i = (f i).toNat + 256 * leNat f n (i + 1) := by
  rw [leNat, leNat, List.range_succ_eq_map, List.map_cons, List.sum_cons, List.map_map, ← List.sum_map_mul_left,
    Nat.add_zero, pow_zero, Nat.mul_one]
  congr 2
  refine List.map_congr_left fun k _ => ?_
  rw [Function.comp_apply, Nat.succ_eq_add_one, Nat.add_comm k 1, ← Nat.add_assoc, Nat.add_comm 1 k, Nat.pow_succ]
  ring

theorem leNat_lt (f : Nat → Byte) : ∀ n i, leNat f n i < 256 ^ n
  | 0, _ => Nat.one_pos
  | n + 1, i => by
    have hrest := leNat_lt f n (i + 1)
    have hbyte := (f i).isLt
    rw [leNat_succ, Nat.pow_succ]
    omega

theorem leNat_congr {f g : Nat → Byte} : ∀ {n i : Nat}, (∀ k, i ≤ k → k < i + n → f k = g k) →
    leNat f n i = leNat g n i
  | 0, _, _ => rfl
  | n + 1, i, h => by
    rw [leNat_succ, leNat_succ, h i (Nat.le_refl i) (by omega), leNat_congr fun k hk hk' => h k (by omega) (by omega)]

theorem inLE_eq_leNat (s : State) : ∀ n i, inLE s n i = leNat (fun k => s.inByte (k : Int)) n i
  | 0, _ => rfl
  | n + 1, i => by
    rw [inLE, leNat_succ, inLE_eq_leNat s n]

/-! ### DEC_HEADER (R271) -/

/-- The dictionary size and the size field of a header at the start of IN (30_encoding R80). -/
def headerDict (s : State) : Nat := leNat (fun k => s.inByte (k : Int)) 4 1
def headerSize (s : State) : Nat := leNat (fun k => s.inByte (k : Int)) 8 5

theorem headerDict_lt (s : State) : headerDict s < 2 ^ 32 := leNat_lt _ 4 1

theorem headerSize_lt (s : State) : headerSize s < 2 ^ 64 := leNat_lt _ 8 5

/-- The state once the properties byte is taken apart. -/
def withHeaderProps (s : State) : State := { s with codec := s.codec.withProps (s.inByte 0) }

/-- The state once the dictionary size is read as well. -/
def withHeaderDict (s : State) : State :=
  { s with codec := { s.codec.withProps (s.inByte 0) with dictSize := BitVec.ofNat 32 (headerDict s) } }

theorem decHeader_of_short (h : s.host.inLen.toNat < 5) :
    decHeader s = .error .invalidHeader (s.withInPos 0#32) := if_pos h

theorem decHeader_of_badProps (h : 5 ≤ s.host.inLen.toNat) (hv : 225 ≤ (s.inByte 0).toNat) : decHeader s =
    .error .invalidHeader (State.withInPos { s with codec := { s.codec with propsByte := s.inByte 0 } } 1#32) :=
  (if_neg (Nat.not_lt.2 h)).trans (if_pos hv)

theorem decHeader_of_props (h : 5 ≤ s.host.inLen.toNat) (hv : (s.inByte 0).toNat < 225) :
    decHeader s = decHeaderRest (withHeaderProps s) :=
  (if_neg (Nat.not_lt.2 h)).trans (if_neg (Nat.not_le.2 hv))

/-- The checks that follow the properties byte. -/
theorem decHeaderRest_eq (s : State) : decHeaderRest (withHeaderProps s) =
    if s.params.maxDictSize.toNat < headerDict s then
      .error .unsupportedDictionarySize ((withHeaderDict s).withInPos 5#32)
    else if s.host.inLen.toNat < 13 then .error .truncatedInput ((withHeaderDict s).withInPos s.host.inLen)
    else .ok () (headerAccepted (withHeaderDict s) (BitVec.ofNat 64 (headerSize s))) := by
  have hdict : (BitVec.ofNat 32 (headerDict s)).toNat = headerDict s := by
    rw [BitVec.toNat_ofNat, Nat.mod_eq_of_lt (headerDict_lt s)]
  have hlt : s.params.maxDictSize < BitVec.ofNat 32 (headerDict s) ↔
      s.params.maxDictSize.toNat < headerDict s := by rw [BitVec.lt_def, hdict]
  rw [← if_congr hlt rfl rfl, withHeaderDict, headerDict, headerSize, ← inLE_eq_leNat, ← inLE_eq_leNat]
  rfl

theorem decHeader_of_bigDict (h : 5 ≤ s.host.inLen.toNat) (hv : (s.inByte 0).toNat < 225)
    (hdict : s.params.maxDictSize.toNat < headerDict s) :
    decHeader s = .error .unsupportedDictionarySize ((withHeaderDict s).withInPos 5#32) := by
  rw [decHeader_of_props h hv, decHeaderRest_eq, if_pos hdict]

theorem decHeader_of_truncated (h : 5 ≤ s.host.inLen.toNat) (h13 : s.host.inLen.toNat < 13)
    (hv : (s.inByte 0).toNat < 225) (hdict : headerDict s ≤ s.params.maxDictSize.toNat) :
    decHeader s = .error .truncatedInput ((withHeaderDict s).withInPos s.host.inLen) := by
  rw [decHeader_of_props h hv, decHeaderRest_eq, if_neg (Nat.not_lt.2 hdict), if_pos h13]

theorem dictCheck_ofNat {d : Nat} (h : d < 2 ^ 32) : dictCheck (BitVec.ofNat 32 d) = BitVec.ofNat 32 (max d 1) := by
  rcases Nat.eq_zero_or_pos d with rfl | hd
  · rfl
  · rw [Nat.max_eq_left hd, dictCheck, if_neg]
    exact fun h0 => by bv_omega

theorem knownSize_ofNat {n : Nat} (h : n < 2 ^ 64) : knownSize (BitVec.ofNat 64 n) =
    if n = 2 ^ 64 - 1 then none else some (BitVec.ofNat 64 n) := by
  refine if_congr ⟨fun he => ?_, fun he => he ▸ rfl⟩ rfl rfl
  have hn := congrArg BitVec.toNat he
  rwa [BitVec.toNat_ofNat, Nat.mod_eq_of_lt h] at hn

/-- A mask of the `n` low bits. -/
theorem mask_eq (n : Nat) : (1#32 <<< n) - 1#32 = BitVec.ofNat 32 (2 ^ n - 1) := by
  have hsum : BitVec.ofNat 32 (2 ^ n) = BitVec.ofNat 32 (2 ^ n - 1) + 1#32 := by
    rw [← BitVec.ofNat_add, Nat.sub_add_cancel (Nat.two_pow_pos n)]
  rw [one_shiftLeft, hsum, BitVec.add_sub_cancel]

theorem propsPb_mask {v : Byte} (h : v.toNat < 225) :
    (1#32 <<< (propsPb v).toNat) - 1#32 = BitVec.ofNat 32 (2 ^ (v.toNat / 45) - 1) := by
  have hpb : (propsPb v).toNat = v.toNat / 45 := Nat.mod_eq_of_lt (by omega)
  rw [hpb, mask_eq]

theorem propsLp_mask (v : Byte) :
    (1#32 <<< (propsLp v).toNat) - 1#32 = BitVec.ofNat 32 (2 ^ (v.toNat / 9 % 5) - 1) := by
  have hlp : (propsLp v).toNat = v.toNat / 9 % 5 := Nat.mod_eq_of_lt (by omega)
  rw [hlp, mask_eq]

/-- The state after a good header of properties byte `v`, dictionary size `dict` and size field `size`. -/
def withHeader (v : Byte) (dict size : Nat) (s : State) : State :=
  { s with
    codec := headerCodec s.codec v dict size
    host := { s.host with size := BitVec.ofNat 64 size, inPos := 13#32 } }

theorem headerAccepted_eq (hv : (s.inByte 0).toNat < 225) :
    headerAccepted (withHeaderDict s) (BitVec.ofNat 64 (headerSize s)) =
      withHeader (s.inByte 0) (headerDict s) (headerSize s) s := by
  rw [withHeader, headerCodec, ← dictCheck_ofNat (headerDict_lt s), ← knownSize_ofNat (headerSize_lt s),
    ← propsPb_mask hv, ← propsLp_mask]
  rfl

theorem decHeader_good (h13 : 13 ≤ s.host.inLen.toNat) (hv : (s.inByte 0).toNat < 225)
    (hdict : headerDict s ≤ s.params.maxDictSize.toNat) :
    decHeader s = .ok () (withHeader (s.inByte 0) (headerDict s) (headerSize s) s) := by
  rw [decHeader_of_props (Nat.le_trans (by decide) h13) hv, decHeaderRest_eq, if_neg (Nat.not_lt.2 hdict),
    if_neg (Nat.not_lt.2 h13), headerAccepted_eq hv]

/-- Settles O43: the checks are the definition's, its numbers those of the header. -/
theorem decHeaderChecksInOrder : Obligations.DecHeaderChecksInOrder := by
  intro s n v byte dict size c at_
  have hlc : c.lc = propsLc v := rfl
  have hlp : c.lp = propsLp v := rfl
  have hpb : c.pb = propsPb v := rfl
  have hdictSize : c.dictSize = BitVec.ofNat 32 (headerDict s) := rfl
  rw [hlc, hlp, hpb, hdictSize]
  refine ⟨fun h => ?_, fun h hv => ?_, fun h hv hdict => ?_, fun h h13 hv hdict => ?_, fun h hv hdict => ?_⟩
  · exact completeUnit_error (decHeader_of_short h)
  · exact completeUnit_error (decHeader_of_badProps h hv)
  · exact completeUnit_error (decHeader_of_bigDict h hv hdict)
  · exact completeUnit_error (decHeader_of_truncated h h13 hv hdict)
  · exact completeUnit_ok (decHeader_good h hv hdict)

/-! ### The command -/

/-- The state in which an accepted DECODE starts its session (R299). -/
def decEntry (irqEn marker : Bool) (s : State) : State :=
  enterSession .decLoop (s.writeCtrlFields irqEn marker)

/-- The state in which its header is read: the header registers are 0 (60_exceptions R312, log 14). -/
def decCleared (irqEn marker : Bool) (s : State) : State := clearHeaderRegs (decEntry irqEn marker s)

theorem exec_decode (irqEn marker : Bool) (hb : s.busy = false) : exec (.decode irqEn marker) s =
    .next (finish ((decSessionStart >>= fun _ => pure .none) (decEntry irqEn marker s))) :=
  if_neg (by rw [hb]; exact Bool.false_ne_true)

/-! ### The session's parts (R290) -/

theorem decSessionStart_configError (h : s.params.inMemBytes < s.host.inLen.toNat) :
    decSessionStart s = .error .configError (clearHeaderRegs s) := congrFun (if_pos h) s

/-- The registers and the window of a new session, and the range decoder before its first byte. -/
def decFresh (s : State) : State :=
  decStart { decStartRegs s with window := windowFor s.codec.dictSizeCheck s.window }

theorem decSessionStart_checked (h : s.host.inLen.toNat ≤ s.params.inMemBytes) :
    decSessionStart s =
      (decHeader >>= fun _ => modify decFresh >>= fun _ => decShiftInTimes 5) (clearHeaderRegs s) :=
  congrFun (if_neg (Nat.not_lt.2 h)) s

theorem decSessionStart_header_error {e : ErrKind} {t : State} (h : s.host.inLen.toNat ≤ s.params.inMemBytes)
    (hheader : decHeader (clearHeaderRegs s) = .error e t) : decSessionStart s = .error e t :=
  (decSessionStart_checked h).trans (bind_error hheader)

theorem decSessionStart_header_ok {t : State} (h : s.host.inLen.toNat ≤ s.params.inMemBytes)
    (hheader : decHeader (clearHeaderRegs s) = .ok () t) :
    decSessionStart s = decShiftInTimes 5 (decFresh t) :=
  (decSessionStart_checked h).trans (bind_ok hheader)

/-! ### The bytes of IN -/

/-- Inside IN's memory the bytes below IN_LEN are those it holds (20_memory R63). -/
theorem inByte_eq_read (h : s.host.inLen.toNat ≤ s.params.inMemBytes) {k : Nat} (hk : k < s.host.inLen.toNat) :
    s.inByte (k : Int) = s.inMem.read k :=
  if_pos ⟨Int.natCast_nonneg k, Int.ofNat_lt.2 hk, Int.ofNat_lt.2 (Nat.lt_of_lt_of_le hk h)⟩

theorem headerDict_eq (h : s.host.inLen.toNat ≤ s.params.inMemBytes) (h5 : 5 ≤ s.host.inLen.toNat) :
    headerDict s = leNat s.inMem.read 4 1 :=
  leNat_congr fun _ _ hk => inByte_eq_read h (by omega)

theorem headerSize_eq (h : s.host.inLen.toNat ≤ s.params.inMemBytes) (h13 : 13 ≤ s.host.inLen.toNat) :
    headerSize s = leNat s.inMem.read 8 5 :=
  leNat_congr fun _ _ hk => inByte_eq_read h (by omega)

/-! ### The session started -/

theorem windowFor_dictSize {d : Nat} (h : d < 2 ^ 32) (w : Window) :
    (windowFor (BitVec.ofNat 32 (max d 1)) w).windowSize.toNat = max d 4096 := by
  unfold windowFor
  dsimp only
  split <;> bv_omega

/-- The four bytes that stand in `code` after DEC_INIT's five, the first being shifted out (40_range_coder R120). -/
theorem toNat_beNat_five (f : Nat → Byte) : (BitVec.ofNat 32 (beNat f 5)).toNat =
    (f 1).toNat * 2 ^ 24 + (f 2).toNat * 2 ^ 16 + (f 3).toNat * 2 ^ 8 + (f 4).toNat := by
  simp only [beNat, BitVec.toNat_ofNat]
  omega

/-- DEC_INIT's `code`, from the bytes `f` at IN_POS on. -/
theorem shiftedIn_of_start (s : State) {n : Nat} (f : Nat → Byte) (hf : ∀ j, inFrom s j = f j) :
    (shiftedIn n (decStart s)).dec.code = BitVec.ofNat 32 (beNat f n) := by
  have hfrom : inFrom (decStart s) = f := funext hf
  have hzero : (decStart s).dec.code.toNat = 0 := rfl
  rw [shiftedIn, hfrom, hzero, Nat.zero_mul, Nat.zero_add]

theorem decodeStarted (irqEn marker : Bool) (hin : s.host.inLen.toNat ≤ s.params.inMemBytes)
    (h18 : 18 ≤ s.host.inLen.toNat) :
    DecodeStarted irqEn marker s
      { shiftedIn 5 (decFresh (withHeader (s.inMem.read 0) (leNat s.inMem.read 4 1) (leNat s.inMem.read 8 5)
          (decCleared irqEn marker s))) with ret := .none } where
  kept := ⟨rfl, rfl, rfl, rfl, rfl, rfl, rfl⟩
  ctrl := ⟨rfl, rfl⟩
  place := rfl
  status := ⟨rfl, rfl, rfl, rfl⟩
  counts := ⟨rfl, rfl, rfl⟩
  codec := rfl
  cells _ := rfl
  window := ⟨rfl, rfl, windowFor_dictSize (leNat_lt _ 4 1) _⟩
  dec := by
    refine ⟨rfl, ?_⟩
    have hbyte (j : Nat) (hj : j < 5) := inByte_eq_read hin (k := 13 + j) (by omega)
    have hcode := toNat_beNat_five fun j => s.inByte ((13 + j : Nat) : Int)
    simp only [hbyte 1 (by decide), hbyte 2 (by decide), hbyte 3 (by decide), hbyte 4 (by decide)] at hcode
    rw [← hcode]
    exact congrArg BitVec.toNat (shiftedIn_of_start _ _ fun _ => rfl)
  encoder := ⟨rfl, rfl, rfl, rfl, rfl⟩

/-- A session whose five first bytes of coded data are not all there ends at IN_LEN. -/
theorem decShiftIn_five_end (h13 : 13 ≤ s.host.inLen.toNat) (h18 : s.host.inLen.toNat < 18) (v : Byte)
    (dict size : Nat) : ∃ t, decShiftInTimes 5 (decFresh (withHeader v dict size s)) = .error .truncatedInput t ∧
      t.host.inPos = s.host.inLen ∧ t.host.outLen = s.host.outLen := by
  obtain ⟨c, p, hrun, hp⟩ := decShiftInTimes_end (n := 4) (s := decFresh (withHeader v dict size s))
    (Nat.not_le.2 h18)
  exact ⟨_, hrun, hp h13, rfl⟩

/-- Settles O9: a session's start is its check of IN_LEN, DEC_HEADER from cleared header registers, and the five
bytes of DEC_INIT. -/
theorem decodeChecksThenStartsTheSession : Obligations.DecodeChecksThenStartsTheSession := by
  intro irqEn marker s hb
  refine ⟨_, exec_decode irqEn marker hb, fun hlen => ?_, ?_⟩
  · rw [bind_error (decSessionStart_configError (s := decEntry irqEn marker s) hlen)]
    exact ⟨rfl, rfl, rfl, rfl⟩
  · intro hin n v dict
    have hbyte (h : 5 ≤ n) : (decCleared irqEn marker s).inByte 0 = v :=
      inByte_eq_read (s := decCleared irqEn marker s) hin (k := 0) (Nat.lt_of_lt_of_le (by decide) h)
    have hdict (h : 5 ≤ n) : headerDict (decCleared irqEn marker s) = dict :=
      headerDict_eq (s := decCleared irqEn marker s) hin h
    have hfail {e : ErrKind} {t : State} (h : decHeader (decCleared irqEn marker s) = .error e t) :=
      bind_error (f := fun _ => pure Ret.none) (decSessionStart_header_error (s := decEntry irqEn marker s) hin h)
    refine ⟨fun h5 => ?_, fun h5 hv => ?_, fun h5 hv hmax => ?_, fun h5 hv hmax h18 => ?_, fun h18 hv hmax => ?_⟩
    · rw [hfail (decHeader_of_short h5)]
      exact ⟨rfl, rfl, rfl, rfl⟩
    · rw [← hbyte h5] at hv
      rw [hfail (decHeader_of_badProps h5 hv)]
      exact ⟨rfl, rfl, rfl, rfl⟩
    · rw [← hbyte h5] at hv
      rw [← hdict h5] at hmax
      rw [hfail (decHeader_of_bigDict (s := decCleared irqEn marker s) h5 hv hmax)]
      exact ⟨rfl, rfl, rfl, rfl⟩
    · rw [← hbyte h5] at hv
      rw [← hdict h5] at hmax
      by_cases h13 : n < 13
      · rw [hfail (decHeader_of_truncated (s := decCleared irqEn marker s) h5 h13 hv hmax)]
        exact ⟨rfl, rfl, rfl, rfl⟩
      · obtain ⟨t, hrun, hpos, hout⟩ := decShiftIn_five_end (s := decCleared irqEn marker s)
          (Nat.not_lt.1 h13) h18 _ _ _
        have hstart := decSessionStart_header_ok (s := decEntry irqEn marker s) hin
          (decHeader_good (Nat.not_lt.1 h13) hv hmax)
        rw [bind_error (hstart.trans hrun)]
        exact ⟨rfl, rfl, hpos, hout⟩
    · have h5 : 5 ≤ n := Nat.le_trans (by decide) h18
      have h13 : 13 ≤ n := Nat.le_trans (by decide) h18
      have hsize : headerSize (decCleared irqEn marker s) = leNat s.inMem.read 8 5 :=
        headerSize_eq (s := decCleared irqEn marker s) hin h13
      have hgood := decHeader_good (s := decCleared irqEn marker s) h13 (by rwa [hbyte h5])
        (by rwa [hdict h5])
      rw [hbyte h5, hdict h5, hsize] at hgood
      have hstart := decSessionStart_header_ok (s := decEntry irqEn marker s) hin hgood
      rw [bind_ok (hstart.trans (decShiftInTimes_ok h18))]
      exact decodeStarted irqEn marker hin h18

end Sys2Proof
end

section
/-! The output window's operations with room in OUT (47_output_window R301 to R304), and the copies of the decoder
(46_codec R293 to R295). -/

namespace Sys2Proof

open Machine

variable {s t u : State}

/-! ### What the window's operations change -/

/-- `t` is `s` but for the window, OUT and OUT_LEN. -/
def OnlyWindow (s t : State) : Prop :=
  t = { s with window := t.window, outMem := t.outMem, host := { s.host with outLen := t.host.outLen } }

theorem OnlyWindow.composes : Composes OnlyWindow where
  refl _ := rfl
  trans h k := by
    unfold OnlyWindow at *
    rw [k, h]

theorem OnlyWindow.codec (h : OnlyWindow s t) : t.codec = s.codec := by rw [h]

theorem OnlyWindow.noError (h : OnlyWindow s t) : NoError s t := by
  rw [h]
  exact ⟨rfl, rfl⟩

theorem keeps_outWrite_window (b : Byte) : Keeps OnlyWindow (outWrite b) :=
  keeps_outWrite_of OnlyWindow.composes (fun _ _ => rfl) b

theorem keeps_flushBytes : ∀ n i, Keeps OnlyWindow (flushBytes n i)
  | 0, _ => .pure OnlyWindow.composes ()
  | n + 1, i => .read fun _ => .bind OnlyWindow.composes (keeps_outWrite_window _) fun _ => keeps_flushBytes n (i + 1)

theorem keeps_owFlush : Keeps OnlyWindow owFlush :=
  .read fun _ => .bind OnlyWindow.composes (keeps_flushBytes _ _) fun _ => .modify fun _ => rfl

theorem keeps_owPut (b : Byte) : Keeps OnlyWindow (owPut b) :=
  .bind OnlyWindow.composes (.modify fun _ => rfl) fun _ =>
    .read fun _ => .ite keeps_owFlush (.pure OnlyWindow.composes ())

theorem keeps_owCopy (d : U32) : ∀ n, Keeps OnlyWindow (owCopy d n)
  | 0 => .pure OnlyWindow.composes ()
  | n + 1 => .read fun _ => .bind OnlyWindow.composes (keeps_owPut _) fun _ => keeps_owCopy d n

theorem Machine.Keeps.of_ok {α : Type} {R : State → State → Prop} {m : Eng α} {a : α} (h : Keeps R m)
    (hrun : m s = .ok a t) : R s t := by
  have hs := h s
  rwa [hrun] at hs

/-! ### With room in OUT -/

theorem bytesFrom_length (f : Nat → Byte) : ∀ n i, (bytesFrom f n i).length = n
  | 0, _ => rfl
  | n + 1, i => congrArg (· + 1) (bytesFrom_length f n (i + 1))

/-- R304's loop writes a row of the window's cells, which OutWrite leaves alone. -/
theorem flushBytes_eq : ∀ (n i : Nat) (s : State), flushBytes n i s = outWriteAll (bytesFrom s.window.cell n i) s
  | 0, _, _ => rfl
  | n + 1, i, s => by
    rw [flushBytes, get_bind_run, bytesFrom, outWriteAll, bind_run, bind_run]
    rcases Nat.lt_or_ge s.host.outLen.toNat s.outCap with h | h
    · rw [outWrite_ok _ h]
      exact flushBytes_eq n (i + 1) (s.appendOut (s.window.cell i))
    · rw [outWrite_full _ h]

/-- The window's bytes that are not in OUT yet. -/
def unflushedBytes (w : Window) : List Byte := bytesFrom w.cell (unflushed w) w.winFlushPos.toNat

theorem unflushedBytes_length (w : Window) : (unflushedBytes w).length = unflushed w := bytesFrom_length _ _ _

theorem owFlush_ok (h : s.host.outLen.toNat + unflushed s.window ≤ s.outCap) : owFlush s =
    .ok () { appendAll s (unflushedBytes s.window) with window := afterFlush s.window } := by
  have hbytes : flushBytes (unflushed s.window) s.window.winFlushPos.toNat s =
      .ok () (appendAll s (unflushedBytes s.window)) :=
    (flushBytes_eq _ _ s).trans (outWriteAll_ok _ (by rwa [bytesFrom_length]))
  exact bind_ok hbytes

theorem owFlush_runs (h : WinRoom s 0) : ∃ t, owFlush s = .ok () t ∧ NoError s t := by
  obtain ⟨-, -, hroom⟩ := h
  exact ⟨_, owFlush_ok hroom, rfl, rfl⟩

theorem owPut_runs (b : Byte) {n : Nat} (h : WinRoom s (n + 1)) : ∃ t, owPut b s = .ok () t ∧ WinRoom t n := by
  obtain ⟨hflushed, hinside, hroom⟩ := h
  have hpos : (s.window.push b).winPos.toNat = s.window.winPos.toNat + 1 := by
    show (s.window.winPos + 1#32).toNat = _
    bv_omega
  have hpending : unflushed (s.window.push b) = unflushed s.window + 1 := by
    show (s.window.push b).winPos.toNat - s.window.winFlushPos.toNat = _ - _ + 1
    omega
  by_cases hfull : (s.window.push b).winPos = s.window.windowSize
  · have hlen : (appendAll s (unflushedBytes (s.window.push b))).host.outLen.toNat = _ :=
      appendAll_outLen (by rw [unflushedBytes_length]; omega)
    rw [unflushedBytes_length, hpending] at hlen
    have hempty : afterFlush (s.window.push b) = { s.window.push b with winPos := 0#32, winFlushPos := 0#32 } := by
      rw [afterFlush, if_pos (show (s.window.push b).winPos = (s.window.push b).windowSize from hfull)]
    refine ⟨_, (congrFun (if_pos hfull) _).trans
      (owFlush_ok (s := { s with window := s.window.push b }) (by
        show s.host.outLen.toNat + unflushed (s.window.push b) ≤ s.outCap
        omega)), ?_⟩
    rw [hempty]
    refine ⟨Nat.le_refl _, Nat.zero_lt_of_lt hinside, ?_⟩
    show (appendAll s (unflushedBytes (s.window.push b))).host.outLen.toNat + 0 + n ≤ s.outCap
    omega
  · have hne : (s.window.push b).winPos.toNat ≠ s.window.windowSize.toNat := fun h => hfull (BitVec.eq_of_toNat_eq h)
    refine ⟨{ s with window := s.window.push b }, congrFun (if_neg hfull) _, ?_, ?_, ?_⟩
    · show s.window.winFlushPos.toNat ≤ (s.window.push b).winPos.toNat
      omega
    · show (s.window.push b).winPos.toNat < s.window.windowSize.toNat
      omega
    · show s.host.outLen.toNat + unflushed (s.window.push b) + n ≤ s.outCap
      omega

theorem owCopy_runs (d : U32) : ∀ {n k : Nat} {s : State}, WinRoom s (n + k) →
    ∃ t, owCopy d n s = .ok () t ∧ WinRoom t k
  | 0, k, s, h => ⟨s, rfl, by rwa [Nat.zero_add] at h⟩
  | n + 1, k, s, h => by
    obtain ⟨t, hput, hroom⟩ := owPut_runs (owGet s d) (n := n + k) (by rwa [Nat.add_right_comm] at h)
    obtain ⟨u, hcopy, hroom'⟩ := owCopy_runs d hroom
    exact ⟨u, (bind_ok hput).trans hcopy, hroom'⟩

/-! ### COPY (R295) -/

/-- The state once `n` bytes are copied. -/
def afterCopy (n : U32) (nowPos : U64) (u : State) : State :=
  { u with codec := { u.codec with nowPos := nowPos + n.setWidth 64, prevByte := owGet u 0#32 } }

theorem copyBytes_ok {n : U32} (h : owCopy s.codec.reps.r0 n.toNat s = .ok () u) :
    copyBytes n s = .ok () (afterCopy n s.codec.nowPos u) := by
  rw [copyBytes, get_bind_run, bind_ok h, modify_run, afterCopy, ((keeps_owCopy _ _).of_ok h).codec]

theorem copyBytes_error {n : U32} {e : ErrKind} (h : owCopy s.codec.reps.r0 n.toNat s = .error e u) :
    copyBytes n s = .error e u := by
  rw [copyBytes, get_bind_run, bind_error h]

theorem copyBytes_runs {n : U32} (h : WinRoom s n.toNat) : ∃ t, copyBytes n s = .ok () t ∧ NoError s t ∧
    t.host.outTruncated = s.host.outTruncated := by
  obtain ⟨t, hrun, -⟩ := owCopy_runs s.codec.reps.r0 (k := 0) h
  have honly := (keeps_owCopy _ _).of_ok hrun
  exact ⟨_, copyBytes_ok hrun, honly.noError, by show t.host.outTruncated = _; rw [honly]⟩

theorem setWidth_len64 (len : U16) : (len.setWidth 32).setWidth 64 = len.setWidth 64 := by
  bv_omega

theorem copy_of_fits (len : U16) (h : s.codec.outSize = none ∨
    ∃ size, s.codec.outSize = some size ∧ ¬ size < s.codec.nowPos + len.setWidth 64) :
    copy (len.setWidth 32) s = copyBytes (len.setWidth 32) s := by
  rw [copy, get_bind_run, setWidth_len64]
  rcases h with h | ⟨size, h, hfits⟩
  · rw [h]
  · rw [h]
    exact congrFun (if_neg hfits) s

theorem copy_of_past {len : U16} {size : U64} (h : s.codec.outSize = some size)
    (hpast : size < s.codec.nowPos + len.setWidth 64) : copy (len.setWidth 32) s =
    match s.params.overshoot with
    | .corrupt => .error .corruptStream s
    | .truncate => copyBytes ((size - s.codec.nowPos).setWidth 32)
        { s with host := { s.host with outTruncated := true } } := by
  rw [copy, get_bind_run, setWidth_len64, h]
  refine (congrFun (if_pos hpast) s).trans ?_
  cases s.params.overshoot <;> rfl

/-! ### O50 -/

theorem checkDist_error (h : s.codec.nowPos.toNat ≤ s.codec.reps.r0.toNat ∨
    s.codec.dictSizeCheck.toNat ≤ s.codec.reps.r0.toNat) : checkDist s = .error .corruptStream s := by
  have hwide : (s.codec.reps.r0.setWidth 64).toNat = s.codec.reps.r0.toNat := BitVec.toNat_setWidth_of_le (by decide)
  exact if_pos (h.imp_left fun h => by rwa [BitVec.le_def, hwide])

theorem checkDist_ok (h : s.codec.reps.r0.toNat < s.codec.nowPos.toNat)
    (h' : s.codec.reps.r0.toNat < s.codec.dictSizeCheck.toNat) : checkDist s = .ok () s := by
  have hwide : (s.codec.reps.r0.setWidth 64).toNat = s.codec.reps.r0.toNat := BitVec.toNat_setWidth_of_le (by decide)
  refine if_neg (not_or.2 ⟨?_, Nat.not_le.2 h'⟩)
  rw [BitVec.le_def, hwide]
  exact Nat.not_le.2 h

theorem earlyEndCheck_below {size : U64} (h : s.codec.outSize = some size) (hlt : s.codec.nowPos < size) :
    earlyEndCheck s = { s with host := { s.host with earlyEnd := true } } :=
  if_pos (by rw [belowSize, h]; exact decide_eq_true hlt)

theorem earlyEndCheck_not_below (h : s.codec.outSize = none ∨
    ∃ size, s.codec.outSize = some size ∧ size ≤ s.codec.nowPos) : earlyEndCheck s = s := by
  refine if_neg ?_
  rcases h with h | ⟨size, h, hle⟩
  · rw [belowSize, h]
    exact Bool.false_ne_true
  · rw [belowSize, h]
    exact ne_true_of_eq_false (decide_eq_false (BitVec.not_lt.2 hle))

/-- Settles O50: the checks are comparisons of registers, and COPY is OW.COPY of what the size leaves. -/
theorem distanceChecksAndCopy : Obligations.DistanceChecksAndCopy := by
  refine ⟨fun s => ⟨fun h => completeUnit_error (checkDist_error h),
    fun h h' => completeUnit_ok (checkDist_ok h h'), fun size h hlt => ?_, fun h => ?_⟩,
    fun len s _ => ⟨fun hfits => ⟨⟨fun u hu => ?_, fun e u hu => ?_⟩, fun hroom => ?_⟩,
      fun size hsize hpast => ⟨fun hpolicy => ?_, fun hpolicy => ?_⟩⟩⟩
  · exact congrArg (answer .none) (earlyEndCheck_below h hlt)
  · exact congrArg (answer .none) (earlyEndCheck_not_below h)
  · exact completeUnit_ok ((copy_of_fits len hfits).trans (copyBytes_ok hu))
  · exact completeUnit_error ((copy_of_fits len hfits).trans (copyBytes_error hu))
  · obtain ⟨t, hrun, hne, -⟩ := copyBytes_runs (n := len.setWidth 32) (by rwa [toNat_lenWord])
    exact ⟨_, completeUnit_ok ((copy_of_fits len hfits).trans hrun), hne⟩
  · exact completeUnit_error ((copy_of_past hsize hpast).trans (by rw [hpolicy]))
  · have hcopy := copy_of_past hsize hpast
    rw [hpolicy] at hcopy
    refine ⟨fun u hu => ?_, fun e u hu => ?_, fun hroom => ?_⟩
    · exact completeUnit_ok (hcopy.trans (copyBytes_ok hu))
    · exact completeUnit_error (hcopy.trans (copyBytes_error hu))
    · obtain ⟨t, hrun, hne, htruncated⟩ :=
        copyBytes_runs (s := { s with host := { s.host with outTruncated := true } }) hroom
      exact ⟨_, completeUnit_ok (hcopy.trans hrun), hne, htruncated⟩

/-! ### O10 -/

theorem atSize_iff : atSize s = true ↔ s.codec.outSize = some s.codec.nowPos := by
  unfold atSize
  cases h : s.codec.outSize with
  | none => exact ⟨nofun, nofun⟩
  | some size => rw [decide_eq_true_iff, Option.some.injEq, eq_comm]

/-- A turn that decodes a packet is DEC_PACKET, and where it returns END the loop is left (R291). -/
theorem decLoopPacket_turn (s : State) : ∃ t, exec .codecDecPacket s = .next t ∧ complete decLoopPacket s =
    .next (if t.ret = .endOfStream then { t with host := { t.host with seq := .decFlush } } else t) := by
  cases hrun : decPacket s with
  | ok r t =>
    have hturn : decLoopPacket s = .ok r (leaveAtEnd r t) := bind_ok hrun
    refine ⟨_, complete_ok hrun, (complete_ok hturn).trans (congrArg Host.Outcome.next ?_)⟩
    unfold leaveAtEnd
    dsimp only
    split <;> rfl
  | error e t =>
    have hturn : decLoopPacket s = .error e t := bind_error hrun
    exact ⟨_, complete_error hrun, complete_error hturn⟩

theorem engineTurn_decLoop (h : s.host.seq = .decLoop) : engineTurn s = turnDecLoop s := by
  simp only [engineTurn, h]

theorem engineTurn_decFlush (h : s.host.seq = .decFlush) : engineTurn s = turnDecFlush s := by
  simp only [engineTurn, h]

/-- A turn that ends a section of its run loop: the operation `m`, and then a move `f` of the sequencer. -/
theorem section_ok {m : Eng Unit} {f : State → State} (h : m s = .ok () t) :
    completeUnit (m >>= fun _ => modify f) s = .next { f t with ret := .none } := completeUnit_ok (bind_ok h)

/-- Where the operation raises an error, the turn ends as its instruction does. -/
theorem section_error {m : Eng Unit} {f : Unit → Eng Unit} (hm : Keeps NoError m) (hs : s.host.seq ≠ .error)
    (h : completeUnit m s = .next t) (herr : t.host.seq = .error) : completeUnit (m >>= f) s = .next t := by
  cases hrun : m s with
  | ok _ u =>
    rw [completeUnit_ok hrun] at h
    cases h
    exact absurd ((hm.of_ok hrun).1.symm.trans herr) hs
  | error e u =>
    rw [completeUnit_error hrun] at h
    exact (completeUnit_error (bind_error hrun)).trans h

/-- Settles O10: the turns are the definition's, and a flush with room runs to its end. -/
theorem decodeRunLoop : Obligations.DecodeRunLoop := by
  intro s
  refine ⟨fun hseq hsize => ?_, fun hseq hsize => ?_, fun hseq hroom => ?_, fun hseq t ht herr => ?_⟩
  · rw [engineTurn_decLoop hseq]
    exact if_pos (atSize_iff.2 hsize)
  · obtain ⟨t, ht, hturn⟩ := decLoopPacket_turn s
    refine ⟨t, ht, ?_⟩
    rw [engineTurn_decLoop hseq, ← hturn]
    exact if_neg (mt atSize_iff.1 hsize)
  · obtain ⟨t, hrun, hne⟩ := owFlush_runs hroom
    refine ⟨_, completeUnit_ok hrun, hne, ?_⟩
    rw [engineTurn_decFlush hseq]
    exact section_ok hrun
  · rw [engineTurn_decFlush hseq]
    exact section_error (keeps_owFlush.mono fun _ _ => OnlyWindow.noError) (by rw [hseq]; decide) ht herr

end Sys2Proof
end

section
/-! Every sequence of decisions after a length's slot spells a distance (46_codec R278, R279; 30_encoding R94). -/

namespace Sys2Proof

open Machine

/-! ### The distance of a slot and a footer (R265) -/

theorem baseOf_add_lt {slot r : Nat} (hslot : slot < 64) (hr : r < 2 ^ (slot / 2 - 1)) : baseOf slot + r < 2 ^ 32 := by
  have hbits : 2 ^ (slot / 2 - 1) ≤ 2 ^ 30 := Nat.pow_le_pow_right (by decide) (by omega)
  have hlead : baseOf slot ≤ 3 * 2 ^ (slot / 2 - 1) := Nat.mul_le_mul_right _ (by omega)
  omega

theorem slotOf_baseOf_add {slot r : Nat} (hslot : 4 ≤ slot) (hr : r < 2 ^ (slot / 2 - 1)) :
    slotOf (baseOf slot + r) = slot := by
  have hpos : 0 < 2 ^ (slot / 2 - 1) := Nat.two_pow_pos _
  have hdiv : (baseOf slot + r) / 2 ^ (slot / 2 - 1) = 2 + slot % 2 := by
    rw [baseOf, Nat.mul_comm, Nat.mul_add_div hpos, Nat.div_eq_of_lt hr, Nat.add_zero]
  have hlo : 2 * 2 ^ (slot / 2 - 1) ≤ baseOf slot := Nat.mul_le_mul_right _ (by omega)
  have hhi : baseOf slot ≤ 3 * 2 ^ (slot / 2 - 1) := Nat.mul_le_mul_right _ (by omega)
  have hlog : Nat.log 2 (baseOf slot + r) = slot / 2 - 1 + 1 := by
    refine Nat.log_eq_of_pow_le_of_lt_pow ?_ ?_
    · rw [Nat.pow_succ]
      omega
    · rw [Nat.pow_succ, Nat.pow_succ]
      omega
  rw [slotOf_of_two_le (by omega), hlog, Nat.add_sub_cancel, hdiv]
  omega

/-! ### What the decoder reads -/

/-- With `k` bytes of IN left the decoder reads the decisions of a value of `P`. -/
def ReadsCode (k : Nat) (P : Nat → Prop) (code : Nat → List Coded) : Prop :=
  ∀ s l, DecInput s (k + l) → ∃ v u, P v ∧ Reads (code v) s u ∧ DecInput u l ∧ NoError s u

theorem ReadsCode.mono {k l : Nat} {P : Nat → Prop} {code : Nat → List Coded} (h : ReadsCode k P code)
    (hl : k ≤ l) : ReadsCode l P code := fun s j hin => by
  obtain ⟨v, u, hv, hread, hleft, hne⟩ := h s (l - k + j) (by rwa [← Nat.add_assoc, Nat.add_sub_cancel' hl])
  exact ⟨v, u, hv, hread, hleft.mono (Nat.le_add_left j _), hne⟩

/-- A value read, and then one whose decisions depend on it: together they spell `code`. -/
theorem ReadsCode.append {k l : Nat} {P R : Nat → Prop} {Q : Nat → Nat → Prop} {first code : Nat → List Coded}
    {rest : Nat → Nat → List Coded} (h : ReadsCode k P first) (h' : ∀ v, P v → ReadsCode l (Q v) (rest v))
    (hcode : ∀ v r, P v → Q v r → ∃ d, R d ∧ code d = first v ++ rest v r) : ReadsCode (k + l) R code :=
  fun s j hin => by
    obtain ⟨v, t, hv, hread, hleft, hne⟩ := h s (l + j) (by rwa [← Nat.add_assoc])
    obtain ⟨r, u, hr, hread', hleft', hne'⟩ := h' v hv t j hleft
    obtain ⟨d, hd, hcode⟩ := hcode v r hv hr
    exact ⟨d, u, hd, hcode ▸ reads_append.2 ⟨t, hread, hread'⟩, hleft', hne.trans hne'⟩

theorem yields_decDirect_lt : ∀ (n : Nat) {j : Nat} {acc : U32}, j + n ≤ 32 → acc.toNat < 2 ^ j →
    Yields n (fun v => v.toNat < 2 ^ (j + n)) (decDirect n acc)
  | 0, _, _, _, h => .pure h
  | n + 1, j, acc, hj, h => yields_decDirectBit.step fun b => by
    rw [← Nat.add_assoc, Nat.add_right_comm]
    refine yields_decDirect_lt n (by omega) (show (childNode acc b).toNat < 2 ^ (j + 1) from ?_)
    have hb := b.toNat_le
    have hle := Nat.mod_le (2 * acc.toNat + b.toNat) (2 ^ 32)
    rw [childNode_toNat, Nat.pow_succ]
    omega

theorem readsCode_direct {n : Nat} (hn : n ≤ 32) :
    ReadsCode n (· < 2 ^ n) fun v => [.direct (BitVec.ofNat 32 v) n] := fun s l hin => by
  obtain ⟨v, u, hrun, hv, hleft, hne⟩ := yields_decDirect_lt n (j := 0) (by omega) (acc := 0#32) (by decide) s l hin
  rw [Nat.zero_add] at hv
  refine ⟨v.toNat, u, hv, reads_direct_cons.2 ⟨u, ?_, reads_nil.2 rfl⟩, hleft, hne⟩
  rw [hrun, BitVec.ofNat_toNat, BitVec.setWidth_eq, Nat.mod_eq_of_lt hv, BitVec.ofNat_toNat, BitVec.setWidth_eq]

theorem readsCode_footer {slot : Nat} (hslot : slot < 64) :
    ReadsCode 30 (· < 2 ^ (slot / 2 - 1)) (footerCode slot) := by
  by_cases h14 : slot < 14
  · refine ReadsCode.mono (k := slot / 2 - 1) (fun s l hin => ?_) (by omega)
    obtain ⟨r, u, hr, hread, hrest⟩ := readsSome_reversePath _ (slot / 2 - 1) s l hin
    exact ⟨r, u, hr, by rw [footerCode, if_pos h14]; exact hread, hrest⟩
  · have hbits : 2 ^ (slot / 2 - 1) = 16 * 2 ^ (slot / 2 - 1 - 4) := by
      rw [show 16 = 2 ^ 4 from rfl, ← Nat.pow_add, Nat.add_sub_cancel' (by omega)]
    refine ((readsCode_direct (n := slot / 2 - 1 - 4) (by omega)).append
      (fun _ _ => readsSome_reversePath ⟨.posAlign, 0#32⟩ 4)
      fun v r hv hr => ⟨16 * v + r, by omega, ?_⟩).mono (by omega)
    rw [footerCode, if_neg h14, show (16 * v + r) / 16 = v by omega, show (16 * v + r) % 16 = r by omega]
    rfl

theorem readsCode_distance (len : Nat) : ReadsCode 36 (· < 2 ^ 32) (distanceCode len) := by
  refine ReadsCode.append (k := 6) (l := 30)
    (readsSome_treePath ⟨.posSlot, BitVec.ofNat 32 (64 * min (len - 2) 3)⟩ 6)
    (Q := fun slot r => if slot < 4 then r = 0 else r < 2 ^ (slot / 2 - 1))
    (rest := fun slot r => if slot < 4 then [] else footerCode slot r) (fun slot hslot => ?_) fun slot r hslot hr => ?_
  · by_cases h4 : slot < 4
    · simp only [if_pos h4]
      exact fun s l hin => ⟨0, s, rfl, reads_nil.2 rfl, hin.mono (by omega), .refl s⟩
    · simp only [if_neg h4]
      exact readsCode_footer hslot
  · by_cases h4 : slot < 4
    · refine ⟨slot, by omega, ?_⟩
      rw [distanceCode_eq, slotOf_of_lt_four h4]
      simp only [if_pos h4]
    · rw [if_neg h4] at hr
      refine ⟨baseOf slot + r, baseOf_add_lt hslot hr, ?_⟩
      rw [distanceCode_eq, slotOf_baseOf_add (Nat.le_of_not_lt h4) hr, Nat.add_sub_cancel_left]

/-- Settles O47: DEC_DISTANCE decodes every distance's decisions, and the decoder always reads one's. -/
theorem decDistanceReturnsTheDistanceRead : Obligations.DecDistanceReturnsTheDistanceRead := by
  intro len s hwf
  have hlen : 2 ≤ (len.setWidth 32).toNat := by
    rw [toNat_lenWord]
    exact ((lenWf_iff len).1 hwf).1
  have hreturns : ∀ (d : U32) (u : State), Reads (distanceCode len.toNat d.toNat) s u →
      exec (.codecDecDistance len) s = .next { u with ret := .word d } := fun d u hread =>
    completeWord_ok (decodesTo_decDistance hlen d s u (by rwa [toNat_lenWord]))
  refine ⟨hreturns, fun hin => ?_⟩
  obtain ⟨d, u, hd, hread, -, hne⟩ := readsCode_distance len.toNat s 0 hin
  have hword : (BitVec.ofNat 32 d).toNat = d := by rw [BitVec.toNat_ofNat, Nat.mod_eq_of_lt hd]
  rw [← hword] at hread
  exact ⟨_, u, hread, hne, hreturns _ u hread⟩

end Sys2Proof
end

section
/-! The range coder's operations do not see the codec registers, the prices or `ret`: a change of these may stand
before or after them. -/

namespace Sys2Proof

open Machine

/-- The state with codec registers, prices and `ret` changed. -/
def retouch (c : Codec → Codec) (p : Prices → Prices) (r : Ret → Ret) (s : State) : State :=
  { s with codec := c s.codec, prices := p s.prices, ret := r s.ret }

def mapState {α : Type} (g : State → State) : EStateM.Result ErrKind State α → EStateM.Result ErrKind State α
  | .ok a s => .ok a (g s)
  | .error e s => .error e (g s)

/-- `m` may be run before `g` as well as after it. -/
def Commutes {α : Type} (g : State → State) (m : Eng α) : Prop := ∀ s, m (g s) = mapState g (m s)

section

variable {α β : Type} {g : State → State} {m : Eng α} {a : α} {e : ErrKind} {s t : State}

theorem Commutes.of_ok (h : Commutes g m) (hm : m s = .ok a t) : m (g s) = .ok a (g t) := by
  rw [h, hm]
  rfl

theorem Commutes.of_error (h : Commutes g m) (hm : m s = .error e t) : m (g s) = .error e (g t) := by
  rw [h, hm]
  rfl

theorem Commutes.pure (a : α) : Commutes g (Pure.pure a : Eng α) := fun _ => rfl

theorem Commutes.modify {f : State → State} (h : ∀ s, f (g s) = g (f s)) : Commutes g (modify f : Eng PUnit) :=
  fun s => congrArg (EStateM.Result.ok PUnit.unit) (h s)

theorem Commutes.bind {f : α → Eng β} (hm : Commutes g m) (hf : ∀ a, Commutes g (f a)) : Commutes g (m >>= f) :=
  fun s => by
    cases hrun : m s with
    | ok a t => rw [bind_ok hrun, bind_ok (hm.of_ok hrun), hf]
    | error e t =>
      rw [bind_error hrun, bind_error (hm.of_error hrun)]
      rfl

theorem Commutes.get_bind {f : State → Eng β} (hsame : ∀ s, f (g s) = f s) (hf : ∀ s, Commutes g (f s)) :
    Commutes g (MonadState.get >>= f) := fun s => by
  rw [get_bind_run, get_bind_run, hsame, hf]

theorem Commutes.ite {c : Prop} [Decidable c] {n : Eng α} (hm : Commutes g m) (hn : Commutes g n) :
    Commutes g (if c then m else n) := by
  split
  · exact hm
  · exact hn

/-- A move, and then an operation that depends on the state before it. -/
theorem Commutes.get_set {f : State → State} {n : State → Eng α} (hmove : ∀ s, f (g s) = g (f s))
    (hsame : ∀ s, n (g s) = n s) (hn : ∀ s, Commutes g (n s)) :
    Commutes g (MonadState.get >>= fun s => set (f s) >>= fun _ => n s) := fun s => by
  show n (g s) (f (g s)) = mapState g (n s (f s))
  rw [hmove, hsame, hn]

end

section

variable {c : Codec → Codec} {p : Prices → Prices} {r : Ret → Ret}

/-! ### The encoder -/

theorem commutes_outWrite (b : Byte) : Commutes (retouch c p r) (outWrite b) := fun s => by
  rcases Nat.lt_or_ge s.host.outLen.toNat s.outCap with h | h
  · rw [outWrite_ok b h]
    exact outWrite_ok b h
  · rw [outWrite_full b h]
    exact outWrite_full b h

theorem commutes_emitPending (carry : Byte) : ∀ n temp, Commutes (retouch c p r) (emitPending carry n temp)
  | 0, _ => .pure ()
  | n + 1, _ => (commutes_outWrite _).bind fun _ =>
      Commutes.bind (.modify fun _ => rfl) fun _ => commutes_emitPending carry n _

theorem commutes_emitSettled : Commutes (retouch c p r) emitSettled :=
  .get_bind (fun _ => rfl) fun _ => (commutes_emitPending _ _ _).bind fun _ => .modify fun _ => rfl

theorem commutes_shiftLow : Commutes (retouch c p r) shiftLow :=
  Commutes.bind (.get_bind (fun _ => rfl) fun _ => .ite commutes_emitSettled (.pure ())) fun _ => .modify fun _ => rfl

theorem commutes_encNormalise : Commutes (retouch c p r) encNormalise :=
  .get_bind (fun _ => rfl) fun _ =>
    .ite (Commutes.bind (.modify fun _ => rfl) fun _ => commutes_shiftLow) (.pure ())

theorem commutes_encBit (x : CellRef) (b : Bool) : Commutes (retouch c p r) (encBit x b) :=
  Commutes.bind (.modify fun _ => rfl) fun _ => commutes_encNormalise

theorem commutes_encDirect (v : U32) : ∀ n, Commutes (retouch c p r) (encDirect v n)
  | 0 => .pure ()
  | n + 1 =>
    Commutes.bind (Commutes.bind (.modify fun _ => rfl) fun _ => commutes_encNormalise) fun _ => commutes_encDirect v n

theorem commutes_encCoded : ∀ ds, Commutes (retouch c p r) (encCoded ds)
  | [] => .pure ()
  | .bit _ _ :: ds => (commutes_encBit _ _).bind fun _ => commutes_encCoded ds
  | .direct _ _ :: ds => (commutes_encDirect _ _).bind fun _ => commutes_encCoded ds

/-! ### The decoder -/

theorem commutes_readByte : Commutes (retouch c p r) readByte := fun s => by
  by_cases h : s.host.inPos < s.host.inLen
  · rw [readByte_ok h]
    exact readByte_ok h
  · rw [readByte_end h]
    exact readByte_end h

theorem commutes_decNormalise : Commutes (retouch c p r) decNormalise :=
  .get_bind (fun _ => rfl) fun _ => .ite
    (Commutes.bind (commutes_readByte.bind fun _ => .modify fun _ => rfl) fun _ => .modify fun _ => rfl) (.pure ())

theorem commutes_decBit (x : CellRef) : Commutes (retouch c p r) (decBit x) :=
  .get_set (fun _ => rfl) (fun _ => rfl) fun _ => commutes_decNormalise.bind fun _ => .pure _

theorem commutes_decDirectBit : Commutes (retouch c p r) decDirectBit :=
  .get_set (fun _ => rfl) (fun _ => rfl) fun _ => commutes_decNormalise.bind fun _ => .pure _

theorem commutes_decDirect : ∀ n v, Commutes (retouch c p r) (decDirect n v)
  | 0, _ => .pure _
  | n + 1, _ => commutes_decDirectBit.bind fun _ => commutes_decDirect n _

theorem commutes_btDecFrom (t : CellRef) : ∀ n m, Commutes (retouch c p r) (btDecFrom t n m)
  | 0, _ => .pure _
  | n + 1, _ => (commutes_decBit _).bind fun _ => commutes_btDecFrom t n _

theorem commutes_btDec (t : CellRef) (n : Nat) : Commutes (retouch c p r) (btDec t n) :=
  (commutes_btDecFrom t n _).bind fun _ => .pure _

theorem commutes_btRdecFrom (t : CellRef) : ∀ n i m v, Commutes (retouch c p r) (btRdecFrom t n i m v)
  | 0, _, _, _ => .pure _
  | n + 1, i, _, _ => (commutes_decBit _).bind fun _ => commutes_btRdecFrom t n (i + 1) _ _

theorem commutes_lenDec (l : LenSel) (ps : U32) : Commutes (retouch c p r) (lenDec l ps) :=
  (commutes_decBit _).bind fun _ => .ite
    ((commutes_decBit _).bind fun _ => .ite ((commutes_btDec _ _).bind fun _ => .pure _)
      ((commutes_btDec _ _).bind fun _ => .pure _))
    (commutes_btDec _ _)

theorem commutes_decFooter (slot : U32) : Commutes (retouch c p r) (decFooter slot) :=
  .ite ((commutes_btRdecFrom _ _ _ _ _).bind fun _ => .pure _)
    ((commutes_decDirect _ _).bind fun _ => (commutes_btRdecFrom _ _ _ _ _).bind fun _ => .pure _)

theorem commutes_decDistance (len : U32) : Commutes (retouch c p r) (decDistance len) :=
  (commutes_btDec _ _).bind fun _ => .ite (.pure _) (commutes_decFooter _)

end

end Sys2Proof
end

section
/-! DEC_PACKET is the packet fetched and then performed (46_codec R292): the changes of the codec that stand between
its decisions may be made after them. -/

namespace Sys2Proof

open Machine

variable {α β : Type} {P : α → Prop} {Q : β → Prop}

/-! ### The value of a length symbol -/

/-- Wherever `m` runs to its end, its value is one of `P`. -/
def Returns (P : α → Prop) (m : Eng α) : Prop := ∀ s a u, m s = .ok a u → P a

theorem Returns.any (m : Eng α) : Returns Any m := fun _ _ _ _ => trivial

theorem Returns.pure {a : α} (h : P a) : Returns P (Pure.pure a) := fun _ _ _ hrun => by
  cases hrun
  exact h

theorem Returns.bind {m : Eng α} {f : α → Eng β} (hm : Returns P m) (hf : ∀ a, P a → Returns Q (f a)) :
    Returns Q (m >>= f) := fun s b u hrun =>
  have ⟨a, t, ha, hb⟩ := bind_eq_ok_iff.1 hrun
  hf a (hm s a t ha) t b u hb

theorem Returns.ite {c : Prop} [Decidable c] {m n : Eng α} (hm : Returns P m) (hn : Returns P n) :
    Returns P (if c then m else n) := by
  split
  · exact hm
  · exact hn

theorem returns_btDecFrom (t : CellRef) : ∀ {n k : Nat} {m : U32}, k + n ≤ 31 → OnLevel k m →
    Returns (OnLevel (k + n)) (btDecFrom t n m)
  | 0, _, _, _, h => .pure h
  | n + 1, k, m, hk, h => (Returns.any _).bind fun b _ => by
    rw [← childNode_eq_add, ← Nat.add_assoc, Nat.add_right_comm]
    exact returns_btDecFrom t (by omega) (h.child (by omega) b)

theorem returns_btDec (t : CellRef) {n : Nat} (hn : n ≤ 31) : Returns (fun v => v.toNat < 2 ^ n) (btDec t n) := by
  refine (returns_btDecFrom t (k := 0) (by omega) ⟨by decide, by decide⟩).bind fun m ⟨hlo, hhi⟩ => .pure ?_
  have htop : 2 ^ n ≤ 2 ^ 31 := Nat.pow_le_pow_right (by decide) hn
  rw [Nat.zero_add] at hlo hhi
  rw [Nat.pow_succ] at hhi
  rw [one_shiftLeft, BitVec.toNat_sub, BitVec.toNat_ofNat]
  omega

theorem returns_lenDec (c : LenSel) (ps : U32) : Returns (fun k => k.toNat ≤ 271) (lenDec c ps) := by
  have hsum : ∀ {n : Nat} (t : CellRef) (base : Nat), n ≤ 8 → base + 2 ^ n ≤ 272 →
      Returns (fun k => k.toNat ≤ 271) (btDec t n >>= fun k => Pure.pure (BitVec.ofNat 32 base + k)) :=
    fun t base hn h => (returns_btDec t (by omega)).bind fun k hk => .pure (by
      rw [BitVec.toNat_add, BitVec.toNat_ofNat]
      omega)
  refine (Returns.any _).bind fun _ _ => .ite ((Returns.any _).bind fun _ _ => .ite ?_ ?_) fun s k u hrun => ?_
  · exact hsum _ 16 (by decide) (by decide)
  · exact hsum (n := 3) _ 8 (by decide) (by decide)
  · have hk := returns_btDec _ (by decide) s k u hrun
    omega

/-- The length of a symbol fits the operand of a packet. -/
theorem setWidth_symbolLength {k : U32} (h : k.toNat ≤ 271) :
    ((2#32 + k).setWidth 16).setWidth 32 = 2#32 + k := by
  bv_omega

/-! ### Decisions read -/

/-- `m` reads decisions: it keeps what they keep, and returns a value of `P`. -/
structure ReadsDecisions (P : α → Prop) (m : Eng α) : Prop where
  runs : Runs DecMoves InputEnded m
  returns : Returns P m

theorem Runs.moves {m : Eng α} (h : Runs (DecStep fun _ => True) InputEnded m) : Runs DecMoves InputEnded m :=
  ⟨h.keeps.mono fun _ _ h => h.2, h.raises⟩

theorem readsDecisions_bit (c : CellRef) : ReadsDecisions Any (decBit c) :=
  ⟨moves_decBit c, .any _⟩

theorem readsDecisions_len (c : LenSel) (ps : U32) : ReadsDecisions (fun k => k.toNat ≤ 271) (lenDec c ps) :=
  ⟨(runs_lenDec (fun _ _ => trivial) ps).moves, returns_lenDec c ps⟩

theorem readsDecisions_distance (len : U32) : ReadsDecisions Any (decDistance len) :=
  ⟨(runs_decDistance (fun _ _ => trivial) len).moves, .any _⟩

theorem moves_decLitByte : Runs DecMoves InputEnded decLitByte :=
  .get_bind fun _ => .ite (runs_litDec fun _ _ => trivial).moves (runs_litDecMatched _ fun _ _ => trivial).moves

theorem moves_decRepChoice (st : U4) (ps : U32) : Runs DecMoves InputEnded (decRepChoice st ps) :=
  have hbit {f : Bool → Eng (Nat × Bool)} {c : CellRef} (hf : ∀ b, Runs DecMoves InputEnded (f b)) :=
    (moves_decBit c).bind DecMoves.composes hf
  hbit fun _ => .ite (hbit fun _ => .ite (hbit fun _ => .pure DecMoves.composes _) (.pure DecMoves.composes _))
    (hbit fun _ => .pure DecMoves.composes _)

theorem moves_fetchPacket : Runs DecMoves InputEnded fetchPacket :=
  .get_bind fun _ => (moves_decBit _).bind DecMoves.composes fun _ => .ite
    ((moves_decBit _).bind DecMoves.composes fun _ => .ite
      ((moves_decRepChoice _ _).bind DecMoves.composes fun _ => .ite (.pure DecMoves.composes _)
        ((readsDecisions_len _ _).runs.map DecMoves.composes _))
      ((readsDecisions_len _ _).runs.bind DecMoves.composes fun _ =>
        (readsDecisions_distance _).runs.map DecMoves.composes _))
    (moves_decLitByte.map DecMoves.composes _)

/-! ### The packet fetched and the packet performed -/

/-- From the codec registers `c`, `dec` does what the packet does that `fetch` reads; where the decisions end early, so
does `dec`, in the same state but for registers of the codec. -/
def FetchesAs (c : Codec) (dec : Eng Ret) (fetch : Eng Instr) : Prop :=
  ∀ s, s.codec = c → s.phase = .decRun →
    (∀ i u, fetch s = .ok i u → complete dec s = exec i u) ∧
    ∀ e u, fetch s = .error e u →
      ∃ c', c'.nowPos = c.nowPos ∧ c'.prevByte = c.prevByte ∧ dec s = .error e { u with codec := c' }

section

variable {c : Codec} {dec : Eng Ret} {f : α → Eng Ret} {g : α → Eng Instr} {m : Eng α} {s t : State}

theorem DecMoves.phase (h : DecMoves s t) : t.phase = s.phase := congrArg Seq.phase h.noError.1

theorem FetchesAs.pure {i : Instr} (h : ∀ s, s.codec = c → s.phase = .decRun → complete dec s = exec i s) :
    FetchesAs c dec (Pure.pure i) := fun s hc hphase =>
  ⟨fun _ _ hrun => by cases hrun; exact h s hc hphase, fun _ _ hrun => by cases hrun⟩

theorem FetchesAs.ite {p : Prop} [Decidable p] {dec' : Eng Ret} {fetch fetch' : Eng Instr} (h : FetchesAs c dec fetch)
    (h' : FetchesAs c dec' fetch') : FetchesAs c (if p then dec else dec') (if p then fetch else fetch') := by
  split
  · exact h
  · exact h'

/-- A change `h` of the codec, made before the decisions of `m` or after them. -/
theorem FetchesAs.modify_bind {h : Codec → Codec} (hm : ReadsDecisions P m)
    (hcomm : Commutes (retouch h id id) m) (hnow : (h c).nowPos = c.nowPos)
    (hprev : (h c).prevByte = c.prevByte) (hf : ∀ a, P a → FetchesAs c (modifyCodec h >>= fun _ => f a) (g a)) :
    FetchesAs c (modifyCodec h >>= fun _ => m >>= f) (m >>= g) := fun s hc hphase => by
  have hcodec : ∀ t, DecMoves s t → t.codec = c := fun t ht => ht.frame.codec.trans hc
  cases hrun : m s with
  | ok a t =>
    have ht := hm.runs.keeps.of_ok hrun
    have hsame : (modifyCodec h >>= fun _ => m >>= f) s = (modifyCodec h >>= fun _ => f a) t :=
      bind_ok (hcomm.of_ok hrun)
    have hfetch : (m >>= g) s = g a t := bind_ok hrun
    obtain ⟨hok, herr⟩ := hf a (hm.returns s a t hrun) t (hcodec t ht) (ht.phase.trans hphase)
    exact ⟨fun i u hu => (complete_congr hsame).trans (hok i u (hfetch ▸ hu)),
      fun e u hu => hsame ▸ herr e u (hfetch ▸ hu)⟩
  | error e t =>
    have ht : DecMoves s t := by
      have := hm.runs.keeps s
      rwa [hrun] at this
    have hfetch : (m >>= g) s = .error e t := bind_error hrun
    have hdec : (modifyCodec h >>= fun _ => m >>= f) s = .error e (retouch h id id t) :=
      bind_error (f := f) (hcomm.of_error hrun)
    rw [retouch, hcodec t ht] at hdec
    rw [hfetch]
    refine ⟨fun i u hu => ?_, fun e' u hu => ?_⟩
    · cases hu
    · cases hu
      exact ⟨h c, hnow, hprev, hdec⟩

theorem FetchesAs.bind (hm : ReadsDecisions P m) (hf : ∀ a, P a → FetchesAs c (f a) (g a)) :
    FetchesAs c (m >>= f) (m >>= g) :=
  .modify_bind (h := id) hm (fun s => by cases h : m s <;> exact h) rfl rfl hf

end

/-! ### The branches of R292 -/

theorem decMatch_bind (st : U4) (ps : U32) (f : U32 → Eng Ret) : (decMatch st ps >>= f) =
    lenDec .matchLen ps >>= fun k => modifyCodec (fun c => { c with state := stMatch st }) >>= fun _ =>
      decDistance (2#32 + k) >>= fun d => modifyCodec (fun c => { c with reps := repsPush c.reps d }) >>= fun _ =>
        f (2#32 + k) := by
  simp only [decMatch, setState, bind_assoc, pure_bind]

theorem decRep_bind (st : U4) (ps : U32) (f : U32 → Eng Ret) : (decRep st ps >>= f) =
    decRepChoice st ps >>= fun r =>
      if r.2 then modifyCodec (fun c => { c with state := stShortrep st }) >>= fun _ => f 1#32
      else modifyCodec (fun c => { c with reps := repsPromote c.reps r.1 }) >>= fun _ => lenDec .repLen ps >>= fun k =>
        modifyCodec (fun c => { c with state := stRep st }) >>= fun _ => f (2#32 + k) := by
  simp only [decRep, setState, bind_assoc]
  refine bind_congr fun r => ?_
  split <;> simp only [bind_assoc, pure_bind]

section

variable {s : State}

theorem exec_matchDist_of_decRun (h : s.phase = .decRun) {len d : U32} (hlen : (len.setWidth 16).setWidth 32 = len) :
    exec (if len.setWidth 16 = 2#16 ∧ d = kEndMarker then .eos else .matchDist (len.setWidth 16) d) s =
      complete (performMatch len d) s := by
  split
  · next heos =>
    obtain ⟨hshort, rfl⟩ := heos
    have h2 : len = 2#32 := by rw [← hlen, hshort]; rfl
    rw [h2]
    exact packetBy_of_decRun h
  · exact (packetBy_of_decRun h).trans (by rw [hlen])

theorem exec_longrep_of_decRun (h : s.phase = .decRun) (i : Nat) {len : U32}
    (hlen : (len.setWidth 16).setWidth 32 = len) :
    exec (longrep i (len.setWidth 16)) s = complete (performLongrep i len) s := by
  match i with
  | 0 => exact (packetBy_of_decRun h).trans (by rw [hlen])
  | 1 => exact (packetBy_of_decRun h).trans (by rw [hlen])
  | 2 => exact (packetBy_of_decRun h).trans (by rw [hlen])
  | _ + 3 => exact (packetBy_of_decRun h).trans (by rw [hlen]; rfl)

theorem fetchesAs_match (c : Codec) (ps : U32) : FetchesAs c (decMatch c.state ps >>= afterMatch)
    (lenDec .matchLen ps >>= fun k => decDistance (2#32 + k) >>= fun d =>
      pure (if (2#32 + k).setWidth 16 = 2#16 ∧ d = kEndMarker then .eos
        else .matchDist ((2#32 + k).setWidth 16) d)) := by
  rw [decMatch_bind]
  refine .bind (readsDecisions_len _ _) fun k hk => .modify_bind (readsDecisions_distance _)
    (commutes_decDistance _) rfl rfl fun d _ => .pure ?_
  rintro s rfl hphase
  exact (exec_matchDist_of_decRun hphase (setWidth_symbolLength hk)).symm

theorem fetchesAs_rep (c : Codec) (ps : U32) : FetchesAs c (decRep c.state ps >>= checkedCopy)
    (decRepChoice c.state ps >>= fun r => if r.2 then pure .shortrep
      else lenDec .repLen ps >>= fun k => pure (longrep r.1 ((2#32 + k).setWidth 16))) := by
  rw [decRep_bind]
  refine .bind ⟨moves_decRepChoice _ _, .any _⟩ fun r _ => .ite (.pure ?_)
    (.modify_bind (readsDecisions_len _ _) (commutes_lenDec _ _) rfl rfl fun k hk => .pure ?_)
  · rintro s rfl hphase
    exact (packetBy_of_decRun hphase).symm
  · rintro s rfl hphase
    exact (exec_longrep_of_decRun hphase r.1 (setWidth_symbolLength hk)).symm

theorem fetchesAs_packet (s : State) (hphase : s.phase = .decRun) :
    (∀ i u, fetchPacket s = .ok i u → exec .codecDecPacket s = exec i u) ∧
    ∀ e u, fetchPacket s = .error e u → ∃ c', c'.nowPos = s.codec.nowPos ∧ c'.prevByte = s.codec.prevByte ∧
      decPacket s = .error e { u with codec := c' } := by
  refine FetchesAs.bind (readsDecisions_bit _) (fun isMatch _ => .ite
    (.bind (readsDecisions_bit _) fun isRep _ =>
      .ite (fetchesAs_rep s.codec s.posState) (fetchesAs_match s.codec s.posState))
    (.bind ⟨moves_decLitByte, .any _⟩ fun b _ => .pure fun t _ ht => (packetBy_of_decRun ht).symm)) s rfl hphase

/-- Decisions read leave OUT and the window alone. -/
theorem DecMoves.winRoom {t : State} {n : Nat} (h : DecMoves s t) (hroom : WinRoom s n) : WinRoom t n := by
  have hcap : t.outCap = s.outCap := by rw [State.outCap, h.frame.core.params, State.outCap]
  rwa [WinRoom, h.frame.window, h.frame.outLen, hcap]

theorem putLiteral_runs (b : Byte) (h : WinRoom s 1) : ∃ t, putLiteral b s = .ok () t ∧ NoError s t ∧
    t.codec = { s.codec with prevByte := b, nowPos := s.codec.nowPos + 1#64, state := stChar s.codec.state } := by
  obtain ⟨t, hput, -⟩ := owPut_runs b (n := 0) h
  have honly := (keeps_owPut b).of_ok hput
  refine ⟨_, bind_ok hput, honly.noError, ?_⟩
  rw [← honly.codec]

theorem decPacket_literal (hbit : s.dec.code < bitBound s.dec.range (s.prob (isMatchCell s.codec.state s.posState)))
    (hin : DecInput s 9) (hroom : WinRoom s 1) : ∃ t, decPacket s = .ok .cont t ∧ NoError s t ∧
      t.codec.nowPos = s.codec.nowPos + 1#64 ∧ t.codec.state = stChar s.codec.state := by
  obtain ⟨t, hmatch, hleft, -⟩ := decBit_runs (isMatchCell s.codec.state s.posState) (k := 8) hin
  obtain ⟨b, u, hlit, -⟩ := yields_decLitByte t 0 hleft
  have hmoves := DecMoves.composes.trans ((moves_decBit _).keeps.of_ok hmatch) (moves_decLitByte.keeps.of_ok hlit)
  obtain ⟨v, hput, hne, hcodec⟩ := putLiteral_runs b (hmoves.winRoom hroom)
  rw [decide_eq_true hbit] at hmatch
  have hrun : decPacket s = .ok .cont v := (bind_ok hmatch).trans ((bind_ok hlit).trans (bind_ok hput))
  rw [hmoves.frame.codec] at hcodec
  exact ⟨v, hrun, hmoves.noError.trans hne, by rw [hcodec], by rw [hcodec]⟩

/-- Settles O49: the decisions are the same, and what R292 writes between them may be written after them. -/
theorem decPacketIsFetchThenPerform : Obligations.DecPacketIsFetchThenPerform := by
  intro s hphase
  obtain ⟨hok, herr⟩ := fetchesAs_packet s hphase
  refine ⟨hok, fun e u hu => ?_, fun hbit hin hroom => ?_⟩
  · obtain ⟨c, hnow, hprev, hdec⟩ := herr e u hu
    obtain ⟨rfl, -⟩ := moves_fetchPacket.raises hu
    have hmoves := moves_fetchPacket.keeps s
    rw [hu] at hmoves
    exact ⟨rfl, _, complete_error hdec, rfl, rfl, rfl, hmoves.frame.window, hmoves.frame.outMem, hnow, hprev⟩
  · rw [← isMatchCell_eq] at hbit
    obtain ⟨t, hrun, hne, hpos, hstate⟩ := decPacket_literal hbit hin hroom
    exact ⟨_, complete_ok hrun, hne, hpos, hstate⟩

end

end Sys2Proof
end

section
/-! The encoder's packets as decision lists (30_encoding R85 to R94; 46_codec R272 to R276): each operation codes its
list and then moves the codec registers, the prices or both. -/

namespace Sys2Proof

open Machine

variable {ds es : List Coded} {s t : State} {k : Nat}

/-! ### Coding a list of decisions -/

theorem encCoded_append : ∀ ds : List Coded, encCoded (ds ++ es) = encCoded ds >>= fun _ => encCoded es
  | [] => rfl
  | .bit c b :: ds => by
    simp only [List.cons_append, encCoded, encCoded_append ds, bind_assoc]
  | .direct v n :: ds => by
    simp only [List.cons_append, encCoded, encCoded_append ds, bind_assoc]

theorem encCoded_bitsOf : ∀ ds : List (CellRef × Bool), encCoded (bitsOf ds) = encBits ds
  | [] => rfl
  | d :: ds => congrArg (fun m => encBit d.1 d.2 >>= fun _ => m) (encCoded_bitsOf ds)

/-- `m` runs to its end with room for `k` SHIFT_LOWs, and uses no more of it; PHASE and ERR_CODE it leaves alone. -/
structure EncRuns (k : Nat) (m : Eng Unit) : Prop where
  runs : ∀ s l, EncRoom s (k + l) → ∃ t, m s = .ok () t ∧ EncRoom t l
  keeps : Keeps NoError m

theorem EncRuns.mono {m : Eng Unit} {l : Nat} (h : EncRuns k m) (hl : k ≤ l) : EncRuns l m where
  runs s j hroom := by
    obtain ⟨t, hrun, hleft⟩ := h.runs s (l - k + j) (by rwa [← Nat.add_assoc, Nat.add_sub_cancel' hl])
    exact ⟨t, hrun, hleft.mono (Nat.le_add_left j _)⟩
  keeps := h.keeps

theorem EncRuns.pure : EncRuns k (Pure.pure ()) where
  runs s l hroom := ⟨s, rfl, hroom.mono (Nat.le_add_left l k)⟩
  keeps := .pure NoError.composes ()

theorem EncRuns.bind {m : Eng Unit} {f : Unit → Eng Unit} {l : Nat} (hm : EncRuns k m) (hf : EncRuns l (f ())) :
    EncRuns (k + l) (m >>= f) where
  runs s j hroom := by
    obtain ⟨t, hrun, hleft⟩ := hm.runs s (l + j) (by rwa [← Nat.add_assoc])
    obtain ⟨u, hrun', hleft'⟩ := hf.runs t j hleft
    exact ⟨u, (bind_ok hrun).trans hrun', hleft'⟩
  keeps := .bind NoError.composes hm.keeps fun _ => hf.keeps

theorem EncRuns.read {f : State → Eng Unit} (hf : ∀ s, EncRuns k (f s)) : EncRuns k (MonadState.get >>= f) where
  runs s := (hf s).runs s
  keeps := .read fun s => (hf s).keeps

/-- A move of registers that are not the range encoder's or OUT's. -/
theorem EncRuns.modify {f : State → State} (henc : ∀ s, (f s).enc = s.enc)
    (hparams : ∀ s, (f s).params = s.params) (hlen : ∀ s, (f s).host.outLen = s.host.outLen)
    (hne : ∀ s, NoError s (f s)) : EncRuns 0 (modify f) where
  runs s l hroom := by
    refine ⟨f s, rfl, ?_⟩
    rw [Nat.zero_add] at hroom
    rwa [EncRoom, henc, hlen, State.outCap, hparams]
  keeps := .modify hne

theorem encRuns_bit (c : CellRef) (b : Bool) : EncRuns 1 (encBit c b) where
  runs s l hroom := by
    obtain ⟨t, hrun, hleft, -⟩ := encBit_runs c b (Nat.add_comm 1 l ▸ hroom)
    exact ⟨t, hrun, hleft⟩
  keeps := (runs_encBit c b).keeps

theorem encRuns_directBit (b : Bool) : EncRuns 1 (encDirectBit b) where
  runs s l hroom := by
    obtain ⟨t, hrun, hleft, -⟩ := encNormalise_runs (s := { s with enc := halve s.enc b }) (k := l)
      (Nat.add_comm 1 l ▸ ⟨hroom.1, hroom.2⟩)
    exact ⟨t, hrun, hleft⟩
  keeps := .bind NoError.composes (.modify fun _ => ⟨rfl, rfl⟩) fun _ => runs_encNormalise.keeps

theorem encRuns_direct (v : U32) : ∀ n, EncRuns n (encDirect v n)
  | 0 => .pure
  | n + 1 => ((encRuns_directBit _).bind (encRuns_direct v n)).mono (Nat.add_comm 1 n).le

theorem encRuns_coded : ∀ ds, EncRuns (codedBits ds) (encCoded ds)
  | [] => .pure
  | .bit _ _ :: ds => (encRuns_bit _ _).bind (encRuns_coded ds)
  | .direct _ _ :: ds => (encRuns_direct _ _).bind (encRuns_coded ds)

theorem encCoded_runs (hroom : EncRoom s (codedBits ds)) : ∃ t, encCoded ds s = .ok () t ∧ NoError s t := by
  obtain ⟨t, hrun, -⟩ := (encRuns_coded ds).runs s 0 hroom
  exact ⟨t, hrun, (encRuns_coded ds).keeps.of_ok hrun⟩

/-- An operation that codes `ds` and then does `f`. -/
theorem codesThen_of_ok {f : State → State} {m : Eng Unit}
    (h : ∀ t, encCoded ds s = .ok () t → m s = .ok () (f t)) : CodesThen ds f s (completeUnit m s) := fun hroom =>
  have ⟨t, hrun, hne⟩ := encCoded_runs hroom
  ⟨t, hrun, hne, completeUnit_ok (h t hrun)⟩

/-! ### What coding keeps -/

/-- Setting the codec registers and the prices to their own values changes nothing, so what commutes with that keeps
them. -/
theorem kept_of_commutes {α : Type} {m : Eng α} {a : α} (hm : ∀ c p r, Commutes (retouch c p r) m)
    (hrun : m s = .ok a t) : t.codec = s.codec ∧ t.prices = s.prices := by
  have h := (hm (fun _ => s.codec) (fun _ => s.prices) id).of_ok hrun
  rw [show retouch (fun _ => s.codec) (fun _ => s.prices) id s = s from rfl, hrun] at h
  injection h with _ h
  exact ⟨by rw [h]; rfl, by rw [h]; rfl⟩

theorem encCoded_kept (h : encCoded ds s = .ok () t) : t.codec = s.codec ∧ t.prices = s.prices :=
  kept_of_commutes (fun _ _ _ => commutes_encCoded ds) h

/-- What a decision, appending to OUT and setting the encoder's registers keep, coding a list keeps. -/
theorem keeps_encCoded_of {R : State → State → Prop} (hR : Composes R) (hout : ∀ s b, R s (s.appendOut b))
    (henc : ∀ s e, R s { s with enc := e }) (hbit : ∀ s c b, R s (afterNarrow c b s)) :
    ∀ ds, Keeps R (encCoded ds) :=
  have hnormalise := keeps_encNormalise_of hR hout henc
  have hdirect (v : U32) (n : Nat) : Keeps R (encDirect v n) := by
    induction n with
    | zero => exact .pure hR ()
    | succ n ih => exact .bind hR (.bind hR (.modify fun s => henc s _) fun _ => hnormalise) fun _ => ih
  fun ds => by
    induction ds with
    | nil => exact .pure hR ()
    | cons d ds ih =>
      cases d with
      | bit c b => exact .bind hR (.bind hR (.modify fun s => hbit s c b) fun _ => hnormalise) fun _ => ih
      | direct v n => exact .bind hR (hdirect v n) fun _ => ih

theorem sameParser_composes : Composes fun s t : State => t.parser = s.parser where
  refl _ := rfl
  trans h k := k.trans h

theorem encCoded_parser (h : encCoded ds s = .ok () t) : t.parser = s.parser :=
  (keeps_encCoded_of sameParser_composes (fun _ _ => rfl) (fun _ _ => rfl) (fun _ _ _ => rfl) ds).of_ok h

theorem encCoded_bit_cons {c : CellRef} {b : Bool} :
    encCoded (.bit c b :: ds) s = .ok () t ↔ ∃ u, encBit c b s = .ok () u ∧ encCoded ds u = .ok () t := by
  rw [encCoded, bind_eq_ok_iff]
  exact ⟨fun ⟨_, u, h⟩ => ⟨u, h⟩, fun ⟨u, h⟩ => ⟨(), u, h⟩⟩

theorem encCoded_append_ok :
    encCoded (ds ++ es) s = .ok () t ↔ ∃ u, encCoded ds s = .ok () u ∧ encCoded es u = .ok () t := by
  rw [encCoded_append, bind_eq_ok_iff]
  exact ⟨fun ⟨_, u, h⟩ => ⟨u, h⟩, fun ⟨u, h⟩ => ⟨(), u, h⟩⟩

end Sys2Proof
end

section
/-! ENC_LIT, ENC_EOS and ENC_DISTANCE (46_codec R272, R275, R276). -/

namespace Sys2Proof

open Machine

variable {s t : State}

/-! ### Literals (R85) -/

theorem litEnc_eq_encCoded (c : U32) (b : Byte) : litEnc c b = encCoded (bitsOf (literalPath c.toNat b)) := by
  rw [encCoded_bitsOf, literalPath_eq_blockSteps]
  exact litEncFrom_eq_encBits c b 8 _

theorem litEncMatched_eq_encCoded (c : U32) (m b : Byte) :
    litEncMatched c m b = encCoded (bitsOf (matchedPath c.toNat m b)) := by
  rw [encCoded_bitsOf, matchedPath_eq_matchedSteps]
  exact litEncMatchedFrom_eq_encBits c m b 8 _

theorem encLitDecisions_eq_encCoded (s : State) (b : Byte) : encLitDecisions s b =
    encCoded (bitsOf (if s.codec.state.toNat < 7 then literalPath (litBlock s).toNat b
      else matchedPath (litBlock s).toNat (encMatchByte s) b)) := by
  unfold encLitDecisions
  by_cases h : s.codec.state.toNat < 7
  · rw [if_pos h, if_pos ((stIsChar_iff _).2 h), litEnc_eq_encCoded]
  · rw [if_neg h, if_neg (mt (stIsChar_iff _).1 h), litEncMatched_eq_encCoded]

/-- The literal `b` as ENC_LIT codes it in `s`. -/
def litPacketOf (s : State) (b : Byte) : List Coded :=
  litPacket s.codec.state.toNat s.posState.toNat (litBlock s).toNat (encMatchByte s) b

theorem encLitByte_run (b : Byte) (s : State) : encLitByte b s = (encCoded (litPacketOf s b) >>= fun _ =>
    modifyCodec fun c => { c with prevByte := b, state := stChar c.state }) s := by
  rw [encLitByte, get_bind_run, encLitDecisions_eq_encCoded, isMatchCell_eq, litPacketOf, litPacket, encCoded,
    bind_assoc]

/-! ### Distances (R94) -/

theorem encFooter_eq_encCoded {d : U32} (h : 4 ≤ d.toNat) : encFooter (posSlotOf d) d =
    encCoded (footerCode (slotOf d.toNat) (d.toNat - baseOf (slotOf d.toNat))) >>= fun _ =>
      if 14 ≤ slotOf d.toNat then countAlign else pure () := by
  have hbase := baseOf_add_footer h
  have hr : (d - slotBase (posSlotOf d)).toNat = d.toNat - baseOf (slotOf d.toNat) := by
    rw [toNat_sub_slotBase h, footerBits_eq, toNat_posSlotOf]
    omega
  have hslot : posSlotOf d < 14#32 ↔ slotOf d.toNat < 14 := by
    rw [BitVec.lt_def, toNat_posSlotOf]
    rfl
  unfold encFooter footerCode
  by_cases h14 : slotOf d.toNat < 14
  · rw [if_pos (hslot.2 h14), if_pos h14, if_neg (Nat.not_le.2 h14), bind_pure, encCoded_bitsOf, btRenc_eq_encBits,
      hr, posModelsTree_eq, footerBits_eq, toNat_posSlotOf]
  · have hhigh : (d - slotBase (posSlotOf d)) >>> 4 =
        BitVec.ofNat 32 ((d.toNat - baseOf (slotOf d.toNat)) / 16) := by
      rw [← hr]
      apply BitVec.eq_of_toNat_eq
      rw [BitVec.toNat_ushiftRight, Nat.shiftRight_eq_div_pow, BitVec.toNat_ofNat, Nat.mod_eq_of_lt (by omega)]
    have hlow : ((d - slotBase (posSlotOf d)) &&& 15#32).toNat = (d.toNat - baseOf (slotOf d.toNat)) % 16 := by
      rw [← hr, BitVec.toNat_and]
      exact Nat.and_two_pow_sub_one_eq_mod _ 4
    rw [if_neg (mt hslot.1 h14), if_neg h14, if_pos (Nat.le_of_not_lt h14), encCoded, encCoded_bitsOf,
      btRenc_eq_encBits, hhigh, hlow, footerBits_eq, toNat_posSlotOf, bind_assoc]
    rfl

/-- The prices once a distance is counted: those with aligned bits are (R276). -/
def alignCounted (d : U32) (p : Prices) : Prices :=
  { p with alignPriceCount := p.alignPriceCount + if 14 ≤ slotOf d.toNat then 1#32 else 0#32 }

theorem countAlign_eq (d : U32) : (if 14 ≤ slotOf d.toNat then countAlign else pure ()) =
    modify fun s : State => { s with prices := alignCounted d s.prices } := by
  unfold alignCounted
  split
  · rfl
  · funext s
    simp only [BitVec.add_zero]
    rfl

theorem encDistance_eq_encCoded {len : U32} (hlen : 2 ≤ len.toNat) (d : U32) : encDistance d len =
    encCoded (distanceCode len.toNat d.toNat) >>= fun _ =>
      modify fun s => { s with prices := alignCounted d s.prices } := by
  have hslot := slotOf_lt d.isLt
  have hfour : 4#32 ≤ posSlotOf d ↔ 4 ≤ slotOf d.toNat := by
    rw [BitVec.le_def, toNat_posSlotOf]
    rfl
  rw [encDistance, btEnc_eq_encBits (by rw [toNat_posSlotOf]; exact hslot), posSlotTree_lenToPosStateOf hlen,
    toNat_posSlotOf, distanceCode_eq, encCoded_append, encCoded_bitsOf, bind_assoc, ← countAlign_eq]
  refine bind_congr fun _ => ?_
  by_cases h4 : slotOf d.toNat < 4
  · rw [if_neg (mt hfour.1 (Nat.not_le.2 h4)), if_pos h4, if_neg (by omega)]
    rfl
  · rw [if_pos (hfour.2 (Nat.le_of_not_lt h4)), if_neg h4,
      encFooter_eq_encCoded (Nat.le_of_not_lt (mt slotOf_lt_four_iff.2 h4))]

/-! ### Lengths (R93) -/

theorem lenEnc_eq_encCoded (c : LenSel) {k : U32} (hk : k.toNat ≤ 271) (ps : U32) :
    lenEnc c k ps = encCoded (bitsOf (lengthPath c ps.toNat k.toNat)) := by
  have hlt (x : U32) : k < x ↔ k.toNat < x.toNat := BitVec.lt_def
  have hsub (x : U32) (h : ¬ k.toNat < x.toNat) : (k - x).toNat = k.toNat - x.toNat :=
    BitVec.toNat_sub_of_le (BitVec.le_def.2 (Nat.le_of_not_lt h))
  rw [encCoded_bitsOf]
  unfold lenEnc lengthPath
  by_cases h8 : k.toNat < 8
  · rw [if_pos ((hlt 8#32).2 h8), if_pos h8, btEnc_eq_encBits (by omega), lowTree, lenRow_index]
    rfl
  by_cases h16 : k.toNat < 16
  · have h := hsub 8#32 h8
    rw [if_neg (mt (hlt 8#32).1 h8), if_neg h8, if_pos ((hlt 16#32).2 h16), if_pos h16,
      btEnc_eq_encBits (by rw [h]; change _ - 8 < 8; omega), h, midTree, lenRow_index]
    rfl
  · have h := hsub 16#32 h16
    rw [if_neg (mt (hlt 8#32).1 h8), if_neg h8, if_neg (mt (hlt 16#32).1 h16), if_neg h16,
      btEnc_eq_encBits (by rw [h]; change _ - 16 < 256; omega), h]
    rfl

/-! ### The end marker (R92) -/

/-- The end marker after its first two decisions. -/
theorem distanceCode_endMarker : distanceCode 2 0xFFFFFFFF =
    bitsOf (treePath (posSlotTree 0#32) 6 63) ++
      .direct 0x3FFFFFF#32 26 :: bitsOf (reversePath posAlignTree 4 15) := by
  decide

theorem encEos_eq : encEos = MonadState.get >>= fun s =>
    encBit (isMatchCell s.codec.state s.posState) true >>= fun _ => encBit (isRepCell s.codec.state) false >>= fun _ =>
      setState (stMatch s.codec.state) >>= fun _ =>
        encCoded (bitsOf (lengthPath .matchLen s.posState.toNat 0) ++ distanceCode 2 0xFFFFFFFF) := by
  have hslot : btEnc (posSlotTree 0#32) 6 63#32 = encBits (treePath (posSlotTree 0#32) 6 63) :=
    btEnc_eq_encBits (by decide)
  have halign : btRenc posAlignTree 4 15#32 = encBits (reversePath posAlignTree 4 15) := btRenc_eq_encBits _ _ _
  simp only [encEos, encCoded_append, distanceCode_endMarker, encCoded_bitsOf, encCoded, hslot, halign,
    lenEnc_eq_encCoded .matchLen (k := 0#32) (by decide)]
  rfl

theorem noError_litEnc (c : U32) (b : Byte) : Keeps NoError (litEnc c b) := by
  rw [litEnc_eq_encCoded]
  exact (encRuns_coded _).keeps

theorem noError_encEos : Keeps NoError encEos := by
  rw [encEos_eq]
  exact .read fun s => .bind NoError.composes (encRuns_bit _ _).keeps fun _ =>
    .bind NoError.composes (encRuns_bit _ _).keeps fun _ =>
      .bind NoError.composes (.modify fun _ => ⟨rfl, rfl⟩) fun _ => (encRuns_coded _).keeps

/-! ### O44 -/

/-- A change of the codec in the middle of a list of decisions may be made after it. -/
theorem modifyCodec_bind_encCoded {h : Codec → Codec} {ds : List Coded} (hrun : encCoded ds s = .ok () t) :
    (modifyCodec h >>= fun _ => encCoded ds) s = .ok () { t with codec := h s.codec } := by
  rw [← (encCoded_kept hrun).1]
  exact (commutes_encCoded (c := h) (p := id) (r := id) ds).of_ok hrun

theorem encEos_ok (h : encCoded (matchPacket s.codec.state.toNat s.posState.toNat 2 0xFFFFFFFF) s = .ok () t) :
    encEos s = .ok () { t with codec := { t.codec with state := stMatch s.codec.state } } := by
  have hkept := (encCoded_kept h).1
  obtain ⟨u, hmatch, hrest⟩ := encCoded_bit_cons.1 h
  obtain ⟨v, hrep, hrest⟩ := encCoded_bit_cons.1 hrest
  rw [← isMatchCell_eq] at hmatch
  rw [encEos_eq, get_bind_run, bind_ok hmatch, isRepCell_eq, bind_ok hrep]
  refine (modifyCodec_bind_encCoded hrest).trans ?_
  rw [← (encCoded_kept hrest).1]

theorem encLit_ok (h : encCoded (litPacketOf s (currentByte s)) s = .ok () t) : encLit s =
    .ok () { t with codec := { t.codec with prevByte := currentByte s, state := stChar s.codec.state } } := by
  have hrun := bind_ok (f := fun _ => modifyCodec fun c =>
    { c with prevByte := currentByte s, state := stChar c.state }) h
  rw [encLit, get_bind_run, encLitByte_run, hrun, ← (encCoded_kept h).1]
  rfl

theorem encDistance_ok {d len : U32} (hlen : 2 ≤ len.toNat)
    (h : encCoded (distanceCode len.toNat d.toNat) s = .ok () t) :
    encDistance d len s = .ok () { t with prices := alignCounted d t.prices } := by
  rw [encDistance_eq_encCoded hlen, bind_ok h]
  rfl

theorem distanceOperands_wf_iff (len : U16) (d : U32) : (Instr.codecEncDistance d len).wf = true ↔
    2 ≤ len.toNat ∧ len.toNat ≤ 273 ∧ d.toNat < 2 ^ 31 := by
  rw [Instr.wf, Bool.and_eq_true, lenWf_iff, decide_eq_true_iff, and_assoc]
  rfl

/-- Settles O44: each operation is its list of decisions and then the registers. -/
theorem encoderLiteralEosAndDistance : Obligations.EncoderLiteralEosAndDistance := by
  refine ⟨fun s => codesThen_of_ok fun t ht => encLit_ok ht, fun s => codesThen_of_ok fun t ht => encEos_ok ht,
    fun d len s hwf => codesThen_of_ok fun t ht => ?_⟩
  have hlen : 2 ≤ (len.setWidth 32).toNat := by
    rw [toNat_lenWord]
    exact ((distanceOperands_wf_iff len d).1 hwf).1
  exact encDistance_ok hlen (by rwa [toNat_lenWord])

end Sys2Proof
end

section
/-! ENC_MATCH and ENC_REP (46_codec R273, R274): their decisions, and the count of the length. -/

namespace Sys2Proof

open Machine

variable {s t u : State} {c : LenSel} {ds : List Coded}

/-! ### What coding keeps of the cells -/

/-- PRICE_REFRESH's parameters stay, and of the cells at most those of `P` change. -/
structure CellsKept (P : CellRef → Prop) (s t : State) : Prop where
  params : t.params = s.params
  freeCount : t.freeCount = s.freeCount
  canonical : Store.wf probInit s.probs = true → Store.wf probInit t.probs = true
  cells : Store.wf probInit s.probs = true → ∀ x, ¬ P x → t.prob x = s.prob x

section

variable {P : CellRef → Prop}

theorem CellsKept.of_probs (hparams : t.params = s.params) (hfree : t.freeCount = s.freeCount)
    (hprobs : t.probs = s.probs) : CellsKept P s t :=
  ⟨hparams, hfree, fun h => hprobs ▸ h, fun _ x _ => by rw [State.prob, hprobs, State.prob]⟩

theorem CellsKept.composes : Composes (CellsKept P) where
  refl _ := .of_probs rfl rfl rfl
  trans h k :=
    ⟨k.params.trans h.params, k.freeCount.trans h.freeCount, fun hs => k.canonical (h.canonical hs),
      fun hs x hx => (k.cells (h.canonical hs) x hx).trans (h.cells hs x hx)⟩

theorem cellsKept_encNormalise : Keeps (CellsKept P) encNormalise :=
  keeps_encNormalise_of CellsKept.composes (fun _ _ => .of_probs rfl rfl rfl) fun _ _ => .of_probs rfl rfl rfl

theorem cellsKept_encBit {x : CellRef} (hx : P x) (b : Bool) : Keeps (CellsKept P) (encBit x b) :=
  .bind CellsKept.composes
    (.modify fun _ => ⟨rfl, rfl, Store.wf_set,
      fun hs y hy => (prob_setProb hs).trans (if_neg fun h : y = x => hy (h ▸ hx))⟩)
    fun _ => cellsKept_encNormalise

theorem cellsKept_encDirect (v : U32) : ∀ n, Keeps (CellsKept P) (encDirect v n)
  | 0 => .pure CellsKept.composes ()
  | n + 1 => .bind CellsKept.composes
      (.bind CellsKept.composes (.modify fun _ => .of_probs rfl rfl rfl) fun _ => cellsKept_encNormalise)
      fun _ => cellsKept_encDirect v n

theorem cellsKept_encCoded : ∀ ds, (∀ x ∈ codedCells ds, P x) → Keeps (CellsKept P) (encCoded ds)
  | [], _ => .pure CellsKept.composes ()
  | .bit _ b :: ds, h => .bind CellsKept.composes (cellsKept_encBit (h _ (List.mem_cons_self ..)) b) fun _ =>
      cellsKept_encCoded ds fun x hx => h x (List.mem_cons_of_mem _ hx)
  | .direct v n :: ds, h => .bind CellsKept.composes (cellsKept_encDirect v n) fun _ => cellsKept_encCoded ds h

theorem encCoded_canonical (hrun : encCoded ds s = .ok () t) (hs : Store.wf probInit s.probs = true) :
    Store.wf probInit t.probs = true :=
  have hkept : CellsKept (fun _ => True) s t := Keeps.of_ok (cellsKept_encCoded ds fun _ _ => trivial) hrun
  hkept.canonical hs

end

/-! ### Whose cells they are -/

theorem codedCells_bitsOf : ∀ ds : List (CellRef × Bool), codedCells (bitsOf ds) = ds.map Prod.fst
  | [] => rfl
  | d :: ds => congrArg (d.1 :: ·) (codedCells_bitsOf ds)

theorem codedCells_append {es : List Coded} :
    ∀ ds : List Coded, codedCells (ds ++ es) = codedCells ds ++ codedCells es
  | [] => rfl
  | .bit c _ :: ds => congrArg (c :: ·) (codedCells_append ds)
  | .direct _ _ :: ds => codedCells_append ds

theorem arr_of_mem_treePath {r x : CellRef} {n v : Nat} (h : x ∈ (treePath r n v).map Prod.fst) : x.arr = r.arr := by
  obtain ⟨_, hd, rfl⟩ := List.mem_map.1 h
  obtain ⟨_, -, rfl⟩ := List.mem_map.1 hd
  rfl

theorem arr_of_mem_reversePath {r x : CellRef} {n v : Nat} (h : x ∈ (reversePath r n v).map Prod.fst) :
    x.arr = r.arr := by
  obtain ⟨_, hd, rfl⟩ := List.mem_map.1 h
  obtain ⟨_, -, rfl⟩ := List.mem_map.1 hd
  rfl

theorem distanceCell_of_mem_footer {slot r : Nat} {x : CellRef} (h : x ∈ codedCells (footerCode slot r)) :
    DistanceCell x := by
  unfold footerCode at h
  split at h
  · rw [codedCells_bitsOf] at h
    exact .inr (.inl (arr_of_mem_reversePath h))
  · rw [codedCells, codedCells_bitsOf] at h
    exact .inr (.inr (arr_of_mem_reversePath h))

theorem distanceCell_of_mem {len d : Nat} {x : CellRef} (h : x ∈ codedCells (distanceCode len d)) :
    DistanceCell x := by
  rw [distanceCode_eq, codedCells_append, codedCells_bitsOf, List.mem_append] at h
  rcases h with h | h
  · exact .inl (arr_of_mem_treePath h)
  · split at h
    · exact absurd h List.not_mem_nil
    · exact distanceCell_of_mem_footer h

theorem lenCell_of_mem {ps k : Nat} {d : CellRef × Bool} (h : d ∈ lengthPath c ps k) : LenCell c d.1 := by
  have htree {r : CellRef} {n v : Nat} (h : d ∈ treePath r n v) : d.1.arr = r.arr :=
    arr_of_mem_treePath (List.mem_map_of_mem h)
  unfold lengthPath at h
  split at h
  · rcases List.mem_cons.1 h with rfl | h
    · exact .inl rfl
    · exact .inr (.inl (htree h))
  · split at h <;> rcases List.mem_cons.1 h with rfl | h
    · exact .inl rfl
    · rcases List.mem_cons.1 h with rfl | h
      · exact .inl rfl
      · exact .inr (.inr (.inl (htree h)))
    · exact .inl rfl
    · rcases List.mem_cons.1 h with rfl | h
      · exact .inl rfl
      · exact .inr (.inr (.inr (htree h)))

theorem not_distanceCell_of_lenCell {x : CellRef} (h : LenCell c x) : ¬ DistanceCell x := by
  rintro (hx | hx | hx) <;> simp [LenCell, hx] at h

/-! ### Counting a length -/

/-- A length coder's table is canonical and inside its array (10_state R42). -/
structure LenTableOk (p : LenPrices) : Prop where
  prices : Store.wf 0#32 p.prices = true
  counters : Store.wf 0#32 p.counters = true
  size : p.tableSize ≤ 272#32

theorem lenTableOk (htables : tablesWf s = true) (hsizes : sizesBounded s = true) :
    ∀ c, LenTableOk (s.prices.len c)
  | .matchLen =>
    have ⟨_, _, _, _, ⟨hprices, hcounters⟩, _⟩ := (tablesWf_iff s).1 htables
    ⟨hprices, hcounters, ((sizesBounded_iff s).1 hsizes).2.1⟩
  | .repLen =>
    have ⟨_, _, _, _, _, hprices, hcounters⟩ := (tablesWf_iff s).1 htables
    ⟨hprices, hcounters, ((sizesBounded_iff s).1 hsizes).2.2.1⟩

theorem Counted.congr {ps : Nat} {old v : LenPrices} (h : Counted c ps old s v) (hparams : t.params = s.params)
    (hfree : t.freeCount = s.freeCount) (hcells : ∀ x, LenCell c x → t.prob x = s.prob x) :
    Counted c ps old t v := by
  have hdue (n : Nat) (b : Bool) : refreshDue t n b = refreshDue s n b := by
    rw [refreshDue, hparams, hfree, refreshDue]
  have hprice (j : Nat) : pathPrice t (lengthPath c ps j) = pathPrice s (lengthPath c ps j) :=
    congrArg List.sum (List.map_congr_left fun d hd => by rw [hcells d.1 (lenCell_of_mem hd)])
  refine ⟨h.size, fun q => ?_, fun q j hj => ?_⟩
  · rw [hdue]
    exact h.counters q
  · rw [hdue, hprice]
    exact h.prices q j hj

/-- A length coded is counted in the table that stood there before; the codec may have changed (`h`). -/
theorem lenEncCounted_ok {k : U32} (hk : k.toNat ≤ 271) {ps : U32} (h : Codec → Codec)
    (hok : LenTableOk (s.prices.len c)) (hrun : encCoded (bitsOf (lengthPath c ps.toNat k.toNat)) s = .ok () t) :
    ∃ v, lenEncCounted c k ps (retouch h id id s) = .ok () (retouch h (fun _ => s.prices.setLen c v) id t) ∧
      Counted c ps.toNat (s.prices.len c) t v := by
  rw [← (encCoded_kept hrun).2] at hok ⊢
  obtain ⟨v, hcount, hcounted⟩ := lenCount_counts (s := retouch h id id t) ps hok.prices hok.counters hok.size
  refine ⟨v, ?_, hcounted.congr rfl rfl fun _ _ => rfl⟩
  rw [lenEncCounted, lenEnc_eq_encCoded c hk, bind_ok ((commutes_encCoded _).of_ok hrun), modify_run, hcount]
  rfl

/-! ### ENC_MATCH -/

theorem encBit_kept {x : CellRef} {b : Bool} (h : encBit x b s = .ok () t) :
    t.codec = s.codec ∧ t.prices = s.prices := kept_of_commutes (fun _ _ _ => commutes_encBit x b) h

theorem encBit_canonical {x : CellRef} {b : Bool} (h : encBit x b s = .ok () t)
    (hs : Store.wf probInit s.probs = true) : Store.wf probInit t.probs = true :=
  encCoded_canonical (ds := [.bit x b]) (encCoded_bit_cons.2 ⟨t, h, rfl⟩) hs

/-- The prices once a match at `d` is counted, its length in the table `v` (R273, R276). -/
def matchCounted (d : U32) (v : LenPrices) (p : Prices) : Prices :=
  { p with
    matchLen := v
    matchPriceCount := p.matchPriceCount + 1#32
    alignPriceCount := p.alignPriceCount + if 14 ≤ slotOf d.toNat then 1#32 else 0#32 }

/-- The codec registers in state `st`. -/
def withState (st : U4) (c : Codec) : Codec := { c with state := st }

/-- The codec registers after a match at `d`. -/
def matchMoved (d : U32) (c : Codec) : Codec := { c with state := stMatch c.state, reps := repsPush c.reps d }

theorem lenSymbol_toNat {len : U32} (h : 2 ≤ len.toNat) : (len - 2#32).toNat = len.toNat - 2 :=
  BitVec.toNat_sub_of_le h

/-- After the two decisions that say MATCH. -/
theorem encMatchTail_ok {len d ps : U32} (h2 : 2 ≤ len.toNat) (h273 : len.toNat ≤ 273)
    (hprobs : Store.wf probInit s.probs = true) (hok : LenTableOk s.prices.matchLen)
    (hrun : encCoded (bitsOf (lengthPath .matchLen ps.toNat (len.toNat - 2)) ++ distanceCode len.toNat d.toNat) s =
      .ok () t) :
    ∃ v, (setState (stMatch s.codec.state) >>= fun _ => lenEncCounted .matchLen (len - 2#32) ps >>= fun _ =>
        encDistance d len >>= fun _ => setRepRegs (repsPush s.codec.reps d) >>= fun _ => countMatch) s =
        .ok () { t with codec := matchMoved d s.codec, prices := matchCounted d v s.prices } ∧
      Counted .matchLen ps.toNat s.prices.matchLen t v := by
  obtain ⟨w, hlen, hdist⟩ := encCoded_append_ok.1 hrun
  have hcodec := (encCoded_kept hrun).1
  rw [← lenSymbol_toNat h2] at hlen
  obtain ⟨v, hcount, hcounted⟩ := lenEncCounted_ok (c := .matchLen) (by rw [lenSymbol_toNat h2]; omega)
    (withState (stMatch s.codec.state)) hok hlen
  have hdist' := encDistance_ok h2 ((commutes_encCoded (c := withState (stMatch s.codec.state))
    (p := fun _ => s.prices.setLen .matchLen v) (r := id) _).of_ok hdist)
  have hkept : CellsKept DistanceCell w t := Keeps.of_ok (cellsKept_encCoded _ fun _ => distanceCell_of_mem) hdist
  refine ⟨v, ?_, hcounted.congr hkept.params hkept.freeCount fun x hx =>
    hkept.cells (encCoded_canonical hlen hprobs) x (not_distanceCell_of_lenCell hx)⟩
  rw [setState, modifyCodec, modify_bind_run]
  refine Eq.trans (bind_ok hcount) ?_
  refine (bind_ok hdist').trans ?_
  rw [matchMoved, ← hcodec]
  rfl

theorem encMatch_ok {len d : U32} (h2 : 2 ≤ len.toNat) (h273 : len.toNat ≤ 273)
    (hprobs : Store.wf probInit s.probs = true) (hok : LenTableOk s.prices.matchLen)
    (hrun : encCoded (matchPacket s.codec.state.toNat s.posState.toNat len.toNat d.toNat) s = .ok () t) :
    ∃ v, encMatch len d s = .ok () { t with codec := matchMoved d s.codec, prices := matchCounted d v s.prices } ∧
      Counted .matchLen s.posState.toNat s.prices.matchLen t v := by
  obtain ⟨u, hmatch, hrest⟩ := encCoded_bit_cons.1 hrun
  obtain ⟨w, hrep, hrest⟩ := encCoded_bit_cons.1 hrest
  obtain ⟨hcodec, hprices⟩ := encBit_kept hmatch
  obtain ⟨hcodec', hprices'⟩ := encBit_kept hrep
  rw [hcodec] at hcodec'
  rw [hprices] at hprices'
  rw [← hprices'] at hok ⊢
  obtain ⟨v, htail, hcounted⟩ :=
    encMatchTail_ok h2 h273 (encBit_canonical hrep (encBit_canonical hmatch hprobs)) hok hrest
  rw [hcodec'] at htail
  rw [← isMatchCell_eq] at hmatch
  refine ⟨v, ?_, hcounted⟩
  rw [encMatch, get_bind_run, bind_ok hmatch, isRepCell_eq, bind_ok hrep, htail]

/-! ### ENC_REP -/

theorem encRepChoice_eq_encCoded (i : Nat) (short : Bool) (st : U4) (ps : U32) :
    encRepChoice i short st ps = encCoded (bitsOf (repNaming st.toNat ps.toNat i short)) := by
  rw [encCoded_bitsOf, encRepChoice, isRepG0Cell_eq, isRepG1Cell_eq, isRepG2Cell_eq, isRep0LongCell_eq]
  match i with
  | 0 | 1 | 2 | _ + 3 => simp [repNaming, encBits]

/-- The two decisions that say a rep, and the ones that name it. -/
def repHead (st ps i : Nat) (short : Bool) : List Coded :=
  .bit (cellOf .isMatch (16 * st + ps)) true :: .bit (cellOf .isRep st) true :: bitsOf (repNaming st ps i short)

theorem encRep_run (i : Nat) (len : U32) (s : State) : encRep i len s =
    (encCoded (repHead s.codec.state.toNat s.posState.toNat i (decide (len = 1#32))) >>= fun _ =>
      encRepLength len s.codec.state s.posState >>= fun _ => setRepRegs (repsPromote s.codec.reps i)) s := by
  rw [encRep, get_bind_run, encRepChoice_eq_encCoded, isMatchCell_eq, isRepCell_eq]
  simp only [repHead, encCoded, bind_assoc]

theorem encRep_short_ok (hrun : encCoded (repPacket s.codec.state.toNat s.posState.toNat 0 1) s = .ok () t) :
    encRep 0 1#32 s = .ok () { t with codec := { t.codec with state := stShortrep s.codec.state } } := by
  have hhead : repPacket s.codec.state.toNat s.posState.toNat 0 1 =
      repHead s.codec.state.toNat s.posState.toNat 0 true := by
    rw [repPacket, if_pos rfl, List.append_nil]
    rfl
  rw [hhead] at hrun
  refine (encRep_run 0 1#32 s).trans ((bind_ok hrun).trans ?_)
  rw [← (encCoded_kept hrun).1]
  rfl

/-- The codec registers after a long rep. -/
def repMoved (i : Nat) (c : Codec) : Codec := { c with state := stRep c.state, reps := repsPromote c.reps i }

theorem encRep_long_ok {i : Nat} {len : U32} (h2 : 2 ≤ len.toNat) (h273 : len.toNat ≤ 273)
    (hok : LenTableOk s.prices.repLen)
    (hrun : encCoded (repPacket s.codec.state.toNat s.posState.toNat i len.toNat) s = .ok () t) :
    ∃ v, encRep i len s = .ok () { t with codec := repMoved i s.codec, prices := { s.prices with repLen := v } } ∧
      Counted .repLen s.posState.toNat s.prices.repLen t v := by
  have hlong : ¬ len.toNat = 1 := by omega
  have hlong' : ¬ len = 1#32 := fun h => hlong (by rw [h]; rfl)
  have hpacket : repPacket s.codec.state.toNat s.posState.toNat i len.toNat =
      repHead s.codec.state.toNat s.posState.toNat i (decide (len = 1#32)) ++
        bitsOf (lengthPath .repLen s.posState.toNat (len.toNat - 2)) := by
    rw [repPacket, if_neg hlong, decide_eq_false hlong, decide_eq_false hlong']
    rfl
  rw [hpacket] at hrun
  have hcodec := (encCoded_kept hrun).1
  obtain ⟨u, hhead, hlen⟩ := encCoded_append_ok.1 hrun
  have hprices := (encCoded_kept hhead).2
  rw [← lenSymbol_toNat h2] at hlen
  rw [← hprices] at hok ⊢
  obtain ⟨v, hcount, hcounted⟩ := lenEncCounted_ok (c := .repLen) (by rw [lenSymbol_toNat h2]; omega) id hok hlen
  refine ⟨v, ?_, hcounted⟩
  rw [encRep_run, bind_ok hhead, encRepLength, if_neg hlong', bind_assoc]
  refine Eq.trans (bind_ok hcount) ?_
  rw [repMoved, ← hcodec]
  rfl

/-! ### O45 -/

theorem codecEncRep_wf_iff (i : Byte) (len : U16) : (Instr.codecEncRep i len).wf = true ↔
    i.toNat ≤ 3 ∧ 1 ≤ len.toNat ∧ len.toNat ≤ 273 ∧ (len.toNat = 1 → i.toNat = 0) := decide_eq_true_iff

/-- Settles O45: each operation is its list of decisions, with the length counted in the middle or at the end. -/
theorem encoderMatchesAndReps : Obligations.EncoderMatchesAndReps := by
  intro s hprobs htables hsizes st ps
  have hok := lenTableOk htables hsizes
  refine ⟨?_, codesThen_of_ok fun t ht => encRep_short_ok ht, ?_⟩
  · intro len d hwf code hroom
    obtain ⟨h2, h273, -⟩ := (distanceOperands_wf_iff len d).1 hwf
    obtain ⟨t, ht, hne⟩ := encCoded_runs hroom
    have hrun : encCoded (matchPacket st.toNat ps (len.setWidth 32).toNat d.toNat) s = .ok () t := by
      rwa [toNat_lenWord]
    obtain ⟨v, hmatch, hcounted⟩ :=
      encMatch_ok (by rwa [toNat_lenWord]) (by rwa [toNat_lenWord]) hprobs (hok .matchLen) hrun
    exact ⟨t, v, ht, hne, hcounted, completeUnit_ok hmatch⟩
  · intro i len hwf h2 code hroom
    obtain ⟨-, -, h273, -⟩ := (codecEncRep_wf_iff i len).1 hwf
    obtain ⟨t, ht, hne⟩ := encCoded_runs hroom
    have hrun : encCoded (repPacket st.toNat ps i.toNat (len.setWidth 32).toNat) s = .ok () t := by
      rwa [toNat_lenWord]
    obtain ⟨v, hrep, hcounted⟩ :=
      encRep_long_ok (by rwa [toNat_lenWord]) (by rwa [toNat_lenWord]) (hok .repLen) hrun
    exact ⟨t, v, ht, hne, hcounted, completeUnit_ok hrep⟩

end Sys2Proof
end

section
/-! The turns of ENC_RUN (46_codec R286, R287): the first byte, the loop's test, the end marker and the flush. -/

namespace Sys2Proof

open Machine

variable {s t u : State}

/-! ### What `ret` was does not matter -/

theorem completeUnit_ret {m : Eng Unit} (r : Ret) (hm : Commutes (retouch id id fun _ => r) m) (s : State) :
    completeUnit m { s with ret := r } = completeUnit m s := by
  cases hrun : m s with
  | ok _ t => exact (completeUnit_ok (hm.of_ok hrun)).trans (completeUnit_ok hrun).symm
  | error e t => exact (completeUnit_error (hm.of_error hrun)).trans (completeUnit_error hrun).symm

/-- An instruction that has raised no error has run to its end. -/
theorem ok_of_completeUnit {m : Eng Unit} (h : completeUnit m s = .next t) (ht : t.host.seq ≠ .error) :
    ∃ u, m s = .ok () u ∧ t = { u with ret := .none } := by
  cases hrun : m s with
  | ok _ u =>
    rw [completeUnit_ok hrun] at h
    cases h
    exact ⟨u, rfl, rfl⟩
  | error e u =>
    rw [completeUnit_error hrun] at h
    cases h
    exact absurd rfl ht

theorem commutes_litEnc {c : Codec → Codec} {p : Prices → Prices} {r : Ret → Ret} (block : U32) (b : Byte) :
    Commutes (retouch c p r) (litEnc block b) := by
  rw [litEnc_eq_encCoded]
  exact commutes_encCoded _

/-! ### The first byte (R286) -/

/-- The state of the first byte's turn once the match finder has moved to it. -/
def firstRead (s : State) : State := s.setPm (readMatchDistances s s.pm).2

/-- R286's moves of the registers after the literal `r`. -/
def firstByteDone (r : Byte) : Eng Unit :=
  modifyCodec (fun c => { c with prevByte := r }) >>= fun _ => encAdvance 1#32 >>= fun _ => goTo .encLoop

theorem litSelect_first {p : Byte} (hlc : s.codec.lc = 3#4) (hlp : s.codec.lp = 0#3) :
    litSelect s 0#64 p = BitVec.ofNat 32 (p.toNat / 32) := by
  have hshift : litSelect s 0#64 p = 0#32 <<< 3 + (p.setWidth 32 >>> 5) := by
    rw [litSelect, hlc, hlp]
    rfl
  rw [hshift]
  bv_omega

theorem toNat_litSelect_first {p : Byte} (hlc : s.codec.lc = 3#4) (hlp : s.codec.lp = 0#3) :
    (litSelect s 0#64 p).toNat = p.toNat / 32 := by
  have := p.isLt
  rw [litSelect_first hlc hlp, BitVec.toNat_ofNat]
  omega

theorem isMatchCell_first (st : U4) : isMatchCell st 0#32 = cellOf .isMatch (16 * st.toNat) := isMatchCell_eq st 0#32

/-- R286's first byte after its isMatch decision. -/
def firstLiteral (s : State) : Eng Unit :=
  litEnc (litSelect s 0#64 s.codec.prevByte) (currentByte (firstRead s)) >>= fun _ =>
    firstByteDone (currentByte (firstRead s))

/-- R286's first byte once it has been read; `s` is the state before. -/
def firstByteCode (s : State) : Eng Unit :=
  encBit (isMatchCell s.codec.state 0#32) false >>= fun _ => setState (stChar s.codec.state) >>= fun _ => firstLiteral s

theorem firstByteCode_run {v : State} (h : encBit (isMatchCell s.codec.state 0#32) false t = .ok () v) :
    firstByteCode s t = firstLiteral s { v with codec := withState (stChar s.codec.state) v.codec } := by
  rw [firstByteCode, bind_ok h]
  rfl

theorem engineTurn_encFirst (hseq : s.host.seq = .encFirst) (havail : mfAvail s.mf ≠ 0#32) :
    engineTurn s = completeUnit (firstByteCode s) (firstRead s) := by
  have hturn : engineTurn s = completeUnit (encFirstByte >>= fun _ => goTo .encLoop) s := by
    simp only [engineTurn, hseq]
    exact if_neg havail
  rw [hturn]
  simp only [encFirstByte, bind_assoc]
  rfl

theorem firstByteDone_run (r : Byte) {offset : U32} (hnow : s.codec.nowPos = 0#64)
    (hoffset : s.parser.additionalOffset - 1#32 = offset) : firstByteDone r s = .ok () { s with
      codec := { s.codec with prevByte := r, nowPos := 1#64 }
      parser := { s.parser with additionalOffset := offset }
      host := { s.host with inPos := 1#32, seq := .encLoop } } := by
  have hrun : firstByteDone r s = .ok () { s with
    codec := { s.codec with prevByte := r, nowPos := s.codec.nowPos + 1#64 }
    parser := { s.parser with additionalOffset := s.parser.additionalOffset - 1#32 }
    host := { s.host with inPos := (s.codec.nowPos + 1#64).setWidth 32, seq := .encLoop } } := rfl
  rw [hrun, hnow, hoffset]
  rfl

/-- The byte 0 as a literal of block `prevByte / 32` in state 0's mode (R286). -/
def firstPacket (s : State) : List Coded :=
  litPacket 0 (16 * s.codec.state.toNat) (s.codec.prevByte.toNat / 32) 0#8 (currentByte (firstRead s))

theorem firstByte_ok (hlc : s.codec.lc = 3#4) (hlp : s.codec.lp = 0#3) (hnow : s.codec.nowPos = 0#64)
    (hrun : encCoded (firstPacket s) (firstRead s) = .ok () t) :
    firstByteCode s (firstRead s) = .ok () { t with
      codec := { t.codec with
        state := stChar s.codec.state, prevByte := currentByte (firstRead s), nowPos := 1#64 }
      parser := { t.parser with additionalOffset := s.parser.additionalOffset }
      host := { t.host with inPos := 1#32, seq := .encLoop } } := by
  have hcodec : t.codec = s.codec := (encCoded_kept hrun).1
  have hoffset : t.parser.additionalOffset - 1#32 = s.parser.additionalOffset := by
    rw [encCoded_parser hrun]
    exact BitVec.add_sub_cancel _ _
  obtain ⟨w, hbit, hlit⟩ := encCoded_bit_cons.1 hrun
  rw [Nat.mul_zero, Nat.zero_add, ← isMatchCell_first] at hbit
  rw [if_pos (by decide), ← toNat_litSelect_first hlc hlp, ← litEnc_eq_encCoded] at hlit
  have hlit' := (commutes_litEnc (c := withState (stChar s.codec.state)) (p := id) (r := id) _ _).of_ok hlit
  have hnow' : (retouch (withState (stChar s.codec.state)) id id t).codec.nowPos = 0#64 := by
    rw [← hnow, ← hcodec]
    rfl
  exact (firstByteCode_run hbit).trans ((bind_ok hlit').trans (firstByteDone_run _ hnow' hoffset))

/-- Where the isMatch decision or the literal raises an error, the turn ends there. -/
theorem firstByte_error (hseq : s.host.seq = .encFirst) (havail : mfAvail s.mf ≠ 0#32) (hlc : s.codec.lc = 3#4)
    (hlp : s.codec.lp = 0#3) {w : State}
    (hw : completeUnit (encBit (isMatchCell s.codec.state 0#32) false) (firstRead s) = .next w) :
    (w.host.seq = .error → engineTurn s = .next w) ∧
    (w.host.seq ≠ .error → ∀ t,
      exec (.litEnc (BitVec.ofNat 16 (s.codec.prevByte.toNat / 32)) (currentByte (firstRead s)))
        { w with codec := { w.codec with state := stChar s.codec.state } } = .next t →
      t.host.seq = .error → engineTurn s = .next t) := by
  have hstart : (firstRead s).host.seq ≠ .error := by
    rw [show (firstRead s).host.seq = s.host.seq from rfl, hseq]
    decide
  rw [engineTurn_encFirst hseq havail]
  refine ⟨section_error (runs_encBit _ _).keeps hstart hw, fun hok t ht herr => ?_⟩
  obtain ⟨v, hbit, rfl⟩ := ok_of_completeUnit hw hok
  have hblock : (BitVec.ofNat 16 (s.codec.prevByte.toNat / 32)).setWidth 32 = litSelect s 0#64 s.codec.prevByte := by
    rw [litSelect_first hlc hlp]
    bv_omega
  have hlit : completeUnit (litEnc (litSelect s 0#64 s.codec.prevByte) (currentByte (firstRead s)))
      { v with codec := withState (stChar s.codec.state) v.codec } = .next t := by
    rw [← hblock, ← completeUnit_ret .none (commutes_litEnc _ _)]
    exact ht
  rw [completeUnit_congr (firstByteCode_run hbit)]
  exact section_error (noError_litEnc _ _) hok hlit herr

/-! ### O8 -/

theorem engineTurn_encLoop (h : s.host.seq = .encLoop) : engineTurn s = turnEncLoop s := by
  simp only [engineTurn, h]

theorem engineTurn_encFinish (h : s.host.seq = .encFinish) : engineTurn s = turnEncFinish s := by
  simp only [engineTurn, h]

theorem engineTurn_encFlush (h : s.host.seq = .encFlush) : engineTurn s = turnEncFlush s := by
  simp only [engineTurn, h]

theorem engineTurn_endMarker (h : s.host.seq = .encFinish) (hmark : s.encCfg.writeEndMarker = true) :
    engineTurn s = completeUnit (encEos >>= fun _ => goTo .encFlush) s :=
  (engineTurn_encFinish h).trans (if_pos hmark)

theorem endMarker_bits (st ps : Nat) : codedBits (matchPacket st ps 2 0xFFFFFFFF) = 42 := rfl

/-- Settles O8: each turn is the section of R286's pseudocode that stands at its place. -/
theorem encodeRunLoop : Obligations.EncodeRunLoop := by
  intro s
  refine ⟨fun hseq havail => ?_, fun hseq havail hlc hlp hnow => ?_, fun hseq hend => ?_, fun hseq hmore => ?_,
    fun hseq hmark => ?_, fun hseq hmark hroom => ?_, fun hseq hmark t ht herr => ?_, fun hseq t ht herr => ?_,
    fun hseq hroom => ?_⟩
  · simp only [engineTurn, hseq]
    exact if_pos havail
  · refine ⟨currentByte (firstRead s), _, rfl, rfl, ?_, fun w hw => ?_⟩
    · rw [engineTurn_encFirst hseq havail]
      exact codesThen_of_ok (s := firstRead s) fun t ht => firstByte_ok hlc hlp hnow ht
    · rw [← isMatchCell_first] at hw
      exact firstByte_error hseq havail hlc hlp
        ((completeUnit_ret _ (commutes_encBit _ _) (firstRead s)).symm.trans hw)
  · rw [engineTurn_encLoop hseq]
    exact if_pos hend
  · rw [engineTurn_encLoop hseq]
    exact if_neg hmore
  · rw [engineTurn_encFinish hseq]
    exact if_neg (by rw [hmark]; exact Bool.false_ne_true)
  · obtain ⟨t, ht, hne⟩ := encCoded_runs (ds := matchPacket s.codec.state.toNat s.posState.toNat 2 0xFFFFFFFF)
      (hroom.mono (by rw [endMarker_bits]; decide))
    have heos := encEos_ok ht
    exact ⟨_, completeUnit_ok heos, hne, (engineTurn_endMarker hseq hmark).trans (section_ok heos)⟩
  · rw [engineTurn_endMarker hseq hmark]
    exact section_error noError_encEos (by rw [hseq]; decide) ht herr
  · rw [engineTurn_encFlush hseq]
    exact section_error (runs_shiftLowTimes 5).keeps (by rw [hseq]; decide) ht herr
  · obtain ⟨hrun, -, hmoved, -⟩ := moved_iterate (n := 5) (k := 0) hroom
    rw [engineTurn_encFlush hseq]
    exact ⟨_, completeUnit_ok hrun, hmoved.noError, section_ok hrun⟩

end Sys2Proof
end

section
/-! ENC_BLOCK (46_codec R277): the packet of the token chosen, the positions, and the refresh of the prices. -/

namespace Sys2Proof

open Machine

variable {s t u : State}

/-! ### The prices do not depend on `ret` -/

/-- The state with another `ret`. -/
def withRet (r : Ret) (s : State) : State := { s with ret := r }

section

variable (r : Ret) (s : State)

theorem btPriceFrom_withRet (x : CellRef) (sym : U32) :
    ∀ n m, btPriceFrom (withRet r s) x sym n m = btPriceFrom s x sym n m
  | 0, _ => rfl
  | n + 1, m => congrArg (s.cellPrice (treeCell x m) (sym.getLsbD n) + ·) (btPriceFrom_withRet x sym n _)

theorem btRpriceFrom_withRet (x : CellRef) :
    ∀ n sym m, btRpriceFrom (withRet r s) x n sym m = btRpriceFrom s x n sym m
  | 0, _, _ => rfl
  | n + 1, sym, m => congrArg (s.cellPrice (treeCell x m) (sym.getLsbD 0) + ·) (btRpriceFrom_withRet x n _ _)

theorem btPrice_withRet (x : CellRef) (n : Nat) (sym : U32) : btPrice (withRet r s) x n sym = btPrice s x n sym :=
  btPriceFrom_withRet r s x sym n _

theorem btRprice_withRet (x : CellRef) (n : Nat) (sym : U32) :
    btRprice (withRet r s) x n sym = btRprice s x n sym := btRpriceFrom_withRet r s x n sym _

theorem posSlotPriceOf_withRet (l : Nat) : posSlotPriceOf (withRet r s) l = posSlotPriceOf s l := by
  funext i
  simp only [posSlotPriceOf, btPrice_withRet]

theorem distancePriceOf_withRet (slots : Store U32) (l : Nat) :
    distancePriceOf (withRet r s) slots l = distancePriceOf s slots l := by
  funext i
  simp only [distancePriceOf, footerPrice, btRprice_withRet]

theorem fillSlotRows_withRet (size : Nat) (t : Store U32) :
    ∀ n, fillSlotRows (withRet r s) size n t = fillSlotRows s size n t
  | 0 => rfl
  | n + 1 => by rw [fillSlotRows, fillSlotRows, fillSlotRows_withRet size t n, posSlotPriceOf_withRet]

theorem fillDistanceRows_withRet (slots t : Store U32) :
    ∀ n, fillDistanceRows (withRet r s) slots n t = fillDistanceRows s slots n t
  | 0 => rfl
  | n + 1 => by rw [fillDistanceRows, fillDistanceRows, fillDistanceRows_withRet slots t n, distancePriceOf_withRet]

theorem fillDist_withRet : fillDist (withRet r s) = withRet r (fillDist s) := by
  simp only [fillDist, fillSlotRows_withRet, fillDistanceRows_withRet]
  rfl

theorem fillAlign_withRet : fillAlign (withRet r s) = withRet r (fillAlign s) := by
  simp only [fillAlign, btRprice_withRet]
  rfl

theorem lenSymbolPrice_withRet (c : LenSel) (ps k : U32) :
    lenSymbolPrice (withRet r s) c ps k = lenSymbolPrice s c ps k := by
  simp only [lenSymbolPrice, btPrice_withRet]
  rfl

theorem fillLenPrices_withRet (c : LenSel) (ps : U32) (t : Store U32) :
    ∀ n, fillLenPrices (withRet r s) c ps n t = fillLenPrices s c ps n t
  | 0 => rfl
  | n + 1 => by rw [fillLenPrices, fillLenPrices, fillLenPrices_withRet c ps t n, lenSymbolPrice_withRet]

theorem lenSetPrices_withRet (c : LenSel) (ps : U32) :
    lenSetPrices c ps (withRet r s) = withRet r (lenSetPrices c ps s) := by
  simp only [lenSetPrices, fillLenPrices_withRet]
  rfl

theorem ite_withRet {c : Prop} [Decidable c] {f : State → State} (hf : f (withRet r s) = withRet r (f s)) :
    (if c then f (withRet r s) else withRet r s) = withRet r (if c then f s else s) := by
  rw [hf, apply_ite (withRet r)]

theorem refreshLengths_withRet : refreshLengths (withRet r s) = withRet r (refreshLengths s) := by
  unfold refreshLengths
  rw [show (withRet r s).params = s.params from rfl]
  split
  · rfl
  · refine List.foldl_hom (withRet r) fun t c => List.foldl_hom (withRet r) fun u ps => ?_
    exact ite_withRet r u (lenSetPrices_withRet r u c _)

/-- FILL_DIST where R277's refresh asks for it. -/
def distRefreshed (s : State) : State :=
  if refreshDue s 0 (decide (s.parser.additionalOffset = 0#32) && decide (128#32 ≤ s.prices.matchPriceCount)) then
    fillDist s
  else s

/-- Whether R277's refresh asks for FILL_ALIGN. -/
def alignDue (s : State) : Bool :=
  refreshDue s 1 (decide (s.parser.additionalOffset = 0#32) && decide (16#32 ≤ s.prices.alignPriceCount))

/-- R277's refresh, each table by what asks for it before the refresh. -/
def pricesRefreshed (s : State) : State :=
  refreshLengths (if alignDue s then fillAlign (distRefreshed s) else distRefreshed s)

/-- FILL_DIST leaves alone what asks for FILL_ALIGN. -/
theorem refreshPrices_eq : refreshPrices s = pricesRefreshed s := by
  simp only [refreshPrices, pricesRefreshed, distRefreshed]
  split <;> rfl

theorem pricesRefreshed_withRet : pricesRefreshed (withRet r s) = withRet r (pricesRefreshed s) := by
  have hdist : distRefreshed (withRet r s) = withRet r (distRefreshed s) :=
    ite_withRet r s (fillDist_withRet r s)
  rw [pricesRefreshed, hdist, show alignDue (withRet r s) = alignDue s from rfl,
    ite_withRet r _ (fillAlign_withRet r _), refreshLengths_withRet, pricesRefreshed]

end

/-! ### The turn (R277) -/

/-- The state after a packet of `len` bytes, the last of which is `prev`: the positions, and the refresh. -/
def blockMoved (len : U32) (prev : Byte) (s : State) : State := pricesRefreshed { s with
  parser := { s.parser with additionalOffset := s.parser.additionalOffset - len }
  codec := { s.codec with prevByte := prev, nowPos := s.codec.nowPos + len.setWidth 64 }
  host := { s.host with inPos := (s.codec.nowPos + len.setWidth 64).setWidth 32 } }

theorem blockMoved_withRet (r : Ret) (len : U32) (prev : Byte) (s : State) :
    blockMoved len prev (withRet r s) = withRet r (blockMoved len prev s) := by
  rw [blockMoved, blockMoved, ← pricesRefreshed_withRet]
  rfl

/-- R277's setting of `prevByte`. -/
def setPrev (prev : State → Byte) : Eng Unit :=
  modify fun s => { s with codec := { s.codec with prevByte := prev s } }

/-- A turn whose token has the packet `m`: it ends where the packet raises an error, or past the refresh. -/
theorem encBlock_turn {len : U32} {m : Eng Unit} {prev : State → Byte} (hm : Keeps NoError m)
    (hs : s.host.seq ≠ .error) (hpacket : encTokenPacket len s.parser.backRes = m >>= fun _ => setPrev prev)
    (hprev : ∀ t, prev (withRet .none t) = prev t) : ∃ t, completeUnit m s = .next t ∧
      completeUnit (encBlockWith len) s = .next (if t.host.seq = .error then t else blockMoved len (prev t) t) := by
  have hblock : encBlockWith len s = (m >>= fun _ => setPrev prev >>= fun _ => encAdvance len >>= fun _ =>
      modify refreshPrices) s := by
    rw [encBlockWith, get_bind_run, encToken, hpacket, bind_assoc, bind_assoc]
  rw [completeUnit_congr hblock]
  cases hrun : m s with
  | ok _ t =>
    have hne : t.host.seq ≠ .error := by
      rw [(hm.of_ok hrun).1]
      exact hs
    refine ⟨_, completeUnit_ok hrun, ?_⟩
    rw [if_neg hne]
    have hrest : (setPrev prev >>= fun _ => encAdvance len >>= fun _ => modify refreshPrices) t =
        .ok () (blockMoved len (prev t) t) := congrArg (EStateM.Result.ok ()) (refreshPrices_eq _)
    refine (completeUnit_congr (bind_ok hrun)).trans ((completeUnit_ok hrest).trans ?_)
    show Host.Outcome.next (withRet .none (blockMoved len (prev t) t)) = _
    rw [← blockMoved_withRet, ← hprev]
    rfl
  | error e t =>
    exact ⟨_, completeUnit_error hrun,
      (completeUnit_error (bind_error hrun)).trans (congrArg Host.Outcome.next (if_pos rfl).symm)⟩

theorem encTokenPacket_lit : encTokenPacket 1#32 0xFFFFFFFF#32 =
    encLit >>= fun _ => setPrev fun s => s.codec.prevByte := (bind_pure encLit).symm

/-- The last byte a packet of `len` bytes covers (R277). -/
def lastByte (len : U32) (s : State) : Byte := mfIndexByte s s.mf (len - 1#32 - s.parser.additionalOffset).toInt

theorem encTokenPacket_rep {len : U32} {back : I32} (h : back.toNat < 4) : encTokenPacket len back =
    encRep back.toNat len >>= fun _ => setPrev (lastByte len) := by
  have hlit : ¬ (len = 1#32 ∧ back = 0xFFFFFFFF#32) := by
    rintro ⟨-, rfl⟩
    exact absurd h (by decide)
  rw [encTokenPacket, if_neg hlit, if_pos ((isRepCode_iff (by omega)).2 h)]
  rfl

theorem encTokenPacket_match {len : U32} {d : U32} (hd : d.toNat < 2 ^ 31 - 4) : encTokenPacket len (d + 4#32) =
    encMatch len d >>= fun _ => setPrev (lastByte len) := by
  have hlit : ¬ (len = 1#32 ∧ d + 4#32 = 0xFFFFFFFF#32) := by
    rintro ⟨-, h⟩
    bv_omega
  have hcode : (d + 4#32).toNat = d.toNat + 4 := by bv_omega
  have hmatch : ¬ isRepCode (d + 4#32) = true := by
    rw [isRepCode_iff (by omega), hcode]
    omega
  have hback : d + 4#32 - 4#32 = d := BitVec.add_sub_cancel _ _
  rw [encTokenPacket, if_neg hlit, if_neg hmatch, hback]
  rfl

/-! ### With room in OUT -/

theorem EncRuns.step {k : Nat} {c : CellRef} {b : Bool} {f : Unit → Eng Unit} (hf : EncRuns k (f ())) :
    EncRuns (k + 1) (encBit c b >>= f) := ((encRuns_bit c b).bind hf).mono (Nat.add_comm 1 k).le

/-- An operation, and a move of registers after it. -/
theorem EncRuns.andMove {k : Nat} {m : Eng Unit} {f : Unit → Eng Unit} (hm : EncRuns k m) (hf : EncRuns 0 (f ())) :
    EncRuns k (m >>= f) := hm.bind hf

/-- A move of registers, and an operation after it. -/
theorem EncRuns.afterMove {k : Nat} {m : Eng Unit} {f : Unit → Eng Unit} (hm : EncRuns 0 m) (hf : EncRuns k (f ())) :
    EncRuns k (m >>= f) := (hm.bind hf).mono (Nat.zero_add k).le

theorem EncRuns.ite {k : Nat} {c : Prop} [Decidable c] {m n : Eng Unit} (hm : EncRuns k m) (hn : EncRuns k n) :
    EncRuns k (if c then m else n) := by
  split
  · exact hm
  · exact hn

/-- What changes the prices only takes no room. -/
theorem encRuns_prices {f : State → State} (hf : ∀ s, OnlyPrices s (f s)) : EncRuns 0 (modify f) :=
  .modify (fun s => by rw [hf s]) (fun s => by rw [hf s]) (fun s => by rw [hf s]) fun s => by
    rw [hf s]
    exact ⟨rfl, rfl⟩

theorem encRuns_modifyCodec (h : Codec → Codec) : EncRuns 0 (modifyCodec h) :=
  .modify (fun _ => rfl) (fun _ => rfl) (fun _ => rfl) fun _ => ⟨rfl, rfl⟩

theorem encRuns_btEncFrom (x : CellRef) (sym : U32) : ∀ n m, EncRuns n (btEncFrom x sym n m)
  | 0, _ => .pure
  | n + 1, _ => .step (encRuns_btEncFrom x sym n _)

theorem encRuns_btRencFrom (x : CellRef) : ∀ n sym m, EncRuns n (btRencFrom x n sym m)
  | 0, _, _ => .pure
  | n + 1, _, _ => .step (encRuns_btRencFrom x n _ _)

theorem encRuns_lenEnc (c : LenSel) (k ps : U32) : EncRuns 10 (lenEnc c k ps) :=
  .ite ((EncRuns.step (encRuns_btEncFrom _ _ 3 _)).mono (by decide))
    (.ite ((EncRuns.step (.step (encRuns_btEncFrom _ _ 3 _))).mono (by decide))
      (.step (.step (encRuns_btEncFrom _ _ 8 _))))

theorem encRuns_lenEncCounted (c : LenSel) (k ps : U32) : EncRuns 10 (lenEncCounted c k ps) :=
  (encRuns_lenEnc c k ps).andMove (encRuns_prices (f := lenCount c ps) (lenCount_prices c ps))

theorem encRuns_footer (d : U32) : EncRuns 30 (encFooter (posSlotOf d) d) := by
  have hslot := slotOf_lt d.isLt
  have hcount : EncRuns 0 countAlign := encRuns_prices fun _ => rfl
  unfold encFooter
  rw [footerBits_eq, toNat_posSlotOf]
  refine .ite ((encRuns_btRencFrom _ _ _ _).mono (by omega)) ?_
  exact ((encRuns_direct _ _).bind ((encRuns_btRencFrom _ 4 _ _).bind hcount)).mono (by omega)

theorem encRuns_distance (d len : U32) : EncRuns 36 (encDistance d len) :=
  EncRuns.bind (k := 6) (l := 30) (encRuns_btEncFrom _ _ 6 _) (.ite (encRuns_footer d) .pure)

theorem encRuns_litDecisions (s : State) (b : Byte) : EncRuns 8 (encLitDecisions s b) := by
  rw [encLitDecisions_eq_encCoded]
  refine (encRuns_coded _).mono (le_of_eq ?_)
  split <;> rfl

theorem encRuns_lit : EncRuns 48 encLit :=
  .read fun s => .read fun u => EncRuns.mono (k := 9)
    (.step ((encRuns_litDecisions u _).andMove (encRuns_modifyCodec _))) (by decide)

theorem encRuns_match (len d : U32) : EncRuns 48 (encMatch len d) :=
  .read fun _ => .step (.step (.afterMove (encRuns_modifyCodec _) (EncRuns.bind (k := 10) (l := 36)
    (encRuns_lenEncCounted _ _ _) (.andMove (encRuns_distance d len)
      (.afterMove (encRuns_modifyCodec _) (encRuns_prices fun _ => rfl))))))

theorem encRuns_repChoice (i : Nat) (short : Bool) (st : U4) (ps : U32) : EncRuns 3 (encRepChoice i short st ps) := by
  rw [encRepChoice_eq_encCoded]
  refine (encRuns_coded _).mono ?_
  match i with
  | 0 | 1 | 2 | _ + 3 => exact Nat.le_of_ble_eq_true rfl

theorem encRuns_repLength (len : U32) (st : U4) (ps : U32) : EncRuns 10 (encRepLength len st ps) :=
  .ite ((encRuns_modifyCodec _).mono (by decide)) ((encRuns_lenEncCounted _ _ _).andMove (encRuns_modifyCodec _))

theorem encRuns_rep (i : Nat) (len : U32) : EncRuns 48 (encRep i len) :=
  .read fun _ => EncRuns.mono (k := 15) (.step (.step (EncRuns.bind (k := 3) (l := 10) (encRuns_repChoice _ _ _ _)
    (.andMove (encRuns_repLength _ _ _) (encRuns_modifyCodec _))))) (by decide)

theorem encRuns_tokenPacket (len : U32) (back : I32) : EncRuns 48 (encTokenPacket len back) :=
  have hlast : EncRuns 0 (encLastByte len) :=
    .modify (fun _ => rfl) (fun _ => rfl) (fun _ => rfl) fun _ => ⟨rfl, rfl⟩
  .ite encRuns_lit (.ite ((encRuns_rep _ _).andMove hlast) ((encRuns_match _ _).andMove hlast))

theorem encRuns_blockWith (len : U32) : EncRuns 48 (encBlockWith len) :=
  have hadvance : EncRuns 0 (encAdvance len) :=
    .modify (fun _ => rfl) (fun _ => rfl) (fun _ => rfl) fun _ => ⟨rfl, rfl⟩
  .read fun _ => .andMove (.andMove (encRuns_tokenPacket len _) hadvance)
    (encRuns_prices (f := refreshPrices) refreshPrices_prices)

/-! ### O46 -/

theorem exec_codecEncBlock {len : U32} {x : PM}
    (h : getOptimum s (s.codec.nowPos.setWidth 32) s.pm = some (len, x)) :
    exec .codecEncBlock s = completeUnit (encBlockWith len) (s.setPm x) := by
  show execCodecEncBlock s = _
  rw [execCodecEncBlock, h]

theorem getOptimum_of_exec {position len : U32} (h : exec (.optGetOptimum position) s = .next t)
    (hret : t.ret = .word len) :
    ∃ x, getOptimum s position s.pm = some (len, x) ∧ { t with ret := s.ret } = s.setPm x := by
  rw [exec_optGetOptimum] at h
  cases hchoice : getOptimum s position s.pm with
  | none =>
    rw [hchoice] at h
    cases h
  | some r =>
    rw [hchoice] at h
    cases h
    cases hret
    exact ⟨_, rfl, rfl⟩

/-- Where the token chosen has the packet `m`, ENC_BLOCK is `m` and then, unless it raised an error, R277's end. -/
theorem encBlock_of_choice {len : U32} {x : PM} {m : Eng Unit} {prev : State → Byte}
    (hchoice : getOptimum s (s.codec.nowPos.setWidth 32) s.pm = some (len, x)) (hphase : s.phase ≠ .error)
    (hm : Keeps NoError m) (hpacket : encTokenPacket len x.p.backRes = m >>= fun _ => setPrev prev)
    (hprev : ∀ t, prev (withRet .none t) = prev t) : ∃ t, completeUnit m (s.setPm x) = .next t ∧
      exec .codecEncBlock s = .next (if t.host.seq = .error then t else blockMoved len (prev t) t) := by
  have hs : (s.setPm x).host.seq ≠ .error := fun h => hphase (congrArg Seq.phase h)
  obtain ⟨t, ht, hturn⟩ := encBlock_turn hm hs hpacket hprev
  exact ⟨t, ht, (exec_codecEncBlock hchoice).trans hturn⟩

theorem lenOperand_eq {len : U32} (h : len.toNat ≤ 273) : (len.setWidth 16).setWidth 32 = len := by
  bv_omega

/-- Settles O46: the token's packet, and then the positions and the refresh; each packet takes at most 48 decisions. -/
theorem encBlockCodesTheChosenPacket : Obligations.EncBlockCodesTheChosenPacket := by
  intro s
  refine ⟨fun w len hphase hw hret => ?_, fun hpending hroom => ?_⟩
  · obtain ⟨x, hchoice, hu⟩ := getOptimum_of_exec hw hret
    have hback : w.parser.backRes = x.p.backRes := congrArg (fun t => t.parser.backRes) hu
    dsimp only
    rw [hu, hback]
    refine ⟨fun hlen hlit => ?_, fun i hrep hwf h273 => ?_, fun d hmatch h2 h273 hd => ?_⟩
    · subst hlen
      exact encBlock_of_choice hchoice hphase encRuns_lit.keeps (by rw [hlit]; exact encTokenPacket_lit) fun _ => rfl
    · obtain ⟨hi, -⟩ := (codecEncRep_wf_iff i _).1 hwf
      have hindex : x.p.backRes.toNat = i.toNat := by rw [hrep, toNat_symbol]
      refine encBlock_of_choice (prev := lastByte len) hchoice hphase (encRuns_rep _ _).keeps ?_ fun _ => rfl
      rw [encTokenPacket_rep (by omega), hindex, lenOperand_eq h273]
    · refine encBlock_of_choice (prev := lastByte len) hchoice hphase (encRuns_match _ _).keeps ?_ fun _ => rfl
      rw [hmatch, encTokenPacket_match hd, lenOperand_eq h273]
  · have hroom' : EncRoom (s.setPm (replay s.pm).2) (48 + 0) := hroom
    have hop := encRuns_blockWith (replay s.pm).1
    obtain ⟨t, hrun, -⟩ := hop.runs _ 0 hroom'
    have hne : NoError (s.setPm (replay s.pm).2) t := hop.keeps.of_ok hrun
    exact ⟨_, (exec_codecEncBlock (getOptimum_of_pending hpending)).trans (completeUnit_ok hrun), hne⟩

end Sys2Proof
end
